-- ==== Sys2Proof/Word.lean ====
section
/-! DEFINITION. The two words of the block: a byte of buffer memory and a 32-bit register. -/

namespace Sys2Proof

/-- One byte of buffer memory (20_memory.md R61). -/
abbrev Byte := BitVec 8

/-- One 32-bit register of the register block (10_state.md R23). -/
abbrev Word := BitVec 32

end Sys2Proof
end

