-- ==== Sys2Proof/Config.lean ====
section
/-! DEFINITION. The constants of 00_scope.md R7, the parameters of R6, and the free values of the model. -/

namespace Sys2Proof

/-- R7: control bytes up to this one are literal runs. -/
def rleLitMax : Nat := 127

/-- R7: the bias of a run's repeat count. -/
def rleRunBias : Nat := 128

/-- R7: the first LZW code width. -/
def lzwWidthMin : Nat := 9

/-- R7: the last LZW code width. A width of operands, so it unfolds as its value. -/
abbrev lzwWidthMax : Nat := 12

/-- R7: the LZW clear code. -/
def lzwClearCode : Nat := 0x100

/-- R7: how many literal codes the LZW dictionary is seeded with. -/
def lzwLiterals : Nat := 256

/-- R7: the number of LZW dictionary slots. -/
def lzwTable : Nat := 4096

/-- R7: the width of a quadtree mask. -/
abbrev qtMaskBits : Nat := 4

/-- R7: the cap of a quadtree leaf's bitcount1. -/
def qtB1Cap : Nat := 8

/-- R7: the bias of an LZ77 copy length. -/
def lz77LenBias : Nat := 3

/-- R7: the width of the length field of an LZ77 backreference. -/
abbrev lz77LenBits : Nat := 4

/-- R7: the width of the distance field of an LZ77 backreference. -/
abbrev lz77DistBits : Nat := 12

/-- R7: the mask of one nibble of a plane byte. -/
def nibbleMask : Byte := 0x0F

/-- R7: LZ77 literals below this value are remapped through the colour table. -/
def lz77CtabLimit : Nat := 64

/-- 44_lz77.md R202: a flag byte has this many bits. -/
def flagBits : Nat := 8

/-- 40_bitstream.md R113: the largest count one bit-reader read accepts. -/
def readMax : Nat := 16

/-- 10_state.md R35: the register block occupies this many byte offsets. -/
def registerBlockSize : Nat := 0x40

/-- 00_scope.md R6: which quadtree mask bit selects which quadrant (30_encoding.md R89). -/
inductive MaskOrder where
  | lsbFirst
  | msbFirst
deriving DecidableEq, Repr

/-- The implementation parameters of 00_scope.md R6 that are open or have a named alternative. -/
structure Config where
  /-- `ADDR_W`: the width in bits of a buffer-memory address. -/
  addrW : Nat
  /-- `REG_BASE`: the bus address of register offset 0. -/
  regBase : Nat
  /-- `QT_MAX_DEPTH`: the largest quadtree nesting depth. -/
  qtMaxDepth : Nat
  /-- `QT_MASK_ORDER`. -/
  maskOrder : MaskOrder
  /-- `LZW_GROW_OFFSET`. -/
  growOffset : Nat
deriving DecidableEq, Repr

namespace Config

/-- The values R6 allows: ADDR_W 1 to 32, QT_MAX_DEPTH at least 17, LZW_GROW_OFFSET 0 or 1. -/
def valid (c : Config) : Bool :=
  decide (1 ≤ c.addrW) && decide (c.addrW ≤ 32) && decide (17 ≤ c.qtMaxDepth) && decide (c.growOffset ≤ 1)

/-- How many bytes the buffer memory has (20_memory.md R61). -/
def memBytes (c : Config) : Nat := 2 ^ c.addrW

/-- The parameters of the machine right after power-on. The spec's decided values where it decides (R6: LSB_FIRST,
grow offset 0), its default 32 for ADDR_W, and for the two OPEN ones the value 64 that 95_test_vectors.md uses for
QT_MAX_DEPTH and 0 for REG_BASE. DESIGN CHOICE (log 5). -/
def standard : Config :=
  { addrW := 32, regBase := 0, qtMaxDepth := 64, maskOrder := .lsbFirst, growOffset := 0 }

/-- Free value: the n-th byte the model draws where the spec says 'any value' (93 U7, U8, U10; log 4). -/
opaque freeByte : Nat → Byte

/-- Free value: what buffer memory holds at an address nothing has written since power-on (93 U11; log 3). -/
opaque powerOnByte : Nat → Byte

end Config

end Sys2Proof
end

