-- ==== Sys2Proof/Syntax.lean ====
section
/-! DEFINITION. The instructions of spec/opcode_table.json, one constructor a row: the eleven commands a CMD word can be,
and the seventeen tokens a job decodes from its stream; and the context a decoder stands in. -/

namespace Sys2Proof

/-- One row of the opcode table. A command carries the CMD bits it ignores (R81), so that encoding it gives the
word back; `ctab` is CTAB_EN (bit 4), `mirror` is MIRROR (bit 5). A token carries the operands its own bits hold; the
operand bytes that a stream may cut short (R123's literals) or whose number depends on a region's size (R183, R185)
are read by its meaning (log 16). -/
inductive Instr where
  /-- RLE job (OP 0x1, 41_rle.md R122). -/
  | rle (ctab mirror : Bool)
  /-- LZW job (OP 0x2, 42_lzw.md R141). -/
  | lzw (ctab mirror : Bool)
  /-- Quadtree job (OP 0x3, 43_quadtree.md R172). -/
  | qt (ctab mirror : Bool)
  /-- LZ77 job without the colour table (OP 0x4, CTAB_EN 0, 44_lz77.md R203). -/
  | lz77 (mirror : Bool)
  /-- LZ77 job with the colour table (OP 0x4, CTAB_EN 1, 44_lz77.md R203, R206). -/
  | lz77Ct (mirror : Bool)
  /-- Nibble-plane merge (OP 0x5, 45_pixel.md R231). -/
  | nmerge (ctab mirror : Bool)
  /-- Transpose (OP 0x6, 45_pixel.md R237). -/
  | xpose (ctab mirror : Bool)
  /-- Sample (OP 0x7, MIRROR 0, 45_pixel.md R242). -/
  | sample (ctab : Bool)
  /-- Mirrored sample (OP 0x7, MIRROR 1, 45_pixel.md R242, R244). -/
  | sampleMir (ctab : Bool)
  /-- Reserved OP 0x0 (60_exceptions.md R273). -/
  | reserved0 (ctab mirror : Bool)
  /-- Reserved OP 0x8 to 0xF, of which `low` is OP[2:0] (60_exceptions.md R273). -/
  | reserved8F (low : BitVec 3) (ctab mirror : Bool)
  /-- RLE literal run of `count` bytes (R84, R123). -/
  | rleLit (count : BitVec 7)
  /-- RLE repeat run: `count` copies of `value` (R84, R124). -/
  | rleRun (count : BitVec 7) (value : Byte)
  /-- LZW clear code (R87, R144). -/
  | lzwClear
  /-- LZW literal code (R87, R145). -/
  | lzwLit (byte : Byte)
  /-- LZW code of an assigned slot (R87, R145). -/
  | lzwDict (code : BitVec lzwWidthMax)
  /-- LZW code equal to NEXT with a previous sequence (R87, R145). -/
  | lzwKwkwk (code : BitVec lzwWidthMax)
  /-- LZW code of an unassigned slot (R87, R145). -/
  | lzwBad (code : BitVec lzwWidthMax)
  /-- Quadtree quadrant mask (R88, R176). -/
  | qtMask (mask : BitVec qtMaskBits)
  /-- A set mask bit: the quadrant is subdivided (R89, R175). -/
  | qtSub
  /-- 1x1 leaf (R88, R179). -/
  | qtLeaf1 (value : Byte)
  /-- Raw leaf (R88, R183). -/
  | qtLeafRaw (firstval : Byte)
  /-- Filled leaf, whose firstval is 0 (R88, R184). -/
  | qtLeafFill (value : Byte)
  /-- Indexed leaf (R88, R185). -/
  | qtLeafIdx (firstval : Byte)
  /-- LZ77 header: the number of full groups and the tail bit count (R90, R201). -/
  | lz77Hdr (groups : BitVec 16) (tailBits : Byte)
  /-- LZ77 flag byte (R91, R204, R215). -/
  | lz77Flag (flags : Byte)
  /-- LZ77 literal, decision bit 0 (R91, R205). -/
  | lz77Lit (byte : Byte)
  /-- LZ77 backreference, decision bit 1: the word's fields `wd[3:0]` and `wd[15:4]` (R91, R207). -/
  | lz77Bref (len : BitVec lz77LenBits) (dist : BitVec lz77DistBits)
deriving DecidableEq, Repr

/-- Where a decoder stands: which of the formats of 30_encoding.md the next bits are in, with the decoder state that
R94 says decides the token (LZW's WIDTH, NEXT and whether PREV holds; the quadrant's mask bit and size; the LZ77
decision bit). -/
inductive Ctx where
  /-- A CMD word (R80). -/
  | command
  /-- An RLE control byte (R84). -/
  | rle
  /-- An LZW code (R86, R87). -/
  | lzw (width next : Nat) (hasPrev : Bool)
  /-- A quadtree mask (R88). -/
  | qtMask
  /-- A quadtree quadrant of `w` by `h` pixels with the given mask bit (R88, R89). -/
  | qtQuadrant (bit : Bool) (w h : Nat)
  /-- The LZ77 header (R90). -/
  | lz77Hdr
  /-- An LZ77 flag byte (R91). -/
  | lz77Flag
  /-- An LZ77 token under the given decision bit (R91). -/
  | lz77Decision (bit : Bool)
deriving DecidableEq, Repr

end Sys2Proof
end

