-- ==== Sys2Proof/WellFormed.lean ====
section
/-! DEFINITION. Which instructions are well formed: the field values that an encoding admits whatever the context, and the
values of a context that a decoder can stand in. -/

namespace Sys2Proof

/-- The checks on an instruction's fields that hold in every context. The LZW classes DICT, KWKWK and BAD are for codes
above the clear code (30_encoding.md R87); a raw or indexed leaf has firstval at least 1, since firstval 0 always fails
the raw test and fills (43_quadtree.md R178, R184, R185). -/
def Instr.wf : Instr → Bool
  | .rle _ _ | .lzw _ _ | .qt _ _ | .lz77 _ | .lz77Ct _ | .nmerge _ _ | .xpose _ _ => true
  | .sample _ | .sampleMir _ | .reserved0 _ _ | .reserved8F _ _ _ => true
  | .rleLit _ | .rleRun _ _ | .lzwClear | .lzwLit _ => true
  | .lzwDict c => decide (lzwClearCode < c.toNat)
  | .lzwKwkwk c => decide (lzwClearCode < c.toNat)
  | .lzwBad c => decide (lzwClearCode < c.toNat)
  | .qtMask _ | .qtSub | .qtLeaf1 _ | .qtLeafFill _ => true
  | .qtLeafRaw f => decide (f ≠ 0)
  | .qtLeafIdx f => decide (f ≠ 0)
  | .lz77Hdr _ _ | .lz77Flag _ | .lz77Lit _ | .lz77Bref _ _ => true

/-- The contexts a decoder can stand in: an LZW width of 9 to 12 and a NEXT above the clear code (10_state.md R44), and a
quadrant with at least one pixel unless it is subdivided (43_quadtree.md R173: an empty leaf has no token). -/
def Ctx.wf : Ctx → Bool
  | .command | .rle | .qtMask | .lz77Hdr | .lz77Flag | .lz77Decision _ => true
  | .lzw width next _ =>
    decide (lzwWidthMin ≤ width) && decide (width ≤ lzwWidthMax) && decide (lzwClearCode < next)
  | .qtQuadrant bit w h => bit || (decide (w ≠ 0) && decide (h ≠ 0))

end Sys2Proof
end

