-- ==== Sys2Proof/Decode.lean ====
section
/-! DEFINITION. The decoder, total on any bits, and after it the encoder, both from the formats of 30_encoding.md. A word is
numbered as spec/opcode_table.json numbers it: bit 0 is the first stream bit, a later byte's bits count on from there
(40_bitstream.md R115 for the bit streams, the byte order of R90 and R91 for the byte streams). -/

namespace Sys2Proof

/-- 00_scope.md R11: the least k with n < 2^k. -/
def bitlen (n : Nat) : Nat := if n = 0 then 0 else Nat.log2 n + 1

/-- 43_quadtree.md R180: the width of a leaf's firstval. -/
def bitcount1 (area : Nat) : Nat := min qtB1Cap (bitlen (area - 1))

/-- 43_quadtree.md R181: the width of a leaf's indices. -/
def bitcount2 (colorCount : Nat) : Nat := bitlen (colorCount - 1)

/-- 43_quadtree.md R182: raw storage is no dearer than indexed storage, ties going to raw. -/
def rawTest (area colorCount : Nat) : Bool :=
  decide (area * 8 ≤ area * bitcount2 colorCount + colorCount * 8)

/-- Why a decoder gives no instruction. -/
inductive Reject where
  /-- A leaf with no pixel has no token (43_quadtree.md R173). -/
  | emptyLeaf
deriving DecidableEq, Repr

/-- 30_encoding.md R80 to R82: OP selects, CTAB_EN splits LZ77, MIRROR splits SAMPLE, bits 31:6 never matter. -/
def decodeCommand (w : Word) : Instr :=
  let ctab := w.getLsbD 4
  let mirror := w.getLsbD 5
  let op := (w.extractLsb' 0 4).toNat
  if op = 0 then .reserved0 ctab mirror
  else if op = 1 then .rle ctab mirror
  else if op = 2 then .lzw ctab mirror
  else if op = 3 then .qt ctab mirror
  else if op = 4 then (if ctab then .lz77Ct mirror else .lz77 mirror)
  else if op = 5 then .nmerge ctab mirror
  else if op = 6 then .xpose ctab mirror
  else if op = 7 then (if mirror then .sampleMir ctab else .sample ctab)
  else .reserved8F (w.extractLsb' 0 3) ctab mirror

/-- A control byte above RLE_LIT_MAX starts a repeat run, any other a literal run (30_encoding.md R84). -/
def isRunControl (c : Byte) : Bool := decide (rleLitMax < c.toNat)

/-- 30_encoding.md R84, R92: a literal run's count is the control byte, a repeat run's the control byte less
RLE_RUN_BIAS. -/
def decodeRle (w : Word) : Instr :=
  let c : Byte := w.extractLsb' 0 8
  if isRunControl c then .rleRun (BitVec.ofNat 7 (c.toNat - rleRunBias)) (w.extractLsb' 8 8)
  else .rleLit (BitVec.ofNat 7 c.toNat)

/-- 30_encoding.md R87: the class of an LZW code, decided in the order of that table. -/
def decodeLzw (width next : Nat) (hasPrev : Bool) (w : Word) : Instr :=
  let c := w.toNat % 2 ^ width
  if c = lzwClearCode then .lzwClear
  else if c < lzwLiterals then .lzwLit (BitVec.ofNat 8 c)
  else if c < next then .lzwDict (BitVec.ofNat lzwWidthMax c)
  else if c = next ∧ hasPrev = true then .lzwKwkwk (BitVec.ofNat lzwWidthMax c)
  else .lzwBad (BitVec.ofNat lzwWidthMax c)

/-- 43_quadtree.md R178: which leaf a leaf of `w` by `h` pixels is. -/
def decodeLeaf (w h : Nat) (word : Word) : Except Reject Instr :=
  if w = 0 ∨ h = 0 then .error .emptyLeaf
  else if w = 1 ∧ h = 1 then .ok (.qtLeaf1 (word.extractLsb' 0 8))
  else
    let b1 := bitcount1 (w * h)
    let firstval := word.toNat % 2 ^ b1
    if rawTest (w * h) (firstval + 1) then .ok (.qtLeafRaw (BitVec.ofNat 8 firstval))
    else if firstval = 0 then .ok (.qtLeafFill ((word >>> b1).extractLsb' 0 8))
    else .ok (.qtLeafIdx (BitVec.ofNat 8 firstval))

/-- The decoder: the instruction that the bits of `w` are in the given context. -/
def decode : Ctx → Word → Except Reject Instr
  | .command, w => .ok (decodeCommand w)
  | .rle, w => .ok (decodeRle w)
  | .lzw width next hasPrev, w => .ok (decodeLzw width next hasPrev w)
  | .qtMask, w => .ok (.qtMask (w.extractLsb' 0 qtMaskBits))
  | .qtQuadrant true _ _, _ => .ok .qtSub
  | .qtQuadrant false qw qh, w => decodeLeaf qw qh w
  | .lz77Hdr, w => .ok (.lz77Hdr (w.extractLsb' 0 16) (w.extractLsb' 16 8))
  | .lz77Flag, w => .ok (.lz77Flag (w.extractLsb' 0 8))
  | .lz77Decision false, w => .ok (.lz77Lit (w.extractLsb' 0 8))
  | .lz77Decision true, w => 
    .ok (.lz77Bref (w.extractLsb' 0 lz77LenBits) (w.extractLsb' lz77LenBits lz77DistBits))

/-- The area of the leaf a context stands at (0 where it stands at none). -/
def Ctx.leafArea : Ctx → Nat
  | .qtQuadrant _ w h => w * h
  | .command | .rle | .lzw _ _ _ | .qtMask | .lz77Hdr | .lz77Flag | .lz77Decision _ => 0

/-- The code width a context stands at (0 where it reads no LZW code). -/
def Ctx.codeWidth : Ctx → Nat
  | .lzw width _ _ => width
  | .command | .rle | .qtMask | .qtQuadrant _ _ _ | .lz77Hdr | .lz77Flag | .lz77Decision _ => 0

/-- The two CMD option bits beside an OP value (30_encoding.md R80). -/
def commandWord (op : BitVec 4) (ctab mirror : Bool) : Word :=
  (BitVec.ofBool mirror ++ BitVec.ofBool ctab ++ op).setWidth 32

/-- The encoder: the bits of an instruction's own operands, from the tables R80 to R91. A set mask bit and a decision bit
stand in the mask and in the flag byte, so QT.SUB has no bits of its own. -/
def encode (ctx : Ctx) : Instr → Word
  | .rle ctab mirror => commandWord 0x1 ctab mirror
  | .lzw ctab mirror => commandWord 0x2 ctab mirror
  | .qt ctab mirror => commandWord 0x3 ctab mirror
  | .lz77 mirror => commandWord 0x4 false mirror
  | .lz77Ct mirror => commandWord 0x4 true mirror
  | .nmerge ctab mirror => commandWord 0x5 ctab mirror
  | .xpose ctab mirror => commandWord 0x6 ctab mirror
  | .sample ctab => commandWord 0x7 ctab false
  | .sampleMir ctab => commandWord 0x7 ctab true
  | .reserved0 ctab mirror => commandWord 0x0 ctab mirror
  | .reserved8F low ctab mirror => commandWord ((1#1 ++ low).setWidth 4) ctab mirror
  | .rleLit count => count.setWidth 32
  | .rleRun count value => (value ++ BitVec.ofNat 8 (rleRunBias + count.toNat)).setWidth 32
  | .lzwClear => BitVec.ofNat 32 lzwClearCode
  | .lzwLit byte => byte.setWidth 32
  | .lzwDict code => code.setWidth 32
  | .lzwKwkwk code => code.setWidth 32
  | .lzwBad code => code.setWidth 32
  | .qtMask mask => mask.setWidth 32
  | .qtSub => 0
  | .qtLeaf1 value => value.setWidth 32
  | .qtLeafRaw firstval => firstval.setWidth 32
  | .qtLeafFill value => value.setWidth 32 <<< bitcount1 ctx.leafArea
  | .qtLeafIdx firstval => firstval.setWidth 32
  | .lz77Hdr groups tailBits => (tailBits ++ groups).setWidth 32
  | .lz77Flag flags => flags.setWidth 32
  | .lz77Lit byte => byte.setWidth 32
  | .lz77Bref len dist => (dist ++ len).setWidth 32

/-- How many stream bits an instruction's own encoding takes (30_encoding.md R84 to R91); the operand bytes of RLE.LIT, the
values of QT.LEAFRAW and the table and indices of QT.LEAFIDX follow them. -/
def tokenBits (ctx : Ctx) : Instr → Nat
  | .rle _ _ | .lzw _ _ | .qt _ _ | .lz77 _ | .lz77Ct _ | .nmerge _ _ | .xpose _ _ => 32
  | .sample _ | .sampleMir _ | .reserved0 _ _ | .reserved8F _ _ _ => 32
  | .rleLit _ => 8
  | .rleRun _ _ => 16
  | .lzwClear | .lzwLit _ | .lzwDict _ | .lzwKwkwk _ | .lzwBad _ => ctx.codeWidth
  | .qtMask _ => qtMaskBits
  | .qtSub => 0
  | .qtLeaf1 _ => 8
  | .qtLeafRaw _ | .qtLeafIdx _ => bitcount1 ctx.leafArea
  | .qtLeafFill _ => bitcount1 ctx.leafArea + 8
  | .lz77Hdr _ _ => 24
  | .lz77Flag _ => 8
  | .lz77Lit _ => 8
  | .lz77Bref _ _ => lz77LenBits + lz77DistBits

/-- Which instructions stand in which context: the conditions of 30_encoding.md R87 and 43_quadtree.md R178 on top of
`Instr.wf`, and that a code or a firstval fits its width. -/
def Instr.fits (ctx : Ctx) (i : Instr) : Bool :=
  match ctx, i with
  | .command, .rle _ _ | .command, .lzw _ _ | .command, .qt _ _ => true
  | .command, .lz77 _ | .command, .lz77Ct _ | .command, .nmerge _ _ => true
  | .command, .xpose _ _ | .command, .sample _ | .command, .sampleMir _ => true
  | .command, .reserved0 _ _ | .command, .reserved8F _ _ _ => true
  | .rle, .rleLit _ | .rle, .rleRun _ _ => true
  | .lzw _ _ _, .lzwClear | .lzw _ _ _, .lzwLit _ => true
  | .lzw width next _, .lzwDict c =>
    decide (lzwClearCode < c.toNat) && decide (c.toNat < next) && decide (c.toNat < 2 ^ width)
  | .lzw width next hasPrev, .lzwKwkwk c =>
    decide (lzwClearCode < c.toNat) && decide (c.toNat = next) && hasPrev && decide (c.toNat < 2 ^ width)
  | .lzw width next hasPrev, .lzwBad c =>
    decide (lzwClearCode < c.toNat) && decide (c.toNat < 2 ^ width) &&
      (decide (next < c.toNat) || (decide (c.toNat = next) && !hasPrev))
  | .qtMask, .qtMask _ => true
  | .qtQuadrant true _ _, .qtSub => true
  | .qtQuadrant false w h, .qtLeaf1 _ => decide (w = 1) && decide (h = 1)
  | .qtQuadrant false w h, .qtLeafRaw f =>
    !(decide (w = 1) && decide (h = 1)) && decide (f.toNat < 2 ^ bitcount1 (w * h)) && rawTest (w * h) (f.toNat + 1)
  | .qtQuadrant false w h, .qtLeafFill _ => !(decide (w = 1) && decide (h = 1)) && !rawTest (w * h) 1
  | .qtQuadrant false w h, .qtLeafIdx f =>
    !(decide (w = 1) && decide (h = 1)) && decide (f.toNat < 2 ^ bitcount1 (w * h)) && decide (f ≠ 0) &&
      !rawTest (w * h) (f.toNat + 1)
  | .lz77Hdr, .lz77Hdr _ _ => true
  | .lz77Flag, .lz77Flag _ => true
  | .lz77Decision false, .lz77Lit _ => true
  | .lz77Decision true, .lz77Bref _ _ => true
  | _, _ => false

/-- The context of a word of the opcode table, by the number of bits the table gives its row: 32 a CMD word, 8 an RLE
control byte, 12 (16 in whole bytes) an LZW code as R87 writes it (zero-extended to 12 bits, in a decoder right after a
clear), 24 an LZ77 header, 4 a quadtree mask, 1 an LZ77 decision bit. The token formats share bit patterns and the table's
words alone do not tell them apart (R94); which format a width stands for is the model's choice (log 11). -/
def tableCtx (nbits w : Nat) : Option Ctx :=
  if nbits = 32 then some .command
  else if nbits = 8 then some .rle
  else if nbits = 12 ∨ nbits = 16 then some (.lzw lzwWidthMax (lzwLiterals + 1) false)
  else if nbits = 24 then some .lz77Hdr
  else if nbits = 4 then some .qtMask
  else if nbits = 1 then some (.lz77Decision (w.testBit 0))
  else none

/-- The word the decoder reads for a table word: an LZ77 decision bit is no part of its token's bytes, so those are zero. -/
def tableOperands (nbits w : Nat) : Word := if nbits = 1 then 0 else BitVec.ofNat 32 w

/-- The instruction the decoder reads from an instruction whose bits, numbered as the opcode table numbers them, are w. -/
def decodeTableWord (nbits w : Nat) : Option Instr :=
  match tableCtx nbits w with
  | none => none
  | some ctx =>
    match decode ctx (tableOperands nbits w) with
    | .ok i => some i
    | .error _ => none

end Sys2Proof
end

