-- ==== Sys2Proof/Machine/State.lean ====
section
/-! DEFINITION. The state of the block as plain data, the reasons a step can stop, and the state right after reset. -/

namespace Sys2Proof.Machine

/-- Buffer memory (20_memory.md R61): the bytes written so far, addresses strictly rising. An address that is not listed
has not been written since power-on; what it then reads as is `Memory.read`'s free value. -/
abbrev Memory := List Host.Cell

/-- An interval `[base, base + len)` of buffer-memory addresses (20_memory.md R69). -/
structure Region where
  base : Nat
  len : Nat
deriving DecidableEq, Repr

/-- The jobs the engine can run (30_encoding.md R82); `ctab` is CTAB_EN. -/
inductive JobKind where
  | rle
  | lzw
  | qt
  | lz77 (ctab : Bool)
  | nmerge
  | xpose
  | sample
deriving DecidableEq, Repr

/-- The error codes of 60_exceptions.md R271 but for ERR_NONE. -/
inductive JobError where
  | badOp
  | range
  | overlap
  | hdr
  | tail
  | overflow
  | qtDepth
  | coord
deriving DecidableEq, Repr

/-- RLE internal state (10_state.md R43). -/
structure RleState where
  /-- The byte cursor. -/
  p : Nat
  /-- The output count. -/
  o : Nat
deriving DecidableEq, Repr

/-- LZW internal state (10_state.md R44). `dict` holds the slots from 257 on, in order: slot 257 + k is its k-th entry,
NEXT is 257 + its length; the literal slots are fixed and slot 0x100 is never assigned (log 13). -/
structure LzwState where
  /-- The bit cursor. -/
  off : Nat
  /-- WIDTH. -/
  width : Nat
  dict : List (List Byte)
  /-- PREV, none being NONE. -/
  prev : Option (List Byte)
  /-- The output count. -/
  o : Nat
deriving DecidableEq, Repr

/-- A rectangle of pixels of a quadtree image. -/
structure Rect where
  x : Nat
  y : Nat
  w : Nat
  h : Nat
deriving DecidableEq, Repr

/-- A region under decoding (10_state.md R45): its rectangle, its mask, and the quadrant that is next (4 when all are
done). -/
structure Frame where
  rect : Rect
  mask : BitVec qtMaskBits
  next : Nat
deriving DecidableEq, Repr

/-- Quadtree internal state (10_state.md R45): the bit cursor, the region whose mask is read next (the top of the recursion
before its mask is known, log 15), and the stack of the regions around it, innermost first. -/
structure QtState where
  off : Nat
  pending : Option Rect
  stack : List Frame
deriving DecidableEq, Repr

/-- The position inside an LZ77 stream (44_lz77.md R203). -/
inductive Lz77Stage where
  /-- The header is next (R201). -/
  | header
  /-- A flag byte is next (R204, R215). -/
  | flag
  /-- A token is next, under bit `idx` of the flag byte; `left` decisions of the group are left, this one among them;
  `tail` says that the group is the tail group. -/
  | decisions (flags : Byte) (idx left : Nat) (tail : Bool)
  /-- The tail group is over. -/
  | done
deriving DecidableEq, Repr

/-- LZ77 internal state (10_state.md R46): cursor, output count, full groups not yet begun, tail bit count, CTAB_EN as the
job started with it (log 14), and the position in the current group. -/
structure Lz77State where
  p : Nat
  o : Nat
  groups : Nat
  tailBits : Nat
  ctab : Bool
  stage : Lz77Stage
deriving DecidableEq, Repr

/-- The per-job internal codec state (10_state.md R42 to R46). -/
inductive Codec where
  | rle (c : RleState)
  | lzw (c : LzwState)
  | qt (c : QtState)
  | lz77 (c : Lz77State)
deriving DecidableEq, Repr

/-- One turn of the two agents (00_scope.md R5; log 1). -/
inductive Turn where
  /-- The host writes `value` at a bus address in an access of `width` bytes. -/
  | writeReg (addr width : Nat) (value : Word)
  /-- The host reads a bus address in an access of `width` bytes. -/
  | readReg (addr width : Nat)
  /-- The host writes the value its latest read gave, at a bus address in an access of `width` bytes (R262's
  `<RESULT of LZ77>`; log 26). -/
  | writeRegLastRead (addr width : Nat)
  /-- The host writes a byte of buffer memory. -/
  | writeMem (addr : Nat) (value : Byte)
  /-- The host reads a byte of buffer memory. -/
  | readMem (addr : Nat)
  /-- Reset is asserted (70_reset_and_hazards.md R300). -/
  | reset
  /-- The host reads STATUS until DONE is 1 (30_encoding.md R95, POLL DONE). -/
  | poll
  /-- The engine takes its step: the whole job step where a job has just been started (10_state.md R40). -/
  | engine
  /-- The engine takes one of the finer steps R40 allows: validation and opening of the job where it has just been
  started, one token otherwise (log 2). -/
  | engineFine
deriving DecidableEq, Repr

/-- The state of the block: the parameters (log 5), the register block of 10_state.md R23, buffer memory, the internal
codec state, and the model's own fields for the world outside: pending turns (log 1), values the host's reads returned
(log 6), and how many free bytes have been drawn (log 4). -/
structure State where
  cfg : Config
  cmd : Word
  status : Word
  srcBase : Word
  srcLen : Word
  dstBase : Word
  dstLen : Word
  auxBase : Word
  auxLen : Word
  dim : Word
  xy : Word
  result : Word
  mem : Memory
  codec : Option Codec
  turns : List Turn
  reads : List Word
  draws : Nat
deriving DecidableEq, Repr

/-- Why the machine stops with a fault. -/
inductive Fault where
  /-- A host read or write of a buffer-memory address at or above 2^ADDR_W, which does not exist (20_memory.md R61).
  Safe: the model stops where the platform would do something of its own. -/
  | noSuchAddress
deriving DecidableEq, Repr

/-- Why the machine gives a step no meaning. -/
inductive Refusal where
  /-- Raised by `exec` for an instruction that has no meaning yet; no arm does. Safe. -/
  | notModelled (mnemonic : String)
  /-- A register access that is not 32 bits wide or not at a multiple of 4 (10_state.md R36, 93 U5: refuse). Safe. -/
  | badRegisterAccess
  /-- A bus address outside the register block, which the platform decides (10_state.md R35). Safe. -/
  | outsideRegisterBlock
  /-- A host write to a byte of a job's read or write region while BUSY (20_memory.md R74, 93 U9: refuse). Safe. -/
  | hostWriteInJobRegion
  /-- A token asked to run where its job does not stand at it; no step does that (log 10). Safe. -/
  | tokenOutsideJob
deriving DecidableEq, Repr

/-- What a step or a meaning answers. -/
abbrev Result := Host.Outcome State Fault Refusal

/-- The machine right after reset (10_state.md R49, 70_reset_and_hazards.md R300, R302): every register 0, IDLE, no
internal codec state. Nothing has been written to buffer memory since power-on. The model's own fields are DESIGN
CHOICES (logs 1, 4, 5, 6). -/
def State.reset : State :=
  { cfg := Config.standard, cmd := 0, status := 0, srcBase := 0, srcLen := 0, dstBase := 0, dstLen := 0, auxBase := 0,
    auxLen := 0, dim := 0, xy := 0, result := 0, mem := [], codec := none, turns := [], reads := [], draws := 0 }

end Sys2Proof.Machine
end

