-- ==== Sys2Proof/Machine/Memory.lean ====
section
/-! DEFINITION. Buffer memory: the one place where its form is known. Every access of the block moves one byte (20_memory.md
R66). -/

namespace Sys2Proof.Machine

/-- The byte written last at address `a` since power-on, if any. -/
def Memory.lookup (a : Nat) : Memory → Option Byte
  | [] => none
  | (b, v) :: m => if a = b then some v else Memory.lookup a m

/-- 20_memory.md R62: the byte at address `a`. Where nothing has been written since power-on it is any value (93 U11), the
same at every read: the free value of that address (log 3). -/
def Memory.read (a : Nat) (m : Memory) : Byte := (Memory.lookup a m).getD (Config.powerOnByte a)

/-- 20_memory.md R63: store byte `v` at address `a`, keeping the addresses strictly rising. -/
def Memory.write (a : Nat) (v : Byte) : Memory → Memory
  | [] => [(a, v)]
  | (b, u) :: m =>
    if a < b then (a, v) :: (b, u) :: m
    else if a = b then (a, v) :: m
    else (b, u) :: Memory.write a v m

/-- Every listed address is above `lo`, and they rise strictly. -/
def Memory.risesFrom (lo : Nat) : Memory → Bool
  | [] => true
  | (a, _) :: m => decide (lo ≤ a) && Memory.risesFrom (a + 1) m

/-- The canonical form: addresses strictly rising. -/
def Memory.wf (m : Memory) : Bool := Memory.risesFrom 0 m

/-- Every listed address is below `n`. -/
def Memory.within (n : Nat) (m : Memory) : Bool := m.all fun c => decide (c.1 < n)

/-- `MemRead(a, 1)` (20_memory.md R62). -/
def memRead (a : Nat) (s : State) : Byte := Memory.read a s.mem

/-- `MemWrite(a, 1, v)` (20_memory.md R63). -/
def memWrite (a : Nat) (v : Byte) (s : State) : State := { s with mem := Memory.write a v s.mem }

/-- The loop of every fill, merge and copy that writes a known number of bytes: for k = 0, 1, ..., n - 1 in this order
(20_memory.md R72), byte `val k`, computed in the state reached so far, goes to `addr k`. -/
def writeEach (addr : Nat → Nat) (val : Nat → State → Byte) : Nat → State → State
  | 0, s => s
  | n + 1, s =>
    let s' := writeEach addr val n s
    memWrite (addr n) (val n s') s'

end Sys2Proof.Machine
end

