-- ==== Sys2Proof/Machine/Flags.lean ====
section
/-! DEFINITION. STATUS: its fields (10_state.md R26) and the three words it is ever given (R27, R28, 60_exceptions.md
R272). -/

namespace Sys2Proof.Machine

/-- The STATUS word with the given fields, its reserved bits 0 (10_state.md R26). -/
def statusWord (busy done padded inexh badcode : Bool) (err : Byte) : Word :=
  (err ++ 0#3 ++ BitVec.ofBool badcode ++ BitVec.ofBool inexh ++ BitVec.ofBool padded ++ BitVec.ofBool done ++
    BitVec.ofBool busy).setWidth 32

/-- STATUS.BUSY (R26), which is the job phase (R39). -/
def State.busy (s : State) : Bool := s.status.getLsbD 0

/-- STATUS.DONE (R26). -/
def State.isDone (s : State) : Bool := s.status.getLsbD 1

/-- STATUS.PADDED (R26). -/
def State.padded (s : State) : Bool := s.status.getLsbD 2

/-- STATUS.INEXH (R26). -/
def State.inexh (s : State) : Bool := s.status.getLsbD 3

/-- STATUS.BADCODE (R26). -/
def State.badcode (s : State) : Bool := s.status.getLsbD 4

/-- STATUS.ERR (R26). -/
def State.err (s : State) : Byte := s.status.extractLsb' 8 8

/-- The error codes of 60_exceptions.md R271. -/
def JobError.code : JobError → Byte
  | .badOp => 1
  | .range => 2
  | .overlap => 3
  | .hdr => 4
  | .tail => 5
  | .overflow => 6
  | .qtDepth => 7
  | .coord => 8

/-- STATUS while a job runs (10_state.md R27). -/
def statusStarted : Word := statusWord true false false false false 0

/-- STATUS after a job that ended without an error (10_state.md R28). -/
def statusDone (padded inexh badcode : Bool) : Word := statusWord false true padded inexh badcode 0

/-- STATUS after a job that ended with error `e` (60_exceptions.md R272). -/
def statusError (e : JobError) : Word := statusWord false true false false false e.code

end Sys2Proof.Machine
end

