-- ==== Sys2Proof/Machine/Operands.lean ====
section
/-! DEFINITION. The operands of a job: the job registers' fields, the regions of 20_memory.md R69 with their checks, the
primitives of 00_scope.md R12, and the bit reader of 40_bitstream.md. -/

namespace Sys2Proof.Machine

/-- DIM.W (10_state.md R32). -/
def State.width (s : State) : Nat := (s.dim.extractLsb' 0 16).toNat

/-- DIM.H (10_state.md R32). -/
def State.height (s : State) : Nat := (s.dim.extractLsb' 16 16).toNat

/-- XY.X (10_state.md R33). -/
def State.coordX (s : State) : Nat := (s.xy.extractLsb' 0 16).toNat

/-- XY.Y (10_state.md R33). -/
def State.coordY (s : State) : Nat := (s.xy.extractLsb' 16 16).toNat

/-- The job a command starts (30_encoding.md R82); none for a reserved OP. -/
def jobKind : Instr → Option JobKind
  | .rle _ _ => some .rle
  | .lzw _ _ => some .lzw
  | .qt _ _ => some .qt
  | .lz77 _ => some (.lz77 false)
  | .lz77Ct _ => some (.lz77 true)
  | .nmerge _ _ => some .nmerge
  | .xpose _ _ => some .xpose
  | .sample _ | .sampleMir _ => some .sample
  | .reserved0 _ _ | .reserved8F _ _ _ => none
  | .rleLit _ | .rleRun _ _ | .lzwClear | .lzwLit _ | .lzwDict _ | .lzwKwkwk _ | .lzwBad _ => none
  | .qtMask _ | .qtSub | .qtLeaf1 _ | .qtLeafRaw _ | .qtLeafFill _ | .qtLeafIdx _ => none
  | .lz77Hdr _ _ | .lz77Flag _ | .lz77Lit _ | .lz77Bref _ _ => none

/-- `[SRC_BASE, SRC_BASE + SRC_LEN)` (10_state.md R29). -/
def srcRegion (s : State) : Region := ⟨s.srcBase.toNat, s.srcLen.toNat⟩

/-- `[DST_BASE, DST_BASE + DST_LEN)` (10_state.md R30). -/
def dstRegion (s : State) : Region := ⟨s.dstBase.toNat, s.dstLen.toNat⟩

/-- `[DST_BASE, DST_BASE + W*H)` (20_memory.md R69). -/
def imageRegion (s : State) : Region := ⟨s.dstBase.toNat, s.width * s.height⟩

/-- The LZ77 colour table `[AUX_BASE, AUX_BASE + 64)` (10_state.md R31). -/
def ctabRegion (s : State) : Region := ⟨s.auxBase.toNat, lz77CtabLimit⟩

/-- The read regions of a job (20_memory.md R69). -/
def readRegions (k : JobKind) (s : State) : List Region :=
  match k with
  | .rle | .lzw | .qt | .xpose => [srcRegion s]
  | .lz77 ctab => if ctab then [srcRegion s, ctabRegion s] else [srcRegion s]
  | .nmerge => [srcRegion s, ⟨s.auxBase.toNat, s.auxLen.toNat⟩]
  | .sample => [⟨s.srcBase.toNat, s.width * s.height⟩]

/-- The write region of a job (20_memory.md R69); SAMPLE has none, written here as an empty one. -/
def writeRegion (k : JobKind) (s : State) : Region :=
  match k with
  | .rle | .lzw | .lz77 _ | .nmerge => dstRegion s
  | .qt | .xpose => imageRegion s
  | .sample => ⟨s.dstBase.toNat, 0⟩

/-- The address lies in the region. -/
def Region.has (r : Region) (a : Nat) : Bool := decide (r.base ≤ a) && decide (a < r.base + r.len)

/-- 20_memory.md R70: an empty region is in range, any other when it does not pass the top of the address space. -/
def Region.inRange (c : Config) (r : Region) : Bool := decide (r.len = 0) || decide (r.base + r.len ≤ c.memBytes)

/-- 20_memory.md R71: the two regions share an address, both non-empty. -/
def Region.overlaps (r q : Region) : Bool :=
  decide (r.len ≠ 0) && decide (q.len ≠ 0) && decide (r.base < q.base + q.len) && decide (q.base < r.base + r.len)

/-- The job in progress, by CMD (60_exceptions.md R275). -/
def currentJob (s : State) : Option JobKind := jobKind (decodeCommand s.cmd)

/-- The write region of the job in progress; empty for a reserved OP, which writes nothing (R273). -/
def currentWrites (s : State) : Region :=
  match currentJob s with
  | some k => writeRegion k s
  | none => ⟨0, 0⟩

/-- The read and write regions of the job in progress. -/
def currentRegions (s : State) : List Region :=
  match currentJob s with
  | some k => writeRegion k s :: readRegions k s
  | none => []

/-- `Src(k)` (00_scope.md R12). -/
def srcByte (k : Nat) (s : State) : Byte := memRead (s.srcBase.toNat + k) s

/-- `SrcZ(k)` (00_scope.md R12): no access is made past the end (20_memory.md R67). -/
def srcZ (k : Nat) (s : State) : Byte := if k < s.srcLen.toNat then srcByte k s else 0

/-- `Aux(k)` (00_scope.md R12). -/
def auxByte (k : Nat) (s : State) : Byte := memRead (s.auxBase.toNat + k) s

/-- `HighZ(k)` (45_pixel.md R231). -/
def auxZ (k : Nat) (s : State) : Byte := if k < s.auxLen.toNat then auxByte k s else 0

/-- The address of output byte `i`. -/
def outAddr (s : State) (i : Nat) : Nat := s.dstBase.toNat + i

/-- `Out(i) <- v` (00_scope.md R12). -/
def out (i : Nat) (v : Byte) (s : State) : State := memWrite (outAddr s i) v s

/-- `Out[j]`: output byte `j` as it stands now (44_lz77.md R203). -/
def outByte (j : Nat) (s : State) : Byte := memRead (outAddr s j) s

/-- Stream bit `k` (40_bitstream.md R111). -/
def streamBit (k : Nat) (s : State) : Bool := (srcZ (k / 8) s).getLsbD (k % 8)

/-- `BitRead(n)` at cursor `off` (40_bitstream.md R112); the caller moves the cursor on by n (R114). -/
def bitRead (off : Nat) : Nat → State → Nat
  | 0, _ => 0
  | n + 1, s => bitRead off n s ||| ((streamBit (off + n) s).toNat <<< n)

/-- The next bits of the stream from bit cursor `off` on, first bit lowest: R117's window, one byte wider so that the
24-bit LZ77 header fits. The decoder looks at it; a look has no effect (20_memory.md R67; log 23). -/
def window (off : Nat) (s : State) : Word :=
  (srcZ (off / 8 + 3) s ++ srcZ (off / 8 + 2) s ++ srcZ (off / 8 + 1) s ++ srcZ (off / 8) s).setWidth 32 >>> (off % 8)

end Sys2Proof.Machine
end

