-- ==== Sys2Proof/Machine/Ops.lean ====
section
/-! DEFINITION. The operations the meanings share: how a job starts and ends, the error completion, the validation order, the
register map, reset. -/

namespace Sys2Proof.Machine

/-- A job's end without an error (10_state.md R28): BUSY 0, DONE 1, ERR 0, the flags and RESULT as the family rule says
(RESULT is 32 bits wide, so its value is taken modulo 2^32, R34); no internal codec state is left (R42). -/
def complete (padded inexh badcode : Bool) (value : Nat) (s : State) : State :=
  { s with status := statusDone padded inexh badcode, result := BitVec.ofNat 32 value, codec := none }

/-- The error completion (60_exceptions.md R272), the block's only 'exception': ERR is the code, flags 0, RESULT 0, BUSY
0, DONE 1; CMD and the job registers keep their values and no byte of memory is written. There is no handler and no
return from it (R277, R278): the next CMD write clears it (`startJob`). -/
def errorCompletion (e : JobError) (s : State) : State :=
  { s with status := statusError e, result := 0, codec := none }

/-- Every byte of the region becomes any value (60_exceptions.md R272, 70_reset_and_hazards.md R301; log 4). -/
def drawRegion (r : Region) (s : State) : State :=
  let s' := writeEach (fun k => r.base + k) (fun k _ => Config.freeByte (s.draws + k)) r.len s
  { s' with draws := s.draws + r.len }

/-- A run-time error (60_exceptions.md R272, codes 6 and 7): the error completion, and every byte of the job's write
region is any value. -/
def runtimeError (e : JobError) (r : Region) (s : State) : State := errorCompletion e (drawRegion r s)

/-- 41_rle.md R126, 42_lzw.md R152: the L - o bytes from output position `o` on become 0. -/
def padZeros (o : Nat) (s : State) : State :=
  writeEach (fun k => outAddr s (o + k)) (fun _ _ => 0) (s.dstLen.toNat - o) s

/-- The checks of 60_exceptions.md R275 for a job whose OP is valid, in its order; the first error found. -/
def validate (k : JobKind) (s : State) : Option JobError :=
  if (writeRegion k s :: readRegions k s).any (fun r => !r.inRange s.cfg) then some .range
  else if (readRegions k s).any (fun r => (writeRegion k s).overlaps r) then some .overlap
  else
    match k with
    | .sample => if s.width ≤ s.coordX ∨ s.height ≤ s.coordY then some .coord else none
    | .lz77 _ =>
      if s.srcLen.toNat < 3 then some .hdr
      else if flagBits < (srcByte 2 s).toNat then some .tail
      else none
    | .rle | .lzw | .qt | .nmerge | .xpose => none

/-- The job step of 60_exceptions.md R275: the first error found completes the job, else `run` runs the family rule. -/
def validated (k : JobKind) (run : State → Result) (s : State) : Result :=
  match validate k s with
  | some e => .next (errorCompletion e s)
  | none => run s

/-- The CMD write that starts a job (10_state.md R24, R25, R27): bits 5:0 are stored, BUSY 1, DONE, flags and ERR 0,
RESULT kept. -/
def startJob (v : Word) (s : State) : State :=
  { s with cmd := v &&& 0x3F#32, status := statusStarted, codec := none }

/-- A register read at a multiple of 4 (10_state.md R23, R35); it has no side effect (R38). -/
def readRegister (off : Nat) (s : State) : Word :=
  if off = 0x00 then s.cmd
  else if off = 0x04 then s.status
  else if off = 0x08 then s.srcBase
  else if off = 0x0C then s.srcLen
  else if off = 0x10 then s.dstBase
  else if off = 0x14 then s.dstLen
  else if off = 0x18 then s.auxBase
  else if off = 0x1C then s.auxLen
  else if off = 0x20 then s.dim
  else if off = 0x24 then s.xy
  else if off = 0x28 then s.result
  else 0

/-- A register write at a multiple of 4 (10_state.md R23): while BUSY every write is ignored (R25, R37); writes to the
read-only and the reserved offsets always are (R23, R35). -/
def writeRegister (off : Nat) (v : Word) (s : State) : State :=
  if s.busy then s
  else if off = 0x00 then startJob v s
  else if off = 0x08 then { s with srcBase := v }
  else if off = 0x0C then { s with srcLen := v }
  else if off = 0x10 then { s with dstBase := v }
  else if off = 0x14 then { s with dstLen := v }
  else if off = 0x18 then { s with auxBase := v }
  else if off = 0x1C then { s with auxLen := v }
  else if off = 0x20 then { s with dim := v }
  else if off = 0x24 then { s with xy := v }
  else s

/-- The part of a region that exists in buffer memory: a job not yet validated may name one that passes the top. -/
def Region.clip (c : Config) (r : Region) : Region := ⟨r.base, min r.len (c.memBytes - r.base)⟩

/-- Reset (70_reset_and_hazards.md R300): every register and the job phase take the values of 10_state.md R49. A job in
progress is abandoned and the bytes of its write region are any value (R301); no other byte changes. -/
def resetBlock (s : State) : State :=
  let s' := if s.busy then drawRegion ((currentWrites s).clip s.cfg) s else s
  { s' with cmd := 0, status := 0, srcBase := 0, srcLen := 0, dstBase := 0, dstLen := 0, auxBase := 0, auxLen := 0,
            dim := 0, xy := 0, result := 0, codec := none }

end Sys2Proof.Machine
end

