-- ==== Sys2Proof/Machine/Lz77.lean ====
section
/-! DEFINITION. The tokens of an LZ77 job (44_lz77.md). -/

namespace Sys2Proof.Machine

/-- `Emit(v)` (44_lz77.md R203, R210): none where the output is full. -/
def lz77Emit (v : Byte) (o : Nat) (s : State) : Option (Nat × State) :=
  if s.dstLen.toNat ≤ o then none else some (o + 1, out o v s)

/-- The copy of a backreference (44_lz77.md R208, R209): `n` bytes, one at a time, the k-th from output position
`start + k`; a position before the start of the output gives 0 and reads no memory. -/
def lz77Copy (start : Int) : Nat → Nat → Nat → State → Option (Nat × State)
  | 0, _, o, s => some (o, s)
  | n + 1, k, o, s =>
    let pos := start + k
    match lz77Emit (if 0 ≤ pos then outByte pos.toNat s else 0) o s with
    | some (o', s') => lz77Copy start n (k + 1) o' s'
    | none => none

/-- Where a group stands with `left` decisions to go, the next under bit `idx`. -/
def groupStage (flags : Byte) (idx left : Nat) (tail : Bool) : Lz77Stage :=
  if left = 0 then (if tail then .done else .flag) else .decisions flags idx left tail

/-- Where the stream stands after a decision (44_lz77.md R204, R215: most significant bit first). -/
def Lz77Stage.afterDecision : Lz77Stage → Lz77Stage
  | .decisions flags idx left tail => groupStage flags (idx - 1) (left - 1) tail
  | .header => .header
  | .flag => .flag
  | .done => .done

/-- What a decision's emits come to: ERR_OVERFLOW where the output was full (44_lz77.md R210), else the next state. -/
def lz77Decided (bytes : Nat) (c : Lz77State) (e : Option (Nat × State)) (s : State) : Result :=
  match e with
  | some (o, s') =>
    .next { s' with codec := some (.lz77 { c with p := c.p + bytes, o := o, stage := c.stage.afterDecision }) }
  | none => .next (runtimeError .overflow (dstRegion s) s)

/-- A literal's output byte (44_lz77.md R206): below 64 and with CTAB_EN it is the colour table's. -/
def lz77Literal (ctab : Bool) (byte : Byte) (s : State) : Byte :=
  if ctab = true ∧ byte.toNat < lz77CtabLimit then auxByte byte.toNat s else byte

/-- LZ77.HDR (44_lz77.md R201, R202): the group count and the tail count; more than 8 tail bits is ERR_TAIL. -/
def execLz77Hdr (groups : BitVec 16) (tailBits : Byte) (s : State) : Result :=
  match s.codec with
  | some (.lz77 c) =>
    if flagBits < tailBits.toNat then .next (errorCompletion .tail s)
    else
      .next { s with codec := some (.lz77 { c with p := c.p + 3, groups := groups.toNat, tailBits := tailBits.toNat,
                                                   stage := .flag }) }
  | some (.rle _) | some (.lzw _) | some (.qt _) | none => .refused .tokenOutsideJob

/-- LZ77.FLAG (44_lz77.md R204, R215): a full group of 8 decisions while one is left, else the tail group. -/
def execLz77Flag (flags : Byte) (s : State) : Result :=
  match s.codec with
  | some (.lz77 c) =>
    if c.groups = 0 then
      .next { s with codec := some (.lz77 { c with p := c.p + 1, stage := groupStage flags 7 c.tailBits true }) }
    else
      .next { s with codec := some (.lz77 { c with p := c.p + 1, groups := c.groups - 1,
                                                   stage := groupStage flags 7 flagBits false }) }
  | some (.rle _) | some (.lzw _) | some (.qt _) | none => .refused .tokenOutsideJob

/-- LZ77.LIT (44_lz77.md R205, R206). -/
def execLz77Lit (byte : Byte) (s : State) : Result :=
  match s.codec with
  | some (.lz77 c) => lz77Decided 1 c (lz77Emit (lz77Literal c.ctab byte s) c.o s) s
  | some (.rle _) | some (.lzw _) | some (.qt _) | none => .refused .tokenOutsideJob

/-- LZ77.BREF (44_lz77.md R207 to R209): length `wd[3:0] + 3`, source position `o - wd[15:4] - 1`, an integer. -/
def execLz77Bref (len : BitVec lz77LenBits) (dist : BitVec lz77DistBits) (s : State) : Result :=
  match s.codec with
  | some (.lz77 c) =>
    lz77Decided 2 c (lz77Copy ((c.o : Int) - dist.toNat - 1) (len.toNat + lz77LenBias) 0 c.o s) s
  | some (.rle _) | some (.lzw _) | some (.qt _) | none => .refused .tokenOutsideJob

/-- The end of an LZ77 job (44_lz77.md R203, R211, R212). -/
def finishLz77 (inexh : Bool) (c : Lz77State) (s : State) : State := complete false inexh false c.o s

end Sys2Proof.Machine
end

