-- ==== Sys2Proof/Machine/Lzw.lean ====
section
/-! DEFINITION. The tokens of an LZW job (42_lzw.md). -/

namespace Sys2Proof.Machine

/-- NEXT (10_state.md R44): the next slot to be assigned. -/
def LzwState.next (c : LzwState) : Nat := lzwLiterals + 1 + c.dict.length

/-- The LZW state at job start (10_state.md R44, 42_lzw.md R141). -/
def LzwState.start : LzwState := { off := 0, width := lzwWidthMin, dict := [], prev := none, o := 0 }

/-- `Reset()` of 42_lzw.md R141: the 256 literals, WIDTH 9, no previous sequence; `off` and `o` are kept (R144). -/
def LzwState.clear (c : LzwState) : LzwState := { c with width := lzwWidthMin, dict := [], prev := none }

/-- The sequence of an assigned slot above the clear code. -/
def LzwState.slot (c : LzwState) (code : Nat) : Option (List Byte) := c.dict[code - (lzwLiterals + 1)]?

/-- `seq` followed by its own first byte (42_lzw.md R145). -/
def selfExtended (seq : List Byte) : List Byte := seq ++ seq.take 1

/-- 42_lzw.md R146: the bytes of the sequence go to the next output positions; one at L or beyond is not written. -/
def lzwEmit : List Byte → Nat → State → Nat × State
  | [], o, s => (o, s)
  | b :: bs, o, s => if o < s.dstLen.toNat then lzwEmit bs (o + 1) (out o b s) else lzwEmit bs o s

/-- 42_lzw.md R148: the width grows right after an insertion. -/
def lzwGrow (growOffset : Nat) (c : LzwState) : LzwState :=
  if c.next - growOffset = 2 ^ c.width ∧ c.width < lzwWidthMax then { c with width := c.width + 1 } else c

/-- 42_lzw.md R147: with a previous sequence and a table that is not full, it and the first byte of `seq` become the
entry of slot NEXT. -/
def lzwInsert (growOffset : Nat) (seq : List Byte) (c : LzwState) : LzwState :=
  match c.prev with
  | none => c
  | some prev =>
    if c.next < lzwTable then lzwGrow growOffset { c with dict := c.dict ++ [prev ++ seq.take 1] } else c

/-- The rest of R141's loop for a code that resolves to `seq`: emit, insert, grow, PREV (R146 to R150). The cursor moves
by the width the code was read with (R142). -/
def lzwResolved (seq : List Byte) (c : LzwState) (s : State) : Result :=
  let e := lzwEmit seq c.o s
  let c' := lzwInsert s.cfg.growOffset seq { c with off := c.off + c.width, o := e.1 }
  .next { e.2 with codec := some (.lzw { c' with prev := some seq }) }

/-- LZW.CLEAR (42_lzw.md R144): nothing is output, nothing inserted. -/
def execLzwClear (s : State) : Result :=
  match s.codec with
  | some (.lzw c) => .next { s with codec := some (.lzw { c with off := c.off + c.width }.clear) }
  | some (.rle _) | some (.qt _) | some (.lz77 _) | none => .refused .tokenOutsideJob

/-- LZW.LIT (42_lzw.md R145): the sequence is the literal byte. -/
def execLzwLit (byte : Byte) (s : State) : Result :=
  match s.codec with
  | some (.lzw c) => lzwResolved [byte] c s
  | some (.rle _) | some (.qt _) | some (.lz77 _) | none => .refused .tokenOutsideJob

/-- LZW.DICT (42_lzw.md R145): the sequence is the slot's. -/
def execLzwDict (code : BitVec lzwWidthMax) (s : State) : Result :=
  match s.codec with
  | some (.lzw c) =>
    match c.slot code.toNat with
    | some seq => lzwResolved seq c s
    | none => .refused .tokenOutsideJob
  | some (.rle _) | some (.qt _) | some (.lz77 _) | none => .refused .tokenOutsideJob

/-- LZW.KWKWK (42_lzw.md R145): the code is NEXT, the sequence is the previous one and its first byte. -/
def execLzwKwkwk (code : BitVec lzwWidthMax) (s : State) : Result :=
  match s.codec with
  | some (.lzw c) =>
    match c.prev with
    | some prev => if code.toNat = c.next then lzwResolved (selfExtended prev) c s else .refused .tokenOutsideJob
    | none => .refused .tokenOutsideJob
  | some (.rle _) | some (.qt _) | some (.lz77 _) | none => .refused .tokenOutsideJob

/-- The end of an LZW job (R141, on stop; R152, R153). -/
def finishLzw (inexh badcode : Bool) (c : LzwState) (s : State) : State :=
  complete (decide (c.o < s.dstLen.toNat)) inexh badcode c.o (padZeros c.o s)

/-- LZW.BAD (42_lzw.md R145): decoding stops with BADCODE and the output is padded. The code itself is not used. -/
def execLzwBad (_code : BitVec lzwWidthMax) (s : State) : Result :=
  match s.codec with
  | some (.lzw c) => .next (finishLzw false true c s)
  | some (.rle _) | some (.qt _) | some (.lz77 _) | none => .refused .tokenOutsideJob

end Sys2Proof.Machine
end

