-- ==== Sys2Proof/Machine/Quadtree.lean ====
section
/-! DEFINITION. The tokens of a quadtree job (43_quadtree.md). The recursion of R172 is the stack of 10_state.md R45. -/

namespace Sys2Proof.Machine

/-- A region or leaf of zero size (43_quadtree.md R173). -/
def Rect.isEmpty (r : Rect) : Bool := decide (r.w = 0) || decide (r.h = 0)

/-- Quadrant `i` of a region (43_quadtree.md R172, R175): 0 top-left, 1 top-right, 2 bottom-left, 3 bottom-right, the right
and bottom ones absorbing an odd remainder. -/
def Rect.quadrant (r : Rect) (i : Nat) : Rect :=
  let hw := r.w / 2
  let hh := r.h / 2
  if i = 0 then ⟨r.x, r.y, hw, hh⟩
  else if i = 1 then ⟨r.x + hw, r.y, r.w - hw, hh⟩
  else if i = 2 then ⟨r.x, r.y + hh, hw, r.h - hh⟩
  else ⟨r.x + hw, r.y + hh, r.w - hw, r.h - hh⟩

/-- `MaskBit(mask, i)` (43_quadtree.md R172). -/
def maskBit (order : MaskOrder) (mask : BitVec qtMaskBits) (i : Nat) : Bool :=
  match order with
  | .lsbFirst => mask.getLsbD i
  | .msbFirst => mask.getLsbD (qtMaskBits - 1 - i)

/-- The head of `DecodeRegion` (43_quadtree.md R172 to R174) inside the regions of the stack: an empty region is a no-op;
one deeper than QT_MAX_DEPTH gives none; for any other, its mask is next. -/
def qtEnter (maxDepth : Nat) (r : Rect) (c : QtState) : Option QtState :=
  if r.isEmpty then some c
  else if maxDepth < c.stack.length + 1 then none
  else some { c with pending := some r }

/-- The job's next state after an entry: ERR_QT_DEPTH where it gives none (43_quadtree.md R174). -/
def qtEntered (c : Option QtState) (s : State) : State :=
  match c with
  | some c => { s with codec := some (.qt c) }
  | none => runtimeError .qtDepth (imageRegion s) s

/-- `Put(x, y, v)` (43_quadtree.md R171): the image is row-major (R187). -/
def qtPut (x y : Nat) (v : Byte) (s : State) : State := out (y * s.width + x) v s

/-- `for dx in 0 .. w-1: for dy in 0 .. h-1: Put(x+dx, y+dy, val)`: pixel k of the column-major order is
dx = k div h, dy = k mod h (43_quadtree.md R183, R185). -/
def qtPutLeaf (q : Rect) (val : Nat → State → Byte) (s : State) : State :=
  writeEach (fun k => outAddr s ((q.y + k % q.h) * s.width + (q.x + k / q.h))) val (q.w * q.h) s

/-- The quadrant a job stands at: the state, the innermost region, the regions around it, the quadrant's rectangle. -/
structure QtTurn where
  c : QtState
  frame : Frame
  outer : List Frame
  quad : Rect
deriving DecidableEq, Repr

/-- The quadrant the job stands at, if it stands at one (43_quadtree.md R177: in the fixed order, each completely). -/
def qtTurn (s : State) : Option QtTurn :=
  match s.codec with
  | some (.qt c) =>
    match c.pending, c.stack with
    | none, f :: fs => if f.next < 4 then some ⟨c, f, fs, f.rect.quadrant f.next⟩ else none
    | none, [] => none
    | some _, _ => none
  | some (.rle _) | some (.lzw _) | some (.lz77 _) | none => none

/-- The state after the quadrant: the cursor at `off`, the next quadrant next. -/
def QtTurn.advance (t : QtTurn) (off : Nat) : QtState :=
  { t.c with off := off, stack := { t.frame with next := t.frame.next + 1 } :: t.outer }

/-- The leaf at the job's quadrant, written by `put`, ends with the cursor `bits` further on. -/
def qtLeaf (bits : QtTurn → Nat) (val : QtTurn → Nat → State → Byte) (s : State) : Result :=
  match qtTurn s with
  | some t =>
    .next { qtPutLeaf t.quad (val t) s with codec := some (.qt (t.advance (t.c.off + bits t))) }
  | none => .refused .tokenOutsideJob

/-- Entry `j` of a leaf's local table, which starts at bit `off` (43_quadtree.md R185). -/
def qtTable (off count : Nat) (s : State) : List Byte :=
  (List.range count).map fun j => BitVec.ofNat 8 (bitRead (off + 8 * j) 8 s)

/-- QT.MASK (43_quadtree.md R176): the region whose mask this is becomes the innermost one, its quadrant 0 next. -/
def execQtMask (mask : BitVec qtMaskBits) (s : State) : Result :=
  match s.codec with
  | some (.qt c) =>
    match c.pending with
    | some r =>
      .next { s with codec := some (.qt ⟨c.off + qtMaskBits, none, ⟨r, mask, 0⟩ :: c.stack⟩) }
    | none => .refused .tokenOutsideJob
  | some (.rle _) | some (.lzw _) | some (.lz77 _) | none => .refused .tokenOutsideJob

/-- QT.SUB (43_quadtree.md R175): the quadrant is decoded as a region, one level deeper. -/
def execQtSub (s : State) : Result :=
  match qtTurn s with
  | some t => .next (qtEntered (qtEnter s.cfg.qtMaxDepth t.quad (t.advance t.c.off)) s)
  | none => .refused .tokenOutsideJob

/-- QT.LEAF1 (43_quadtree.md R179): the pixel of the 1x1 leaf is the 8-bit value. -/
def execQtLeaf1 (value : Byte) (s : State) : Result :=
  qtLeaf (fun _ => 8) (fun _ _ _ => value) s

/-- The area of the quadrant. -/
def QtTurn.area (t : QtTurn) : Nat := t.quad.w * t.quad.h

/-- The cursor behind the leaf's firstval (43_quadtree.md R180). -/
def QtTurn.body (t : QtTurn) : Nat := t.c.off + bitcount1 t.area

/-- QT.LEAFRAW (43_quadtree.md R183): `area` values of 8 bits behind firstval, which is not used. -/
def execQtLeafRaw (_firstval : Byte) (s : State) : Result :=
  qtLeaf (fun t => bitcount1 t.area + 8 * t.area)
    (fun t k s' => BitVec.ofNat 8 (bitRead (t.body + 8 * k) 8 s')) s

/-- QT.LEAFFILL (43_quadtree.md R184): every pixel of the leaf gets the one value. -/
def execQtLeafFill (value : Byte) (s : State) : Result :=
  qtLeaf (fun t => bitcount1 t.area + 8) (fun _ _ _ => value) s

/-- QT.LEAFIDX (43_quadtree.md R185, R186): a table of firstval + 1 bytes, then an index of bitcount2 bits for every pixel;
an index past the table gives 0. -/
def execQtLeafIdx (firstval : Byte) (s : State) : Result :=
  let colorCount := firstval.toNat + 1
  qtLeaf (fun t => bitcount1 t.area + 8 * colorCount + bitcount2 colorCount * t.area)
    (fun t k s' =>
      (qtTable t.body colorCount s).getD
        (bitRead (t.body + 8 * colorCount + bitcount2 colorCount * k) (bitcount2 colorCount) s') 0) s

/-- The end of a quadtree job (43_quadtree.md R172, R188, R189). -/
def finishQt (c : QtState) (s : State) : State :=
  complete false (decide (8 * s.srcLen.toNat < c.off)) false c.off s

/-- What a quadtree job does between tokens: it leaves a region whose quadrants are done, and passes an empty leaf, which
has no bits (43_quadtree.md R173, R177). -/
def qtSkip (c : QtState) : QtState :=
  match c.stack with
  | [] => c
  | f :: fs => if f.next < 4 then { c with stack := { f with next := f.next + 1 } :: fs } else { c with stack := fs }

end Sys2Proof.Machine
end

