-- ==== Sys2Proof/Machine/Rle.lean ====
section
/-! DEFINITION. The tokens of an RLE job (41_rle.md). The two stop conditions of R125 are tested before every output byte and
every source read; a token that meets one ends there, and the job's next look finds the same condition and stops
(R122). -/

namespace Sys2Proof.Machine

/-- The literal branch of R122: at most `n` bytes are copied, ending early where o = L or the source is exhausted. -/
def rleCopy : Nat → RleState → State → RleState × State
  | 0, c, s => (c, s)
  | n + 1, c, s =>
    if c.o = s.dstLen.toNat ∨ s.srcLen.toNat ≤ c.p then (c, s)
    else rleCopy n ⟨c.p + 1, c.o + 1⟩ (out c.o (srcByte c.p s) s)

/-- The run branch of R122: at most `n` copies of `v`, ending early where o = L. -/
def rleRepeat (v : Byte) : Nat → RleState → State → RleState × State
  | 0, c, s => (c, s)
  | n + 1, c, s =>
    if c.o = s.dstLen.toNat then (c, s) else rleRepeat v n { c with o := c.o + 1 } (out c.o v s)

/-- RLE.LIT (41_rle.md R123): the control byte, then `count` literal bytes to the output. -/
def execRleLit (count : BitVec 7) (s : State) : Result :=
  match s.codec with
  | some (.rle c) =>
    let r := rleCopy count.toNat { c with p := c.p + 1 } s
    .next { r.2 with codec := some (.rle r.1) }
  | some (.lzw _) | some (.qt _) | some (.lz77 _) | none => .refused .tokenOutsideJob

/-- RLE.RUN (41_rle.md R124): the control byte and the value byte, then `count` copies of the value to the output. -/
def execRleRun (count : BitVec 7) (value : Byte) (s : State) : Result :=
  match s.codec with
  | some (.rle c) =>
    let r := rleRepeat value count.toNat { c with p := c.p + 2 } s
    .next { r.2 with codec := some (.rle r.1) }
  | some (.lzw _) | some (.qt _) | some (.lz77 _) | none => .refused .tokenOutsideJob

/-- The end of an RLE job (R122, on stop; R126, R127). -/
def finishRle (inexh : Bool) (c : RleState) (s : State) : State :=
  complete (decide (c.o < s.dstLen.toNat)) inexh false c.o (padZeros c.o s)

end Sys2Proof.Machine
end

