-- ==== Sys2Proof/Machine/Engine.lean ====
section
/-! DEFINITION. The engine inside a job: what it finds at its cursor, one token step, and the run of token steps that the job
step of 10_state.md R40 is. -/

namespace Sys2Proof.Machine

/-- What the engine finds where a job stands. -/
inductive Fetch where
  /-- A token to run. -/
  | token (i : Instr)
  /-- A region to leave or an empty leaf to pass (43_quadtree.md R173, R177). -/
  | skip
  /-- The job stops; `inexh` says that its input was exhausted. -/
  | finish (inexh : Bool)
  /-- A validation error found again inside the family rule (60_exceptions.md R275). -/
  | fail (e : JobError)
deriving DecidableEq, Repr

/-- The token the decoder finds; an empty leaf has none and is passed. -/
def decoded (ctx : Ctx) (w : Word) : Fetch :=
  match decode ctx w with
  | .ok i => .token i
  | .error .emptyLeaf => .skip

/-- The head of R122's loop: o = L stops (R125 a), a control byte or a run's value byte past the end stops with INEXH
(R125 b). -/
def fetchRle (c : RleState) (s : State) : Fetch :=
  if c.o = s.dstLen.toNat then .finish false
  else if s.srcLen.toNat ≤ c.p then .finish true
  else if isRunControl (srcByte c.p s) ∧ s.srcLen.toNat ≤ c.p + 1 then .finish true
  else decoded .rle (window (8 * c.p) s)

/-- Where an LZW decoder stands (30_encoding.md R87). -/
def LzwState.ctx (c : LzwState) : Ctx := .lzw c.width c.next c.prev.isSome

/-- The head of 42_lzw.md R141's loop: o = L stops (R151), fewer than WIDTH bits stop with INEXH (R143). -/
def fetchLzw (c : LzwState) (s : State) : Fetch :=
  if c.o = s.dstLen.toNat then .finish false
  else if 8 * s.srcLen.toNat < c.off + c.width then .finish true
  else decoded c.ctx (window c.off s)

/-- Where a quadtree job stands (43_quadtree.md R172, R177): a region's mask, a quadrant, or its end. -/
def fetchQt (c : QtState) (s : State) : Fetch :=
  match c.pending, c.stack with
  | some _, _ => decoded .qtMask (window c.off s)
  | none, [] => .finish false
  | none, f :: _ =>
    if f.next < 4 then
      let q := f.rect.quadrant f.next
      decoded (.qtQuadrant (maskBit s.cfg.maskOrder f.mask f.next) q.w q.h) (window c.off s)
    else .skip

/-- `Next()` of 44_lz77.md R203 for a token of `bytes` bytes: one that is cut stops the job with INEXH (R211). -/
def lz77Next (ctx : Ctx) (bytes : Nat) (c : Lz77State) (s : State) : Fetch :=
  if s.srcLen.toNat < c.p + bytes then .finish true else decoded ctx (window (8 * c.p) s)

/-- Where an LZ77 job stands (44_lz77.md R203). -/
def fetchLz77 (c : Lz77State) (s : State) : Fetch :=
  match c.stage with
  | .header => if s.srcLen.toNat < 3 then .fail .hdr else decoded .lz77Hdr (window (8 * c.p) s)
  | .flag => lz77Next .lz77Flag 1 c s
  | .decisions flags idx _ _ =>
    if flags.getLsbD idx then lz77Next (.lz77Decision true) 2 c s else lz77Next (.lz77Decision false) 1 c s
  | .done => .finish false

/-- What the engine finds where the job stands. -/
def fetch (c : Codec) (s : State) : Fetch :=
  match c with
  | .rle c => fetchRle c s
  | .lzw c => fetchLzw c s
  | .qt c => fetchQt c s
  | .lz77 c => fetchLz77 c s

/-- The end of a job that stops without an error (10_state.md R28). -/
def finish (inexh : Bool) (c : Codec) (s : State) : State :=
  match c with
  | .rle c => finishRle inexh c s
  | .lzw c => finishLzw inexh false c s
  | .qt c => finishQt c s
  | .lz77 c => finishLz77 inexh c s

/-- The step between tokens; only a quadtree job has one. -/
def skip (c : Codec) (s : State) : State :=
  match c with
  | .qt c => { s with codec := some (.qt (qtSkip c)) }
  | .rle _ | .lzw _ | .lz77 _ => s

/-- One finer step of the job step (10_state.md R40): run the token found, with `run` for its meaning, or end the job. -/
def tokenStep (run : Instr → State → Result) (c : Codec) (s : State) : Result :=
  match fetch c s with
  | .token i => run i s
  | .skip => .next (skip c s)
  | .finish inexh => .next (finish inexh c s)
  | .fail e => .next (errorCompletion e s)

/-- The meanings of the tokens. A command is no token. -/
def execToken (i : Instr) (s : State) : Result :=
  match i with
  | .rleLit count => execRleLit count s
  | .rleRun count value => execRleRun count value s
  | .lzwClear => execLzwClear s
  | .lzwLit byte => execLzwLit byte s
  | .lzwDict code => execLzwDict code s
  | .lzwKwkwk code => execLzwKwkwk code s
  | .lzwBad code => execLzwBad code s
  | .qtMask mask => execQtMask mask s
  | .qtSub => execQtSub s
  | .qtLeaf1 value => execQtLeaf1 value s
  | .qtLeafRaw firstval => execQtLeafRaw firstval s
  | .qtLeafFill value => execQtLeafFill value s
  | .qtLeafIdx firstval => execQtLeafIdx firstval s
  | .lz77Hdr groups tailBits => execLz77Hdr groups tailBits s
  | .lz77Flag flags => execLz77Flag flags s
  | .lz77Lit byte => execLz77Lit byte s
  | .lz77Bref len dist => execLz77Bref len dist s
  | .rle _ _ | .lzw _ _ | .qt _ _ | .lz77 _ | .lz77Ct _ | .nmerge _ _ | .xpose _ _ => .refused .tokenOutsideJob
  | .sample _ | .sampleMir _ | .reserved0 _ _ | .reserved8F _ _ _ => .refused .tokenOutsideJob

/-- The rest of the job step: token steps until the job has ended, at most `fuel` of them (log 17). -/
def runTokens : Nat → State → Result
  | 0, s => .next s
  | fuel + 1, s =>
    match s.codec with
    | none => .next s
    | some c =>
      match tokenStep execToken c s with
      | .next s' => runTokens fuel s'
      | .fault r => .fault r
      | .refused r => .refused r

end Sys2Proof.Machine
end

