-- ==== Sys2Proof/Machine/Pixel.lean ====
section
/-! DEFINITION. The pixel-reconstruction jobs (45_pixel.md): NMERGE, XPOSE, SAMPLE. They decode no stream, so each is one
step. -/

namespace Sys2Proof.Machine

/-- The nibble of a plane byte that pixel `i` takes (45_pixel.md R231): bits 3:0 for an even pixel, bits 7:4 for an odd
one. -/
def planeNibble (i : Nat) (b : Byte) : Byte := (if i % 2 = 0 then b else b >>> 4) &&& nibbleMask

/-- Pixel `i` of a merge (45_pixel.md R231, R232): the low plane's nibble low, the high plane's nibble high. -/
def mergedPixel (i : Nat) (s : State) : Byte :=
  planeNibble i (srcZ (i / 2) s) ||| (planeNibble i (auxZ (i / 2) s) <<< 4)

/-- NMERGE (45_pixel.md R231, R233). -/
def execNmerge (s : State) : Result :=
  validated .nmerge
    (fun s => .next (complete false false false s.dstLen.toNat
      (writeEach (fun i => outAddr s i) mergedPixel s.dstLen.toNat s))) s

/-- Pixel `i` of a transpose in row-major order (45_pixel.md R237): y = i div w, x = i mod w, and the source byte is the
one at x*h + y; a byte past the source's end is 0 (R238). -/
def transposedPixel (w h i : Nat) (s : State) : Byte := srcZ (i % w * h + i / w) s

/-- XPOSE (45_pixel.md R237): `for y: for x: Out(y*w + x)` writes the output bytes 0, 1, ..., w*h - 1 in this order. -/
def execXpose (s : State) : Result :=
  validated .xpose
    (fun s => .next (complete false false false (s.width * s.height)
      (writeEach (fun i => outAddr s i) (transposedPixel s.width s.height) (s.width * s.height) s))) s

/-- The job of SAMPLE (45_pixel.md R242): RESULT is the byte at column `x` of row XY.Y. -/
def sampleAt (x : Nat) (s : State) : State :=
  complete false false false (memRead (s.srcBase.toNat + (s.coordY * s.width + x)) s).toNat s

/-- SAMPLE with MIRROR = 0 (45_pixel.md R242, R243). -/
def execSample (s : State) : Result :=
  validated .sample (fun s => .next (sampleAt s.coordX s)) s

/-- SAMPLE with MIRROR = 1 (45_pixel.md R242 to R244): source x = w - 1 - x, only x is flipped. -/
def execSampleMir (s : State) : Result :=
  validated .sample (fun s => .next (sampleAt (s.width - 1 - s.coordX) s)) s

end Sys2Proof.Machine
end

