-- ==== Sys2Proof/Machine/Jobs.lean ====
section
/-! DEFINITION. The commands that decode a stream: each is the job step of 10_state.md R40, validation (60_exceptions.md
R275), the family rule to its end, completion; and the reserved commands (R273). -/

namespace Sys2Proof.Machine

/-- The start of R122: p <- 0, o <- 0. -/
def openRle (s : State) : State := { s with codec := some (.rle ⟨0, 0⟩) }

/-- The start of 42_lzw.md R141. -/
def openLzw (s : State) : State := { s with codec := some (.lzw LzwState.start) }

/-- The start of 43_quadtree.md R172: off <- 0, DecodeRegion(0, 0, W, H, 1). -/
def openQt (s : State) : State :=
  qtEntered (qtEnter s.cfg.qtMaxDepth ⟨0, 0, s.width, s.height⟩ ⟨0, none, []⟩) s

/-- The start of 44_lz77.md R203: the header is next. -/
def openLz77 (ctab : Bool) (s : State) : State := { s with codec := some (.lz77 ⟨0, 0, 0, 0, ctab, .header⟩) }

/-- A bound on the token steps of an RLE job: every token takes a source byte, and one step ends the job (R129). -/
def rleFuel (s : State) : Nat := s.srcLen.toNat + 1

/-- A bound on the token steps of an LZW job: every code takes at least 9 bits, and one step ends the job (R155). -/
def lzwFuel (s : State) : Nat := 8 * s.srcLen.toNat / 9 + 1

/-- A bound on the token steps of a quadtree job (R190): a region takes a mask, four quadrants and one step to leave it,
and at every depth the regions that are not empty are disjoint; one step ends the job. -/
def qtFuel (s : State) : Nat := 6 * (s.width * s.height) * s.cfg.qtMaxDepth + 1

/-- A bound on the token steps of an LZ77 job: every token takes a source byte, and one step ends the job (R213). -/
def lz77Fuel (s : State) : Nat := s.srcLen.toNat + 1

/-- RLE (41_rle.md R122). -/
def execRle (s : State) : Result := validated .rle (fun s => runTokens (rleFuel s) (openRle s)) s

/-- LZW (42_lzw.md R141). -/
def execLzw (s : State) : Result := validated .lzw (fun s => runTokens (lzwFuel s) (openLzw s)) s

/-- QT (43_quadtree.md R172). -/
def execQt (s : State) : Result := validated .qt (fun s => runTokens (qtFuel s) (openQt s)) s

/-- LZ77 with CTAB_EN = 0 (44_lz77.md R203). -/
def execLz77 (s : State) : Result :=
  validated (.lz77 false) (fun s => runTokens (lz77Fuel s) (openLz77 false s)) s

/-- LZ77 with CTAB_EN = 1 (44_lz77.md R203, R206). -/
def execLz77Ct (s : State) : Result :=
  validated (.lz77 true) (fun s => runTokens (lz77Fuel s) (openLz77 true s)) s

/-- OP 0x0 (60_exceptions.md R273): ERR_BAD_OP, no memory touched. -/
def execReserved0 (s : State) : Result := .next (errorCompletion .badOp s)

/-- OP 0x8 to 0xF (60_exceptions.md R273): ERR_BAD_OP, no memory touched. -/
def execReserved8F (s : State) : Result := .next (errorCompletion .badOp s)

/-- The first of the finer steps of the job step (10_state.md R40): validation, and the opening of the codec's internal
state. A job that decodes no stream has no finer step (log 2). -/
def beginJob (i : Instr) (s : State) : Result :=
  match i with
  | .rle _ _ => validated .rle (fun s => .next (openRle s)) s
  | .lzw _ _ => validated .lzw (fun s => .next (openLzw s)) s
  | .qt _ _ => validated .qt (fun s => .next (openQt s)) s
  | .lz77 _ => validated (.lz77 false) (fun s => .next (openLz77 false s)) s
  | .lz77Ct _ => validated (.lz77 true) (fun s => .next (openLz77 true s)) s
  | .nmerge _ _ => execNmerge s
  | .xpose _ _ => execXpose s
  | .sample _ => execSample s
  | .sampleMir _ => execSampleMir s
  | .reserved0 _ _ => execReserved0 s
  | .reserved8F _ _ _ => execReserved8F s
  | .rleLit _ | .rleRun _ _ | .lzwClear | .lzwLit _ | .lzwDict _ | .lzwKwkwk _ | .lzwBad _ => execToken i s
  | .qtMask _ | .qtSub | .qtLeaf1 _ | .qtLeafRaw _ | .qtLeafFill _ | .qtLeafIdx _ => execToken i s
  | .lz77Hdr _ _ | .lz77Flag _ | .lz77Lit _ | .lz77Bref _ _ => execToken i s

end Sys2Proof.Machine
end

