-- ==== Sys2Proof/Machine/Dispatch.lean ====
section
/-! DEFINITION. The meaning of every instruction: one arm a row of the opcode table. -/

namespace Sys2Proof.Machine

def exec (i : Instr) (s : State) : Host.Outcome State Fault Refusal :=
  match i with
  | .rle _ _ => Sys2Proof.Machine.execRle s
  | .lzw _ _ => Sys2Proof.Machine.execLzw s
  | .qt _ _ => Sys2Proof.Machine.execQt s
  | .lz77 _ => Sys2Proof.Machine.execLz77 s
  | .lz77Ct _ => Sys2Proof.Machine.execLz77Ct s
  | .nmerge _ _ => Sys2Proof.Machine.execNmerge s
  | .xpose _ _ => Sys2Proof.Machine.execXpose s
  | .sample _ => Sys2Proof.Machine.execSample s
  | .sampleMir _ => Sys2Proof.Machine.execSampleMir s
  | .reserved0 _ _ => Sys2Proof.Machine.execReserved0 s
  | .reserved8F _ _ _ => Sys2Proof.Machine.execReserved8F s
  | .rleLit count => Sys2Proof.Machine.execRleLit count s
  | .rleRun count value => Sys2Proof.Machine.execRleRun count value s
  | .lzwClear => Sys2Proof.Machine.execLzwClear s
  | .lzwLit byte => Sys2Proof.Machine.execLzwLit byte s
  | .lzwDict code => Sys2Proof.Machine.execLzwDict code s
  | .lzwKwkwk code => Sys2Proof.Machine.execLzwKwkwk code s
  | .lzwBad code => Sys2Proof.Machine.execLzwBad code s
  | .qtMask mask => Sys2Proof.Machine.execQtMask mask s
  | .qtSub => Sys2Proof.Machine.execQtSub s
  | .qtLeaf1 value => Sys2Proof.Machine.execQtLeaf1 value s
  | .qtLeafRaw firstval => Sys2Proof.Machine.execQtLeafRaw firstval s
  | .qtLeafFill value => Sys2Proof.Machine.execQtLeafFill value s
  | .qtLeafIdx firstval => Sys2Proof.Machine.execQtLeafIdx firstval s
  | .lz77Hdr groups tailBits => Sys2Proof.Machine.execLz77Hdr groups tailBits s
  | .lz77Flag flags => Sys2Proof.Machine.execLz77Flag flags s
  | .lz77Lit byte => Sys2Proof.Machine.execLz77Lit byte s
  | .lz77Bref len dist => Sys2Proof.Machine.execLz77Bref len dist s

end Sys2Proof.Machine
end

