-- ==== Sys2Proof/Machine/HostBus.lean ====
section
/-! DEFINITION. What the host can do: register accesses on the bus, accesses to buffer memory, reset. -/

namespace Sys2Proof.Machine

/-- What a bus access of the given width reaches: a register offset (10_state.md R23), or the reason it has no meaning
(R35, R36). -/
def busOffset (addr width : Nat) (s : State) : Except Refusal Nat :=
  if addr < s.cfg.regBase ∨ s.cfg.regBase + registerBlockSize ≤ addr then .error .outsideRegisterBlock
  else if width ≠ 4 ∨ (addr - s.cfg.regBase) % 4 ≠ 0 then .error .badRegisterAccess
  else .ok (addr - s.cfg.regBase)

/-- A register write by the host. -/
def hostWriteReg (addr width : Nat) (value : Word) (s : State) : Result :=
  match busOffset addr width s with
  | .ok off => .next (writeRegister off value s)
  | .error r => .refused r

/-- A register write of the value the host's latest read gave. A host that has read nothing has no value to write, and makes
no access (log 26). -/
def hostWriteLastRead (addr width : Nat) (s : State) : Result :=
  match s.reads with
  | [] => .next s
  | v :: _ => hostWriteReg addr width v s

/-- The host receives a value. -/
def receive (v : Word) (s : State) : State := { s with reads := v :: s.reads }

/-- A register read by the host, always allowed and with no side effect (10_state.md R37, R38). -/
def hostReadReg (addr width : Nat) (s : State) : Result :=
  match busOffset addr width s with
  | .ok off => .next (receive (readRegister off s) s)
  | .error r => .refused r

/-- The host writes a byte of buffer memory; a byte of a job's region while BUSY is refused (20_memory.md R74, 93 U9). -/
def hostWriteMem (a : Nat) (value : Byte) (s : State) : Result :=
  if s.cfg.memBytes ≤ a then .fault .noSuchAddress
  else if s.busy = true ∧ (currentRegions s).any (fun r => r.has a) = true then .refused .hostWriteInJobRegion
  else .next (memWrite a value s)

/-- The host reads a byte of buffer memory; a byte of the job's write region while BUSY is any value (20_memory.md R74,
93 U10; log 4). R73 promises nothing about a host read of any job region while BUSY, and R74 draws the write region alone:
that a byte of a READ region then reads as it stands in memory is the model's choice (DESIGN CHOICE, unsafe, log 29). -/
def hostReadMem (a : Nat) (s : State) : Result :=
  if s.cfg.memBytes ≤ a then .fault .noSuchAddress
  else if s.busy = true ∧ (currentWrites s).has a = true then
    .next { receive ((Config.freeByte s.draws).setWidth 32) s with draws := s.draws + 1 }
  else .next (receive ((memRead a s).setWidth 32) s)

end Sys2Proof.Machine
end

