-- ==== Sys2Proof/Machine/Fetching.lean ====
section
/-! DEFINITION. One step of each agent, and how an instruction is laid where the engine finds it next. -/

namespace Sys2Proof.Machine

/-- The engine's step (10_state.md R40): IDLE it has none and nothing changes (log 18); where a job has just been started
the CMD register is decoded and the whole job step runs; inside a job, one token step. -/
def engineTurn (s : State) : Result :=
  if s.busy then
    match s.codec with
    | none => exec (decodeCommand s.cmd) s
    | some c => tokenStep exec c s
  else .next s

/-- The engine's finer step (10_state.md R40; log 2). -/
def engineFineTurn (s : State) : Result :=
  if s.busy then
    match s.codec with
    | none => beginJob (decodeCommand s.cmd) s
    | some c => tokenStep exec c s
  else .next s

/-- POLL DONE (30_encoding.md R95): a STATUS read with DONE = 1 ends it; after any other the engine has its step before
the host reads again (70_reset_and_hazards.md R314; log 19). `rest` are the turns behind the poll. -/
def pollTurn (rest : List Turn) (s : State) : Result :=
  if s.isDone then .next (receive s.status { s with turns := rest }) else engineTurn s

/-- One turn: the first of the list, or the engine's where the list is empty. -/
def takeTurn (s : State) : Result :=
  match s.turns with
  | [] => engineTurn s
  | .writeReg addr width value :: rest => hostWriteReg addr width value { s with turns := rest }
  | .readReg addr width :: rest => hostReadReg addr width { s with turns := rest }
  | .writeRegLastRead addr width :: rest => hostWriteLastRead addr width { s with turns := rest }
  | .writeMem addr value :: rest => hostWriteMem addr value { s with turns := rest }
  | .readMem addr :: rest => hostReadMem addr { s with turns := rest }
  | .reset :: rest => .next (resetBlock { s with turns := rest })
  | .poll :: rest => pollTurn rest s
  | .engine :: rest => engineTurn { s with turns := rest }
  | .engineFine :: rest => engineFineTurn { s with turns := rest }

/-- Bytes `v[7:0], v[15:8], ...` at `a`, `a + 1`, ... (40_bitstream.md R115). -/
def layBytes (a v : Nat) : Nat → Memory → Memory
  | 0, m => m
  | n + 1, m => Memory.write (a + n) (BitVec.ofNat 8 (v >>> (8 * n))) (layBytes a v n m)

/-- The length of the longest token, in bytes: RLE.LIT 127 and its literals (30_encoding.md R84). -/
def longestToken : Nat := 128

/-- Where a stream job must stand for its next token to be the one of the table's format: in the middle of a job, its
cursor at the start of the source. -/
def tableCodec (ctx : Ctx) : Option Codec :=
  match ctx with
  | .command => none
  | .rle => some (.rle ⟨0, 0⟩)
  | .lzw width _ _ => some (.lzw { LzwState.start with width := width })
  | .qtMask => some (.qt ⟨0, some ⟨0, 0, 1, 1⟩, []⟩)
  | .qtQuadrant _ w h => some (.qt ⟨0, none, [⟨⟨0, 0, w, h⟩, 0, 3⟩]⟩)
  | .lz77Hdr => some (.lz77 ⟨0, 0, 0, 0, false, .header⟩)
  | .lz77Flag => some (.lz77 ⟨0, 0, 0, 0, false, .flag⟩)
  | .lz77Decision bit => some (.lz77 ⟨0, 0, 0, 1, false, .decisions (if bit then 0x80 else 0) 7 1 true⟩)

/-- The OP whose job decodes a format. -/
def tableOp (ctx : Ctx) : Word :=
  match ctx with
  | .command => 0
  | .rle => 1
  | .lzw _ _ _ => 2
  | .qtMask | .qtQuadrant _ _ _ => 3
  | .lz77Hdr | .lz77Flag | .lz77Decision _ => 4

/-- `s` with an instruction of the opcode table where the engine finds its next one: a command in the CMD register as a
CMD write leaves it (10_state.md R25), a token at the cursor of a job that stands at its format, source at address 0,
output of 64 bytes at 0x100, image 1x1 (logs 11, 12). -/
def placeTableWord (nbits w : Nat) (s : State) : State :=
  match tableCtx nbits w with
  | none => s
  | some .command => { startJob (BitVec.ofNat 32 w) s with turns := [] }
  | some ctx =>
    { s with
      cmd := tableOp ctx, status := statusStarted, srcBase := 0, srcLen := BitVec.ofNat 32 longestToken,
      dstBase := 0x100, dstLen := 64, dim := 0x00010001#32, codec := tableCodec ctx, turns := [],
      mem := layBytes 0 (tableOperands nbits w).toNat longestToken s.mem }

end Sys2Proof.Machine
end

