-- ==== Sys2Proof/Machine/HostProgram.lean ====
section
/-! DEFINITION. The host's notation (30_encoding.md R95, R96) as lists of turns, and the job sequences of 47_host_formats.md
that it is used for. -/

namespace Sys2Proof.Machine

/-- `W <REG>, <value>` (30_encoding.md R95), the register by its offset. -/
def Turn.write (c : Config) (off : Nat) (v : Word) : Turn := .writeReg (c.regBase + off) 4 v

/-- `R <REG>` (30_encoding.md R95). -/
def Turn.read (c : Config) (off : Nat) : Turn := .readReg (c.regBase + off) 4

/-- `W <REG>, <value>` where the value is the one the host has just read, as `<RESULT of LZ77>` of 47_host_formats.md R262
is. -/
def Turn.writeLastRead (c : Config) (off : Nat) : Turn := .writeRegLastRead (c.regBase + off) 4

/-- `CMD <OP>[.CT][.MIR]` (30_encoding.md R95): a CMD write of the command's word. -/
def Turn.command (c : Config) (i : Instr) : Turn := Turn.write c 0x00 (encode .command i)

/-- The operands of JOB (30_encoding.md R96); one that is not given keeps its register's value. -/
structure JobOperands where
  src : Option (Word × Word) := none
  dst : Option (Word × Word) := none
  aux : Option (Word × Word) := none
  dim : Option (BitVec 16 × BitVec 16) := none
  xy : Option (BitVec 16 × BitVec 16) := none
deriving DecidableEq, Repr

/-- The register writes of a base and length operand. -/
def regionWrites (c : Config) (off : Nat) : Option (Word × Word) → List Turn
  | none => []
  | some (b, n) => [Turn.write c off b, Turn.write c (off + 4) n]

/-- The register write of a pair operand: the first half in bits 15:0, the second in bits 31:16 (R96). -/
def pairWrite (c : Config) (off : Nat) : Option (BitVec 16 × BitVec 16) → List Turn
  | none => []
  | some (lo, hi) => [Turn.write c off ((hi ++ lo).setWidth 32)]

/-- The pseudo-instruction JOB (30_encoding.md R96). -/
def job (c : Config) (i : Instr) (a : JobOperands) : List Turn :=
  regionWrites c 0x08 a.src ++ regionWrites c 0x10 a.dst ++ regionWrites c 0x18 a.aux ++ pairWrite c 0x20 a.dim ++
    pairWrite c 0x24 a.xy ++ [Turn.command c i, .poll]

/-- How many pixels an image of the given width and height has; below 2^32, so a length register holds it. -/
def pixelCount (dim : BitVec 16 × BitVec 16) : Word := BitVec.ofNat 32 (dim.1.toNat * dim.2.toNat)

/-- The compression types of a nibble-plane section (47_host_formats.md R253). -/
inductive PlaneCodec where
  | rle
  | lzw
deriving DecidableEq, Repr

/-- The compression type of a section's first byte, which has the values of CMD.OP; with any other the host starts no job
(47_host_formats.md R253). -/
def PlaneCodec.ofType (t : Byte) : Option PlaneCodec :=
  if t = 0x01 then some .rle else if t = 0x02 then some .lzw else none

/-- The command that decodes a plane. -/
def PlaneCodec.command : PlaneCodec → Instr
  | .rle => .rle false false
  | .lzw => .lzw false false

/-- 47_host_formats.md R257, the nibble path: two planes, then their merge into the `dim.1 * dim.2` bytes at `img`. -/
def nibblePath (c : Config) (tLo tHi : PlaneCodec) (low high lowBuf highBuf : Word × Word) (img : Word)
    (dim : BitVec 16 × BitVec 16) : List Turn :=
  job c tLo.command { src := some low, dst := some lowBuf } ++
    job c tHi.command { src := some high, dst := some highBuf } ++
    job c (.nmerge false false) { src := some lowBuf, aux := some highBuf, dst := some (img, pixelCount dim) }

/-- 47_host_formats.md R257, the quadtree path. -/
def quadtreePath (c : Config) (payload : Word × Word) (img : Word) (dim : BitVec 16 × BitVec 16) : List Turn :=
  job c (.qt false false) { src := some payload, dst := some (img, pixelCount dim), dim := some dim }

/-- The dimensions of a sprite: one byte each in its payload (47_host_formats.md R262). -/
def spriteDim (w h : Byte) : BitVec 16 × BitVec 16 := (w.setWidth 16, h.setWidth 16)

/-- 47_host_formats.md R262: a sprite's stream decoded, with `.CT` or without, then transposed; the host reads RESULT behind
the first job and writes the value read to the second job's SRC_LEN. -/
def spritePath (c : Config) (ct : Bool) (stream : Word × Word) (ctab colBuf sprite : Word) (w h : Byte) : List Turn :=
  let area := pixelCount (spriteDim w h)
  job c (if ct then .lz77Ct false else .lz77 false)
      { src := some stream, aux := some (ctab, BitVec.ofNat 32 lz77CtabLimit), dst := some (colBuf, area) } ++
    [Turn.read c 0x28, Turn.write c 0x08 colBuf, Turn.writeLastRead c 0x0C] ++
    job c (.xpose false false) { dst := some (sprite, area), dim := some (spriteDim w h) }

/-- 47_host_formats.md R263: one pixel of a sprite, mirrored or not. -/
def pixelOf (c : Config) (mirror : Bool) (sprite : Word) (w h : Byte) (xy : BitVec 16 × BitVec 16) : List Turn :=
  job c (if mirror then .sampleMir false else .sample false)
    { src := some (sprite, pixelCount (spriteDim w h)), dim := some (spriteDim w h), xy := some xy }

end Sys2Proof.Machine
end

