-- ==== Sys2Proof/Safety.lean ====
section
/-! DEFINITION. The terms claims are written in: what a step leaves unchanged, the invariants, and the reference forms of the
codecs that the jobs are held against. -/

namespace Sys2Proof.Machine

/-! ## Frames -/

/-- Nothing of the machine outside STATUS, RESULT, the codec state and memory differs: the parameters, CMD, the job
registers, the pending turns, the values read. -/
def keepsRegisters (s t : State) : Prop :=
  t.cfg = s.cfg ∧ t.cmd = s.cmd ∧ t.srcBase = s.srcBase ∧ t.srcLen = s.srcLen ∧ t.dstBase = s.dstBase ∧
    t.dstLen = s.dstLen ∧ t.auxBase = s.auxBase ∧ t.auxLen = s.auxLen ∧ t.dim = s.dim ∧ t.xy = s.xy ∧
    t.turns = s.turns ∧ t.reads = s.reads

/-- STATUS, RESULT and the count of drawn bytes do not differ. -/
def keepsStatus (s t : State) : Prop := t.status = s.status ∧ t.result = s.result ∧ t.draws = s.draws

/-- Every byte of memory outside the region reads as before. -/
def keepsMemoryOutside (r : Region) (s t : State) : Prop :=
  ∀ a, r.has a = false → memRead a t = memRead a s

/-- Every byte of memory reads as before. -/
def keepsMemory (s t : State) : Prop := ∀ a, memRead a t = memRead a s

/-- What a token leaves: every register, STATUS, RESULT and every byte outside the output bytes `lo` to `hi - 1`. -/
def tokenFrame (s t : State) (lo hi : Nat) : Prop :=
  keepsRegisters s t ∧ keepsStatus s t ∧ keepsMemoryOutside ⟨outAddr s lo, hi - lo⟩ s t

/-- What a job that ends without drawing leaves: every register but STATUS and RESULT, and every byte outside the region. -/
def jobFrame (s t : State) (r : Region) : Prop :=
  keepsRegisters s t ∧ t.draws = s.draws ∧ keepsMemoryOutside r s t

/-- A job has ended: IDLE, DONE, no internal codec state (10_state.md R28, R42). -/
def State.ended (t : State) : Prop := t.busy = false ∧ t.isDone = true ∧ t.codec = none

/-- A job that ended without an error (10_state.md R28): STATUS by its fields, RESULT, and what it leaves alone. -/
def doneWith (padded inexh badcode : Bool) (value : Nat) (s t : State) : Prop :=
  t.busy = false ∧ t.isDone = true ∧ t.err = 0 ∧ t.padded = padded ∧ t.inexh = inexh ∧ t.badcode = badcode ∧
    t.result.toNat = value % 2 ^ 32 ∧ t.codec = none ∧ t.draws = s.draws ∧ keepsRegisters s t

/-- The error completion (60_exceptions.md R272) but for memory. -/
def failedWith (code : Byte) (s t : State) : Prop :=
  t.busy = false ∧ t.isDone = true ∧ t.err = code ∧ t.padded = false ∧ t.inexh = false ∧ t.badcode = false ∧
    t.result = 0 ∧ t.codec = none ∧ keepsRegisters s t

/-- Every byte of the region is a draw, every other byte reads as before (60_exceptions.md R272). -/
def drawnRegion (r : Region) (s t : State) : Prop :=
  (∀ k, k < r.len → memRead (r.base + k) t = Config.freeByte (s.draws + k)) ∧ keepsMemoryOutside r s t

/-- A job found an error before it read or wrote a byte (60_exceptions.md R272): memory is as it was. -/
def refusedWith (code : Byte) (s t : State) : Prop := failedWith code s t ∧ t.mem = s.mem ∧ t.draws = s.draws

/-- The number of low bits of a word that decide what it decodes to: the six stored bits of CMD (30_encoding.md R81), or the
token's own bits. -/
def usedBits (ctx : Ctx) (i : Instr) : Nat :=
  match ctx with
  | .command => 6
  | .rle | .lzw _ _ _ | .qtMask | .qtQuadrant _ _ _ | .lz77Hdr | .lz77Flag | .lz77Decision _ => tokenBits ctx i

/-- A bound on the finer steps of a job (41_rle.md R129, 42_lzw.md R155, 43_quadtree.md R190, 44_lz77.md R213): one for
validation and opening, then the token steps. -/
def jobBound (k : JobKind) (s : State) : Nat :=
  match k with
  | .rle | .lz77 _ => s.srcLen.toNat + 2
  | .lzw => 8 * s.srcLen.toNat / 9 + 2
  | .qt => 6 * (s.width * s.height) * s.cfg.qtMaxDepth + 2
  | .nmerge | .xpose | .sample => 1

/-- `n` steps of `f`, one after another. -/
def runFor (f : State → Result) : Nat → State → Result
  | 0, s => .next s
  | n + 1, s =>
    match f s with
    | .next t => runFor f n t
    | .fault r => .fault r
    | .refused r => .refused r

/-! ## Where a job stands, and what a token leaves behind -/

/-- What the rest of 42_lzw.md R141's loop leaves after a code that resolved to `seq`: the bytes emitted (R146), the entry
inserted (R147), the width grown (R148, R149), PREV (R150), the cursor moved by the width the code was read with. -/
def lzwAfter (c : LzwState) (seq : List Byte) (s t : State) : Prop :=
  let n := min seq.length (s.dstLen.toNat - c.o)
  (∀ j, j < n → outByte (c.o + j) t = seq.getD j 0) ∧ tokenFrame s t c.o (c.o + n) ∧
    ∃ d, t.codec = some (.lzw d) ∧ d.off = c.off + c.width ∧ d.o = c.o + n ∧ d.prev = some seq ∧
      match c.prev with
      | none => d.dict = c.dict ∧ d.width = c.width
      | some prev =>
        if c.next < 4096 then
          d.dict = c.dict ++ [prev ++ seq.take 1] ∧
            d.width = if c.next + 1 - s.cfg.growOffset = 2 ^ c.width ∧ c.width < 12 then c.width + 1 else c.width
        else d.dict = c.dict ∧ d.width = c.width

/-- A quadtree job stands at quadrant `f.next` of its innermost region `f` (43_quadtree.md R177). -/
def atQuadrant (s : State) (c : QtState) (f : Frame) (fs : List Frame) : Prop :=
  s.codec = some (.qt c) ∧ c.pending = none ∧ c.stack = f :: fs ∧ f.next < 4

/-- The pixel at column `x`, row `y` of the image (43_quadtree.md R187). -/
def pixel (x y : Nat) (s : State) : Byte := outByte (y * s.width + x) s

/-- What a leaf token leaves: the cursor at `off` and the next quadrant next, every register and STATUS, and every byte that
is no pixel of the leaf. -/
def leafFrame (s t : State) (f : Frame) (fs : List Frame) (off : Nat) : Prop :=
  let q := f.rect.quadrant f.next
  t.codec = some (.qt ⟨off, none, { f with next := f.next + 1 } :: fs⟩) ∧ keepsRegisters s t ∧ keepsStatus s t ∧
    ∀ a, (∀ dx dy, dx < q.w → dy < q.h → a ≠ outAddr s ((q.y + dy) * s.width + (q.x + dx))) →
      memRead a t = memRead a s

/-! ## Byte strings -/

/-- The source region's bytes (00_scope.md R9). -/
def srcBytes (s : State) : List Byte := (List.range s.srcLen.toNat).map fun k => srcByte k s

/-- The first `n` output bytes. -/
def outBytes (n : Nat) (s : State) : List Byte := (List.range n).map fun i => outByte i s

/-- `take(L, bytes ++ zeros(L))` (41_rle.md R130). -/
def padTruncate (l : Nat) (bytes : List Byte) : List Byte := (bytes ++ List.replicate l 0).take l

/-! ## Reference forms -/

/-- 41_rle.md R130 `expand`, by at most `fuel` tokens. -/
def rleExpandFrom : Nat → List Byte → List Byte
  | 0, _ => []
  | _ + 1, [] => []
  | fuel + 1, c :: rest =>
    if c.getLsbD 7 then
      match rest with
      | [] => []
      | v :: rest => List.replicate (c.extractLsb' 0 7).toNat v ++ rleExpandFrom fuel rest
    else
      rest.take (c.extractLsb' 0 7).toNat ++ rleExpandFrom fuel (rest.drop (c.extractLsb' 0 7).toNat)

/-- 41_rle.md R130: the byte string the tokens produce when decoded to the end with no length limit. -/
def rleExpand (bytes : List Byte) : List Byte := rleExpandFrom bytes.length bytes

/-- Stream bit `k` of a byte string (40_bitstream.md R111). -/
def listBit (bytes : List Byte) (k : Nat) : Bool := (bytes.getD (k / 8) 0).getLsbD (k % 8)

/-- `BitRead(n)` at `off` of a byte string (40_bitstream.md R112). -/
def listBits (bytes : List Byte) (off : Nat) : Nat → Nat
  | 0 => 0
  | n + 1 => listBits bytes off n ||| ((listBit bytes (off + n)).toNat <<< n)

/-- The output of 42_lzw.md R141's loop with no length limit, by at most `fuel` codes, and whether an invalid code stopped
it. `c.o` plays no part. -/
def lzwExpandFrom (growOffset : Nat) (bytes : List Byte) : Nat → LzwState → List Byte × Bool
  | 0, _ => ([], false)
  | fuel + 1, c =>
    if 8 * bytes.length < c.off + c.width then ([], false)
    else
      let code := listBits bytes c.off c.width
      let c' := { c with off := c.off + c.width }
      let go (seq : List Byte) : List Byte × Bool :=
        let r := lzwExpandFrom growOffset bytes fuel { lzwInsert growOffset seq c' with prev := some seq }
        (seq ++ r.1, r.2)
      if code = lzwClearCode then lzwExpandFrom growOffset bytes fuel c'.clear
      else if code < lzwLiterals then go [BitVec.ofNat 8 code]
      else
        match c.slot code, c.prev with
        | some seq, _ => go seq
        | none, some prev => if code = c.next then go (selfExtended prev) else ([], true)
        | none, none => ([], true)

/-- All that an LZW stream produces (42_lzw.md R141) and whether an invalid code ends it. -/
def lzwExpand (growOffset : Nat) (bytes : List Byte) : List Byte × Bool :=
  lzwExpandFrom growOffset bytes (8 * bytes.length / 9 + 1) LzwState.start

/-- The bytes a backreference appends (44_lz77.md R208, R209): `n` of them, the k-th the output byte at `start + k`, 0 before
the start of the output. -/
def lz77CopyList (start : Int) : Nat → Nat → List Byte → List Byte
  | 0, _, out => out
  | n + 1, k, out =>
    lz77CopyList start n (k + 1) (out ++ [if 0 ≤ start + k then out.getD (start + k).toNat 0 else 0])

/-- `Decide` of 44_lz77.md R203 on the source bytes left and the output so far; none where a byte is missing. -/
def lz77DecideList (remap : Byte → Byte) (bit : Bool) (src out : List Byte) : Option (List Byte × List Byte) :=
  match bit, src with
  | false, b :: rest => some (rest, out ++ [remap b])
  | true, lo :: hi :: rest =>
    let wd := lo.toNat + 256 * hi.toNat
    some (rest, lz77CopyList ((out.length : Int) - (wd / 16 : Nat) - 1) (wd % 16 + 3) 0 out)
  | false, [] => none
  | true, [] => none
  | true, [_] => none

/-- `n` decisions under the bits of `f` from bit `idx` down, and whether the input ended in them. -/
def lz77DecisionsList (remap : Byte → Byte) (f : Byte) : Nat → Nat → List Byte → List Byte → List Byte × List Byte × Bool
  | 0, _, src, out => (src, out, false)
  | n + 1, idx, src, out =>
    match lz77DecideList remap (f.getLsbD idx) src out with
    | some (src', out') => lz77DecisionsList remap f n (idx - 1) src' out'
    | none => (src, out, true)

/-- The full groups and the tail group of 44_lz77.md R203: the output, and whether the input ended in them. -/
def lz77GroupsList (remap : Byte → Byte) (tailBits : Nat) : Nat → List Byte → List Byte → List Byte × Bool
  | _, [], out => (out, true)
  | 0, f :: rest, out => (lz77DecisionsList remap f tailBits 7 rest out).2
  | g + 1, f :: rest, out =>
    match lz77DecisionsList remap f 8 7 rest out with
    | (src', out', false) => lz77GroupsList remap tailBits g src' out'
    | (_, out', true) => (out', true)

/-- All that an LZ77 stream produces with no capacity limit (44_lz77.md R203), and whether the input ended first. -/
def lz77Expand (remap : Byte → Byte) (bytes : List Byte) : List Byte × Bool :=
  match bytes with
  | g0 :: g1 :: tail :: body => lz77GroupsList remap tail.toNat (g0.toNat + 256 * g1.toNat) body []
  | [] | [_] | [_, _] => ([], true)

/-- The literal map of 44_lz77.md R206: with CTAB_EN a literal below 64 is the colour table's byte. -/
def lz77Remap (ctab : Bool) (s : State) (b : Byte) : Byte :=
  if ctab = true ∧ b.toNat < 64 then auxByte b.toNat s else b

/-- The pixel (px, py) lies in the rectangle. -/
def Rect.holds (r : Rect) (px py : Nat) : Bool :=
  decide (r.x ≤ px) && decide (px < r.x + r.w) && decide (r.y ≤ py) && decide (py < r.y + r.h)

/-- `DecodeLeaf` of 43_quadtree.md R172 on a cursor and a state. -/
def refLeaf (q : Rect) (off : Nat) (s : State) : Nat × State :=
  if q.isEmpty then (off, s)
  else if q.w = 1 ∧ q.h = 1 then (off + 8, qtPut q.x q.y (BitVec.ofNat 8 (bitRead off 8 s)) s)
  else
    let area := q.w * q.h
    let b1 := bitcount1 area
    let colorCount := bitRead off b1 s + 1
    let b2 := bitcount2 colorCount
    let body := off + b1
    if area * 8 ≤ area * b2 + colorCount * 8 then
      (body + 8 * area, qtPutLeaf q (fun k s' => BitVec.ofNat 8 (bitRead (body + 8 * k) 8 s')) s)
    else if colorCount = 1 then
      (body + 8, qtPutLeaf q (fun _ _ => BitVec.ofNat 8 (bitRead body 8 s)) s)
    else
      (body + 8 * colorCount + b2 * area,
        qtPutLeaf q (fun k s' => (qtTable body colorCount s).getD (bitRead (body + 8 * colorCount + b2 * k) b2 s') 0) s)

/-- `DecodeRegion` of 43_quadtree.md R172 with `levels` of nesting left (QT_MAX_DEPTH + 1 - depth); none is
ERR_QT_DEPTH. -/
def refRegion : Nat → Rect → Nat → State → Option (Nat × State)
  | levels, r, off, s =>
    if r.isEmpty then some (off, s)
    else
      match levels with
      | 0 => none
      | levels + 1 =>
        let mask : BitVec 4 := BitVec.ofNat 4 (bitRead off 4 s)
        let quad (i : Nat) (p : Nat × State) : Option (Nat × State) :=
          if maskBit s.cfg.maskOrder mask i then refRegion levels (r.quadrant i) p.1 p.2
          else some (refLeaf (r.quadrant i) p.1 p.2)
        (quad 0 (off + 4, s)).bind fun p => (quad 1 p).bind fun p => (quad 2 p).bind (quad 3)

/-- `QT()` of 43_quadtree.md R172 after validation. -/
def refQt (s : State) : State :=
  match refRegion s.cfg.qtMaxDepth ⟨0, 0, s.width, s.height⟩ 0 s with
  | some (off, t) => complete false (decide (8 * s.srcLen.toNat < off)) false off t
  | none => runtimeError .qtDepth (imageRegion s) s

/-! ## Invariants -/

/-- The memory keeps its canonical form and lists no address that does not exist (20_memory.md R61). -/
def State.memoryOk (s : State) : Prop := Memory.wf s.mem = true ∧ Memory.within s.cfg.memBytes s.mem = true

/-- STATUS holds one of the words the rules give it (10_state.md R26, R27, R28, R49, 60_exceptions.md R272): reserved
bits 0, never BUSY and DONE together, flags only on success, ERR only 0 to 8; CMD's reserved bits read 0 (R24); internal
codec state exists only while BUSY (R42). -/
def State.controlOk (s : State) : Prop :=
  s.cmd.toNat < 64 ∧
    (s.status = 0 ∨ s.status = statusStarted ∨ (∃ p i b, s.status = statusDone p i b) ∨
      ∃ e, s.status = statusError e) ∧
    (s.codec ≠ none → s.status = statusStarted)

/-- 42_lzw.md R155 for the internal state of an LZW job. -/
def LzwState.ok (c : LzwState) (growOffset : Nat) : Prop :=
  lzwWidthMin ≤ c.width ∧ c.width ≤ lzwWidthMax ∧ c.next ≤ lzwTable ∧
    (growOffset = 0 → c.width < lzwWidthMax → c.next < 2 ^ c.width) ∧
    (∀ k seq, c.dict[k]? = some seq → 1 ≤ seq.length ∧ seq.length ≤ k + 2) ∧
    (∀ seq, c.prev = some seq → 1 ≤ seq.length ∧ seq.length ≤ c.next - lzwLiterals)

/-- A rectangle of the image that is not empty. -/
def Rect.inImage (r : Rect) (s : State) : Prop :=
  r.isEmpty = false ∧ r.x + r.w ≤ s.width ∧ r.y + r.h ≤ s.height

/-- The internal state of a quadtree job: regions inside the image and no deeper than QT_MAX_DEPTH (43_quadtree.md R174,
R190). -/
def QtState.ok (c : QtState) (s : State) : Prop :=
  (∀ f ∈ c.stack, f.rect.inImage s ∧ f.next ≤ 4) ∧
    match c.pending with
    | some r => r.inImage s ∧ c.stack.length < s.cfg.qtMaxDepth
    | none => c.stack.length ≤ s.cfg.qtMaxDepth

/-- The position inside an LZ77 group (10_state.md R46). -/
def Lz77Stage.ok : Lz77Stage → Prop
  | .decisions _ idx left _ => 1 ≤ left ∧ left ≤ idx + 1 ∧ idx ≤ 7
  | .header | .flag | .done => True

/-- A job that has been opened: it is the one CMD names, it passed validation, and its cursors and counts are within the
bounds of 10_state.md R43 to R46. -/
def Codec.ok (s : State) : Codec → Prop
  | .rle c => currentJob s = some .rle ∧ validate .rle s = none ∧ c.p ≤ s.srcLen.toNat ∧ c.o ≤ s.dstLen.toNat
  | .lzw c =>
    currentJob s = some .lzw ∧ validate .lzw s = none ∧ c.off ≤ 8 * s.srcLen.toNat ∧ c.o ≤ s.dstLen.toNat ∧
      c.ok s.cfg.growOffset
  | .qt c => currentJob s = some .qt ∧ validate .qt s = none ∧ c.ok s
  | .lz77 c =>
    currentJob s = some (.lz77 c.ctab) ∧ validate (.lz77 c.ctab) s = none ∧ c.p ≤ s.srcLen.toNat ∧
      c.o ≤ s.dstLen.toNat ∧ c.groups < 65536 ∧ c.tailBits ≤ flagBits ∧ c.stage.ok ∧ (c.stage = .header → c.p = 0)

/-- The job invariant. -/
def State.jobOk (s : State) : Prop := ∀ c, s.codec = some c → c.ok s

/-- The invariant of the machine. -/
def State.Inv (s : State) : Prop := s.cfg.valid = true ∧ s.memoryOk ∧ s.controlOk ∧ s.jobOk

end Sys2Proof.Machine
end

