-- ==== Sys2Proof/Certificates/Slice0/Obligations.lean ====
section
/-! DEFINITION. The statements for the provers, each a Prop named after what it states. -/

section

open Sys2Proof Sys2Proof.Machine

/-! ## Encoding -/

/-- 30_encoding.md R80 to R91: whatever bits follow it, an encoded instruction decodes to itself, in every context it can
stand in and with every operand its encoding admits. -/
def Obligations.DecodeOfEncode : Prop :=
  ∀ (ctx : Ctx) (i : Instr) (rest : Word), ctx.wf = true → i.fits ctx = true →
    decode ctx (encode ctx i ||| (rest <<< usedBits ctx i)) = .ok i

/-- 30_encoding.md R81, R83, R93: in every context a decoder can stand in, every word decodes; what it decodes to stands in
that context, is well formed, and encodes to the bits that were used. -/
def Obligations.EncodeOfDecode : Prop :=
  ∀ (ctx : Ctx) (w : Word), ctx.wf = true →
    ∃ i, decode ctx w = .ok i ∧ i.fits ctx = true ∧ i.wf = true ∧
      (encode ctx i).toNat = w.toNat % 2 ^ usedBits ctx i

/-- 30_encoding.md R82, R84, R87, R88, R90, R91: words written out from those tables. -/
def Obligations.WrittenWordsDecode : Prop :=
  decode .command 0x00000014#32 = .ok (.lz77Ct false) ∧
  decode .command 0x00000027#32 = .ok (.sampleMir false) ∧
  decode .command 0x000000C1#32 = .ok (.rle false false) ∧
  decode .rle 0x00000003#32 = .ok (.rleLit 3) ∧
  decode .rle 0x00005A84#32 = .ok (.rleRun 4 0x5A) ∧
  decode (.lzw 9 259 true) 0x00000103#32 = .ok (.lzwKwkwk 0x103) ∧
  decode (.lzw 9 257 false) 0x00000101#32 = .ok (.lzwBad 0x101) ∧
  decode .qtMask 0x00000018#32 = .ok (.qtMask 8) ∧
  decode (.qtQuadrant false 16 16) 0x00000100#32 = .ok (.qtLeafFill 1) ∧
  decode .lz77Hdr 0x00040102#32 = .ok (.lz77Hdr 0x0102 4) ∧
  decode (.lz77Decision true) 0x00000012#32 = .ok (.lz77Bref 2 1)

/-- 30_encoding.md R81: the job a CMD word runs depends on OP, on CTAB_EN for LZ77 alone, on MIRROR for SAMPLE alone, and
never on bits 31:6. -/
def Obligations.CommandDecodeUsesOpAndItsOption : Prop :=
  ∀ (v w : Word) (s : State), v.extractLsb' 0 4 = w.extractLsb' 0 4 →
    (v.extractLsb' 0 4 = 4#4 → v.getLsbD 4 = w.getLsbD 4) → (v.extractLsb' 0 4 = 7#4 → v.getLsbD 5 = w.getLsbD 5) →
    exec (decodeCommand v) s = exec (decodeCommand w) s

/-- 00_scope.md R11, 43_quadtree.md R180, R181: bitlen is the least width; bitcount1 is min(8, bitlen(area - 1)), so 1 to 8
bits for a leaf above one pixel, the least width that holds area - 1 up to area 256 and 8 from there on, and a leaf's
firstval is that many bits of the stream, so that colorCount = firstval + 1 is at most 2^bitcount1; bitcount2 is
bitlen(colorCount - 1), the least width with which colorCount entries can be indexed. -/
def Obligations.BitlenIsLeastWidth : Prop :=
  (∀ n k, n < 2 ^ k ↔ bitlen n ≤ k) ∧
  (∀ area, bitcount1 area = min 8 (bitlen (area - 1))) ∧
  (∀ area, 2 ≤ area →
    1 ≤ bitcount1 area ∧ bitcount1 area ≤ 8 ∧ 2 ^ bitcount1 area ≤ 256 ∧
      (area ≤ 256 → ∀ k, area ≤ 2 ^ k ↔ bitcount1 area ≤ k) ∧ (256 ≤ area → bitcount1 area = 8)) ∧
  (∀ w h word, let firstval := word.toNat % 2 ^ bitcount1 (w * h)
    (∀ f, decode (.qtQuadrant false w h) word = .ok (.qtLeafRaw f) → f.toNat = firstval) ∧
    (∀ v, decode (.qtQuadrant false w h) word = .ok (.qtLeafFill v) → firstval = 0) ∧
    (∀ f, decode (.qtQuadrant false w h) word = .ok (.qtLeafIdx f) → f.toNat = firstval)) ∧
  (∀ n, bitcount2 n = bitlen (n - 1)) ∧
  (∀ n k, 1 ≤ n → (n ≤ 2 ^ k ↔ bitcount2 n ≤ k))

/-! ## The bit reader -/

/-- 40_bitstream.md R117: the window form equals the reader for every n with s + n ≤ 24. -/
def Obligations.BitReadIsWindow : Prop :=
  ∀ (off n : Nat) (s : State), off % 8 + n ≤ 24 →
    bitRead off n s =
      ((srcZ (off / 8) s).toNat + 256 * (srcZ (off / 8 + 1) s).toNat + 65536 * (srcZ (off / 8 + 2) s).toNat) /
        2 ^ (off % 8) % 2 ^ n

/-- 40_bitstream.md R116: successive reads are contiguous; R114, R118, R119: a read past the end and a read of no bits
give 0. -/
def Obligations.BitReadsAreContiguous : Prop :=
  ∀ (off a b : Nat) (s : State),
    bitRead off (a + b) s = bitRead off a s + (bitRead (off + a) b s) * 2 ^ a ∧ bitRead off a s < 2 ^ a ∧
      bitRead off 0 s = 0 ∧ (8 * s.srcLen.toNat ≤ off → bitRead off a s = 0)

/-! ## Registers, reset and the host -/

/-- 70_reset_and_hazards.md R300, R301 and 10_state.md R49: what a reset leaves, IDLE or BUSY. The parameters, the turns and
the values read are the model's own fields. The model's choice, log 20: a write region that passes the top of memory (of a
job not yet validated) is cut there before its bytes are drawn; R301 names no cut. -/
def Obligations.ResetSetsEveryRegister : Prop :=
  ∀ (s : State) (rest : List Turn), s.turns = .reset :: rest →
    ∃ t, step s = .next t ∧ (∀ off, readRegister off t = 0) ∧ t.busy = false ∧ t.isDone = false ∧ t.codec = none ∧
      t.turns = rest ∧ t.cfg = s.cfg ∧ t.reads = s.reads ∧ (s.busy = false → t.mem = s.mem) ∧
      (s.busy = true → drawnRegion ((currentWrites s).clip s.cfg) s t)

/-- 10_state.md R49, 70_reset_and_hazards.md R302: the machine right after reset reads 0 everywhere, is IDLE, and with no
host act to come it waits. -/
def Obligations.ResetStateWaits : Prop :=
  (∀ off, readRegister off State.reset = 0) ∧ State.reset.busy = false ∧ State.reset.codec = none ∧
    step State.reset = .next State.reset

/-- 70_reset_and_hazards.md R303: the job a CMD write right after a reset runs. With CTAB_EN = 1 the 64-byte colour table
must exist, else ERR_RANGE comes first (60_exceptions.md R275). -/
def Obligations.FirstJobAfterReset : Prop :=
  ∀ (s : State) (v : Word),
    let r := startJob v (resetBlock s)
    let op := v.extractLsb' 0 4
    ∃ t, engineTurn r = .next t ∧ t.mem = r.mem ∧
      (op = 1#4 ∨ op = 2#4 ∨ op = 3#4 ∨ op = 5#4 ∨ op = 6#4 → doneWith false false false 0 r t) ∧
      (op = 4#4 ∧ (v.getLsbD 4 = false ∨ 64 ≤ s.cfg.memBytes) → refusedWith 4 r t) ∧
      (op = 4#4 ∧ v.getLsbD 4 = true ∧ s.cfg.memBytes < 64 → refusedWith 2 r t) ∧
      (op = 7#4 → refusedWith 8 r t) ∧
      (op = 0#4 ∨ 8#4 ≤ op → refusedWith 1 r t)

/-- 10_state.md R23: which register an offset is; and while IDLE a write to a job register is read back whole, and no other
register and no byte changes. -/
def Obligations.JobRegisterWriteReadsBack : Prop :=
  (∀ s : State,
    readRegister 0x00 s = s.cmd ∧ readRegister 0x04 s = s.status ∧ readRegister 0x08 s = s.srcBase ∧
      readRegister 0x0C s = s.srcLen ∧ readRegister 0x10 s = s.dstBase ∧ readRegister 0x14 s = s.dstLen ∧
      readRegister 0x18 s = s.auxBase ∧ readRegister 0x1C s = s.auxLen ∧ readRegister 0x20 s = s.dim ∧
      readRegister 0x24 s = s.xy ∧ readRegister 0x28 s = s.result) ∧
  ∀ (s : State) (rest : List Turn) (off : Nat) (v : Word), s.busy = false →
    off ∈ [0x08, 0x0C, 0x10, 0x14, 0x18, 0x1C, 0x20, 0x24] → s.turns = .writeReg (s.cfg.regBase + off) 4 v :: rest →
    ∃ t, step s = .next t ∧ readRegister off t = v ∧ (∀ o, o ≠ off → readRegister o t = readRegister o s) ∧
      t.mem = s.mem ∧ t.codec = s.codec ∧ t.draws = s.draws ∧ t.reads = s.reads ∧ t.turns = rest ∧ t.cfg = s.cfg

/-- 10_state.md R35 (and R23 for STATUS and RESULT): reserved offsets read 0; a write to them or to a read-only register is
ignored, IDLE or BUSY. The third clause is the model's choice (log 7): an access outside the block's 64 offsets, of which
R35 says only that the platform decides, is refused under its own name. -/
def Obligations.ReservedOffsetsReadZeroIgnoreWrites : Prop :=
  ∀ (s : State) (rest : List Turn) (off : Nat) (v : Word),
    (0x2C ≤ off → off < 0x40 → readRegister off s = 0) ∧
    (off % 4 = 0 → (off = 0x04 ∨ 0x28 ≤ off) → off < 0x40 →
      s.turns = .writeReg (s.cfg.regBase + off) 4 v :: rest → step s = .next { s with turns := rest }) ∧
    (∀ addr width, (addr < s.cfg.regBase ∨ s.cfg.regBase + 0x40 ≤ addr) →
      (s.turns = .writeReg addr width v :: rest ∨ s.turns = .readReg addr width :: rest) →
      step s = .refused .outsideRegisterBlock)

/-- 10_state.md R36: an access of another width or at another offset is refused. -/
def Obligations.MisshapenRegisterAccessRefused : Prop :=
  ∀ (s : State) (rest : List Turn) (off width : Nat) (v : Word), off < 0x40 → (width ≠ 4 ∨ off % 4 ≠ 0) →
    (s.turns = .writeReg (s.cfg.regBase + off) width v :: rest ∨ s.turns = .readReg (s.cfg.regBase + off) width :: rest) →
    step s = .refused .badRegisterAccess

/-- 10_state.md R25, R27 (and R24 for CMD's bits): the CMD write that starts a job, and one while BUSY. -/
def Obligations.CmdWriteStartsJob : Prop :=
  ∀ (s : State) (rest : List Turn) (v : Word), s.turns = .writeReg s.cfg.regBase 4 v :: rest →
    (s.busy = false →
      ∃ t, step s = .next t ∧ t.cmd = v &&& 0x3F#32 ∧ t.busy = true ∧ t.isDone = false ∧ t.padded = false ∧
        t.inexh = false ∧ t.badcode = false ∧ t.err = 0 ∧ t.result = s.result ∧ t.codec = none ∧
        (∀ o, o ≠ 0x00 → o ≠ 0x04 → readRegister o t = readRegister o s) ∧ t.mem = s.mem ∧ t.draws = s.draws ∧
        t.reads = s.reads ∧ t.turns = rest ∧ t.cfg = s.cfg ∧ engineTurn t = exec (decodeCommand v) t) ∧
    (s.busy = true → step s = .next { s with turns := rest })

/-- 10_state.md R37: while BUSY every register write is ignored, and a read answers. -/
def Obligations.BusyIgnoresRegisterWrites : Prop :=
  ∀ (s : State) (rest : List Turn) (off : Nat) (v : Word), s.busy = true → off % 4 = 0 → off < 0x40 →
    (s.turns = .writeReg (s.cfg.regBase + off) 4 v :: rest → step s = .next { s with turns := rest }) ∧
    (s.turns = .readReg (s.cfg.regBase + off) 4 :: rest →
      step s = .next { s with turns := rest, reads := readRegister off s :: s.reads })

/-- 10_state.md R38: a register read changes nothing but what the host has read; a write to another register than CMD starts
nothing. -/
def Obligations.RegisterReadHasNoEffect : Prop :=
  ∀ (s : State) (rest : List Turn) (off : Nat) (v : Word), off % 4 = 0 → off < 0x40 →
    (s.turns = .readReg (s.cfg.regBase + off) 4 :: rest →
      step s = .next { s with turns := rest, reads := readRegister off s :: s.reads }) ∧
    (off ≠ 0 → s.turns = .writeReg (s.cfg.regBase + off) 4 v :: rest →
      ∃ t, step s = .next t ∧ t.cmd = s.cmd ∧ t.status = s.status ∧ t.result = s.result ∧ t.codec = s.codec ∧
        t.mem = s.mem ∧ t.draws = s.draws ∧ t.reads = s.reads)

/-- 20_memory.md R62, R63, R74: host accesses to a byte of buffer memory. The model's choice, log 29: while BUSY a host read of
a byte of a read region returns the byte; R73 promises nothing about it and R74 draws the write region alone. -/
def Obligations.HostMemoryAccess : Prop :=
  ∀ (s : State) (rest : List Turn) (a : Nat) (v : Byte), a < s.cfg.memBytes →
    (s.turns = .writeMem a v :: rest →
      (s.busy = true ∧ (∃ r ∈ currentRegions s, r.has a = true) → step s = .refused .hostWriteInJobRegion) ∧
      (s.busy = false ∨ (∀ r ∈ currentRegions s, r.has a = false) →
        ∃ t, step s = .next t ∧ memRead a t = v ∧ (∀ b, b ≠ a → memRead b t = memRead b s) ∧
          t = { s with turns := rest, mem := t.mem })) ∧
    (s.turns = .readMem a :: rest →
      (s.busy = true ∧ (currentWrites s).has a = true →
        step s = .next { s with turns := rest, draws := s.draws + 1,
                                reads := (Config.freeByte s.draws).setWidth 32 :: s.reads }) ∧
      (s.busy = false ∨ (currentWrites s).has a = false →
        step s = .next { s with turns := rest, reads := (memRead a s).setWidth 32 :: s.reads }))

/-- 20_memory.md R62, R63: a byte written is the byte read there, every other byte reads as before, and the memory keeps its
canonical form. -/
def Obligations.MemoryReadAfterWrite : Prop :=
  ∀ (s : State) (a b : Nat) (v : Byte),
    memRead a (memWrite a v s) = v ∧ (b ≠ a → memRead b (memWrite a v s) = memRead b s) ∧
      (Memory.wf s.mem = true → Memory.wf (memWrite a v s).mem = true)

/-- 30_encoding.md R96: what JOB expands to. -/
def Obligations.JobNotationExpands : Prop :=
  ∀ (c : Config) (i : Instr) (sb sn db dn ab an : Word) (w h x y : BitVec 16),
    job c i { src := some (sb, sn), dst := some (db, dn), aux := some (ab, an), dim := some (w, h), xy := some (x, y) } =
      [.writeReg (c.regBase + 0x08) 4 sb, .writeReg (c.regBase + 0x0C) 4 sn, .writeReg (c.regBase + 0x10) 4 db,
       .writeReg (c.regBase + 0x14) 4 dn, .writeReg (c.regBase + 0x18) 4 ab, .writeReg (c.regBase + 0x1C) 4 an,
       .writeReg (c.regBase + 0x20) 4 (BitVec.ofNat 32 (h.toNat * 65536 + w.toNat)),
       .writeReg (c.regBase + 0x24) 4 (BitVec.ofNat 32 (y.toNat * 65536 + x.toNat)),
       .writeReg (c.regBase + 0x00) 4 (encode .command i), .poll] ∧
    job c i {} = [.writeReg (c.regBase + 0x00) 4 (encode .command i), .poll]

/-- 47_host_formats.md R262 (`src=COLBUF,<RESULT of LZ77>`; log 26): while IDLE, reading RESULT and writing what was read
to SRC_LEN leaves there the RESULT of the job before, whatever it was, and changes no other register and no byte. -/
def Obligations.ResultIsHandedOn : Prop :=
  ∀ (s : State) (rest : List Turn) (colBuf : Word), s.busy = false →
    s.turns = Turn.read s.cfg 0x28 :: Turn.write s.cfg 0x08 colBuf :: Turn.writeLastRead s.cfg 0x0C :: rest →
    ∃ t, runFor step 3 s = .next t ∧ readRegister 0x08 t = colBuf ∧ readRegister 0x0C t = readRegister 0x28 s ∧
      (∀ off, off ≠ 0x08 → off ≠ 0x0C → readRegister off t = readRegister off s) ∧ t.mem = s.mem ∧ t.codec = s.codec ∧
      t.draws = s.draws ∧ t.reads = readRegister 0x28 s :: s.reads ∧ t.turns = rest ∧ t.cfg = s.cfg

/-- 47_host_formats.md R257, R262: the jobs of the screen and sprite paths, operand by operand in R96's order; every length of
an image is W*H and fits its register. -/
def Obligations.HostPathsExpand : Prop :=
  ∀ (c : Config) (lowT highT : PlaneCodec) (lb ln hb hn lob lon hib hin img : Word) (w h : BitVec 16),
    let write (off : Nat) (v : Word) : Turn := .writeReg (c.regBase + off) 4 v
    let op (p : PlaneCodec) : Word := if p = .rle then 1#32 else 2#32
    let area (w h : Nat) : Word := BitVec.ofNat 32 (w * h)
    (pixelCount (w, h)).toNat = w.toNat * h.toNat ∧
    nibblePath c lowT highT (lb, ln) (hb, hn) (lob, lon) (hib, hin) img (w, h) =
      [write 0x08 lb, write 0x0C ln, write 0x10 lob, write 0x14 lon, write 0 (op lowT), .poll,
       write 0x08 hb, write 0x0C hn, write 0x10 hib, write 0x14 hin, write 0 (op highT), .poll,
       write 0x08 lob, write 0x0C lon, write 0x10 img, write 0x14 (area w.toNat h.toNat), write 0x18 hib,
       write 0x1C hin, write 0 5#32, .poll] ∧
    quadtreePath c (lb, ln) img (w, h) =
      [write 0x08 lb, write 0x0C ln, write 0x10 img, write 0x14 (area w.toNat h.toNat),
       write 0x20 (BitVec.ofNat 32 (h.toNat * 65536 + w.toNat)), write 0 3#32, .poll] ∧
    ∀ (ct : Bool) (ctab colBuf sprite : Word) (sw sh : Byte),
      spritePath c ct (lb, ln) ctab colBuf sprite sw sh =
        [write 0x08 lb, write 0x0C ln, write 0x10 colBuf, write 0x14 (area sw.toNat sh.toNat), write 0x18 ctab,
         write 0x1C 64#32, write 0 (if ct then 0x14#32 else 4#32), .poll,
         .readReg (c.regBase + 0x28) 4, write 0x08 colBuf, .writeRegLastRead (c.regBase + 0x0C) 4,
         write 0x10 sprite, write 0x14 (area sw.toNat sh.toNat),
         write 0x20 (BitVec.ofNat 32 (sh.toNat * 65536 + sw.toNat)), write 0 6#32, .poll]

/-! ## The engine's step -/

/-- 10_state.md R40, 30_encoding.md R94: a step runs what the decoder reads where the engine stands: the CMD word of a job just
started, or the bits at the cursor of the job. -/
def Obligations.StepRunsDecodedInstruction : Prop :=
  ∀ (s : State) (rest : List Turn), s.busy = true →
    (s.codec = none → s.turns = [] → step s = exec (decodeCommand s.cmd) s) ∧
    (s.codec = none → s.turns = .engine :: rest →
      step s = exec (decodeCommand s.cmd) { s with turns := rest }) ∧
    (∀ c i, s.codec = some c → fetch c s = .token i → s.turns = [] → step s = exec i s) ∧
    (∀ (c : RleState) i, c.o ≠ s.dstLen.toNat → c.p < s.srcLen.toNat →
      ¬((srcByte c.p s).getLsbD 7 = true ∧ s.srcLen.toNat ≤ c.p + 1) → decode .rle (window (8 * c.p) s) = .ok i →
      fetch (.rle c) s = .token i) ∧
    (∀ (c : LzwState) i, c.o ≠ s.dstLen.toNat → c.off + c.width ≤ 8 * s.srcLen.toNat →
      decode (.lzw c.width c.next c.prev.isSome) (window c.off s) = .ok i → fetch (.lzw c) s = .token i) ∧
    (∀ (c : QtState) r i, c.pending = some r → decode .qtMask (window c.off s) = .ok i → fetch (.qt c) s = .token i) ∧
    (∀ (c : QtState) f fs i, c.pending = none → c.stack = f :: fs → f.next < 4 →
      decode (.qtQuadrant (maskBit s.cfg.maskOrder f.mask f.next) (f.rect.quadrant f.next).w
        (f.rect.quadrant f.next).h) (window c.off s) = .ok i → fetch (.qt c) s = .token i) ∧
    (∀ (c : Lz77State) i, c.stage = .header → 3 ≤ s.srcLen.toNat → decode .lz77Hdr (window (8 * c.p) s) = .ok i →
      fetch (.lz77 c) s = .token i) ∧
    (∀ (c : Lz77State) i, c.stage = .flag → c.p < s.srcLen.toNat → decode .lz77Flag (window (8 * c.p) s) = .ok i →
      fetch (.lz77 c) s = .token i) ∧
    (∀ (c : Lz77State) f idx left tail i, c.stage = .decisions f idx left tail →
      c.p + (if f.getLsbD idx then 2 else 1) ≤ s.srcLen.toNat →
      decode (.lz77Decision (f.getLsbD idx)) (window (8 * c.p) s) = .ok i → fetch (.lz77 c) s = .token i)

/-- The model's choice (logs 11, 12): an instruction of the opcode table laid by `withFetchWord` is the one the next step
runs, whatever the state it is laid into. -/
def Obligations.TableWordRuns : Prop :=
  ∀ (s : State) (nbits w : Nat) (i : Instr), decodeTableWord nbits w = some i →
    step (s.withFetchWord nbits w) = exec i (s.withFetchWord nbits w)

/-- 10_state.md R40: while IDLE the engine has no step. -/
def Obligations.IdleEngineHasNoStep : Prop :=
  ∀ (s : State), s.busy = false →
    engineTurn s = .next s ∧ engineFineTurn s = .next s ∧ (s.turns = [] → step s = .next s)

/-- 20_memory.md R69: the regions of every job. -/
def Obligations.JobRegionsTable : Prop :=
  ∀ (s : State),
    let src : Region := ⟨s.srcBase.toNat, s.srcLen.toNat⟩
    let dst : Region := ⟨s.dstBase.toNat, s.dstLen.toNat⟩
    let area := (s.dim.extractLsb' 0 16).toNat * (s.dim.extractLsb' 16 16).toNat
    (∀ k, k = .rle ∨ k = .lzw → readRegions k s = [src] ∧ writeRegion k s = dst) ∧
    (∀ k, k = .qt ∨ k = .xpose → readRegions k s = [src] ∧ writeRegion k s = ⟨s.dstBase.toNat, area⟩) ∧
    readRegions (.lz77 false) s = [src] ∧ readRegions (.lz77 true) s = [src, ⟨s.auxBase.toNat, 64⟩] ∧
    (∀ c, writeRegion (.lz77 c) s = dst) ∧
    readRegions .nmerge s = [src, ⟨s.auxBase.toNat, s.auxLen.toNat⟩] ∧ writeRegion .nmerge s = dst ∧
    readRegions .sample s = [⟨s.srcBase.toNat, area⟩] ∧ (writeRegion .sample s).len = 0

/-- 60_exceptions.md R275, 20_memory.md R70, R71: which error validation finds, in its order, that it finds no other, and that
the job step reports it (BAD_OP first of all) before a byte is written. -/
def Obligations.ValidationOrder : Prop :=
  ∀ (k : JobKind) (s : State),
    let bad := ∃ r ∈ writeRegion k s :: readRegions k s, r.len ≠ 0 ∧ 2 ^ s.cfg.addrW < r.base + r.len
    let overlap := ∃ r ∈ readRegions k s, ∃ a, (writeRegion k s).has a = true ∧ r.has a = true
    let coord := k = .sample ∧ (s.width ≤ s.coordX ∨ s.height ≤ s.coordY)
    let isLz77 := k = .lz77 false ∨ k = .lz77 true
    let hdr := isLz77 ∧ s.srcLen.toNat < 3
    let tail := isLz77 ∧ 3 ≤ s.srcLen.toNat ∧ 8 < (srcByte 2 s).toNat
    (validate k s = some .range ↔ bad) ∧ (validate k s = some .overlap ↔ ¬bad ∧ overlap) ∧
      (validate k s = some .coord ↔ ¬bad ∧ ¬overlap ∧ coord) ∧ (validate k s = some .hdr ↔ ¬bad ∧ ¬overlap ∧ hdr) ∧
      (validate k s = some .tail ↔ ¬bad ∧ ¬overlap ∧ tail) ∧
      (validate k s = none ↔ ¬bad ∧ ¬overlap ∧ ¬coord ∧ ¬hdr ∧ ¬tail) ∧
      (currentJob s = some k → ∀ e, validate k s = some e →
        ∃ t, exec (decodeCommand s.cmd) s = .next t ∧ refusedWith e.code s t) ∧
      (currentJob s = none → ∃ t, exec (decodeCommand s.cmd) s = .next t ∧ refusedWith 1 s t)

/-- 60_exceptions.md R272, R271: what a job that validation turns away leaves; and that any job step that reports an error is
an error completion, its code 1 to 8, memory untouched by validation errors and drawn by run-time errors. -/
def Obligations.ErrorCompletion : Prop :=
  ∀ (s : State), s.Inv → s.busy = true → s.codec = none →
    (∀ k e, currentJob s = some k → validate k s = some e →
      ∃ t, engineTurn s = .next t ∧ refusedWith e.code s t) ∧
    (∀ t, engineTurn s = .next t → t.err ≠ 0 →
      failedWith t.err s t ∧ t.err ≤ 8 ∧
        (t.err ≠ 6 → t.err ≠ 7 → t.mem = s.mem ∧ t.draws = s.draws) ∧
        (t.err = 6 ∨ t.err = 7 → drawnRegion (currentWrites s) s t))

/-- 60_exceptions.md R273: a reserved command ends at once with ERR_BAD_OP. -/
def Obligations.ReservedCommandFails : Prop :=
  ∀ (s : State) (ctab mirror : Bool) (low : BitVec 3),
    (∃ t, exec (.reserved0 ctab mirror) s = .next t ∧ t.status = 0x00000102#32 ∧ refusedWith 1 s t) ∧
    (∃ t, exec (.reserved8F low ctab mirror) s = .next t ∧ t.status = 0x00000102#32 ∧ refusedWith 1 s t)

/-! ## RLE -/

/-- 41_rle.md R130, R126, R127: a validated RLE job writes take(L, expand(src) ++ zeros(L)) and nothing else. -/
def Obligations.RleJobPadsOrTruncates : Prop :=
  ∀ (s : State) (ctab mirror : Bool), validate .rle s = none →
    let l := s.dstLen.toNat
    let produced := rleExpand (srcBytes s)
    ∃ t, exec (.rle ctab mirror) s = .next t ∧ outBytes l t = padTruncate l produced ∧
      doneWith (decide (produced.length < l)) (decide (produced.length < l)) false (min l produced.length) s t ∧
      keepsMemoryOutside (dstRegion s) s t

/-- 41_rle.md R123, R125: a literal run, cut where the output is full or the source ends. -/
def Obligations.RleLiteralRun : Prop :=
  ∀ (s : State) (c : RleState) (count : BitVec 7), s.codec = some (.rle c) → s.jobOk →
    let n := min count.toNat (min (s.dstLen.toNat - c.o) (s.srcLen.toNat - (c.p + 1)))
    ∃ t, exec (.rleLit count) s = .next t ∧ t.codec = some (.rle ⟨c.p + 1 + n, c.o + n⟩) ∧
      (∀ j, j < n → outByte (c.o + j) t = srcByte (c.p + 1 + j) s) ∧ tokenFrame s t c.o (c.o + n) ∧
      (n < count.toNat → fetch (.rle ⟨c.p + 1 + n, c.o + n⟩) t = .finish (decide (c.o + n < s.dstLen.toNat)))

/-- 41_rle.md R124, R125: a repeat run, cut where the output is full. -/
def Obligations.RleRepeatRun : Prop :=
  ∀ (s : State) (c : RleState) (count : BitVec 7) (v : Byte), s.codec = some (.rle c) → s.jobOk →
    let n := min count.toNat (s.dstLen.toNat - c.o)
    ∃ t, exec (.rleRun count v) s = .next t ∧ t.codec = some (.rle ⟨c.p + 2, c.o + n⟩) ∧
      (∀ j, j < n → outByte (c.o + j) t = v) ∧ tokenFrame s t c.o (c.o + n) ∧
      (n < count.toNat → fetch (.rle ⟨c.p + 2, c.o + n⟩) t = .finish false)

/-! ## LZW -/

/-- 42_lzw.md R152, R153 (and R141): a validated LZW job writes the first L bytes of what the codes produce, padded with
zeros; BADCODE and INEXH say what stopped it short of L. -/
def Obligations.LzwJobPadsOrTruncates : Prop :=
  ∀ (s : State) (ctab mirror : Bool), validate .lzw s = none →
    let l := s.dstLen.toNat
    let r := lzwExpand s.cfg.growOffset (srcBytes s)
    let short := decide (r.1.length < l)
    ∃ t, exec (.lzw ctab mirror) s = .next t ∧ outBytes l t = padTruncate l r.1 ∧
      doneWith short (short && !r.2) (short && r.2) (min l r.1.length) s t ∧ keepsMemoryOutside (dstRegion s) s t

/-- 42_lzw.md R144: the clear code. -/
def Obligations.LzwClearResets : Prop :=
  ∀ (s : State) (c : LzwState), s.codec = some (.lzw c) →
    exec .lzwClear s =
      .next { s with codec := some (.lzw ⟨c.off + c.width, 9, [], none, c.o⟩) }

/-- 42_lzw.md R145 to R150: the codes that resolve, their sequence by class. -/
def Obligations.LzwCodesResolve : Prop :=
  ∀ (s : State) (c : LzwState), s.codec = some (.lzw c) → s.jobOk →
    (∀ byte, ∃ t, exec (.lzwLit byte) s = .next t ∧ lzwAfter c [byte] s t) ∧
    (∀ code : BitVec 12, 257 ≤ code.toNat → code.toNat < c.next →
      ∃ seq t, c.dict[code.toNat - 257]? = some seq ∧ exec (.lzwDict code) s = .next t ∧ lzwAfter c seq s t) ∧
    (∀ (code : BitVec 12) prev, code.toNat = c.next → c.prev = some prev →
      ∃ t, exec (.lzwKwkwk code) s = .next t ∧ lzwAfter c (prev ++ prev.take 1) s t)

/-- 42_lzw.md R145, R152: an invalid code stops decoding with BADCODE and the output is padded. -/
def Obligations.LzwBadCodeStops : Prop :=
  ∀ (s : State) (c : LzwState) (code : BitVec 12), s.codec = some (.lzw c) → s.jobOk →
    ∃ t, exec (.lzwBad code) s = .next t ∧ doneWith (decide (c.o < s.dstLen.toNat)) false true c.o s t ∧
      (∀ i, c.o ≤ i → i < s.dstLen.toNat → outByte i t = 0) ∧
      keepsMemoryOutside ⟨outAddr s c.o, s.dstLen.toNat - c.o⟩ s t

/-- 42_lzw.md R155: the decoder's invariants hold at the start and are kept by every token. -/
def Obligations.LzwInvariantKept : Prop :=
  (∀ g, LzwState.start.ok g) ∧
  ∀ (s t : State) (i : Instr) (c d : LzwState), s.codec = some (.lzw c) → c.ok s.cfg.growOffset → exec i s = .next t →
    (i = .lzwClear ∨ (∃ b, i = .lzwLit b) ∨ (∃ code, i = .lzwDict code ∧ 257 ≤ code.toNat) ∨
      ∃ code, i = .lzwKwkwk code) →
    t.codec = some (.lzw d) → d.ok s.cfg.growOffset

/-! ## Quadtree -/

/-- 43_quadtree.md R172: the job, run quadrant by quadrant over a stack, is the recursion of the pseudocode, whose
`MaskBit(mask, i)` is bit i under LSB_FIRST and bit 3 - i under MSB_FIRST (30_encoding.md R89). -/
def Obligations.QtJobIsRecursion : Prop :=
  (∀ (mask : BitVec 4) (i : Nat), i < 4 →
    maskBit .lsbFirst mask i = mask.getLsbD i ∧ maskBit .msbFirst mask i = mask.getLsbD (3 - i)) ∧
  ∀ (s : State) (ctab mirror : Bool), s.memoryOk → validate .qt s = none → exec (.qt ctab mirror) s = .next (refQt s)

/-- 43_quadtree.md R175, R190: the four quadrants of a region partition it. -/
def Obligations.QuadrantsPartition : Prop :=
  ∀ (r : Rect) (px py : Nat),
    (r.holds px py = true ↔ ∃ i, i < 4 ∧ (r.quadrant i).holds px py = true) ∧
      (∀ i j, i < 4 → j < 4 → (r.quadrant i).holds px py = true → (r.quadrant j).holds px py = true → i = j) ∧
      r.quadrant 0 = ⟨r.x, r.y, r.w / 2, r.h / 2⟩ ∧
      r.quadrant 1 = ⟨r.x + r.w / 2, r.y, r.w - r.w / 2, r.h / 2⟩ ∧
      r.quadrant 2 = ⟨r.x, r.y + r.h / 2, r.w / 2, r.h - r.h / 2⟩ ∧
      r.quadrant 3 = ⟨r.x + r.w / 2, r.y + r.h / 2, r.w - r.w / 2, r.h - r.h / 2⟩

/-- 43_quadtree.md R176, R177: a mask opens its region, quadrant 0 next. -/
def Obligations.QtMaskOpensRegion : Prop :=
  ∀ (s : State) (c : QtState) (r : Rect) (mask : BitVec 4), s.codec = some (.qt c) → c.pending = some r →
    exec (.qtMask mask) s = .next { s with codec := some (.qt ⟨c.off + 4, none, ⟨r, mask, 0⟩ :: c.stack⟩) }

/-- 43_quadtree.md R173, R174, R175: a subdivided quadrant is the next region, is passed where it is empty, and ends the job
where it would be deeper than QT_MAX_DEPTH. -/
def Obligations.QtSubdivision : Prop :=
  ∀ (s : State) (c : QtState) (f : Frame) (fs : List Frame), atQuadrant s c f fs →
    let q := f.rect.quadrant f.next
    let stack := { f with next := f.next + 1 } :: fs
    (q.w = 0 ∨ q.h = 0 → exec .qtSub s = .next { s with codec := some (.qt ⟨c.off, none, stack⟩) }) ∧
    (q.w ≠ 0 → q.h ≠ 0 → stack.length + 1 ≤ s.cfg.qtMaxDepth →
      exec .qtSub s = .next { s with codec := some (.qt ⟨c.off, some q, stack⟩) }) ∧
    (q.w ≠ 0 → q.h ≠ 0 → s.cfg.qtMaxDepth < stack.length + 1 →
      ∃ t, exec .qtSub s = .next t ∧ failedWith 7 s t ∧ drawnRegion (imageRegion s) s t)

/-- 43_quadtree.md R179: the 1x1 leaf. -/
def Obligations.QtLeafOnePixel : Prop :=
  ∀ (s : State) (c : QtState) (f : Frame) (fs : List Frame) (v : Byte), atQuadrant s c f fs →
    let q := f.rect.quadrant f.next
    q.w = 1 → q.h = 1 →
    ∃ t, exec (.qtLeaf1 v) s = .next t ∧ pixel q.x q.y t = v ∧ leafFrame s t f fs (c.off + 8)

/-- 43_quadtree.md R183, R187: the raw leaf, its values in column-major order behind firstval. -/
def Obligations.QtLeafRawPixels : Prop :=
  ∀ (s : State) (c : QtState) (f : Frame) (fs : List Frame) (firstval : Byte), atQuadrant s c f fs → s.jobOk →
    let q := f.rect.quadrant f.next
    let area := q.w * q.h
    let body := c.off + bitcount1 area
    1 ≤ q.w → 1 ≤ q.h →
    ∃ t, exec (.qtLeafRaw firstval) s = .next t ∧ leafFrame s t f fs (body + 8 * area) ∧
      ∀ dx dy, dx < q.w → dy < q.h →
        (pixel (q.x + dx) (q.y + dy) t).toNat = bitRead (body + 8 * (dx * q.h + dy)) 8 s

/-- 43_quadtree.md R184: the filled leaf is uniform. -/
def Obligations.QtLeafFillUniform : Prop :=
  ∀ (s : State) (c : QtState) (f : Frame) (fs : List Frame) (v : Byte), atQuadrant s c f fs → s.jobOk →
    let q := f.rect.quadrant f.next
    1 ≤ q.w → 1 ≤ q.h →
    ∃ t, exec (.qtLeafFill v) s = .next t ∧ leafFrame s t f fs (c.off + bitcount1 (q.w * q.h) + 8) ∧
      ∀ dx dy, dx < q.w → dy < q.h → pixel (q.x + dx) (q.y + dy) t = v

/-- 43_quadtree.md R185, R186: the indexed leaf; an index past the table gives 0. -/
def Obligations.QtLeafIndexedPixels : Prop :=
  ∀ (s : State) (c : QtState) (f : Frame) (fs : List Frame) (firstval : Byte), atQuadrant s c f fs → s.jobOk →
    let q := f.rect.quadrant f.next
    let colorCount := firstval.toNat + 1
    let b2 := bitcount2 colorCount
    let body := c.off + bitcount1 (q.w * q.h)
    1 ≤ q.w → 1 ≤ q.h →
    ∃ t, exec (.qtLeafIdx firstval) s = .next t ∧ leafFrame s t f fs (body + 8 * colorCount + b2 * (q.w * q.h)) ∧
      ∀ dx dy, dx < q.w → dy < q.h →
        let idx := bitRead (body + 8 * colorCount + b2 * (dx * q.h + dy)) b2 s
        (pixel (q.x + dx) (q.y + dy) t).toNat = if idx < colorCount then bitRead (body + 8 * idx) 8 s else 0

/-! ## LZ77 -/

/-- 44_lz77.md R203, R210, R211, R212: a validated LZ77 job writes what its groups produce and keeps the bytes behind it; more
than CAP bytes is ERR_OVERFLOW. -/
def Obligations.Lz77JobIsGroupDecoding : Prop :=
  ∀ (s : State) (ctab mirror : Bool), validate (.lz77 ctab) s = none →
    let r := lz77Expand (lz77Remap ctab s) (srcBytes s)
    ∃ t, exec (if ctab then .lz77Ct mirror else .lz77 mirror) s = .next t ∧
      (r.1.length ≤ s.dstLen.toNat →
        outBytes r.1.length t = r.1 ∧ doneWith false r.2 false r.1.length s t ∧
          keepsMemoryOutside ⟨s.dstBase.toNat, r.1.length⟩ s t) ∧
      (s.dstLen.toNat < r.1.length → failedWith 6 s t ∧ drawnRegion (dstRegion s) s t)

/-- 44_lz77.md R201, R202: the header, and a tail count above 8. -/
def Obligations.Lz77HeaderChecked : Prop :=
  ∀ (s : State) (c : Lz77State) (groups : BitVec 16) (tailBits : Byte), s.codec = some (.lz77 c) →
    (tailBits.toNat ≤ 8 →
      exec (.lz77Hdr groups tailBits) s =
        .next { s with codec := some (.lz77 { c with p := c.p + 3, groups := groups.toNat,
                                                     tailBits := tailBits.toNat, stage := .flag }) }) ∧
    (8 < tailBits.toNat → ∃ t, exec (.lz77Hdr groups tailBits) s = .next t ∧ refusedWith 5 s t)

/-- 44_lz77.md R204, R215: a flag byte starts a full group of eight decisions, or the tail group of tailBits decisions, the
most significant bit first. -/
def Obligations.Lz77FlagStartsGroup : Prop :=
  ∀ (s : State) (c : Lz77State) (flags : Byte), s.codec = some (.lz77 c) →
    (1 ≤ c.groups → exec (.lz77Flag flags) s =
      .next { s with codec := some (.lz77 { c with p := c.p + 1, groups := c.groups - 1,
                                                   stage := .decisions flags 7 8 false }) }) ∧
    (c.groups = 0 → 1 ≤ c.tailBits → exec (.lz77Flag flags) s =
      .next { s with codec := some (.lz77 { c with p := c.p + 1, stage := .decisions flags 7 c.tailBits true }) }) ∧
    (c.groups = 0 → c.tailBits = 0 → exec (.lz77Flag flags) s =
      .next { s with codec := some (.lz77 { c with p := c.p + 1, stage := .done }) })

/-- 44_lz77.md R205, R206, R210 (and R204 for the next decision): a literal, remapped below 64 under CTAB_EN; ERR_OVERFLOW
where the output is full. -/
def Obligations.Lz77Literal : Prop :=
  ∀ (s : State) (c : Lz77State) (flags : Byte) (idx left : Nat) (tail : Bool) (b : Byte), s.codec = some (.lz77 c) →
    c.stage = .decisions flags idx left tail → s.jobOk →
    let next := if left = 1 then (if tail then .done else .flag) else .decisions flags (idx - 1) (left - 1) tail
    (c.o < s.dstLen.toNat →
      ∃ t, exec (.lz77Lit b) s = .next t ∧ tokenFrame s t c.o (c.o + 1) ∧
        outByte c.o t = (if c.ctab = true ∧ b.toNat < 64 then memRead (s.auxBase.toNat + b.toNat) s else b) ∧
        t.codec = some (.lz77 { c with p := c.p + 1, o := c.o + 1, stage := next })) ∧
    (c.o = s.dstLen.toNat →
      ∃ t, exec (.lz77Lit b) s = .next t ∧ failedWith 6 s t ∧ drawnRegion (dstRegion s) s t)

/-- 44_lz77.md R207 to R210 (and R204 for the next decision): a backreference of `len + 3` bytes from `dist + 1` bytes back,
byte by byte, zeros before the start of the output; ERR_OVERFLOW where it does not fit. -/
def Obligations.Lz77Backreference : Prop :=
  ∀ (s : State) (c : Lz77State) (flags : Byte) (idx left : Nat) (tail : Bool) (len : BitVec 4) (dist : BitVec 12),
    s.codec = some (.lz77 c) → c.stage = .decisions flags idx left tail → s.jobOk →
    let n := len.toNat + 3
    let next := if left = 1 then (if tail then .done else .flag) else .decisions flags (idx - 1) (left - 1) tail
    (c.o + n ≤ s.dstLen.toNat →
      ∃ t, exec (.lz77Bref len dist) s = .next t ∧ tokenFrame s t c.o (c.o + n) ∧
        (∀ j, j < n → outByte (c.o + j) t =
          if dist.toNat + 1 ≤ c.o + j then outByte (c.o + j - (dist.toNat + 1)) t else 0) ∧
        t.codec = some (.lz77 { c with p := c.p + 2, o := c.o + n, stage := next })) ∧
    (s.dstLen.toNat < c.o + n →
      ∃ t, exec (.lz77Bref len dist) s = .next t ∧ failedWith 6 s t ∧ drawnRegion (dstRegion s) s t)

/-! ## Pixel reconstruction -/

/-- 45_pixel.md R231, R232, R233: the merge, its pixels and its frame. -/
def Obligations.NmergePixels : Prop :=
  ∀ (s : State) (ctab mirror : Bool), validate .nmerge s = none →
    let lo (i : Nat) : Nat := if i / 2 < s.srcLen.toNat then (memRead (s.srcBase.toNat + i / 2) s).toNat else 0
    let hi (i : Nat) : Nat := if i / 2 < s.auxLen.toNat then (memRead (s.auxBase.toNat + i / 2) s).toNat else 0
    ∃ t, exec (.nmerge ctab mirror) s = .next t ∧ doneWith false false false s.dstLen.toNat s t ∧
      (∀ i, i < s.dstLen.toNat → (outByte i t).toNat =
        if i % 2 = 0 then lo i % 16 + 16 * (hi i % 16) else lo i / 16 + 16 * (hi i / 16)) ∧
      keepsMemoryOutside (dstRegion s) s t

/-- 45_pixel.md R237, R238: the transpose, its bytes and its frame; W and H are the fields of DIM (10_state.md R32). -/
def Obligations.XposeTransposes : Prop :=
  (∀ s : State, s.width = (s.dim.extractLsb' 0 16).toNat ∧ s.height = (s.dim.extractLsb' 16 16).toNat) ∧
  ∀ (s : State) (ctab mirror : Bool), validate .xpose s = none →
    ∃ t, exec (.xpose ctab mirror) s = .next t ∧ doneWith false false false (s.width * s.height) s t ∧
      (∀ x y, x < s.width → y < s.height → outByte (y * s.width + x) t =
        if x * s.height + y < s.srcLen.toNat then memRead (s.srcBase.toNat + (x * s.height + y)) s else 0) ∧
      keepsMemoryOutside (imageRegion s) s t

/-- 45_pixel.md R242, R243, R244: the sampled pixel, mirrored or not; no byte of memory changes; a coordinate outside the
sprite is ERR_COORD; X and Y are the fields of XY (10_state.md R33). -/
def Obligations.SampleReadsOnePixel : Prop :=
  (∀ s : State, s.coordX = (s.xy.extractLsb' 0 16).toNat ∧ s.coordY = (s.xy.extractLsb' 16 16).toNat) ∧
  ∀ (s : State) (ctab mirror : Bool),
    let i : Instr := if mirror then .sampleMir ctab else .sample ctab
    (validate .sample s = none →
      ∃ t, exec i s = .next t ∧ t.mem = s.mem ∧
        doneWith false false false
          (memRead (s.srcBase.toNat + s.coordY * s.width +
            (if mirror then s.width - 1 - s.coordX else s.coordX)) s).toNat s t) ∧
    ((imageRegion { s with dstBase := s.srcBase }).inRange s.cfg = true →
      (s.width ≤ s.coordX ∨ s.height ≤ s.coordY) → ∃ t, exec i s = .next t ∧ refusedWith 8 s t)

/-! ## Whole-machine rules -/

/-- The invariant holds at reset. -/
def Obligations.InvariantHoldsAtReset : Prop := State.reset.Inv

/-- Every step keeps the invariant: the memory's canonical form and extent (20_memory.md R61), STATUS one of the words the
rules give it and CMD's reserved bits 0 (10_state.md R24, R26), internal codec state only while BUSY (R42) and within its
bounds (R43 to R46). -/
def Obligations.InvariantKeptByEveryStep : Prop := ∀ (s t : State), s.Inv → step s = .next t → t.Inv

/-- 20_memory.md R63: a write stores the byte at its address, and the engine's step writes only inside the job's write region
and changes no register but STATUS and RESULT. -/
def Obligations.EngineWritesOnlyWriteRegion : Prop :=
  (∀ (s : State) (a : Nat) (v : Byte), memRead a (memWrite a v s) = v) ∧
  ∀ (s t : State), s.Inv → s.busy = true → engineTurn s = .next t ∨ engineFineTurn s = .next t →
    keepsRegisters s t ∧ keepsMemoryOutside (currentWrites s) s t

/-- 10_state.md R41: every job step ends the job, and the finer steps end it after no more than the family's bound. -/
def Obligations.EveryJobTerminates : Prop :=
  ∀ (s : State), s.Inv → s.busy = true → s.codec = none →
    (∃ t, engineTurn s = .next t ∧ t.ended) ∧
    (∀ k, currentJob s = some k → ∃ n t, n ≤ jobBound k s ∧ runFor engineFineTurn n s = .next t ∧ t.ended)

/-- 10_state.md R40, 70_reset_and_hazards.md R308: the job step and the finer steps come to the same state. -/
def Obligations.FinerStepsReachTheJobStep : Prop :=
  ∀ (s t : State), s.Inv → s.busy = true → engineTurn s = .next t → s.codec = none →
    ∃ n, runFor engineFineTurn n s = .next t

/-- 70_reset_and_hazards.md R314: a host that polls while a job runs, or after it, sees DONE. -/
def Obligations.PollSeesDone : Prop :=
  ∀ (s : State) (rest : List Turn), s.Inv → s.turns = .poll :: rest → (s.busy = true ∨ s.isDone = true) →
    ∃ n t, runFor step n s = .next t ∧ t.turns = rest ∧ t.isDone = true ∧ t.busy = false ∧
      t.reads = t.status :: s.reads

/-- 00_scope.md R13: the outcome of a job is a function of the job registers and of the bytes of its read regions: what else
memory holds never shows in STATUS, in RESULT or, where the job succeeds, in the bytes it produces (LZ77 produces the first
RESULT bytes of its region). -/
def Obligations.OutcomeDependsOnReadRegions : Prop :=
  ∀ (s u : State) (k : JobKind), currentJob s = some k → keepsRegisters s u → u.draws = s.draws →
    (∀ r ∈ readRegions k s, ∀ a, r.has a = true → memRead a u = memRead a s) →
    ∃ t v, exec (decodeCommand s.cmd) s = .next t ∧ exec (decodeCommand u.cmd) u = .next v ∧
      v.status = t.status ∧ v.result = t.result ∧
      (t.err = 0 → ∀ a, (writeRegion k s).has a = true →
        ((∃ c, k = .lz77 c) → a < s.dstBase.toNat + t.result.toNat) → memRead a v = memRead a t)

/-- 70_reset_and_hazards.md R308, R74: a host write outside the job's regions and the engine's step commute: neither can
observe the other. -/
def Obligations.HostWriteCommutesWithJob : Prop :=
  ∀ (s : State) (a : Nat) (v : Byte), s.Inv → s.busy = true → a < s.cfg.memBytes →
    (∀ r ∈ currentRegions s, r.has a = false) →
    ∃ t, engineTurn s = .next t ∧ engineTurn (memWrite a v s) = .next (memWrite a v t)

end
end

