-- ==== Sys2Proof/Laws/Memory.lean ====
section
/-! SUPPORT. The laws of buffer memory: read after write, the canonical form, and what the writing operations leave. -/

namespace Sys2Proof.Machine

theorem Memory.lookup_write_same (a : Nat) (v : Byte) (m : Memory) :
    Memory.lookup a (Memory.write a v m) = some v := by
  induction m with
  | nil => simp [Memory.write, Memory.lookup]
  | cons c m ih =>
    obtain ⟨b, u⟩ := c
    rcases Nat.lt_trichotomy a b with h | h | h
    · simp [Memory.write, Memory.lookup, h]
    · simp [Memory.write, Memory.lookup, h]
    · have h1 : ¬ a < b := by omega
      have h2 : a ≠ b := by omega
      simp [Memory.write, Memory.lookup, h1, h2, ih]

theorem Memory.lookup_write_other {a b : Nat} (h : b ≠ a) (v : Byte) (m : Memory) :
    Memory.lookup b (Memory.write a v m) = Memory.lookup b m := by
  induction m with
  | nil => simp [Memory.write, Memory.lookup, h]
  | cons c m ih =>
    obtain ⟨d, u⟩ := c
    unfold Memory.write
    split
    · simp [Memory.lookup, h]
    · split
      · next e => subst e; simp [Memory.lookup, h]
      · simp [Memory.lookup, ih]

theorem Memory.risesFrom_mono {lo lo' : Nat} (h : lo' ≤ lo) :
    ∀ {m : Memory}, Memory.risesFrom lo m = true → Memory.risesFrom lo' m = true
  | [], _ => rfl
  | (a, _) :: m, hm => by
    simp only [Memory.risesFrom, Bool.and_eq_true, decide_eq_true_eq] at hm ⊢
    exact ⟨by omega, hm.2⟩

theorem Memory.risesFrom_write (a : Nat) (v : Byte) :
    ∀ (m : Memory) (lo : Nat), lo ≤ a → Memory.risesFrom lo m = true →
      Memory.risesFrom lo (Memory.write a v m) = true
  | [], lo, hlo, _ => by simp [Memory.write, Memory.risesFrom, hlo]
  | (b, u) :: m, lo, hlo, hm => by
    simp only [Memory.risesFrom, Bool.and_eq_true, decide_eq_true_eq] at hm
    unfold Memory.write
    split
    · next h =>
      simp only [Memory.risesFrom, Bool.and_eq_true, decide_eq_true_eq]
      exact ⟨hlo, h, hm.2⟩
    · split
      · next h => subst h; simp [Memory.risesFrom, hlo, hm.2]
      · next h1 h2 =>
        simp only [Memory.risesFrom, Bool.and_eq_true, decide_eq_true_eq]
        exact ⟨hm.1, Memory.risesFrom_write a v m (b + 1) (by omega) hm.2⟩

/-- A write keeps the canonical form. -/
theorem Memory.wf_write (a : Nat) (v : Byte) {m : Memory} (h : Memory.wf m = true) :
    Memory.wf (Memory.write a v m) = true :=
  Memory.risesFrom_write a v m 0 (Nat.zero_le _) h

theorem Memory.within_write {n a : Nat} (ha : a < n) (v : Byte) {m : Memory} (h : Memory.within n m = true) :
    Memory.within n (Memory.write a v m) = true := by
  induction m with
  | nil => simp [Memory.write, Memory.within, ha]
  | cons c m ih =>
    obtain ⟨b, u⟩ := c
    simp only [Memory.within, List.all_cons, Bool.and_eq_true, decide_eq_true_eq] at h ih
    unfold Memory.write
    split
    · simp [Memory.within, ha, h.1]; simpa using h.2
    · split
      · simp [Memory.within, ha]; simpa using h.2
      · simp only [Memory.within, List.all_cons, Bool.and_eq_true, decide_eq_true_eq]
        exact ⟨h.1, ih h.2⟩

/-- A write is seen by a read of its address. -/
@[simp] theorem memRead_memWrite_same (a : Nat) (v : Byte) (s : State) : memRead a (memWrite a v s) = v := by
  simp [memRead, memWrite, Memory.read, Memory.lookup_write_same]

/-- A write is not seen by a read of another address. -/
theorem memRead_memWrite_other {a b : Nat} (h : b ≠ a) (v : Byte) (s : State) :
    memRead b (memWrite a v s) = memRead b s := by
  simp [memRead, memWrite, Memory.read, Memory.lookup_write_other h]

/-- Everything an operation that only writes memory, at addresses with `P`, can do. -/
structure Wrote (P : Nat → Prop) (s t : State) : Prop where
  rest : t = { s with mem := t.mem }
  other : ∀ a, ¬ P a → memRead a t = memRead a s
  wf : Memory.wf s.mem = true → Memory.wf t.mem = true
  within : ∀ n, (∀ a, P a → a < n) → Memory.within n s.mem = true → Memory.within n t.mem = true

namespace Wrote

variable {P Q : Nat → Prop} {s t u : State}

theorem refl (P : Nat → Prop) (s : State) : Wrote P s s :=
  ⟨rfl, fun _ _ => rfl, id, fun _ _ => id⟩

theorem mono (h : Wrote P s t) (hPQ : ∀ a, P a → Q a) : Wrote Q s t :=
  ⟨h.rest, fun a ha => h.other a fun hp => ha (hPQ a hp), h.wf, fun n hn => h.within n fun a ha => hn a (hPQ a ha)⟩

theorem trans (h₁ : Wrote P s t) (h₂ : Wrote P t u) : Wrote P s u :=
  ⟨by rw [h₂.rest, h₁.rest], fun a ha => (h₂.other a ha).trans (h₁.other a ha), fun h => h₂.wf (h₁.wf h),
    fun n hn h => h₂.within n hn (h₁.within n hn h)⟩

theorem write {a : Nat} (ha : P a) (v : Byte) (s : State) : Wrote P s (memWrite a v s) :=
  ⟨rfl, fun b hb => memRead_memWrite_other (fun e => hb (by rw [e]; exact ha)) v s, fun h => Memory.wf_write a v h,
    fun _ hn h => Memory.within_write (hn a ha) v h⟩

theorem cfg (h : Wrote P s t) : t.cfg = s.cfg := by rw [h.rest]
theorem cmd (h : Wrote P s t) : t.cmd = s.cmd := by rw [h.rest]
theorem status (h : Wrote P s t) : t.status = s.status := by rw [h.rest]
theorem srcBase (h : Wrote P s t) : t.srcBase = s.srcBase := by rw [h.rest]
theorem srcLen (h : Wrote P s t) : t.srcLen = s.srcLen := by rw [h.rest]
theorem dstBase (h : Wrote P s t) : t.dstBase = s.dstBase := by rw [h.rest]
theorem dstLen (h : Wrote P s t) : t.dstLen = s.dstLen := by rw [h.rest]
theorem auxBase (h : Wrote P s t) : t.auxBase = s.auxBase := by rw [h.rest]
theorem auxLen (h : Wrote P s t) : t.auxLen = s.auxLen := by rw [h.rest]
theorem dim (h : Wrote P s t) : t.dim = s.dim := by rw [h.rest]
theorem xy (h : Wrote P s t) : t.xy = s.xy := by rw [h.rest]
theorem result (h : Wrote P s t) : t.result = s.result := by rw [h.rest]
theorem codec (h : Wrote P s t) : t.codec = s.codec := by rw [h.rest]
theorem turns (h : Wrote P s t) : t.turns = s.turns := by rw [h.rest]
theorem reads (h : Wrote P s t) : t.reads = s.reads := by rw [h.rest]
theorem draws (h : Wrote P s t) : t.draws = s.draws := by rw [h.rest]

theorem keepsRegisters (h : Wrote P s t) : keepsRegisters s t :=
  ⟨h.cfg, h.cmd, h.srcBase, h.srcLen, h.dstBase, h.dstLen, h.auxBase, h.auxLen, h.dim, h.xy, h.turns, h.reads⟩

theorem keepsStatus (h : Wrote P s t) : keepsStatus s t := ⟨h.status, h.result, h.draws⟩

theorem outAddr (h : Wrote P s t) (i : Nat) : outAddr t i = outAddr s i := by
  simp [Machine.outAddr, h.dstBase]

theorem keepsMemoryOutside {r : Region} (h : Wrote (fun a => r.has a = true) s t) : keepsMemoryOutside r s t :=
  fun a ha => h.other a (by simp [ha])

end Wrote

theorem Region.has_iff (r : Region) (a : Nat) : r.has a = true ↔ r.base ≤ a ∧ a < r.base + r.len := by
  simp [Region.has]

theorem Region.has_false_iff (r : Region) (a : Nat) : r.has a = false ↔ a < r.base ∨ r.base + r.len ≤ a := by
  rw [← Bool.not_eq_true, Region.has_iff]; omega

/-- Output positions `lo` to `hi - 1` of a job, as addresses. -/
def outSpan (s : State) (lo hi : Nat) (a : Nat) : Prop := ∃ i, lo ≤ i ∧ i < hi ∧ a = outAddr s i

theorem outSpan_has (s : State) (lo hi a : Nat) (h : outSpan s lo hi a) :
    Region.has ⟨outAddr s lo, hi - lo⟩ a = true := by
  obtain ⟨i, h1, h2, rfl⟩ := h
  simp only [Region.has_iff, outAddr]
  omega

theorem Wrote.out {s : State} {lo hi i : Nat} (h1 : lo ≤ i) (h2 : i < hi) (v : Byte) :
    Wrote (outSpan s lo hi) s (out i v s) :=
  Wrote.write ⟨i, h1, h2, rfl⟩ v s

theorem Wrote.tokenFrame {s t : State} {lo hi : Nat} (h : Wrote (outSpan s lo hi) s t) : tokenFrame s t lo hi :=
  ⟨h.keepsRegisters, h.keepsStatus, (h.mono (outSpan_has s lo hi)).keepsMemoryOutside⟩

@[simp] theorem outByte_out_same (i : Nat) (v : Byte) (s : State) : outByte i (out i v s) = v := by
  simp [outByte, out, memWrite, memRead, outAddr, Memory.read, Memory.lookup_write_same]

theorem outByte_out_other {i j : Nat} (h : j ≠ i) (v : Byte) (s : State) : outByte j (out i v s) = outByte j s := by
  have : memRead (outAddr s j) (memWrite (outAddr s i) v s) = memRead (outAddr s j) s :=
    memRead_memWrite_other (by simp [outAddr, h]) v s
  simpa [outByte, out, outAddr, memWrite] using this

/-- Everything the writing loop can do. -/
theorem Wrote.writeEach {P : Nat → Prop} {addr : Nat → Nat} {n : Nat} (h : ∀ k, k < n → P (addr k))
    (val : Nat → State → Byte) (s : State) : Wrote P s (writeEach addr val n s) := by
  induction n with
  | zero => exact Wrote.refl P s
  | succ n ih => exact (ih fun k hk => h k (by omega)).trans (Wrote.write (h n (by omega)) _ _)

/-- The writing loop's bytes: with distinct addresses, byte `k` is what `val k` computed when its turn came. -/
theorem memRead_writeEach {addr : Nat → Nat} {n : Nat} (hinj : ∀ j k, j < n → k < n → addr j = addr k → j = k)
    (val : Nat → State → Byte) (s : State) {k : Nat} (hk : k < n) :
    memRead (addr k) (Machine.writeEach addr val n s) = val k (Machine.writeEach addr val k s) := by
  induction n with
  | zero => omega
  | succ n ih =>
    by_cases e : k = n
    · subst e; simp [Machine.writeEach]
    · have hne : addr k ≠ addr n := fun he => e (hinj k n hk (by omega) he)
      rw [Machine.writeEach, memRead_memWrite_other hne]
      exact ih (fun i j hi hj => hinj i j (by omega) (by omega)) (by omega)

end Sys2Proof.Machine
end

