-- ==== Sys2Proof/Laws/State.lean ====
section
/-! SUPPORT. One lemma per field for every operation that updates the state, and the fields of STATUS. -/

namespace Sys2Proof.Machine

/-! ### memWrite -/

@[simp] theorem memWrite_cfg (a : Nat) (v : Byte) (s : State) : (memWrite a v s).cfg = s.cfg := rfl
@[simp] theorem memWrite_cmd (a : Nat) (v : Byte) (s : State) : (memWrite a v s).cmd = s.cmd := rfl
@[simp] theorem memWrite_status (a : Nat) (v : Byte) (s : State) : (memWrite a v s).status = s.status := rfl
@[simp] theorem memWrite_srcBase (a : Nat) (v : Byte) (s : State) : (memWrite a v s).srcBase = s.srcBase := rfl
@[simp] theorem memWrite_srcLen (a : Nat) (v : Byte) (s : State) : (memWrite a v s).srcLen = s.srcLen := rfl
@[simp] theorem memWrite_dstBase (a : Nat) (v : Byte) (s : State) : (memWrite a v s).dstBase = s.dstBase := rfl
@[simp] theorem memWrite_dstLen (a : Nat) (v : Byte) (s : State) : (memWrite a v s).dstLen = s.dstLen := rfl
@[simp] theorem memWrite_auxBase (a : Nat) (v : Byte) (s : State) : (memWrite a v s).auxBase = s.auxBase := rfl
@[simp] theorem memWrite_auxLen (a : Nat) (v : Byte) (s : State) : (memWrite a v s).auxLen = s.auxLen := rfl
@[simp] theorem memWrite_dim (a : Nat) (v : Byte) (s : State) : (memWrite a v s).dim = s.dim := rfl
@[simp] theorem memWrite_xy (a : Nat) (v : Byte) (s : State) : (memWrite a v s).xy = s.xy := rfl
@[simp] theorem memWrite_result (a : Nat) (v : Byte) (s : State) : (memWrite a v s).result = s.result := rfl
@[simp] theorem memWrite_mem (a : Nat) (v : Byte) (s : State) : (memWrite a v s).mem = Memory.write a v s.mem := rfl
@[simp] theorem memWrite_codec (a : Nat) (v : Byte) (s : State) : (memWrite a v s).codec = s.codec := rfl
@[simp] theorem memWrite_turns (a : Nat) (v : Byte) (s : State) : (memWrite a v s).turns = s.turns := rfl
@[simp] theorem memWrite_reads (a : Nat) (v : Byte) (s : State) : (memWrite a v s).reads = s.reads := rfl
@[simp] theorem memWrite_draws (a : Nat) (v : Byte) (s : State) : (memWrite a v s).draws = s.draws := rfl

/-! ### out -/

@[simp] theorem out_cfg (i : Nat) (v : Byte) (s : State) : (out i v s).cfg = s.cfg := rfl
@[simp] theorem out_cmd (i : Nat) (v : Byte) (s : State) : (out i v s).cmd = s.cmd := rfl
@[simp] theorem out_status (i : Nat) (v : Byte) (s : State) : (out i v s).status = s.status := rfl
@[simp] theorem out_srcBase (i : Nat) (v : Byte) (s : State) : (out i v s).srcBase = s.srcBase := rfl
@[simp] theorem out_srcLen (i : Nat) (v : Byte) (s : State) : (out i v s).srcLen = s.srcLen := rfl
@[simp] theorem out_dstBase (i : Nat) (v : Byte) (s : State) : (out i v s).dstBase = s.dstBase := rfl
@[simp] theorem out_dstLen (i : Nat) (v : Byte) (s : State) : (out i v s).dstLen = s.dstLen := rfl
@[simp] theorem out_auxBase (i : Nat) (v : Byte) (s : State) : (out i v s).auxBase = s.auxBase := rfl
@[simp] theorem out_auxLen (i : Nat) (v : Byte) (s : State) : (out i v s).auxLen = s.auxLen := rfl
@[simp] theorem out_dim (i : Nat) (v : Byte) (s : State) : (out i v s).dim = s.dim := rfl
@[simp] theorem out_xy (i : Nat) (v : Byte) (s : State) : (out i v s).xy = s.xy := rfl
@[simp] theorem out_result (i : Nat) (v : Byte) (s : State) : (out i v s).result = s.result := rfl
@[simp] theorem out_mem (i : Nat) (v : Byte) (s : State) : (out i v s).mem = Memory.write (outAddr s i) v s.mem := rfl
@[simp] theorem out_codec (i : Nat) (v : Byte) (s : State) : (out i v s).codec = s.codec := rfl
@[simp] theorem out_turns (i : Nat) (v : Byte) (s : State) : (out i v s).turns = s.turns := rfl
@[simp] theorem out_reads (i : Nat) (v : Byte) (s : State) : (out i v s).reads = s.reads := rfl
@[simp] theorem out_draws (i : Nat) (v : Byte) (s : State) : (out i v s).draws = s.draws := rfl

/-! ### complete -/

@[simp] theorem complete_cfg (p i b : Bool) (n : Nat) (s : State) : (complete p i b n s).cfg = s.cfg := rfl
@[simp] theorem complete_cmd (p i b : Bool) (n : Nat) (s : State) : (complete p i b n s).cmd = s.cmd := rfl
@[simp] theorem complete_status (p i b : Bool) (n : Nat) (s : State) : (complete p i b n s).status = statusDone p i b := rfl
@[simp] theorem complete_srcBase (p i b : Bool) (n : Nat) (s : State) : (complete p i b n s).srcBase = s.srcBase := rfl
@[simp] theorem complete_srcLen (p i b : Bool) (n : Nat) (s : State) : (complete p i b n s).srcLen = s.srcLen := rfl
@[simp] theorem complete_dstBase (p i b : Bool) (n : Nat) (s : State) : (complete p i b n s).dstBase = s.dstBase := rfl
@[simp] theorem complete_dstLen (p i b : Bool) (n : Nat) (s : State) : (complete p i b n s).dstLen = s.dstLen := rfl
@[simp] theorem complete_auxBase (p i b : Bool) (n : Nat) (s : State) : (complete p i b n s).auxBase = s.auxBase := rfl
@[simp] theorem complete_auxLen (p i b : Bool) (n : Nat) (s : State) : (complete p i b n s).auxLen = s.auxLen := rfl
@[simp] theorem complete_dim (p i b : Bool) (n : Nat) (s : State) : (complete p i b n s).dim = s.dim := rfl
@[simp] theorem complete_xy (p i b : Bool) (n : Nat) (s : State) : (complete p i b n s).xy = s.xy := rfl
@[simp] theorem complete_result (p i b : Bool) (n : Nat) (s : State) : (complete p i b n s).result = BitVec.ofNat 32 n := rfl
@[simp] theorem complete_mem (p i b : Bool) (n : Nat) (s : State) : (complete p i b n s).mem = s.mem := rfl
@[simp] theorem complete_codec (p i b : Bool) (n : Nat) (s : State) : (complete p i b n s).codec = none := rfl
@[simp] theorem complete_turns (p i b : Bool) (n : Nat) (s : State) : (complete p i b n s).turns = s.turns := rfl
@[simp] theorem complete_reads (p i b : Bool) (n : Nat) (s : State) : (complete p i b n s).reads = s.reads := rfl
@[simp] theorem complete_draws (p i b : Bool) (n : Nat) (s : State) : (complete p i b n s).draws = s.draws := rfl

/-! ### errorCompletion -/

@[simp] theorem errorCompletion_cfg (e : JobError) (s : State) : (errorCompletion e s).cfg = s.cfg := rfl
@[simp] theorem errorCompletion_cmd (e : JobError) (s : State) : (errorCompletion e s).cmd = s.cmd := rfl
@[simp] theorem errorCompletion_status (e : JobError) (s : State) : (errorCompletion e s).status = statusError e := rfl
@[simp] theorem errorCompletion_srcBase (e : JobError) (s : State) : (errorCompletion e s).srcBase = s.srcBase := rfl
@[simp] theorem errorCompletion_srcLen (e : JobError) (s : State) : (errorCompletion e s).srcLen = s.srcLen := rfl
@[simp] theorem errorCompletion_dstBase (e : JobError) (s : State) : (errorCompletion e s).dstBase = s.dstBase := rfl
@[simp] theorem errorCompletion_dstLen (e : JobError) (s : State) : (errorCompletion e s).dstLen = s.dstLen := rfl
@[simp] theorem errorCompletion_auxBase (e : JobError) (s : State) : (errorCompletion e s).auxBase = s.auxBase := rfl
@[simp] theorem errorCompletion_auxLen (e : JobError) (s : State) : (errorCompletion e s).auxLen = s.auxLen := rfl
@[simp] theorem errorCompletion_dim (e : JobError) (s : State) : (errorCompletion e s).dim = s.dim := rfl
@[simp] theorem errorCompletion_xy (e : JobError) (s : State) : (errorCompletion e s).xy = s.xy := rfl
@[simp] theorem errorCompletion_result (e : JobError) (s : State) : (errorCompletion e s).result = 0 := rfl
@[simp] theorem errorCompletion_mem (e : JobError) (s : State) : (errorCompletion e s).mem = s.mem := rfl
@[simp] theorem errorCompletion_codec (e : JobError) (s : State) : (errorCompletion e s).codec = none := rfl
@[simp] theorem errorCompletion_turns (e : JobError) (s : State) : (errorCompletion e s).turns = s.turns := rfl
@[simp] theorem errorCompletion_reads (e : JobError) (s : State) : (errorCompletion e s).reads = s.reads := rfl
@[simp] theorem errorCompletion_draws (e : JobError) (s : State) : (errorCompletion e s).draws = s.draws := rfl

/-! ### startJob -/

@[simp] theorem startJob_cfg (v : Word) (s : State) : (startJob v s).cfg = s.cfg := rfl
@[simp] theorem startJob_cmd (v : Word) (s : State) : (startJob v s).cmd = v &&& 0x3F#32 := rfl
@[simp] theorem startJob_status (v : Word) (s : State) : (startJob v s).status = statusStarted := rfl
@[simp] theorem startJob_srcBase (v : Word) (s : State) : (startJob v s).srcBase = s.srcBase := rfl
@[simp] theorem startJob_srcLen (v : Word) (s : State) : (startJob v s).srcLen = s.srcLen := rfl
@[simp] theorem startJob_dstBase (v : Word) (s : State) : (startJob v s).dstBase = s.dstBase := rfl
@[simp] theorem startJob_dstLen (v : Word) (s : State) : (startJob v s).dstLen = s.dstLen := rfl
@[simp] theorem startJob_auxBase (v : Word) (s : State) : (startJob v s).auxBase = s.auxBase := rfl
@[simp] theorem startJob_auxLen (v : Word) (s : State) : (startJob v s).auxLen = s.auxLen := rfl
@[simp] theorem startJob_dim (v : Word) (s : State) : (startJob v s).dim = s.dim := rfl
@[simp] theorem startJob_xy (v : Word) (s : State) : (startJob v s).xy = s.xy := rfl
@[simp] theorem startJob_result (v : Word) (s : State) : (startJob v s).result = s.result := rfl
@[simp] theorem startJob_mem (v : Word) (s : State) : (startJob v s).mem = s.mem := rfl
@[simp] theorem startJob_codec (v : Word) (s : State) : (startJob v s).codec = none := rfl
@[simp] theorem startJob_turns (v : Word) (s : State) : (startJob v s).turns = s.turns := rfl
@[simp] theorem startJob_reads (v : Word) (s : State) : (startJob v s).reads = s.reads := rfl
@[simp] theorem startJob_draws (v : Word) (s : State) : (startJob v s).draws = s.draws := rfl

/-! ### receive -/

@[simp] theorem receive_cfg (v : Word) (s : State) : (receive v s).cfg = s.cfg := rfl
@[simp] theorem receive_cmd (v : Word) (s : State) : (receive v s).cmd = s.cmd := rfl
@[simp] theorem receive_status (v : Word) (s : State) : (receive v s).status = s.status := rfl
@[simp] theorem receive_srcBase (v : Word) (s : State) : (receive v s).srcBase = s.srcBase := rfl
@[simp] theorem receive_srcLen (v : Word) (s : State) : (receive v s).srcLen = s.srcLen := rfl
@[simp] theorem receive_dstBase (v : Word) (s : State) : (receive v s).dstBase = s.dstBase := rfl
@[simp] theorem receive_dstLen (v : Word) (s : State) : (receive v s).dstLen = s.dstLen := rfl
@[simp] theorem receive_auxBase (v : Word) (s : State) : (receive v s).auxBase = s.auxBase := rfl
@[simp] theorem receive_auxLen (v : Word) (s : State) : (receive v s).auxLen = s.auxLen := rfl
@[simp] theorem receive_dim (v : Word) (s : State) : (receive v s).dim = s.dim := rfl
@[simp] theorem receive_xy (v : Word) (s : State) : (receive v s).xy = s.xy := rfl
@[simp] theorem receive_result (v : Word) (s : State) : (receive v s).result = s.result := rfl
@[simp] theorem receive_mem (v : Word) (s : State) : (receive v s).mem = s.mem := rfl
@[simp] theorem receive_codec (v : Word) (s : State) : (receive v s).codec = s.codec := rfl
@[simp] theorem receive_turns (v : Word) (s : State) : (receive v s).turns = s.turns := rfl
@[simp] theorem receive_reads (v : Word) (s : State) : (receive v s).reads = v :: s.reads := rfl
@[simp] theorem receive_draws (v : Word) (s : State) : (receive v s).draws = s.draws := rfl

/-! ### writeEach, padZeros, drawRegion, runtimeError -/

theorem writeEach_rest (addr : Nat → Nat) (val : Nat → State → Byte) (n : Nat) (s : State) :
    writeEach addr val n s = { s with mem := (writeEach addr val n s).mem } :=
  (Wrote.writeEach (P := fun _ => True) (fun _ _ => trivial) val s).rest

@[simp] theorem writeEach_cfg (addr : Nat → Nat) (val : Nat → State → Byte) (n : Nat) (s : State) :
    (writeEach addr val n s).cfg = s.cfg := by rw [writeEach_rest]
@[simp] theorem writeEach_cmd (addr : Nat → Nat) (val : Nat → State → Byte) (n : Nat) (s : State) :
    (writeEach addr val n s).cmd = s.cmd := by rw [writeEach_rest]
@[simp] theorem writeEach_status (addr : Nat → Nat) (val : Nat → State → Byte) (n : Nat) (s : State) :
    (writeEach addr val n s).status = s.status := by rw [writeEach_rest]
@[simp] theorem writeEach_srcBase (addr : Nat → Nat) (val : Nat → State → Byte) (n : Nat) (s : State) :
    (writeEach addr val n s).srcBase = s.srcBase := by rw [writeEach_rest]
@[simp] theorem writeEach_srcLen (addr : Nat → Nat) (val : Nat → State → Byte) (n : Nat) (s : State) :
    (writeEach addr val n s).srcLen = s.srcLen := by rw [writeEach_rest]
@[simp] theorem writeEach_dstBase (addr : Nat → Nat) (val : Nat → State → Byte) (n : Nat) (s : State) :
    (writeEach addr val n s).dstBase = s.dstBase := by rw [writeEach_rest]
@[simp] theorem writeEach_dstLen (addr : Nat → Nat) (val : Nat → State → Byte) (n : Nat) (s : State) :
    (writeEach addr val n s).dstLen = s.dstLen := by rw [writeEach_rest]
@[simp] theorem writeEach_auxBase (addr : Nat → Nat) (val : Nat → State → Byte) (n : Nat) (s : State) :
    (writeEach addr val n s).auxBase = s.auxBase := by rw [writeEach_rest]
@[simp] theorem writeEach_auxLen (addr : Nat → Nat) (val : Nat → State → Byte) (n : Nat) (s : State) :
    (writeEach addr val n s).auxLen = s.auxLen := by rw [writeEach_rest]
@[simp] theorem writeEach_dim (addr : Nat → Nat) (val : Nat → State → Byte) (n : Nat) (s : State) :
    (writeEach addr val n s).dim = s.dim := by rw [writeEach_rest]
@[simp] theorem writeEach_xy (addr : Nat → Nat) (val : Nat → State → Byte) (n : Nat) (s : State) :
    (writeEach addr val n s).xy = s.xy := by rw [writeEach_rest]
@[simp] theorem writeEach_result (addr : Nat → Nat) (val : Nat → State → Byte) (n : Nat) (s : State) :
    (writeEach addr val n s).result = s.result := by rw [writeEach_rest]
@[simp] theorem writeEach_codec (addr : Nat → Nat) (val : Nat → State → Byte) (n : Nat) (s : State) :
    (writeEach addr val n s).codec = s.codec := by rw [writeEach_rest]
@[simp] theorem writeEach_turns (addr : Nat → Nat) (val : Nat → State → Byte) (n : Nat) (s : State) :
    (writeEach addr val n s).turns = s.turns := by rw [writeEach_rest]
@[simp] theorem writeEach_reads (addr : Nat → Nat) (val : Nat → State → Byte) (n : Nat) (s : State) :
    (writeEach addr val n s).reads = s.reads := by rw [writeEach_rest]
@[simp] theorem writeEach_draws (addr : Nat → Nat) (val : Nat → State → Byte) (n : Nat) (s : State) :
    (writeEach addr val n s).draws = s.draws := by rw [writeEach_rest]
@[simp] theorem padZeros_cfg (o : Nat) (s : State) : (padZeros o s).cfg = s.cfg := by simp [padZeros]
@[simp] theorem padZeros_cmd (o : Nat) (s : State) : (padZeros o s).cmd = s.cmd := by simp [padZeros]
@[simp] theorem padZeros_status (o : Nat) (s : State) : (padZeros o s).status = s.status := by simp [padZeros]
@[simp] theorem padZeros_srcBase (o : Nat) (s : State) : (padZeros o s).srcBase = s.srcBase := by simp [padZeros]
@[simp] theorem padZeros_srcLen (o : Nat) (s : State) : (padZeros o s).srcLen = s.srcLen := by simp [padZeros]
@[simp] theorem padZeros_dstBase (o : Nat) (s : State) : (padZeros o s).dstBase = s.dstBase := by simp [padZeros]
@[simp] theorem padZeros_dstLen (o : Nat) (s : State) : (padZeros o s).dstLen = s.dstLen := by simp [padZeros]
@[simp] theorem padZeros_auxBase (o : Nat) (s : State) : (padZeros o s).auxBase = s.auxBase := by simp [padZeros]
@[simp] theorem padZeros_auxLen (o : Nat) (s : State) : (padZeros o s).auxLen = s.auxLen := by simp [padZeros]
@[simp] theorem padZeros_dim (o : Nat) (s : State) : (padZeros o s).dim = s.dim := by simp [padZeros]
@[simp] theorem padZeros_xy (o : Nat) (s : State) : (padZeros o s).xy = s.xy := by simp [padZeros]
@[simp] theorem padZeros_result (o : Nat) (s : State) : (padZeros o s).result = s.result := by simp [padZeros]
@[simp] theorem padZeros_codec (o : Nat) (s : State) : (padZeros o s).codec = s.codec := by simp [padZeros]
@[simp] theorem padZeros_turns (o : Nat) (s : State) : (padZeros o s).turns = s.turns := by simp [padZeros]
@[simp] theorem padZeros_reads (o : Nat) (s : State) : (padZeros o s).reads = s.reads := by simp [padZeros]
@[simp] theorem padZeros_draws (o : Nat) (s : State) : (padZeros o s).draws = s.draws := by simp [padZeros]
@[simp] theorem drawRegion_cfg (r : Region) (s : State) : (drawRegion r s).cfg = s.cfg := by
  simp [drawRegion]
@[simp] theorem drawRegion_cmd (r : Region) (s : State) : (drawRegion r s).cmd = s.cmd := by
  simp [drawRegion]
@[simp] theorem drawRegion_status (r : Region) (s : State) : (drawRegion r s).status = s.status := by
  simp [drawRegion]
@[simp] theorem drawRegion_srcBase (r : Region) (s : State) : (drawRegion r s).srcBase = s.srcBase := by
  simp [drawRegion]
@[simp] theorem drawRegion_srcLen (r : Region) (s : State) : (drawRegion r s).srcLen = s.srcLen := by
  simp [drawRegion]
@[simp] theorem drawRegion_dstBase (r : Region) (s : State) : (drawRegion r s).dstBase = s.dstBase := by
  simp [drawRegion]
@[simp] theorem drawRegion_dstLen (r : Region) (s : State) : (drawRegion r s).dstLen = s.dstLen := by
  simp [drawRegion]
@[simp] theorem drawRegion_auxBase (r : Region) (s : State) : (drawRegion r s).auxBase = s.auxBase := by
  simp [drawRegion]
@[simp] theorem drawRegion_auxLen (r : Region) (s : State) : (drawRegion r s).auxLen = s.auxLen := by
  simp [drawRegion]
@[simp] theorem drawRegion_dim (r : Region) (s : State) : (drawRegion r s).dim = s.dim := by
  simp [drawRegion]
@[simp] theorem drawRegion_xy (r : Region) (s : State) : (drawRegion r s).xy = s.xy := by
  simp [drawRegion]
@[simp] theorem drawRegion_result (r : Region) (s : State) : (drawRegion r s).result = s.result := by
  simp [drawRegion]
@[simp] theorem drawRegion_codec (r : Region) (s : State) : (drawRegion r s).codec = s.codec := by
  simp [drawRegion]
@[simp] theorem drawRegion_turns (r : Region) (s : State) : (drawRegion r s).turns = s.turns := by
  simp [drawRegion]
@[simp] theorem drawRegion_reads (r : Region) (s : State) : (drawRegion r s).reads = s.reads := by
  simp [drawRegion]
@[simp] theorem drawRegion_draws (r : Region) (s : State) : (drawRegion r s).draws = s.draws + r.len := rfl
@[simp] theorem runtimeError_cfg (e : JobError) (r : Region) (s : State) : (runtimeError e r s).cfg = s.cfg := by
  simp [runtimeError]
@[simp] theorem runtimeError_cmd (e : JobError) (r : Region) (s : State) : (runtimeError e r s).cmd = s.cmd := by
  simp [runtimeError]
@[simp] theorem runtimeError_srcBase (e : JobError) (r : Region) (s : State) : (runtimeError e r s).srcBase = s.srcBase := by
  simp [runtimeError]
@[simp] theorem runtimeError_srcLen (e : JobError) (r : Region) (s : State) : (runtimeError e r s).srcLen = s.srcLen := by
  simp [runtimeError]
@[simp] theorem runtimeError_dstBase (e : JobError) (r : Region) (s : State) : (runtimeError e r s).dstBase = s.dstBase := by
  simp [runtimeError]
@[simp] theorem runtimeError_dstLen (e : JobError) (r : Region) (s : State) : (runtimeError e r s).dstLen = s.dstLen := by
  simp [runtimeError]
@[simp] theorem runtimeError_auxBase (e : JobError) (r : Region) (s : State) : (runtimeError e r s).auxBase = s.auxBase := by
  simp [runtimeError]
@[simp] theorem runtimeError_auxLen (e : JobError) (r : Region) (s : State) : (runtimeError e r s).auxLen = s.auxLen := by
  simp [runtimeError]
@[simp] theorem runtimeError_dim (e : JobError) (r : Region) (s : State) : (runtimeError e r s).dim = s.dim := by
  simp [runtimeError]
@[simp] theorem runtimeError_xy (e : JobError) (r : Region) (s : State) : (runtimeError e r s).xy = s.xy := by
  simp [runtimeError]
@[simp] theorem runtimeError_turns (e : JobError) (r : Region) (s : State) : (runtimeError e r s).turns = s.turns := by
  simp [runtimeError]
@[simp] theorem runtimeError_reads (e : JobError) (r : Region) (s : State) : (runtimeError e r s).reads = s.reads := by
  simp [runtimeError]
@[simp] theorem runtimeError_status (e : JobError) (r : Region) (s : State) :
    (runtimeError e r s).status = statusError e := rfl
@[simp] theorem runtimeError_result (e : JobError) (r : Region) (s : State) : (runtimeError e r s).result = 0 := rfl
@[simp] theorem runtimeError_codec (e : JobError) (r : Region) (s : State) : (runtimeError e r s).codec = none := rfl
@[simp] theorem runtimeError_mem (e : JobError) (r : Region) (s : State) :
    (runtimeError e r s).mem = (drawRegion r s).mem := rfl
@[simp] theorem runtimeError_draws (e : JobError) (r : Region) (s : State) :
    (runtimeError e r s).draws = s.draws + r.len := rfl

/-! ### Operands depend on the registers alone -/

@[simp] theorem outAddr_memWrite (a : Nat) (v : Byte) (s : State) (i : Nat) : outAddr (memWrite a v s) i = outAddr s i := rfl
@[simp] theorem outAddr_out (j : Nat) (v : Byte) (s : State) (i : Nat) : outAddr (out j v s) i = outAddr s i := rfl
@[simp] theorem memRead_complete (a : Nat) (p i b : Bool) (n : Nat) (s : State) :
    memRead a (complete p i b n s) = memRead a s := rfl
@[simp] theorem memRead_errorCompletion (a : Nat) (e : JobError) (s : State) :
    memRead a (errorCompletion e s) = memRead a s := rfl
@[simp] theorem memRead_receive (a : Nat) (v : Word) (s : State) : memRead a (receive v s) = memRead a s := rfl

/-! ### STATUS -/

@[simp] theorem statusWord_busy (u d p i b : Bool) (e : Byte) : (statusWord u d p i b e).getLsbD 0 = u := by
  simp only [statusWord, BitVec.getLsbD_setWidth, BitVec.getLsbD_append]
  cases u <;> simp

@[simp] theorem statusWord_done (u d p i b : Bool) (e : Byte) : (statusWord u d p i b e).getLsbD 1 = d := by
  simp only [statusWord, BitVec.getLsbD_setWidth, BitVec.getLsbD_append]
  cases d <;> simp

@[simp] theorem statusWord_padded (u d p i b : Bool) (e : Byte) : (statusWord u d p i b e).getLsbD 2 = p := by
  simp only [statusWord, BitVec.getLsbD_setWidth, BitVec.getLsbD_append]
  cases p <;> simp

@[simp] theorem statusWord_inexh (u d p i b : Bool) (e : Byte) : (statusWord u d p i b e).getLsbD 3 = i := by
  simp only [statusWord, BitVec.getLsbD_setWidth, BitVec.getLsbD_append]
  cases i <;> simp

@[simp] theorem statusWord_badcode (u d p i b : Bool) (e : Byte) : (statusWord u d p i b e).getLsbD 4 = b := by
  simp only [statusWord, BitVec.getLsbD_setWidth, BitVec.getLsbD_append]
  cases b <;> simp

@[simp] theorem statusWord_err (u d p i b : Bool) (e : Byte) : (statusWord u d p i b e).extractLsb' 8 8 = e := by
  ext k hk
  simp only [statusWord, BitVec.getElem_extractLsb', BitVec.getLsbD_setWidth, BitVec.getLsbD_append]
  have h : 8 + k - 1 - 1 - 1 - 1 - 1 - 3 = k := by omega
  rw [h]
  simp [hk]
  omega

/-- The block is BUSY exactly while STATUS is the started word, among the words the rules give it. -/
theorem busy_of_started {s : State} (h : s.status = statusStarted) : s.busy = true := by
  unfold State.busy; rw [h]; exact statusWord_busy ..

@[simp] theorem complete_busy (p i b : Bool) (n : Nat) (s : State) : (complete p i b n s).busy = false := 
  statusWord_busy ..

@[simp] theorem complete_isDone (p i b : Bool) (n : Nat) (s : State) : (complete p i b n s).isDone = true := 
  statusWord_done ..

@[simp] theorem errorCompletion_busy (e : JobError) (s : State) : (errorCompletion e s).busy = false := 
  statusWord_busy ..

@[simp] theorem errorCompletion_isDone (e : JobError) (s : State) : (errorCompletion e s).isDone = true := 
  statusWord_done ..

theorem complete_ended (p i b : Bool) (n : Nat) (s : State) : (complete p i b n s).ended := by
  simp [State.ended]

theorem errorCompletion_ended (e : JobError) (s : State) : (errorCompletion e s).ended := by
  simp [State.ended]

theorem runtimeError_ended (e : JobError) (r : Region) (s : State) : (runtimeError e r s).ended :=
  errorCompletion_ended e _

end Sys2Proof.Machine
end

