-- ==== Sys2Proof/Laws/Bits.lean ====
section
/-! SUPPORT. The bit reader (40_bitstream.md): its bits, its bounds, and the decoder's window; the
RLE control byte (30_encoding.md R84). -/

namespace Sys2Proof.Machine

/-! ### The RLE control byte -/

/-- RLE_LIT_MAX is the largest byte with bit 7 clear (30_encoding.md R84). -/
@[simp] theorem isRunControl_eq (c : Byte) : isRunControl c = c.getLsbD 7 := by
  have h : c.getLsbD 7 = c.msb := rfl
  rw [h, BitVec.msb_eq_decide, isRunControl, decide_eq_decide]
  simp only [rleLitMax]; omega

/-- A run's count is its control byte's bits 6:0 (30_encoding.md R84). -/
theorem runCount_eq {c : Byte} (h : c.getLsbD 7 = true) :
    BitVec.ofNat 7 (c.toNat - rleRunBias) = c.extractLsb' 0 7 := by
  rw [← isRunControl_eq, isRunControl, decide_eq_true_eq] at h
  have hb : rleRunBias = 128 := rfl
  have hl : rleLitMax = 127 := rfl
  apply BitVec.eq_of_toNat_eq
  simp only [BitVec.toNat_ofNat, BitVec.extractLsb'_toNat, Nat.shiftRight_zero]
  omega

theorem litCount_eq (c : Byte) : BitVec.ofNat 7 c.toNat = c.extractLsb' 0 7 := by
  apply BitVec.eq_of_toNat_eq
  simp

/-- The control byte of a run is bit 7 over its count. -/
theorem runControl_eq (n : BitVec 7) : BitVec.ofNat 8 (rleRunBias + n.toNat) = 1#1 ++ n := by
  have hb : rleRunBias = 128 := rfl
  apply BitVec.eq_of_toNat_eq
  rw [BitVec.toNat_append, Nat.shiftLeft_eq, ← Nat.mul_comm, ← Nat.two_pow_add_eq_or_of_lt n.isLt]
  simp only [BitVec.toNat_ofNat]
  omega

/-! ### The bit reader -/

/-- Bit `i` of a read is stream bit `off + i` (40_bitstream.md R112). -/
theorem testBit_bitRead (off n i : Nat) (s : State) :
    (bitRead off n s).testBit i = (decide (i < n) && streamBit (off + i) s) := by
  induction n with
  | zero => simp [bitRead]
  | succ n ih =>
    rw [bitRead, Nat.testBit_or, ih, Nat.testBit_shiftLeft]
    rcases Nat.lt_trichotomy i n with h | h | h
    · have h1 : ¬ n ≤ i := by omega
      simp [h1, h, Nat.lt_succ_of_lt h]
    · subst h
      cases streamBit (off + i) s <;> simp
    · have h1 : ¬ i < n := by omega
      have h2 : ¬ i < n + 1 := by omega
      have h3 : i - n ≠ 0 := by omega
      have h4 : Nat.testBit 1 (i - n) = false := by
        rw [← Bool.not_eq_true, Nat.testBit_one_eq_true_iff_self_eq_zero]; exact h3
      cases streamBit (off + n) s <;> simp [h1, h2, h4]

theorem bitRead_lt (off n : Nat) (s : State) : bitRead off n s < 2 ^ n := by
  apply Nat.lt_pow_two_of_testBit
  intro i hi
  simp [testBit_bitRead, hi]

/-- The bits of the decoder's window are the stream's. -/
theorem getLsbD_window (off i : Nat) (s : State) :
    (window off s).getLsbD i = (decide (off % 8 + i < 32) && streamBit (off + i) s) := by
  have hm : off % 8 < 8 := Nat.mod_lt _ (by omega)
  simp only [window, streamBit, BitVec.getLsbD_ushiftRight, BitVec.getLsbD_setWidth, BitVec.getLsbD_append]
  by_cases h : off % 8 + i < 32
  · simp only [h, decide_true, Bool.true_and]
    have hd : off = 8 * (off / 8) + off % 8 := (Nat.div_add_mod off 8).symm
    by_cases h0 : off % 8 + i < 8
    · have e1 : (off + i) / 8 = off / 8 := by omega
      have e2 : (off + i) % 8 = off % 8 + i := by omega
      simp [h0, e1, e2]
    · by_cases h1 : off % 8 + i < 16
      · have e1 : (off + i) / 8 = off / 8 + 1 := by omega
        have e2 : (off + i) % 8 = off % 8 + i - 8 := by omega
        have h1' : off % 8 + i - 8 < 8 := by omega
        simp only [h0, if_false, e1, e2, h1', if_true]
      · by_cases h2 : off % 8 + i < 24
        · have e1 : (off + i) / 8 = off / 8 + 2 := by omega
          have e2 : (off + i) % 8 = off % 8 + i - 8 - 8 := by omega
          have h1' : ¬ off % 8 + i - 8 < 8 := by omega
          have h2' : off % 8 + i - 8 - 8 < 8 := by omega
          simp only [h0, if_false, e1, e2, h1', h2', if_true]
        · have e1 : (off + i) / 8 = off / 8 + 3 := by omega
          have e2 : (off + i) % 8 = off % 8 + i - 8 - 8 - 8 := by omega
          have h1' : ¬ off % 8 + i - 8 < 8 := by omega
          have h2' : ¬ off % 8 + i - 8 - 8 < 8 := by omega
          simp only [h0, if_false, e1, e2, h1', h2']
  · simp [h]

/-- The low bits of the window are a read (40_bitstream.md R117, one byte wider). -/
theorem window_mod (off n : Nat) (s : State) (h : off % 8 + n ≤ 32) :
    (window off s).toNat % 2 ^ n = bitRead off n s := by
  apply Nat.eq_of_testBit_eq
  intro i
  rw [Nat.testBit_mod_two_pow, testBit_bitRead, BitVec.testBit_toNat, getLsbD_window]
  by_cases hi : i < n
  · have : off % 8 + i < 32 := by omega
    simp [hi, this]
  · simp [hi]

/-- At a byte boundary the window's low byte is the source byte. -/
theorem window_byte (p j : Nat) (s : State) (hj : j < 4) :
    (window (8 * p) s).extractLsb' (8 * j) 8 = srcZ (p + j) s := by
  ext k hk
  have e1 : (8 * p + (8 * j + k)) / 8 = p + j := by omega
  have e2 : (8 * p + (8 * j + k)) % 8 = k := by omega
  have h32 : 8 * p % 8 + (8 * j + k) < 32 := by omega
  rw [BitVec.getElem_extractLsb', getLsbD_window, streamBit, e1, e2]
  simp only [h32, decide_true, Bool.true_and]
  simp [hk]

/-- Reads past the end of the source give zeros (40_bitstream.md R111, R114). -/
theorem streamBit_past_end (k : Nat) (s : State) (h : 8 * s.srcLen.toNat ≤ k) : streamBit k s = false := by
  have : ¬ k / 8 < s.srcLen.toNat := by omega
  simp [streamBit, srcZ, this]

/-- A byte-wise stream: a read of eight bits at a byte boundary is the byte. -/
theorem bitRead_byte (p : Nat) (s : State) : bitRead (8 * p) 8 s = (srcZ p s).toNat := by
  have h := window_mod (8 * p) 8 s (by omega)
  rw [← h]
  have hb := congrArg BitVec.toNat (window_byte p 0 s (by omega))
  simp only [Nat.mul_zero, Nat.add_zero, BitVec.extractLsb'_toNat, Nat.shiftRight_zero] at hb
  exact hb

/-- An operation that writes no source byte leaves the stream as it was. -/
theorem Wrote.srcZ {P : Nat → Prop} {s t : State} (h : Wrote P s t)
    (hP : ∀ a, P a → (srcRegion s).has a = false) (k : Nat) : srcZ k t = srcZ k s := by
  unfold Machine.srcZ srcByte
  rw [h.srcLen, h.srcBase]
  split
  · next hk =>
    apply h.other
    intro hp
    have := hP _ hp
    rw [Region.has_false_iff] at this
    simp only [srcRegion] at this
    omega
  · rfl

theorem Wrote.streamBit {P : Nat → Prop} {s t : State} (h : Wrote P s t)
    (hP : ∀ a, P a → (srcRegion s).has a = false) (k : Nat) : streamBit k t = streamBit k s := by
  simp only [Machine.streamBit, h.srcZ hP]

theorem Wrote.bitRead {P : Nat → Prop} {s t : State} (h : Wrote P s t)
    (hP : ∀ a, P a → (srcRegion s).has a = false) (off n : Nat) : bitRead off n t = bitRead off n s := by
  induction n with
  | zero => rfl
  | succ n ih => simp only [Machine.bitRead, ih, h.streamBit hP]

theorem Wrote.window {P : Nat → Prop} {s t : State} (h : Wrote P s t)
    (hP : ∀ a, P a → (srcRegion s).has a = false) (off : Nat) : window off t = window off s := by
  simp only [Machine.window, h.srcZ hP]

end Sys2Proof.Machine
end

