-- ==== Sys2Proof/Laws/Validate.lean ====
section
/-! SUPPORT. What passing validation (60_exceptions.md R275) gives a job: its regions exist and its write region shares no
address with a read region. -/

namespace Sys2Proof.Machine

theorem Region.overlaps_false_iff (r q : Region) :
    r.overlaps q = false ↔ r.len = 0 ∨ q.len = 0 ∨ q.base + q.len ≤ r.base ∨ r.base + r.len ≤ q.base := by
  rw [← Bool.not_eq_true]
  simp only [Region.overlaps, Bool.and_eq_true, decide_eq_true_eq]
  omega

/-- Regions that do not overlap share no address. -/
theorem Region.disjoint_of_not_overlaps {r q : Region} (h : r.overlaps q = false) {a : Nat} (ha : r.has a = true) :
    q.has a = false := by
  rw [Region.overlaps_false_iff] at h
  rw [Region.has_iff] at ha
  rw [Region.has_false_iff]
  omega

theorem Region.inRange_iff (c : Config) (r : Region) :
    r.inRange c = true ↔ r.len = 0 ∨ r.base + r.len ≤ c.memBytes := by
  simp [Region.inRange]

/-- A region that is in range holds only addresses that exist. -/
theorem Region.lt_of_inRange {c : Config} {r : Region} (h : r.inRange c = true) {a : Nat} (ha : r.has a = true) :
    a < c.memBytes := by
  rw [Region.inRange_iff] at h
  rw [Region.has_iff] at ha
  omega

/-- What a job that passed validation knows. -/
structure Validated (k : JobKind) (s : State) : Prop where
  writeInRange : (writeRegion k s).inRange s.cfg = true
  readInRange : ∀ r ∈ readRegions k s, r.inRange s.cfg = true
  disjoint : ∀ r ∈ readRegions k s, (writeRegion k s).overlaps r = false

theorem validated_of_none {k : JobKind} {s : State} (h : validate k s = none) : Validated k s := by
  unfold validate at h
  split at h
  · exact absurd h (by simp)
  · next h1 =>
    split at h
    · exact absurd h (by simp)
    · next h2 =>
      simp only [List.any_eq_true, not_exists, not_and, Bool.not_eq_true, List.mem_cons,
        Bool.not_eq_eq_eq_not] at h1 h2
      refine ⟨by simpa using h1 _ (Or.inl rfl), fun r hr => by simpa using h1 r (Or.inr hr), fun r hr => h2 r hr⟩

/-- No output byte is a byte of a read region. -/
theorem Validated.read_free {k : JobKind} {s : State} (h : Validated k s) {r : Region} (hr : r ∈ readRegions k s)
    {a : Nat} (ha : (writeRegion k s).has a = true) : r.has a = false :=
  Region.disjoint_of_not_overlaps (h.disjoint r hr) ha

/-- Every byte a job writes exists. -/
theorem Validated.write_lt {k : JobKind} {s : State} (h : Validated k s) {a : Nat}
    (ha : (writeRegion k s).has a = true) : a < s.cfg.memBytes :=
  Region.lt_of_inRange h.writeInRange ha

theorem outAddr_mem_dstRegion (s : State) {i : Nat} (h : i < s.dstLen.toNat) :
    (dstRegion s).has (outAddr s i) = true := by
  rw [Region.has_iff]; simp only [dstRegion, outAddr]; omega

theorem outAddr_mem_imageRegion (s : State) {i : Nat} (h : i < s.width * s.height) :
    (imageRegion s).has (outAddr s i) = true := by
  rw [Region.has_iff]; simp only [imageRegion, outAddr]; omega

theorem outSpan_dstRegion {s : State} {lo hi : Nat} (h : hi ≤ s.dstLen.toNat) {a : Nat} (ha : outSpan s lo hi a) :
    (dstRegion s).has a = true := by
  obtain ⟨i, _, h2, rfl⟩ := ha
  exact outAddr_mem_dstRegion s (by omega)

theorem outSpan_imageRegion {s : State} {lo hi : Nat} (h : hi ≤ s.width * s.height) {a : Nat}
    (ha : outSpan s lo hi a) : (imageRegion s).has a = true := by
  obtain ⟨i, _, h2, rfl⟩ := ha
  exact outAddr_mem_imageRegion s (by omega)

theorem srcRegion_mem_readRegions {k : JobKind} (hk : k ≠ .sample) (s : State) : srcRegion s ∈ readRegions k s := by
  cases k with
  | lz77 c => cases c <;> simp [readRegions]
  | sample => exact absurd rfl hk
  | rle | lzw | qt | nmerge | xpose => simp [readRegions]

/-- Job registers, parameters alone decide the operands and, but for LZ77's tail count, validation. -/
theorem regions_congr {s t : State} (h : keepsRegisters s t) (k : JobKind) :
    readRegions k t = readRegions k s ∧ writeRegion k t = writeRegion k s ∧ currentJob t = currentJob s := by
  obtain ⟨_, h2, h3, h4, h5, h6, h7, h8, h9, h10, _, _⟩ := h
  refine ⟨?_, ?_, ?_⟩
  · cases k <;> simp [readRegions, srcRegion, ctabRegion, State.width, State.height, *]
  · cases k <;> simp [writeRegion, dstRegion, imageRegion, State.width, State.height, *]
  · simp [currentJob, h2]

/-- Validation looks at no byte a job of that kind writes. -/
theorem validate_congr {s t : State} (h : keepsRegisters s t) {k : JobKind}
    (hm : ∀ a, (writeRegion k s).has a = false → memRead a t = memRead a s) (hv : validate k s = none) :
    validate k t = none := by
  obtain ⟨r1, r2, _⟩ := regions_congr h k
  have hd := validated_of_none hv
  obtain ⟨h1, h2, h3, h4, h5, h6, h7, h8, h9, h10, _, _⟩ := h
  have hb : ∀ c, k = .lz77 c → 2 < s.srcLen.toNat → srcByte 2 t = srcByte 2 s := by
    intro c hc hl
    unfold srcByte; rw [h3]
    apply hm
    cases hb : (writeRegion k s).has (s.srcBase.toNat + 2) with
    | false => rfl
    | true =>
      have := hd.read_free (srcRegion_mem_readRegions (by simp [hc]) s) hb
      rw [Region.has_false_iff] at this
      simp only [srcRegion] at this
      omega
  unfold validate at hv ⊢
  rw [r1, r2, h1]
  split
  · next h' => rw [if_pos h'] at hv; exact hv
  · next h' =>
    rw [if_neg h'] at hv
    split
    · next h'' => rw [if_pos h''] at hv; exact hv
    · next h'' =>
      rw [if_neg h''] at hv
      cases k with
      | sample => simp only [State.width, State.height, State.coordX, State.coordY, h9, h10] at hv ⊢; exact hv
      | lz77 c =>
        simp only at hv ⊢
        rw [h4]
        by_cases hl : s.srcLen.toNat < 3
        · rw [if_pos hl] at hv; exact absurd hv (by simp)
        · rw [if_neg hl] at hv ⊢
          rw [hb c rfl (by omega)]; exact hv
      | rle | lzw | qt | nmerge | xpose => rfl

end Sys2Proof.Machine
end

