-- ==== Sys2Proof/Laws/Lz77.lean ====
section
/-! SUPPORT. What the LZ77 operations (44_lz77.md) can do: the emit, the copy of a backreference, the position in a group. -/

namespace Sys2Proof.Machine

/-- An emit where the output has room (44_lz77.md R210). -/
theorem lz77Emit_some {o : Nat} {s : State} (h : o < s.dstLen.toNat) (v : Byte) :
    lz77Emit v o s = some (o + 1, out o v s) := by
  unfold lz77Emit; rw [if_neg (by omega)]

/-- An emit where the output is full (44_lz77.md R210). -/
theorem lz77Emit_none {o : Nat} {s : State} (h : s.dstLen.toNat ≤ o) (v : Byte) : lz77Emit v o s = none := by
  unfold lz77Emit; rw [if_pos h]

/-- A copy that does not fit overflows (44_lz77.md R210). -/
theorem lz77Copy_none (start : Int) (n k o : Nat) (s : State) (h : s.dstLen.toNat < o + n) (ho : o ≤ s.dstLen.toNat) :
    lz77Copy start n k o s = none := by
  induction n generalizing k o s with
  | zero => omega
  | succ n ih =>
    unfold lz77Copy
    by_cases hf : s.dstLen.toNat ≤ o
    · simp only [lz77Emit_none hf]
    · simp only [lz77Emit_some (by omega : o < s.dstLen.toNat)]
      exact ih (k + 1) (o + 1) _ (by simp; omega) (by simp; omega)

/-- Everything a copy that fits can do (44_lz77.md R208, R209): its bytes are, in the final output, those at the source
positions, 0 before the start. -/
theorem lz77Copy_some (start : Int) (n k o : Nat) (s : State) (h : o + n ≤ s.dstLen.toNat) (hs : start + k < o) :
    ∃ t, lz77Copy start n k o s = some (o + n, t) ∧ Wrote (outSpan s o (o + n)) s t ∧
      ∀ j, j < n → outByte (o + j) t = if 0 ≤ start + k + j then outByte (start + k + j).toNat t else 0 := by
  induction n generalizing k o s with
  | zero => exact ⟨s, rfl, Wrote.refl _ s, fun j hj => by omega⟩
  | succ n ih =>
    unfold lz77Copy
    simp only [lz77Emit_some (by omega : o < s.dstLen.toNat)]
    generalize hv : (if 0 ≤ start + k then outByte (start + k).toNat s else 0) = v
    obtain ⟨t, h1, h2, h3⟩ := ih (k + 1) (o + 1) (out o v s) (by simp; omega) (by push_cast; omega)
    have hw := Wrote.out (s := s) (lo := o) (hi := o + (n + 1)) (Nat.le_refl _) (by omega) v
    have hold : ∀ i, i ≤ o → outByte i t = outByte i (out o v s) := by
      intro i hi
      unfold outByte
      rw [h2.outAddr]
      apply h2.other
      rintro ⟨m, hm1, _, hm3⟩
      simp only [outAddr] at hm3
      omega
    refine ⟨t, by rw [h1]; congr 2; omega, hw.trans (h2.mono ?_), ?_⟩
    · rintro a ⟨i, hi1, hi2, rfl⟩
      exact ⟨i, by omega, by omega, rfl⟩
    · intro j hj
      cases j with
      | zero =>
        have e0 : outByte (o + 0) t = v := by rw [hold (o + 0) (by omega)]; simp
        rw [e0, ← hv]
        simp only [Int.natCast_zero, Int.add_zero]
        split
        · next hp =>
          have hlt : (start + (k : Int)).toNat < o := by omega
          rw [hold _ (by omega), outByte_out_other (by omega)]
        · rfl
      | succ j =>
        have := h3 j (by omega)
        have e1 : o + (j + 1) = o + 1 + j := by omega
        have e2 : start + (k : Int) + ((j + 1 : Nat) : Int) = start + ((k + 1 : Nat) : Int) + (j : Int) := by
          push_cast; omega
        rw [e1, e2, this]

/-- The stage after a group's flag byte or a decision is a legal one. -/
theorem groupStage_ok (flags : Byte) (idx left : Nat) (tail : Bool) (h : left ≤ idx + 1) (hi : idx ≤ 7) :
    (groupStage flags idx left tail).ok := by
  unfold groupStage
  split
  · split <;> trivial
  · exact ⟨by omega, h, hi⟩

theorem groupStage_ne_header (flags : Byte) (idx left : Nat) (tail : Bool) :
    groupStage flags idx left tail ≠ .header := by
  unfold groupStage
  split
  · split <;> simp
  · simp

theorem Lz77Stage.ok_afterDecision {st : Lz77Stage} (h : st.ok) : st.afterDecision.ok := by
  cases st with
  | decisions flags idx left tail =>
    obtain ⟨h1, h2, h3⟩ := h
    exact groupStage_ok flags (idx - 1) (left - 1) tail (by omega) (by omega)
  | header | flag | done => trivial

end Sys2Proof.Machine
end

