-- ==== Sys2Proof/Laws/Lzw.lean ====
section
/-! SUPPORT. What the LZW operations (42_lzw.md) can do: emitting, inserting and growing, and the invariants of R155. -/

namespace Sys2Proof.Machine

/-- How many bytes of a sequence reach the output (42_lzw.md R146). -/
def lzwEmitted (seq : List Byte) (o : Nat) (s : State) : Nat := min seq.length (s.dstLen.toNat - o)

/-- Everything an emit can do. -/
theorem lzwEmit_spec (seq : List Byte) (o : Nat) (s : State) (ho : o ≤ s.dstLen.toNat) :
    (lzwEmit seq o s).1 = o + lzwEmitted seq o s ∧
      Wrote (outSpan s o (o + lzwEmitted seq o s)) s (lzwEmit seq o s).2 ∧
      ∀ j, j < lzwEmitted seq o s → outByte (o + j) (lzwEmit seq o s).2 = seq.getD j 0 := by
  induction seq generalizing o s with
  | nil => exact ⟨by simp [lzwEmit, lzwEmitted], by simpa [lzwEmit, lzwEmitted] using Wrote.refl _ s,
      by simp [lzwEmitted]⟩
  | cons b bs ih =>
    unfold lzwEmit
    split
    · next h =>
      have hw := Wrote.out (s := s) (lo := o) (hi := o + lzwEmitted (b :: bs) o s) (Nat.le_refl _)
        (by simp only [lzwEmitted, List.length_cons]; omega) b
      obtain ⟨h1, h2, h3⟩ := ih (o + 1) (out o b s) (by simp; omega)
      have hm : lzwEmitted bs (o + 1) (out o b s) + 1 = lzwEmitted (b :: bs) o s := by
        simp only [lzwEmitted, List.length_cons, out_dstLen]; omega
      refine ⟨by rw [h1]; omega, hw.trans (h2.mono ?_), ?_⟩
      · rintro a ⟨i, hi1, hi2, rfl⟩
        exact ⟨i, by omega, by omega, rfl⟩
      · intro j hj
        cases j with
        | zero =>
          have : outByte o (lzwEmit bs (o + 1) (out o b s)).2 = outByte o (out o b s) := by
            unfold outByte
            rw [h2.outAddr]
            apply h2.other
            rintro ⟨i, hi1, _, hi3⟩
            simp only [outAddr] at hi1 hi3
            omega
          simpa using this
        | succ j =>
          have := h3 j (by omega)
          simpa [Nat.add_assoc, Nat.add_comm 1 j] using this
    · next h =>
      have hz : ∀ l : List Byte, lzwEmitted l o s = 0 := fun l => by unfold lzwEmitted; omega
      obtain ⟨h1, h2, _⟩ := ih o s ho
      rw [hz] at h1 h2 ⊢
      exact ⟨h1, h2, fun j hj => by omega⟩

/-! ### Insertion and growth -/

@[simp] theorem LzwState.next_off (c : LzwState) (n : Nat) : LzwState.next { c with off := n } = c.next := rfl
@[simp] theorem LzwState.next_o (c : LzwState) (n : Nat) : LzwState.next { c with o := n } = c.next := rfl
@[simp] theorem LzwState.next_prev (c : LzwState) (p : Option (List Byte)) :
    LzwState.next { c with prev := p } = c.next := rfl

@[simp] theorem lzwGrow_off (g : Nat) (c : LzwState) : (lzwGrow g c).off = c.off := by unfold lzwGrow; split <;> rfl
@[simp] theorem lzwGrow_o (g : Nat) (c : LzwState) : (lzwGrow g c).o = c.o := by unfold lzwGrow; split <;> rfl
@[simp] theorem lzwGrow_dict (g : Nat) (c : LzwState) : (lzwGrow g c).dict = c.dict := by unfold lzwGrow; split <;> rfl
@[simp] theorem lzwGrow_prev (g : Nat) (c : LzwState) : (lzwGrow g c).prev = c.prev := by unfold lzwGrow; split <;> rfl
@[simp] theorem lzwGrow_next (g : Nat) (c : LzwState) : (lzwGrow g c).next = c.next := by simp [LzwState.next]

@[simp] theorem lzwInsert_off (g : Nat) (seq : List Byte) (c : LzwState) : (lzwInsert g seq c).off = c.off := by
  unfold lzwInsert; split <;> [rfl; (split <;> simp)]
@[simp] theorem lzwInsert_o (g : Nat) (seq : List Byte) (c : LzwState) : (lzwInsert g seq c).o = c.o := by
  unfold lzwInsert; split <;> [rfl; (split <;> simp)]
@[simp] theorem lzwInsert_prev (g : Nat) (seq : List Byte) (c : LzwState) : (lzwInsert g seq c).prev = c.prev := by
  unfold lzwInsert; split <;> [rfl; (split <;> simp)]

/-- Where a slot is assigned (42_lzw.md R155: every slot from 257 to NEXT - 1 is). -/
theorem LzwState.slot_isSome_iff (c : LzwState) {code : Nat} (h : lzwClearCode < code) :
    (c.slot code).isSome = true ↔ code < c.next := by
  have h256 : lzwClearCode = 256 := rfl
  have hl : lzwLiterals = 256 := rfl
  simp only [LzwState.slot, LzwState.next]
  by_cases hc : code - (lzwLiterals + 1) < c.dict.length
  · rw [List.getElem?_eq_getElem hc]; simp; omega
  · rw [List.getElem?_eq_none (by omega)]; simp; omega

/-- A clear code gives a state with the invariants of 42_lzw.md R155. -/
theorem LzwState.ok_clear (c : LzwState) (g : Nat) : c.clear.ok g := by
  refine ⟨Nat.le_refl _, (by decide : lzwWidthMin ≤ lzwWidthMax), by simp [LzwState.clear, LzwState.next, lzwLiterals, lzwTable], ?_, ?_, ?_⟩
  · intro _ _; simp [LzwState.clear, LzwState.next, lzwLiterals, lzwWidthMin]
  · intro k seq h; simp [LzwState.clear] at h
  · intro seq h; simp [LzwState.clear] at h

theorem LzwState.ok_start (g : Nat) : LzwState.start.ok g := LzwState.ok_clear LzwState.start g

/-- The invariants of 42_lzw.md R155 speak of no cursor and no output count. -/
theorem LzwState.ok_congr {c d : LzwState} {g : Nat} (hw : d.width = c.width) (hd : d.dict = c.dict)
    (hp : d.prev = c.prev) (h : c.ok g) : d.ok g := by
  simp only [LzwState.ok, LzwState.next, hw, hd, hp] at h ⊢
  exact h

/-- An insertion and the PREV update keep the invariants of 42_lzw.md R155, for a sequence no longer than the table
allows: an assigned one, or the previous one and a byte. -/
theorem LzwState.ok_resolved {c : LzwState} {g : Nat} (h : c.ok g) {seq : List Byte} (h1 : 1 ≤ seq.length)
    (h2 : seq.length ≤ c.next - lzwLiterals ∨
      ∃ p, c.prev = some p ∧ seq.length ≤ p.length + 1 ∧ c.next < lzwTable) :
    LzwState.ok { lzwInsert g seq c with prev := some seq } g := by
  obtain ⟨w1, w2, n1, n2, d, p⟩ := h
  cases hp : c.prev with
  | none =>
    have hi : lzwInsert g seq c = c := by simp [lzwInsert, hp]
    rw [hi]
    refine ⟨w1, w2, n1, n2, d, ?_⟩
    intro q hq
    simp only [Option.some.injEq] at hq
    subst hq
    rcases h2 with h2 | ⟨p, h2, _⟩
    · exact ⟨h1, h2⟩
    · rw [hp] at h2; exact absurd h2 (by simp)
  | some prev =>
    obtain ⟨p1, p2⟩ := p prev hp
    by_cases hn : c.next < lzwTable
    · have hi : lzwInsert g seq c = lzwGrow g { c with dict := c.dict ++ [prev ++ seq.take 1] } := by
        simp [lzwInsert, hp, hn]
      have hnext : LzwState.next { c with dict := c.dict ++ [prev ++ seq.take 1] } = c.next + 1 := by
        simp [LzwState.next]; omega
      have hcn : c.next = lzwLiterals + 1 + c.dict.length := rfl
      have hd : ∀ k q, (c.dict ++ [prev ++ seq.take 1])[k]? = some q → 1 ≤ q.length ∧ q.length ≤ k + 2 := by
        intro k q hk
        rw [List.getElem?_append] at hk
        split at hk
        · exact d k q hk
        · next hk' =>
          have hk0 : k - c.dict.length = 0 := by
            by_contra hne
            have : 1 ≤ k - c.dict.length := by omega
            rw [List.getElem?_eq_none (by simpa using this)] at hk
            exact absurd hk (by simp)
          rw [hk0] at hk
          simp only [List.getElem?_cons_zero, Option.some.injEq] at hk
          subst hk
          simp only [List.length_append, List.length_take]
          have : lzwLiterals = 256 := rfl
          omega
      have hq : ∀ q, some seq = some q → 1 ≤ q.length ∧ q.length ≤ c.next + 1 - lzwLiterals := by
        intro q hq
        simp only [Option.some.injEq] at hq
        subst hq
        refine ⟨h1, ?_⟩
        have : lzwLiterals = 256 := rfl
        rcases h2 with h2 | ⟨p', h2, h3, _⟩
        · omega
        · rw [hp] at h2; simp only [Option.some.injEq] at h2; subst h2; omega
      rw [hi]
      obtain ⟨e, he⟩ : ∃ e : LzwState, e = { c with dict := c.dict ++ [prev ++ seq.take 1] } := ⟨_, rfl⟩
      have ew : e.width = c.width := by rw [he]
      have en : e.next = c.next + 1 := by rw [he]; exact hnext
      have ed : ∀ k q, e.dict[k]? = some q → 1 ≤ q.length ∧ q.length ≤ k + 2 := by rw [he]; exact hd
      rw [← he]
      rcases Nat.lt_or_ge (lzwGrow g e).width (e.width + 1) with hg | hg
      · have hng : ¬ (e.next - g = 2 ^ e.width ∧ e.width < lzwWidthMax) := by
          intro hc; unfold lzwGrow at hg; rw [if_pos hc] at hg; simp at hg
        have hge : lzwGrow g e = e := by unfold lzwGrow; rw [if_neg hng]
        rw [hge]
        refine ⟨by show lzwWidthMin ≤ e.width; omega, by show e.width ≤ lzwWidthMax; omega, ?_, ?_, ed, ?_⟩
        · show e.next ≤ lzwTable; omega
        · intro hg0 hw
          change e.width < lzwWidthMax at hw
          show e.next < 2 ^ e.width
          have := n2 hg0 (by omega)
          rw [ew] at hng hw ⊢
          subst hg0
          by_contra hc
          exact hng ⟨by omega, hw⟩
        · intro q hq'
          show 1 ≤ q.length ∧ q.length ≤ e.next - lzwLiterals
          rw [en]; exact hq q hq'
      · have hc : e.next - g = 2 ^ e.width ∧ e.width < lzwWidthMax := by
          by_contra hc; unfold lzwGrow at hg; rw [if_neg hc] at hg; omega
        have hge : lzwGrow g e = { e with width := e.width + 1 } := by unfold lzwGrow; rw [if_pos hc]
        rw [hge]
        refine ⟨by show lzwWidthMin ≤ e.width + 1; omega, by show e.width + 1 ≤ lzwWidthMax; omega, ?_, ?_, ed, ?_⟩
        · show e.next ≤ lzwTable; omega
        · intro hg0 _
          show e.next < 2 ^ (e.width + 1)
          rw [Nat.pow_succ]
          have h2p := Nat.two_pow_pos e.width
          omega
        · intro q hq'
          show 1 ≤ q.length ∧ q.length ≤ e.next - lzwLiterals
          rw [en]; exact hq q hq'
    · have hi : lzwInsert g seq c = c := by simp [lzwInsert, hp, hn]
      rw [hi]
      refine ⟨w1, w2, n1, n2, d, ?_⟩
      intro q hq
      simp only [Option.some.injEq] at hq
      subst hq
      rcases h2 with h2 | ⟨_, _, _, h2⟩
      · exact ⟨h1, h2⟩
      · exact absurd h2 hn

end Sys2Proof.Machine
end

