-- ==== Sys2Proof/Laws/Quadtree.lean ====
section
/-! SUPPORT. What the quadtree operations (43_quadtree.md) can do: the split, the leaf's pixels, the cost of a region. -/

namespace Sys2Proof.Machine

theorem Rect.holds_iff (r : Rect) (px py : Nat) :
    r.holds px py = true ↔ r.x ≤ px ∧ px < r.x + r.w ∧ r.y ≤ py ∧ py < r.y + r.h := by
  simp [Rect.holds, and_assoc]

theorem Rect.isEmpty_iff (r : Rect) : r.isEmpty = true ↔ r.w = 0 ∨ r.h = 0 := by simp [Rect.isEmpty]

theorem Rect.isEmpty_false_iff (r : Rect) : r.isEmpty = false ↔ 1 ≤ r.w ∧ 1 ≤ r.h := by
  rw [← Bool.not_eq_true, Rect.isEmpty_iff]; omega

@[simp] theorem Rect.quadrant_zero (r : Rect) : r.quadrant 0 = ⟨r.x, r.y, r.w / 2, r.h / 2⟩ := rfl
@[simp] theorem Rect.quadrant_one (r : Rect) : r.quadrant 1 = ⟨r.x + r.w / 2, r.y, r.w - r.w / 2, r.h / 2⟩ := rfl
@[simp] theorem Rect.quadrant_two (r : Rect) : r.quadrant 2 = ⟨r.x, r.y + r.h / 2, r.w / 2, r.h - r.h / 2⟩ := rfl
@[simp] theorem Rect.quadrant_three (r : Rect) :
    r.quadrant 3 = ⟨r.x + r.w / 2, r.y + r.h / 2, r.w - r.w / 2, r.h - r.h / 2⟩ := rfl

/-- A quadrant lies inside its region. -/
theorem Rect.quadrant_inside (r : Rect) (i : Nat) :
    r.x ≤ (r.quadrant i).x ∧ (r.quadrant i).x + (r.quadrant i).w ≤ r.x + r.w ∧
      r.y ≤ (r.quadrant i).y ∧ (r.quadrant i).y + (r.quadrant i).h ≤ r.y + r.h := by
  unfold Rect.quadrant
  simp only
  split
  · simp only; omega
  · split
    · simp only; omega
    · split
      · simp only; omega
      · simp only; omega

theorem Rect.inImage_quadrant {r : Rect} {s : State} (h : r.inImage s) {i : Nat}
    (he : (r.quadrant i).isEmpty = false) : (r.quadrant i).inImage s := by
  obtain ⟨_, h2, h3⟩ := h
  have := r.quadrant_inside i
  exact ⟨he, by omega, by omega⟩

/-- The number of pixels of a rectangle. -/
def Rect.area (r : Rect) : Nat := r.w * r.h

/-- The quadrants' areas add up to the region's (43_quadtree.md R190). -/
theorem Rect.area_quadrants (r : Rect) :
    (r.quadrant 0).area + (r.quadrant 1).area + (r.quadrant 2).area + (r.quadrant 3).area = r.area := by
  simp only [Rect.area, Rect.quadrant_zero, Rect.quadrant_one, Rect.quadrant_two, Rect.quadrant_three]
  obtain ⟨a, ha⟩ : ∃ a, r.w = r.w / 2 + a := ⟨r.w - r.w / 2, by omega⟩
  obtain ⟨b, hb⟩ : ∃ b, r.h = r.h / 2 + b := ⟨r.h - r.h / 2, by omega⟩
  have ea : r.w - r.w / 2 = a := by omega
  have eb : r.h - r.h / 2 = b := by omega
  rw [ea, eb]
  conv_rhs => rw [ha, hb]
  ring

theorem Rect.area_pos {r : Rect} (h : r.isEmpty = false) : 1 ≤ r.area := by
  rw [Rect.isEmpty_false_iff] at h
  exact Nat.mul_pos h.1 h.2

theorem Rect.area_empty {r : Rect} (h : r.isEmpty = true) : r.area = 0 := by
  rw [Rect.isEmpty_iff] at h
  unfold Rect.area
  rcases h with h | h <;> simp [h]

/-- Where pixel `k` of a leaf goes, as an output position. -/
def leafIndex (q : Rect) (imageW k : Nat) : Nat := (q.y + k % q.h) * imageW + (q.x + k / q.h)

theorem leafIndex_lt {q : Rect} {s : State} (hq : q.inImage s) {k : Nat} (hk : k < q.w * q.h) :
    leafIndex q s.width k < s.width * s.height := by
  obtain ⟨he, hx, hy⟩ := hq
  rw [Rect.isEmpty_false_iff] at he
  have h1 : k % q.h < q.h := Nat.mod_lt _ (by omega)
  have h2 : k / q.h < q.w := Nat.div_lt_of_lt_mul (by rw [Nat.mul_comm]; exact hk)
  unfold leafIndex
  have h3 : (q.y + k % q.h + 1) * s.width ≤ s.height * s.width := Nat.mul_le_mul_right _ (by omega)
  rw [Nat.add_mul, Nat.one_mul] at h3
  rw [Nat.mul_comm s.width s.height]
  omega

theorem leafIndex_inj {q : Rect} {s : State} (hq : q.inImage s) {j k : Nat} (hj : j < q.w * q.h) (hk : k < q.w * q.h)
    (h : leafIndex q s.width j = leafIndex q s.width k) : j = k := by
  obtain ⟨he, hx, hy⟩ := hq
  rw [Rect.isEmpty_false_iff] at he
  have a2 : j / q.h < q.w := Nat.div_lt_of_lt_mul (by rw [Nat.mul_comm]; exact hj)
  have b2 : k / q.h < q.w := Nat.div_lt_of_lt_mul (by rw [Nat.mul_comm]; exact hk)
  unfold leafIndex at h
  have hrow : q.y + j % q.h = q.y + k % q.h := by
    have hd := congrArg (· / s.width) h
    rw [Nat.mul_comm _ s.width, Nat.mul_comm _ s.width, Nat.mul_add_div (by omega), Nat.mul_add_div (by omega),
      Nat.div_eq_of_lt (by omega : q.x + j / q.h < s.width), Nat.div_eq_of_lt (by omega : q.x + k / q.h < s.width)] at hd
    omega
  rw [hrow] at h
  have hq1 := Nat.div_add_mod j q.h
  have hq2 := Nat.div_add_mod k q.h
  have hqq : j / q.h = k / q.h := by omega
  rw [hqq] at hq1
  omega

/-- Everything a leaf's pixels can do: only bytes of the image. -/
theorem Wrote.qtPutLeaf {q : Rect} {s : State} (_ : q.inImage s) (val : Nat → State → Byte) :
    Wrote (fun a => ∃ k, k < q.w * q.h ∧ a = Machine.outAddr s (leafIndex q s.width k)) s
      (Machine.qtPutLeaf q val s) :=
  Wrote.writeEach (fun k hk => ⟨k, hk, rfl⟩) val s

theorem Wrote.qtPutLeaf_image {q : Rect} {s : State} (hq : q.inImage s) (val : Nat → State → Byte) :
    Wrote (fun a => (imageRegion s).has a = true) s (Machine.qtPutLeaf q val s) :=
  (Wrote.qtPutLeaf hq val).mono fun _ ⟨_, hk, e⟩ => e ▸ outAddr_mem_imageRegion s (leafIndex_lt hq hk)

/-- Pixel `k` of a leaf holds what `val k` computed when its turn came. -/
theorem outByte_qtPutLeaf {q : Rect} {s : State} (hq : q.inImage s) (val : Nat → State → Byte) {k : Nat}
    (hk : k < q.w * q.h) :
    outByte (leafIndex q s.width k) (Machine.qtPutLeaf q val s) =
      val k (writeEach (fun k => outAddr s (leafIndex q s.width k)) val k s) := by
  have hinj : ∀ i j, i < q.w * q.h → j < q.w * q.h →
      outAddr s (leafIndex q s.width i) = outAddr s (leafIndex q s.width j) → i = j := by
    intro i j hi hj h
    exact leafIndex_inj hq hi hj (by simp only [outAddr] at h; omega)
  have := memRead_writeEach (addr := fun k => outAddr s (leafIndex q s.width k)) hinj val s hk
  unfold outByte
  rw [(Wrote.qtPutLeaf hq val).outAddr]
  exact this

/-! ### The bound on a job's steps (43_quadtree.md R190) -/

/-- The steps that quadrants `i` to 3 of a region and leaving it can take, with `d` levels of nesting left below it. -/
def quadrantsCost (d : Nat) (r : Rect) : Nat → Nat
  | 0 => 1
  | n + 1 => 1 + 6 * (r.quadrant (3 - n)).area * d + quadrantsCost d r n

/-- The steps a stack of regions can take; the innermost of `n` regions has `maxDepth - n` levels below it. -/
def stackCost (maxDepth : Nat) : List Frame → Nat
  | [] => 1
  | f :: fs => quadrantsCost (maxDepth - (fs.length + 1)) f.rect (4 - f.next) + stackCost maxDepth fs

/-- The steps a quadtree job can still take. -/
def qtCost (maxDepth : Nat) (c : QtState) : Nat :=
  match c.pending with
  | some r => 6 * r.area * (maxDepth - c.stack.length) + stackCost maxDepth c.stack
  | none => stackCost maxDepth c.stack

theorem quadrantsCost_four (d : Nat) (r : Rect) : quadrantsCost d r 4 = 5 + 6 * r.area * d := by
  simp only [quadrantsCost]
  have := r.area_quadrants
  calc _ = 5 + 6 * ((r.quadrant 0).area + (r.quadrant 1).area + (r.quadrant 2).area + (r.quadrant 3).area) * d := by ring
    _ = _ := by rw [this]

/-- Reading a region's mask takes one of the steps the region can take. -/
theorem cost_mask {r : Rect} (h : r.isEmpty = false) {maxDepth n : Nat} (hn : n < maxDepth) :
    quadrantsCost (maxDepth - (n + 1)) r 4 + 1 ≤ 6 * r.area * (maxDepth - n) := by
  rw [quadrantsCost_four]
  have ha := Rect.area_pos h
  obtain ⟨d, hd⟩ : ∃ d, maxDepth - n = d + 1 := ⟨maxDepth - n - 1, by omega⟩
  have hd' : maxDepth - (n + 1) = d := by omega
  rw [hd, hd', Nat.mul_add, Nat.mul_one]
  omega

end Sys2Proof.Machine
end

