-- ==== Sys2Proof/Laws/Rle.lean ====
section
/-! SUPPORT. What the two branches of the RLE loop (41_rle.md R122) can do. -/

namespace Sys2Proof.Machine

/-- How many bytes a literal run moves: its count, cut at L and at the end of the source (41_rle.md R123, R125). -/
def rleMoved (n : Nat) (c : RleState) (s : State) : Nat :=
  min n (min (s.dstLen.toNat - c.o) (s.srcLen.toNat - c.p))

/-- Everything the literal branch can do. -/
theorem rleCopy_spec (n : Nat) (c : RleState) (s : State) (ho : c.o ≤ s.dstLen.toNat) :
    (rleCopy n c s).1 = ⟨c.p + rleMoved n c s, c.o + rleMoved n c s⟩ ∧
      Wrote (outSpan s c.o (c.o + rleMoved n c s)) s (rleCopy n c s).2 := by
  induction n generalizing c s with
  | zero => exact ⟨by simp [rleCopy, rleMoved], by simpa [rleCopy, rleMoved] using Wrote.refl _ s⟩
  | succ n ih =>
    unfold rleCopy
    split
    · next h =>
      have hz : rleMoved (n + 1) c s = 0 := by unfold rleMoved; omega
      rw [hz]; exact ⟨rfl, Wrote.refl _ s⟩
    · next h =>
      have hw := Wrote.out (s := s) (lo := c.o) (hi := c.o + rleMoved (n + 1) c s) (Nat.le_refl _)
        (by unfold rleMoved; omega) (srcByte c.p s)
      obtain ⟨h1, h2⟩ := ih ⟨c.p + 1, c.o + 1⟩ (out c.o (srcByte c.p s) s) (by simp; omega)
      have hm : rleMoved n ⟨c.p + 1, c.o + 1⟩ (out c.o (srcByte c.p s) s) + 1 = rleMoved (n + 1) c s := by
        simp only [rleMoved, out_dstLen, out_srcLen]; omega
      constructor
      · rw [h1]; simp only [RleState.mk.injEq]; omega
      · refine hw.trans (h2.mono ?_)
        rintro a ⟨i, hi1, hi2, rfl⟩
        exact ⟨i, by simp only at hi1; omega, by simp only at hi2; omega, rfl⟩

/-- The bytes the literal branch writes are the source's, where the output shares no byte with it. -/
theorem rleCopy_bytes (n : Nat) (c : RleState) (s : State) (ho : c.o ≤ s.dstLen.toNat)
    (hd : ∀ i, i < s.dstLen.toNat → (srcRegion s).has (outAddr s i) = false) {j : Nat} (hj : j < rleMoved n c s) :
    outByte (c.o + j) (rleCopy n c s).2 = srcByte (c.p + j) s := by
  induction n generalizing c s j with
  | zero => simp [rleMoved] at hj
  | succ n ih =>
    unfold rleCopy
    split
    · next h => unfold rleMoved at hj; omega
    · next h =>
      have hw := Wrote.out (s := s) (lo := c.o) (hi := c.o + 1) (Nat.le_refl _) (by omega) (srcByte c.p s)
      have hm : rleMoved n ⟨c.p + 1, c.o + 1⟩ (out c.o (srcByte c.p s) s) + 1 = rleMoved (n + 1) c s := by
        simp only [rleMoved, out_dstLen, out_srcLen]; omega
      have hsp := rleCopy_spec n ⟨c.p + 1, c.o + 1⟩ (out c.o (srcByte c.p s) s) (by simp; omega)
      cases j with
      | zero =>
        have : outByte c.o (rleCopy n ⟨c.p + 1, c.o + 1⟩ (out c.o (srcByte c.p s) s)).2 =
            outByte c.o (out c.o (srcByte c.p s) s) := by
          unfold outByte
          rw [hsp.2.outAddr]
          apply hsp.2.other
          rintro ⟨i, hi1, _, hi3⟩
          simp only [outAddr] at hi1 hi3
          omega
        simpa using this
      | succ j =>
        have hlt : c.p + 1 + j < s.srcLen.toNat := by unfold rleMoved at hj; omega
        have := ih ⟨c.p + 1, c.o + 1⟩ (out c.o (srcByte c.p s) s) (by simp; omega)
          (by intro i hi; simpa [srcRegion] using hd i (by simpa using hi)) (j := j) (by omega)
        have e1 : c.o + (j + 1) = c.o + 1 + j := by omega
        have e2 : c.p + (j + 1) = c.p + 1 + j := by omega
        rw [e1, e2, this]
        have hz := hw.srcZ (fun a ha => by
          obtain ⟨i, hi1, hi2, rfl⟩ := ha
          exact hd i (by omega)) (c.p + 1 + j)
        simpa [srcZ, hlt] using hz

/-- How many copies a repeat run writes: its count, cut at L (41_rle.md R124, R125). -/
def rleCopies (n : Nat) (c : RleState) (s : State) : Nat := min n (s.dstLen.toNat - c.o)

/-- Everything the run branch can do. -/
theorem rleRepeat_spec (v : Byte) (n : Nat) (c : RleState) (s : State) (ho : c.o ≤ s.dstLen.toNat) :
    (rleRepeat v n c s).1 = ⟨c.p, c.o + rleCopies n c s⟩ ∧
      Wrote (outSpan s c.o (c.o + rleCopies n c s)) s (rleRepeat v n c s).2 ∧
      ∀ j, j < rleCopies n c s → outByte (c.o + j) (rleRepeat v n c s).2 = v := by
  induction n generalizing c s with
  | zero => exact ⟨by simp [rleRepeat, rleCopies], by simpa [rleRepeat, rleCopies] using Wrote.refl _ s,
      by simp [rleCopies]⟩
  | succ n ih =>
    unfold rleRepeat
    split
    · next h =>
      have hz : rleCopies (n + 1) c s = 0 := by unfold rleCopies; omega
      rw [hz]; exact ⟨rfl, Wrote.refl _ s, by intro j hj; omega⟩
    · next h =>
      have hw := Wrote.out (s := s) (lo := c.o) (hi := c.o + rleCopies (n + 1) c s) (Nat.le_refl _)
        (by unfold rleCopies; omega) v
      obtain ⟨h1, h2, h3⟩ := ih { c with o := c.o + 1 } (out c.o v s) (by simp; omega)
      have hm : rleCopies n { c with o := c.o + 1 } (out c.o v s) + 1 = rleCopies (n + 1) c s := by
        simp only [rleCopies, out_dstLen]; omega
      refine ⟨by rw [h1]; simp only [RleState.mk.injEq, true_and]; omega, hw.trans (h2.mono ?_), ?_⟩
      · rintro a ⟨i, hi1, hi2, rfl⟩
        exact ⟨i, by simp only at hi1; omega, by simp only at hi2; omega, rfl⟩
      · intro j hj
        cases j with
        | zero =>
          have : outByte c.o (rleRepeat v n { c with o := c.o + 1 } (out c.o v s)).2 = outByte c.o (out c.o v s) := by
            unfold outByte
            rw [h2.outAddr]
            apply h2.other
            rintro ⟨i, hi1, _, hi3⟩
            simp only [outAddr] at hi1 hi3
            omega
          simpa using this
        | succ j =>
          have := h3 j (by omega)
          simpa [Nat.add_assoc, Nat.add_comm 1 j] using this

end Sys2Proof.Machine
end

