-- ==== Sys2Proof/Laws/Engine.lean ====
section
/-! SUPPORT. Everything one token step can do (10_state.md R40), said once for all codecs: which registers and bytes it leaves,
that it keeps the job invariant, and that it brings the job nearer to its end. -/

namespace Sys2Proof.Machine

theorem keepsRegisters.refl (s : State) : keepsRegisters s s :=
  ⟨rfl, rfl, rfl, rfl, rfl, rfl, rfl, rfl, rfl, rfl, rfl, rfl⟩

theorem keepsRegisters.trans {s t u : State} (h : keepsRegisters s t) (k : keepsRegisters t u) : keepsRegisters s u := by
  obtain ⟨a1, a2, a3, a4, a5, a6, a7, a8, a9, a10, a11, a12⟩ := h
  obtain ⟨b1, b2, b3, b4, b5, b6, b7, b8, b9, b10, b11, b12⟩ := k
  exact ⟨b1.trans a1, b2.trans a2, b3.trans a3, b4.trans a4, b5.trans a5, b6.trans a6, b7.trans a7, b8.trans a8,
    b9.trans a9, b10.trans a10, b11.trans a11, b12.trans a12⟩

theorem keepsRegisters.codec (s : State) (c : Option Codec) : keepsRegisters s { s with codec := c } :=
  ⟨rfl, rfl, rfl, rfl, rfl, rfl, rfl, rfl, rfl, rfl, rfl, rfl⟩

theorem keepsRegisters.complete (p i b : Bool) (n : Nat) (s : State) : keepsRegisters s (complete p i b n s) :=
  ⟨rfl, rfl, rfl, rfl, rfl, rfl, rfl, rfl, rfl, rfl, rfl, rfl⟩

theorem keepsRegisters.errorCompletion (e : JobError) (s : State) : keepsRegisters s (errorCompletion e s) :=
  ⟨rfl, rfl, rfl, rfl, rfl, rfl, rfl, rfl, rfl, rfl, rfl, rfl⟩

theorem keepsRegisters.runtimeError (e : JobError) (r : Region) (s : State) : keepsRegisters s (runtimeError e r s) := by
  simp [keepsRegisters]

/-- The zero padding writes the output bytes from `o` to L - 1. -/
theorem Wrote.padZeros (o : Nat) (s : State) : Wrote (outSpan s o s.dstLen.toNat) s (Machine.padZeros o s) :=
  Wrote.writeEach (fun k hk => ⟨o + k, by omega, by omega, rfl⟩) _ _

/-- The padding's bytes are 0. -/
theorem outByte_padZeros {o i : Nat} {s : State} (h1 : o ≤ i) (h2 : i < s.dstLen.toNat) :
    outByte i (padZeros o s) = 0 := by
  have := memRead_writeEach (addr := fun k => outAddr s (o + k)) (n := s.dstLen.toNat - o)
    (by intro j k _ _ h; simp only [outAddr] at h; omega) (fun _ _ => 0) s (k := i - o) (by omega)
  have e : o + (i - o) = i := by omega
  simp only [e] at this
  unfold outByte
  rw [(Wrote.padZeros o s).outAddr]
  exact this

/-- What drawing a region can do: only its bytes change. -/
theorem drawRegion_spec (r : Region) (s : State) :
    keepsMemoryOutside r s (drawRegion r s) ∧ (Memory.wf s.mem = true → Memory.wf (drawRegion r s).mem = true) ∧
      ∀ n, (∀ a, r.has a = true → a < n) → Memory.within n s.mem = true →
        Memory.within n (drawRegion r s).mem = true := by
  have h := Wrote.writeEach (P := fun a => r.has a = true) (addr := fun k => r.base + k) (n := r.len)
    (fun k hk => by rw [Region.has_iff]; omega) (fun k _ => Config.freeByte (s.draws + k)) s
  exact ⟨fun a ha => h.other a (by simp [ha]), h.wf, h.within⟩

/-- The job a codec state belongs to. -/
def Codec.kind : Codec → JobKind
  | .rle _ => .rle
  | .lzw _ => .lzw
  | .qt _ => .qt
  | .lz77 c => .lz77 c.ctab

theorem Codec.ok.current {s : State} {c : Codec} (h : c.ok s) :
    currentJob s = some c.kind ∧ validate c.kind s = none := by
  cases c <;> exact ⟨h.1, h.2.1⟩

/-- The bound on the steps a job can still take. -/
def jobCost (s : State) : Codec → Nat
  | .rle c => s.srcLen.toNat - c.p + 1
  | .lzw c => (8 * s.srcLen.toNat - c.off) / 9 + 1
  | .qt c => qtCost s.cfg.qtMaxDepth c
  | .lz77 c => s.srcLen.toNat - c.p + 1

/-- Everything a token step of a job can do. -/
structure TokenEffect (c : Codec) (s t : State) : Prop where
  regs : keepsRegisters s t
  outside : keepsMemoryOutside (writeRegion c.kind s) s t
  wf : Memory.wf s.mem = true → Memory.wf t.mem = true
  within : Memory.within s.cfg.memBytes s.mem = true → Memory.within s.cfg.memBytes t.mem = true
  phase :
    (∃ c', t.codec = some c' ∧ c'.kind = c.kind ∧ c'.ok t ∧ keepsStatus s t ∧ jobCost s c' < jobCost s c) ∨
    (t.codec = none ∧
      ((t.draws = s.draws ∧ ∃ p i b, t.status = statusDone p i b) ∨
        ((c.kind = .qt ∧ t.status = statusError .qtDepth ∨ (∃ b, c.kind = .lz77 b) ∧ t.status = statusError .overflow) ∧
          t.result = 0 ∧ t.draws = s.draws + (writeRegion c.kind s).len)))

/-- A step that writes only output bytes and goes on. -/
theorem TokenEffect.ofWrote {P : Nat → Prop} {c c' : Codec} {s t : State} (hok : c.ok s) (h : Wrote P s t)
    (hP : ∀ a, P a → (writeRegion c.kind s).has a = true) (hk : c'.kind = c.kind)
    (hc : c'.ok { t with codec := some c' }) (hcost : jobCost s c' < jobCost s c) :
    TokenEffect c s { t with codec := some c' } :=
  { regs := h.keepsRegisters.trans (keepsRegisters.codec t _)
    outside := fun a ha => h.other a fun hp => by rw [hP a hp] at ha; exact absurd ha (by simp)
    wf := h.wf
    within := h.within _ fun a ha => (validated_of_none hok.current.2).write_lt (hP a ha)
    phase := Or.inl ⟨c', rfl, hk, hc, h.keepsStatus, hcost⟩ }

/-- A step that writes only output bytes and completes the job. -/
theorem TokenEffect.ofComplete {P : Nat → Prop} {c : Codec} {s t : State} (hok : c.ok s) (h : Wrote P s t)
    (hP : ∀ a, P a → (writeRegion c.kind s).has a = true) (p i b : Bool) (n : Nat) :
    TokenEffect c s (Machine.complete p i b n t) :=
  { regs := h.keepsRegisters.trans (keepsRegisters.complete ..)
    outside := fun a ha => h.other a fun hp => by rw [hP a hp] at ha; exact absurd ha (by simp)
    wf := h.wf
    within := h.within _ fun a ha => (validated_of_none hok.current.2).write_lt (hP a ha)
    phase := Or.inr ⟨rfl, Or.inl ⟨h.draws, p, i, b, rfl⟩⟩ }

/-- A step that ends the job with a run-time error. -/
theorem TokenEffect.ofRuntimeError {c : Codec} {s : State} (hok : c.ok s) {e : JobError}
    (he : c.kind = .qt ∧ e = .qtDepth ∨ (∃ b, c.kind = .lz77 b) ∧ e = .overflow) :
    TokenEffect c s (Machine.runtimeError e (writeRegion c.kind s) s) := by
  obtain ⟨h1, h2, h3⟩ := drawRegion_spec (writeRegion c.kind s) s
  exact
    { regs := keepsRegisters.runtimeError ..
      outside := h1
      wf := h2
      within := h3 _ fun a ha => (validated_of_none hok.current.2).write_lt ha
      phase := Or.inr ⟨rfl, Or.inr ⟨by rcases he with ⟨h, rfl⟩ | ⟨h, rfl⟩ <;> simp [h], rfl, rfl⟩⟩ }

/-- The job invariant speaks of the registers and the memory outside the output alone. -/
theorem validate_kept {P : Nat → Prop} {k : JobKind} {s t : State} (h : Wrote P s t)
    (hP : ∀ a, P a → (writeRegion k s).has a = true) (hv : validate k s = none) (c : Option Codec) :
    validate k { t with codec := c } = none :=
  validate_congr (h.keepsRegisters.trans (keepsRegisters.codec t c))
    (fun a ha => h.other a fun hp => by rw [hP a hp] at ha; exact absurd ha (by simp)) hv

theorem currentJob_kept {P : Nat → Prop} {s t : State} (h : Wrote P s t) (c : Option Codec) :
    currentJob { t with codec := c } = currentJob s := by
  simp [currentJob, h.cmd]

/-! ### RLE -/

theorem rleKind_dst (c : RleState) (s : State) : writeRegion (Codec.rle c).kind s = dstRegion s := rfl
theorem lzwKind_dst (c : LzwState) (s : State) : writeRegion (Codec.lzw c).kind s = dstRegion s := rfl
theorem lz77Kind_dst (c : Lz77State) (s : State) : writeRegion (Codec.lz77 c).kind s = dstRegion s := rfl
theorem qtKind_image (c : QtState) (s : State) : writeRegion (Codec.qt c).kind s = imageRegion s := rfl

/-- What the decoder finds at an RLE control byte (30_encoding.md R84). -/
theorem decodeRle_window (p : Nat) (s : State) :
    decodeRle (window (8 * p) s) =
      if (srcZ p s).getLsbD 7 then .rleRun ((srcZ p s).extractLsb' 0 7) (srcZ (p + 1) s)
      else .rleLit ((srcZ p s).extractLsb' 0 7) := by
  have h0 := window_byte p 0 s (by omega)
  have h1 := window_byte p 1 s (by omega)
  simp only [Nat.mul_zero, Nat.add_zero, Nat.mul_one] at h0 h1
  simp only [decodeRle, h0, h1, isRunControl_eq, litCount_eq]
  split
  · next h => rw [runCount_eq h]
  · rfl

/-- What the engine finds in an RLE job (41_rle.md R122, R125). -/
theorem fetchRle_cases {c : RleState} {s : State} :
    (fetchRle c s = .finish false ∧ c.o = s.dstLen.toNat) ∨
    (fetchRle c s = .finish true ∧ c.o ≠ s.dstLen.toNat ∧
      (s.srcLen.toNat ≤ c.p ∨ (srcByte c.p s).getLsbD 7 = true ∧ s.srcLen.toNat ≤ c.p + 1)) ∨
    (c.o ≠ s.dstLen.toNat ∧ c.p < s.srcLen.toNat ∧ (srcByte c.p s).getLsbD 7 = false ∧
      fetchRle c s = .token (.rleLit ((srcByte c.p s).extractLsb' 0 7))) ∨
    (c.o ≠ s.dstLen.toNat ∧ c.p + 1 < s.srcLen.toNat ∧ (srcByte c.p s).getLsbD 7 = true ∧
      fetchRle c s = .token (.rleRun ((srcByte c.p s).extractLsb' 0 7) (srcByte (c.p + 1) s))) := by
  simp only [fetchRle, isRunControl_eq]
  split
  · next h => exact Or.inl ⟨rfl, h⟩
  · next h =>
    split
    · next h1 => exact Or.inr (Or.inl ⟨rfl, h, Or.inl h1⟩)
    · next h1 =>
      have hz : srcZ c.p s = srcByte c.p s := by unfold srcZ; rw [if_pos (by omega)]
      split
      · next h2 => exact Or.inr (Or.inl ⟨rfl, h, Or.inr h2⟩)
      · next h2 =>
        simp only [decoded, decode, decodeRle_window, hz]
        cases hb : (srcByte c.p s).getLsbD 7 with
        | false => exact Or.inr (Or.inr (Or.inl ⟨h, by omega, rfl, by simp⟩))
        | true =>
          have hlt : c.p + 1 < s.srcLen.toNat := by
            by_contra hc
            exact h2 ⟨hb, by omega⟩
          have hz1 : srcZ (c.p + 1) s = srcByte (c.p + 1) s := by unfold srcZ; rw [if_pos hlt]
          exact Or.inr (Or.inr (Or.inr ⟨h, hlt, rfl, by simp [hz1]⟩))

theorem finishRle_effect {c : RleState} {s : State} (h : (Codec.rle c).ok s) (b : Bool) :
    TokenEffect (.rle c) s (finishRle b c s) :=
  TokenEffect.ofComplete h (Wrote.padZeros c.o s) (fun _ ha => outSpan_dstRegion (Nat.le_refl _) ha) ..

theorem execRleLit_effect {c : RleState} {s : State} (hc : s.codec = some (.rle c)) (h : (Codec.rle c).ok s)
    (hp : c.p < s.srcLen.toNat) (n : BitVec 7) :
    ∃ t, execRleLit n s = .next t ∧ TokenEffect (.rle c) s t := by
  obtain ⟨h1, h2, h3, h4⟩ := h
  obtain ⟨e1, e2⟩ := rleCopy_spec n.toNat { c with p := c.p + 1 } s h4
  have hm : rleMoved n.toNat { c with p := c.p + 1 } s ≤ s.dstLen.toNat - c.o ∧
      rleMoved n.toNat { c with p := c.p + 1 } s ≤ s.srcLen.toNat - (c.p + 1) := by
    unfold rleMoved; simp only; omega
  simp only [execRleLit, hc]
  refine ⟨_, rfl, ?_⟩
  have hP : ∀ a, outSpan s c.o (c.o + rleMoved n.toNat { c with p := c.p + 1 } s) a →
      (writeRegion JobKind.rle s).has a = true := fun a ha => outSpan_dstRegion (by omega) ha
  refine TokenEffect.ofWrote ⟨h1, h2, h3, h4⟩ e2 hP rfl ?_ ?_
  · refine ⟨by rw [currentJob_kept e2]; exact h1, validate_kept e2 hP h2 _, ?_, ?_⟩
    · rw [e1]; show _ ≤ (rleCopy _ _ _).2.srcLen.toNat; rw [e2.srcLen]; simp only; omega
    · rw [e1]; show _ ≤ (rleCopy _ _ _).2.dstLen.toNat; rw [e2.dstLen]; simp only; omega
  · rw [e1]; simp only [jobCost]; omega

theorem execRleRun_effect {c : RleState} {s : State} (hc : s.codec = some (.rle c)) (h : (Codec.rle c).ok s)
    (hp : c.p + 1 < s.srcLen.toNat) (n : BitVec 7) (v : Byte) :
    ∃ t, execRleRun n v s = .next t ∧ TokenEffect (.rle c) s t := by
  obtain ⟨h1, h2, h3, h4⟩ := h
  obtain ⟨e1, e2, _⟩ := rleRepeat_spec v n.toNat { c with p := c.p + 2 } s h4
  have hm : rleCopies n.toNat { c with p := c.p + 2 } s ≤ s.dstLen.toNat - c.o := by
    unfold rleCopies; simp only; omega
  simp only [execRleRun, hc]
  refine ⟨_, rfl, ?_⟩
  have hP : ∀ a, outSpan s c.o (c.o + rleCopies n.toNat { c with p := c.p + 2 } s) a →
      (writeRegion JobKind.rle s).has a = true := fun a ha => outSpan_dstRegion (by omega) ha
  refine TokenEffect.ofWrote ⟨h1, h2, h3, h4⟩ e2 hP rfl ?_ ?_
  · refine ⟨by rw [currentJob_kept e2]; exact h1, validate_kept e2 hP h2 _, ?_, ?_⟩
    · rw [e1]; show _ ≤ (rleRepeat _ _ _ _).2.srcLen.toNat; rw [e2.srcLen]; simp only; omega
    · rw [e1]; show _ ≤ (rleRepeat _ _ _ _).2.dstLen.toNat; rw [e2.dstLen]; simp only; omega
  · rw [e1]; simp only [jobCost]; omega

theorem tokenStep_rle {c : RleState} {s : State} (hc : s.codec = some (.rle c)) (h : (Codec.rle c).ok s) :
    ∃ t, tokenStep execToken (.rle c) s = .next t ∧ TokenEffect (.rle c) s t := by
  unfold tokenStep
  simp only [fetch]
  rcases fetchRle_cases (c := c) (s := s) with ⟨e, _⟩ | ⟨e, _, _⟩ | ⟨_, hp, _, e⟩ | ⟨_, hp, _, e⟩ <;> rw [e]
  · exact ⟨_, rfl, finishRle_effect h _⟩
  · exact ⟨_, rfl, finishRle_effect h _⟩
  · exact execRleLit_effect hc h hp _
  · exact execRleRun_effect hc h hp _ _

/-! ### LZW -/

theorem finishLzw_effect {c : LzwState} {s : State} (h : (Codec.lzw c).ok s) (i b : Bool) :
    TokenEffect (.lzw c) s (finishLzw i b c s) :=
  TokenEffect.ofComplete h (Wrote.padZeros c.o s) (fun _ ha => outSpan_dstRegion (Nat.le_refl _) ha) ..

theorem lzwCost {a b n : Nat} (h1 : a + 9 ≤ b) (h2 : b ≤ n) : (n - b) / 9 + 1 < (n - a) / 9 + 1 := by
  have : n - a = (n - b) + (b - a) := by omega
  omega

theorem lzwResolved_effect {c : LzwState} {s : State} (h : (Codec.lzw c).ok s)
    (hw : c.off + c.width ≤ 8 * s.srcLen.toNat) {seq : List Byte} (h1 : 1 ≤ seq.length)
    (h2 : seq.length ≤ c.next - lzwLiterals ∨
      ∃ p, c.prev = some p ∧ seq.length ≤ p.length + 1 ∧ c.next < lzwTable) :
    ∃ t, lzwResolved seq c s = .next t ∧ TokenEffect (.lzw c) s t := by
  obtain ⟨k1, k2, k3, k4, k5⟩ := h
  obtain ⟨e1, e2, _⟩ := lzwEmit_spec seq c.o s k4
  have hm : lzwEmitted seq c.o s ≤ s.dstLen.toNat - c.o := by unfold lzwEmitted; omega
  have hP : ∀ a, outSpan s c.o (c.o + lzwEmitted seq c.o s) a → (writeRegion JobKind.lzw s).has a = true :=
    fun a ha => outSpan_dstRegion (by omega) ha
  have h9 : lzwWidthMin ≤ c.width := k5.1
  have h9' : lzwWidthMin = 9 := rfl
  refine ⟨_, rfl, TokenEffect.ofWrote ⟨k1, k2, k3, k4, k5⟩ e2 hP rfl ?_ ?_⟩
  · refine ⟨by rw [currentJob_kept e2]; exact k1, validate_kept e2 hP k2 _, ?_, ?_, ?_⟩
    · show (lzwInsert _ _ _).off ≤ 8 * (lzwEmit _ _ _).2.srcLen.toNat
      rw [lzwInsert_off, e2.srcLen]; exact hw
    · show (lzwInsert _ _ _).o ≤ (lzwEmit _ _ _).2.dstLen.toNat
      rw [lzwInsert_o, e2.dstLen]; show (lzwEmit _ _ _).1 ≤ _; omega
    · show LzwState.ok _ (lzwEmit _ _ _).2.cfg.growOffset
      rw [e2.cfg]
      exact LzwState.ok_resolved (c := { c with off := c.off + c.width, o := (lzwEmit seq c.o s).1 })
        (LzwState.ok_congr (c := c) rfl rfl rfl k5) h1 h2
  · show (8 * s.srcLen.toNat - (lzwInsert _ _ _).off) / 9 + 1 < _
    rw [lzwInsert_off]
    exact lzwCost (by show c.off + 9 ≤ c.off + c.width; omega) hw

theorem execLzwClear_effect {c : LzwState} {s : State} (hc : s.codec = some (.lzw c)) (h : (Codec.lzw c).ok s)
    (hw : c.off + c.width ≤ 8 * s.srcLen.toNat) :
    ∃ t, execLzwClear s = .next t ∧ TokenEffect (.lzw c) s t := by
  have h' := h
  obtain ⟨k1, k2, k3, k4, k5⟩ := h
  have h9 : lzwWidthMin ≤ c.width := k5.1
  have h9' : lzwWidthMin = 9 := rfl
  have hP : ∀ a, False → (writeRegion (Codec.lzw c).kind s).has a = true := fun _ h => h.elim
  simp only [execLzwClear, hc]
  refine ⟨_, rfl, ?_⟩
  refine TokenEffect.ofWrote (P := fun _ => False) h' (Wrote.refl _ s) hP rfl ?_ ?_
  · exact ⟨k1, k2, hw, k4, LzwState.ok_clear _ _⟩
  · exact lzwCost (by show c.off + 9 ≤ c.off + c.width; omega) hw

/-- The class of a code (30_encoding.md R87), for a decoder with the invariants of 42_lzw.md R155. -/
theorem decodeLzw_cases {c : LzwState} {g : Nat} (h : c.ok g) (w : Word) :
    decodeLzw c.width c.next c.prev.isSome w = .lzwClear ∨
    (∃ b, decodeLzw c.width c.next c.prev.isSome w = .lzwLit b) ∨
    (∃ code seq, decodeLzw c.width c.next c.prev.isSome w = .lzwDict code ∧ c.slot code.toNat = some seq ∧
      1 ≤ seq.length ∧ seq.length ≤ c.next - lzwLiterals) ∨
    (∃ code p, decodeLzw c.width c.next c.prev.isSome w = .lzwKwkwk code ∧ c.prev = some p ∧ code.toNat = c.next ∧
      1 ≤ p.length ∧ c.next < lzwTable) ∨
    (∃ code, decodeLzw c.width c.next c.prev.isSome w = .lzwBad code) := by
  obtain ⟨w1, w2, n1, _, d, p⟩ := h
  have hlit : lzwLiterals = 256 := rfl
  have hclr : lzwClearCode = 256 := rfl
  have htab : lzwTable = 4096 := rfl
  have hlt : w.toNat % 2 ^ c.width < 4096 := by
    have h1 : w.toNat % 2 ^ c.width < 2 ^ c.width := Nat.mod_lt _ (Nat.two_pow_pos _)
    have h2 : 2 ^ c.width ≤ 2 ^ 12 := Nat.pow_le_pow_right (by omega) w2
    omega
  have hnat : (BitVec.ofNat 12 (w.toNat % 2 ^ c.width)).toNat = w.toNat % 2 ^ c.width := by
    rw [BitVec.toNat_ofNat, Nat.mod_eq_of_lt (by omega)]
  unfold decodeLzw
  simp only
  by_cases e1 : w.toNat % 2 ^ c.width = lzwClearCode
  · rw [if_pos e1]; exact Or.inl rfl
  · rw [if_neg e1]
    by_cases e2 : w.toNat % 2 ^ c.width < lzwLiterals
    · rw [if_pos e2]; exact Or.inr (Or.inl ⟨_, rfl⟩)
    · rw [if_neg e2]
      by_cases e3 : w.toNat % 2 ^ c.width < c.next
      · rw [if_pos e3]
        refine Or.inr (Or.inr (Or.inl ?_))
        have hs := (c.slot_isSome_iff (code := w.toNat % 2 ^ c.width) (by omega)).2 e3
        obtain ⟨seq, hseq⟩ := Option.isSome_iff_exists.1 hs
        have hd := d _ seq hseq
        have hcn : c.next = lzwLiterals + 1 + c.dict.length := rfl
        refine ⟨_, seq, rfl, by rw [hnat]; exact hseq, hd.1, by omega⟩
      · rw [if_neg e3]
        by_cases e4 : w.toNat % 2 ^ c.width = c.next ∧ c.prev.isSome = true
        · rw [if_pos e4]
          obtain ⟨q, hq⟩ := Option.isSome_iff_exists.1 e4.2
          exact Or.inr (Or.inr (Or.inr (Or.inl ⟨_, q, rfl, hq, by rw [hnat]; exact e4.1, (p q hq).1, by omega⟩)))
        · rw [if_neg e4]; exact Or.inr (Or.inr (Or.inr (Or.inr ⟨_, rfl⟩)))

theorem length_selfExtended {p : List Byte} (h : 1 ≤ p.length) : (selfExtended p).length = p.length + 1 := by
  simp [selfExtended]; omega

theorem tokenStep_lzw {c : LzwState} {s : State} (hc : s.codec = some (.lzw c)) (h : (Codec.lzw c).ok s) :
    ∃ t, tokenStep execToken (.lzw c) s = .next t ∧ TokenEffect (.lzw c) s t := by
  unfold tokenStep
  simp only [fetch, fetchLzw]
  split
  · next hf =>
    split at hf
    · simp at hf
    · split at hf
      · simp at hf
      · next h1 h2 =>
        simp only [decoded, LzwState.ctx, decode, Fetch.token.injEq] at hf
        subst hf
        have hw : c.off + c.width ≤ 8 * s.srcLen.toNat := by omega
        have hok := h.2.2.2.2
        rcases decodeLzw_cases hok (window c.off s) with e | ⟨b, e⟩ | ⟨code, seq, e, hs, l1, l2⟩ |
          ⟨code, p, e, hp, hn, l1, l2⟩ | ⟨code, e⟩ <;> rw [e]
        · exact execLzwClear_effect hc h hw
        · simp only [execToken, execLzwLit, hc]
          exact lzwResolved_effect h hw (by simp) (Or.inl (by
            have : c.next = 256 + 1 + c.dict.length := rfl
            have : lzwLiterals = 256 := rfl
            simp; omega))
        · simp only [execToken, execLzwDict, hc, hs]
          exact lzwResolved_effect h hw l1 (Or.inl l2)
        · simp only [execToken, execLzwKwkwk, hc, hp]
          rw [if_pos hn]
          have hl := length_selfExtended l1
          exact lzwResolved_effect h hw (by omega) (Or.inr ⟨p, hp, by omega, l2⟩)
        · simp only [execToken, execLzwBad, hc]
          exact ⟨_, rfl, finishLzw_effect h _ _⟩
  · next hf => split at hf <;> [simp at hf; (split at hf <;> [simp at hf; simp [decoded, LzwState.ctx, decode] at hf])]
  · next b hf => exact ⟨_, rfl, finishLzw_effect h _ _⟩
  · next hf => split at hf <;> [simp at hf; (split at hf <;> [simp at hf; simp [decoded, LzwState.ctx, decode] at hf])]

/-! ### LZ77 -/

theorem finishLz77_effect {c : Lz77State} {s : State} (h : (Codec.lz77 c).ok s) (b : Bool) :
    TokenEffect (.lz77 c) s (finishLz77 b c s) :=
  TokenEffect.ofComplete (P := fun _ => False) h (Wrote.refl _ s) (fun _ h => h.elim) ..

theorem lz77Decided_effect {c : Lz77State} {s : State} (h : (Codec.lz77 c).ok s) {n : Nat} (hn : 1 ≤ n)
    (hp : c.p + n ≤ s.srcLen.toNat) {e : Option (Nat × State)}
    (he : e = none ∨ ∃ o t, e = some (o, t) ∧ c.o ≤ o ∧ o ≤ s.dstLen.toNat ∧ Wrote (outSpan s c.o o) s t)
    (hst : c.stage ≠ .header) :
    ∃ t, lz77Decided n c e s = .next t ∧ TokenEffect (.lz77 c) s t := by
  rcases he with rfl | ⟨o, t, rfl, ho1, ho2, hw⟩
  · exact ⟨_, rfl, TokenEffect.ofRuntimeError h (Or.inr ⟨⟨c.ctab, rfl⟩, rfl⟩)⟩
  · obtain ⟨k1, k2, k3, k4, k5, k6, k7, k8⟩ := h
    have hP : ∀ a, outSpan s c.o o a → (writeRegion (JobKind.lz77 c.ctab) s).has a = true :=
      fun a ha => outSpan_dstRegion ho2 ha
    refine ⟨_, rfl, TokenEffect.ofWrote ⟨k1, k2, k3, k4, k5, k6, k7, k8⟩ hw hP rfl ?_ ?_⟩
    · refine ⟨by rw [currentJob_kept hw]; exact k1, validate_kept hw hP k2 _, ?_, ?_, k5, k6,
        Lz77Stage.ok_afterDecision k7, ?_⟩
      · show c.p + n ≤ t.srcLen.toNat; rw [hw.srcLen]; exact hp
      · show o ≤ t.dstLen.toNat; rw [hw.dstLen]; exact ho2
      · intro hh
        exfalso
        revert hh
        show c.stage.afterDecision = .header → False
        cases hcs : c.stage with
        | header => exact absurd hcs hst
        | flag => simp [Lz77Stage.afterDecision]
        | done => simp [Lz77Stage.afterDecision]
        | decisions f i l tl =>
          intro hh
          exact groupStage_ne_header f (i - 1) (l - 1) tl hh
    · show s.srcLen.toNat - (c.p + n) + 1 < s.srcLen.toNat - c.p + 1; omega

theorem lz77_progress {c c' : Lz77State} {s : State} (h : (Codec.lz77 c).ok s) (hctab : c'.ctab = c.ctab)
    (ho : c'.o = c.o) (hg : c'.groups < 65536) (ht : c'.tailBits ≤ flagBits) (hs : c'.stage.ok)
    (hst : c'.stage ≠ .header) (hp1 : c.p < c'.p) (hp2 : c'.p ≤ s.srcLen.toNat) :
    TokenEffect (.lz77 c) s { s with codec := some (.lz77 c') } := by
  have h' := h
  obtain ⟨k1, k2, k3, k4, k5, k6, k7, k8⟩ := h
  refine TokenEffect.ofWrote (P := fun _ => False) h' (Wrote.refl _ s) (fun _ h => h.elim)
    (by simp [Codec.kind, hctab]) ?_ ?_
  · refine ⟨by rw [hctab]; exact k1, by rw [hctab]; exact k2, hp2, by rw [ho]; exact k4, hg, ht, hs, fun hh => absurd hh hst⟩
  · simp only [jobCost]; omega

theorem execLz77Lit_effect {c : Lz77State} {s : State} (hc : s.codec = some (.lz77 c)) (h : (Codec.lz77 c).ok s)
    (hst : c.stage ≠ .header) (hp : c.p + 1 ≤ s.srcLen.toNat) (b : Byte) :
    ∃ t, execLz77Lit b s = .next t ∧ TokenEffect (.lz77 c) s t := by
  simp only [execLz77Lit, hc]
  refine lz77Decided_effect h (Nat.le_refl _) hp ?_ hst
  by_cases hf : c.o < s.dstLen.toNat
  · exact Or.inr ⟨_, _, lz77Emit_some hf _, by omega, by omega, Wrote.out (Nat.le_refl _) (by omega) _⟩
  · exact Or.inl (lz77Emit_none (by omega) _)

theorem execLz77Bref_effect {c : Lz77State} {s : State} (hc : s.codec = some (.lz77 c)) (h : (Codec.lz77 c).ok s)
    (hst : c.stage ≠ .header) (hp : c.p + 2 ≤ s.srcLen.toNat) (len : BitVec lz77LenBits) (dist : BitVec lz77DistBits) :
    ∃ t, execLz77Bref len dist s = .next t ∧ TokenEffect (.lz77 c) s t := by
  simp only [execLz77Bref, hc]
  refine lz77Decided_effect h (by omega) hp ?_ hst
  by_cases hf : c.o + (len.toNat + lz77LenBias) ≤ s.dstLen.toNat
  · obtain ⟨t, e, hw, _⟩ := lz77Copy_some ((c.o : Int) - dist.toNat - 1) (len.toNat + lz77LenBias) 0 c.o s hf (by omega)
    exact Or.inr ⟨_, t, e, by omega, hf, hw⟩
  · exact Or.inl (lz77Copy_none _ _ _ _ _ (by omega) h.2.2.2.1)

/-- A validated LZ77 job has its header, with at most eight tail bits (44_lz77.md R201, R202). -/
theorem validate_lz77 {b : Bool} {s : State} (h : validate (.lz77 b) s = none) :
    3 ≤ s.srcLen.toNat ∧ (srcByte 2 s).toNat ≤ flagBits := by
  unfold validate at h
  split at h
  · exact absurd h (by simp)
  · split at h
    · exact absurd h (by simp)
    · simp only at h
      split at h
      · exact absurd h (by simp)
      · split at h
        · exact absurd h (by simp)
        · omega

theorem tokenStep_lz77 {c : Lz77State} {s : State} (hc : s.codec = some (.lz77 c)) (h : (Codec.lz77 c).ok s) :
    ∃ t, tokenStep execToken (.lz77 c) s = .next t ∧ TokenEffect (.lz77 c) s t := by
  have h' := h
  obtain ⟨k1, k2, k3, k4, k5, k6, k7, k8⟩ := h
  have hv := validate_lz77 k2
  have hfb : flagBits = 8 := rfl
  unfold tokenStep
  simp only [fetch, fetchLz77]
  cases hs : c.stage with
  | header =>
    have hp := k8 hs
    rw [hs] at k7
    simp only
    rw [if_neg (by omega)]
    simp only [decoded, decode, execToken, execLz77Hdr, hc]
    have hb : (window (8 * c.p) s).extractLsb' 16 8 = srcByte 2 s := by
      have := window_byte c.p 2 s (by omega)
      rw [hp] at this ⊢
      rw [this]
      unfold srcZ; rw [if_pos (by omega)]
    rw [hb, if_neg (by omega)]
    refine ⟨_, rfl, lz77_progress h' rfl rfl ?_ hv.2 trivial (by simp) (by simp) (by simp only; omega)⟩
    exact ((window (8 * c.p) s).extractLsb' 0 16).isLt
  | flag =>
    simp only [lz77Next]
    by_cases hl : s.srcLen.toNat < c.p + 1
    · rw [if_pos hl]; exact ⟨_, rfl, finishLz77_effect h' _⟩
    · rw [if_neg hl]
      simp only [decoded, decode, execToken, execLz77Flag, hc]
      by_cases hg : c.groups = 0
      · rw [if_pos hg]
        exact ⟨_, rfl, lz77_progress h' rfl rfl k5 k6 (groupStage_ok _ 7 c.tailBits true (by omega) (by omega))
          (groupStage_ne_header _ 7 c.tailBits true) (by simp) (by simp only; omega)⟩
      · rw [if_neg hg]
        exact ⟨_, rfl, lz77_progress h' rfl rfl (by simp only; omega) k6
          (groupStage_ok _ 7 flagBits false (by omega) (by omega))
          (groupStage_ne_header _ 7 flagBits false) (by simp) (by simp only; omega)⟩
  | done => exact ⟨_, rfl, finishLz77_effect h' _⟩
  | decisions f idx left tail =>
    have hne : c.stage ≠ .header := by rw [hs]; simp
    simp only [lz77Next]
    by_cases hbit : f.getLsbD idx = true
    · rw [if_pos hbit]
      by_cases hl : s.srcLen.toNat < c.p + 2
      · rw [if_pos hl]; exact ⟨_, rfl, finishLz77_effect h' _⟩
      · rw [if_neg hl]
        exact execLz77Bref_effect hc h' hne (by omega) _ _
    · rw [if_neg hbit]
      by_cases hl : s.srcLen.toNat < c.p + 1
      · rw [if_pos hl]; exact ⟨_, rfl, finishLz77_effect h' _⟩
      · rw [if_neg hl]
        exact execLz77Lit_effect hc h' hne (by omega) _

/-! ### Quadtree -/

theorem finishQt_effect {c : QtState} {s : State} (h : (Codec.qt c).ok s) : TokenEffect (.qt c) s (finishQt c s) :=
  TokenEffect.ofComplete (P := fun _ => False) h (Wrote.refl _ s) (fun _ h => h.elim) ..

/-- The invariant of a quadtree job speaks of the parameters and DIM alone. -/
theorem QtState.ok_congr {c : QtState} {s t : State} (hd : t.dim = s.dim) (hg : t.cfg = s.cfg) (h : c.ok s) : c.ok t := by
  unfold QtState.ok Rect.inImage State.width State.height at *
  rw [hd, hg]
  exact h

theorem qt_goesOn {P : Nat → Prop} {c c' : QtState} {s t : State} (h : (Codec.qt c).ok s) (hw : Wrote P s t)
    (hP : ∀ a, P a → (imageRegion s).has a = true) (hok : c'.ok s)
    (hcost : qtCost s.cfg.qtMaxDepth c' < qtCost s.cfg.qtMaxDepth c) :
    TokenEffect (.qt c) s { t with codec := some (.qt c') } := by
  have h' := h
  obtain ⟨k1, k2, k3⟩ := h
  exact TokenEffect.ofWrote h' hw hP rfl
    ⟨by rw [currentJob_kept hw]; exact k1, validate_kept (k := .qt) hw hP k2 _,
      QtState.ok_congr (by show t.dim = s.dim; rw [hw.dim]) (by show t.cfg = s.cfg; rw [hw.cfg]) hok⟩ hcost

theorem qtTurn_eq {c : QtState} {s : State} {f : Frame} {fs : List Frame} (hc : s.codec = some (.qt c))
    (hp : c.pending = none) (hs : c.stack = f :: fs) (hf : f.next < 4) :
    qtTurn s = some ⟨c, f, fs, f.rect.quadrant f.next⟩ := by
  simp [qtTurn, hc, hp, hs, hf]

theorem quadrantsCost_next (d : Nat) (r : Rect) {i : Nat} (hi : i < 4) :
    quadrantsCost d r (4 - i) = 1 + 6 * (r.quadrant i).area * d + quadrantsCost d r (4 - (i + 1)) := by
  obtain ⟨n, hn⟩ : ∃ n, 4 - i = n + 1 := ⟨3 - i, by omega⟩
  have e1 : 3 - n = i := by omega
  have e2 : 4 - (i + 1) = n := by omega
  rw [hn, e2, quadrantsCost, e1]

/-- The state after a quadrant keeps the invariant and is nearer to the job's end. -/
theorem advance_ok {c : QtState} {s : State} (h : c.ok s) {f : Frame} {fs : List Frame} (hp : c.pending = none)
    (hs : c.stack = f :: fs) (hf : f.next < 4) (off : Nat) :
    (QtTurn.advance ⟨c, f, fs, f.rect.quadrant f.next⟩ off).ok s ∧
      qtCost s.cfg.qtMaxDepth (QtTurn.advance ⟨c, f, fs, f.rect.quadrant f.next⟩ off) +
        6 * (f.rect.quadrant f.next).area * (s.cfg.qtMaxDepth - (fs.length + 1)) <
        qtCost s.cfg.qtMaxDepth c := by
  obtain ⟨h1, h2⟩ := h
  rw [hp] at h2
  constructor
  · refine ⟨?_, ?_⟩
    · intro g hg
      simp only [QtTurn.advance, List.mem_cons] at hg
      rcases hg with rfl | hg
      · exact ⟨(h1 f (by rw [hs]; simp)).1, by simp only; omega⟩
      · exact h1 g (by rw [hs]; simp [hg])
    · simp only [QtTurn.advance, hp, List.length_cons]
      rw [hs] at h2
      simpa using h2
  · simp only [QtTurn.advance, qtCost, hp, hs, stackCost]
    rw [quadrantsCost_next _ _ hf]
    omega

theorem qtEnter_cases (maxDepth : Nat) (r : Rect) (c : QtState) :
    (r.isEmpty = true ∧ qtEnter maxDepth r c = some c) ∨
    (r.isEmpty = false ∧ maxDepth < c.stack.length + 1 ∧ qtEnter maxDepth r c = none) ∨
    (r.isEmpty = false ∧ c.stack.length < maxDepth ∧ qtEnter maxDepth r c = some { c with pending := some r }) := by
  unfold qtEnter
  cases hr : r.isEmpty with
  | true => exact Or.inl ⟨rfl, rfl⟩
  | false =>
    by_cases hd : maxDepth < c.stack.length + 1
    · exact Or.inr (Or.inl ⟨rfl, hd, by simp [hd]⟩)
    · exact Or.inr (Or.inr ⟨rfl, by omega, by simp [hd]⟩)

theorem qtLeaf_effect {c : QtState} {s : State} (hc : s.codec = some (.qt c)) (h : (Codec.qt c).ok s) {f : Frame}
    {fs : List Frame} (hp : c.pending = none) (hs : c.stack = f :: fs) (hf : f.next < 4)
    (he : (f.rect.quadrant f.next).isEmpty = false) (bits : QtTurn → Nat) (val : QtTurn → Nat → State → Byte) :
    ∃ t, qtLeaf bits val s = .next t ∧ TokenEffect (.qt c) s t := by
  obtain ⟨ha, hcost⟩ := advance_ok h.2.2 hp hs hf (c.off + bits ⟨c, f, fs, f.rect.quadrant f.next⟩)
  have hq : (f.rect.quadrant f.next).inImage s :=
    Rect.inImage_quadrant (h.2.2.1 f (by rw [hs]; simp)).1 he
  simp only [qtLeaf, qtTurn_eq hc hp hs hf]
  exact ⟨_, rfl, qt_goesOn h (Wrote.qtPutLeaf_image hq _) (fun _ h => h) ha (by omega)⟩

theorem decodeLeaf_token {w h : Nat} (hw : w ≠ 0) (hh : h ≠ 0) (word : Word) :
    (∃ v, decodeLeaf w h word = .ok (.qtLeaf1 v)) ∨ (∃ v, decodeLeaf w h word = .ok (.qtLeafRaw v)) ∨
      (∃ v, decodeLeaf w h word = .ok (.qtLeafFill v)) ∨ (∃ v, decodeLeaf w h word = .ok (.qtLeafIdx v)) := by
  unfold decodeLeaf
  rw [if_neg (by omega)]
  split
  · exact Or.inl ⟨_, rfl⟩
  · simp only
    split
    · exact Or.inr (Or.inl ⟨_, rfl⟩)
    · split
      · exact Or.inr (Or.inr (Or.inl ⟨_, rfl⟩))
      · exact Or.inr (Or.inr (Or.inr ⟨_, rfl⟩))

theorem decodeLeaf_empty {w h : Nat} (he : w = 0 ∨ h = 0) (word : Word) :
    decodeLeaf w h word = .error .emptyLeaf := by
  unfold decodeLeaf; rw [if_pos he]

theorem qtSkip_effect {c : QtState} {s : State} (h : (Codec.qt c).ok s) {f : Frame}
    {fs : List Frame} (hp : c.pending = none) (hs : c.stack = f :: fs) :
    TokenEffect (.qt c) s (skip (.qt c) s) := by
  have hok := h.2.2
  simp only [skip, qtSkip, hs]
  by_cases hf : f.next < 4
  · rw [if_pos hf]
    obtain ⟨ha, hcost⟩ := advance_ok hok hp hs hf c.off
    exact qt_goesOn (P := fun _ => False) h (Wrote.refl _ s) (fun _ h => h.elim) ha (by
      have : QtTurn.advance ⟨c, f, fs, f.rect.quadrant f.next⟩ c.off =
        { c with stack := { f with next := f.next + 1 } :: fs } := rfl
      rw [this] at hcost; omega)
  · rw [if_neg hf]
    have hok' := hok
    obtain ⟨h1, h2⟩ := hok
    rw [hp, hs] at h2
    refine qt_goesOn (P := fun _ => False) h (Wrote.refl _ s) (fun _ h => h.elim) ⟨?_, ?_⟩ ?_
    · intro g hg; exact h1 g (by rw [hs]; simp only at hg; simp [hg])
    · simp only [hp]; simp only [List.length_cons] at h2; omega
    · have h4 : f.next ≤ 4 := (h1 f (by rw [hs]; simp)).2
      have e4 : 4 - f.next = 0 := by omega
      simp only [qtCost, hp, hs, stackCost, e4, quadrantsCost]
      omega

theorem tokenStep_qt {c : QtState} {s : State} (hc : s.codec = some (.qt c)) (h : (Codec.qt c).ok s) :
    ∃ t, tokenStep execToken (.qt c) s = .next t ∧ TokenEffect (.qt c) s t := by
  have h' := h
  obtain ⟨k1, k2, k3⟩ := h
  unfold tokenStep
  simp only [fetch, fetchQt]
  cases hp : c.pending with
  | some r =>
    simp only [decoded, decode, execToken, execQtMask, hc, hp]
    have h1 := k3.1
    have h2 := k3.2
    rw [hp] at h2
    refine ⟨_, rfl, qt_goesOn (P := fun _ => False) h' (Wrote.refl _ s) (fun _ h => h.elim) ⟨?_, ?_⟩ ?_⟩
    · intro g hg
      simp only [List.mem_cons] at hg
      rcases hg with rfl | hg
      · exact ⟨h2.1, by simp⟩
      · exact h1 g hg
    · simp only [List.length_cons]; omega
    · have := cost_mask (r := r) h2.1.1 h2.2
      simp only [qtCost, hp, stackCost, Nat.sub_zero]
      omega
  | none =>
    cases hs : c.stack with
    | nil => exact ⟨_, rfl, finishQt_effect h'⟩
    | cons f fs =>
      simp only
      by_cases hf : f.next < 4
      · rw [if_pos hf]
        cases hb : maskBit s.cfg.maskOrder f.mask f.next with
        | true =>
          simp only [decoded, decode, execToken, execQtSub, qtTurn_eq hc hp hs hf]
          obtain ⟨ha, hcost⟩ := advance_ok k3 hp hs hf c.off
          have hlen : (QtTurn.advance ⟨c, f, fs, f.rect.quadrant f.next⟩ c.off).stack.length = fs.length + 1 := by
            simp [QtTurn.advance]
          have hpend : (QtTurn.advance ⟨c, f, fs, f.rect.quadrant f.next⟩ c.off).pending = none := by
            simp [QtTurn.advance, hp]
          rcases qtEnter_cases s.cfg.qtMaxDepth (f.rect.quadrant f.next)
            (QtTurn.advance ⟨c, f, fs, f.rect.quadrant f.next⟩ c.off) with ⟨_, e⟩ | ⟨_, _, e⟩ | ⟨he, hd, e⟩
          · simp only [e, qtEntered]
            exact ⟨_, rfl, qt_goesOn (P := fun _ => False) h' (Wrote.refl _ s) (fun _ h => h.elim) ha (by omega)⟩
          · simp only [e, qtEntered]
            exact ⟨_, rfl, TokenEffect.ofRuntimeError h' (Or.inl ⟨rfl, rfl⟩)⟩
          · simp only [e, qtEntered]
            refine ⟨_, rfl, qt_goesOn (P := fun _ => False) h' (Wrote.refl _ s) (fun _ h => h.elim) ⟨ha.1, ?_⟩ ?_⟩
            · exact ⟨Rect.inImage_quadrant (k3.1 f (by rw [hs]; simp)).1 he, hd⟩
            · simp only [qtCost, hpend] at hcost
              simp only [qtCost, hlen]
              omega
        | false =>
          simp only [decoded, decode]
          cases he : (f.rect.quadrant f.next).isEmpty with
          | true =>
            rw [Rect.isEmpty_iff] at he
            rw [decodeLeaf_empty he]
            exact ⟨_, rfl, qtSkip_effect h' hp hs⟩
          | false =>
            have he' := (Rect.isEmpty_false_iff _).1 he
            rcases decodeLeaf_token (w := (f.rect.quadrant f.next).w) (h := (f.rect.quadrant f.next).h) (by omega)
              (by omega) (window c.off s) with ⟨v, e⟩ | ⟨v, e⟩ | ⟨v, e⟩ | ⟨v, e⟩ <;> rw [e]
            · exact qtLeaf_effect hc h' hp hs hf he _ _
            · exact qtLeaf_effect hc h' hp hs hf he _ _
            · exact qtLeaf_effect hc h' hp hs hf he _ _
            · exact qtLeaf_effect hc h' hp hs hf he _ _
      · rw [if_neg hf]
        exact ⟨_, rfl, qtSkip_effect h' hp hs⟩

/-! ### All codecs -/

/-- Everything one token step can do. -/
theorem tokenStep_spec {c : Codec} {s : State} (hc : s.codec = some c) (h : c.ok s) :
    ∃ t, tokenStep execToken c s = .next t ∧ TokenEffect c s t := by
  cases c with
  | rle c => exact tokenStep_rle hc h
  | lzw c => exact tokenStep_lzw hc h
  | qt c => exact tokenStep_qt hc h
  | lz77 c => exact tokenStep_lz77 hc h

end Sys2Proof.Machine
end

