-- ==== Sys2Proof/Laws/Jobs.lean ====
section
/-! SUPPORT. Everything the job step (10_state.md R40) can do, said once for all commands: it ends, keeps every register but
STATUS and RESULT, and writes only its write region. -/

namespace Sys2Proof.Machine

/-- Everything the rest of a job does from a state inside it, or the whole job from its start. -/
structure JobEffect (k : JobKind) (s t : State) : Prop where
  regs : keepsRegisters s t
  outside : keepsMemoryOutside (writeRegion k s) s t
  wf : Memory.wf s.mem = true → Memory.wf t.mem = true
  within : Memory.within s.cfg.memBytes s.mem = true → Memory.within s.cfg.memBytes t.mem = true
  codec : t.codec = none
  status : (∃ p i b, t.status = statusDone p i b) ∨ ∃ e, t.status = statusError e

theorem JobEffect.ended {k : JobKind} {s t : State} (h : JobEffect k s t) : t.ended := by
  rcases h.status with ⟨p, i, b, e⟩ | ⟨er, e⟩
  · exact ⟨by unfold State.busy; rw [e]; exact statusWord_busy .., by unfold State.isDone; rw [e]; exact statusWord_done ..,
      h.codec⟩
  · exact ⟨by unfold State.busy; rw [e]; exact statusWord_busy .., by unfold State.isDone; rw [e]; exact statusWord_done ..,
      h.codec⟩

/-- The write region of a job depends on the registers alone. -/
theorem writeRegion_congr {s t : State} (h : keepsRegisters s t) (k : JobKind) : writeRegion k t = writeRegion k s :=
  (regions_congr h k).2.1

theorem jobCost_congr {s t : State} (h : keepsRegisters s t) (c : Codec) : jobCost t c = jobCost s c := by
  obtain ⟨hc, -, -, hl, -⟩ := h
  cases c <;> simp [jobCost, hc, hl]

theorem stackCost_pos (d : Nat) (fs : List Frame) : 1 ≤ stackCost d fs := by
  induction fs with
  | nil => exact Nat.le_refl 1
  | cons f fs ih => simp only [stackCost]; omega

theorem jobCost_pos (s : State) (c : Codec) : 1 ≤ jobCost s c := by
  cases c with
  | qt c =>
    have := stackCost_pos s.cfg.qtMaxDepth c.stack
    simp only [jobCost, qtCost]
    split <;> omega
  | rle c | lzw c | lz77 c => simp only [jobCost]; omega

/-- Enough token steps end the job. -/
theorem runTokens_spec {k : JobKind} (fuel : Nat) {s : State} {c : Codec} (hc : s.codec = some c) (h : c.ok s)
    (hk : c.kind = k) (hf : jobCost s c ≤ fuel) : ∃ t, runTokens fuel s = .next t ∧ JobEffect k s t := by
  induction fuel generalizing s c with
  | zero => have := jobCost_pos s c; omega
  | succ fuel ih =>
    obtain ⟨t, e, he⟩ := tokenStep_spec hc h
    unfold runTokens
    simp only [hc, e]
    rcases he.phase with ⟨c', h1, h2, h3, _, h5⟩ | ⟨h1, h2⟩
    · have hcost : jobCost t c' ≤ fuel := by rw [jobCost_congr he.regs]; omega
      obtain ⟨u, e', hu⟩ := ih h1 h3 (h2.trans hk) hcost
      refine ⟨u, e', ?_⟩
      have hw := writeRegion_congr he.regs k
      have hcfg : t.cfg = s.cfg := he.regs.1
      exact
        { regs := he.regs.trans hu.regs
          outside := fun a ha => by
            rw [hu.outside a (by rw [hw]; exact ha)]
            exact he.outside a (by rw [hk]; exact ha)
          wf := fun hm => hu.wf (he.wf hm)
          within := fun hm => by have := hu.within; rw [hcfg] at this; exact this (he.within hm)
          codec := hu.codec
          status := hu.status }
    · have hj : JobEffect k s t :=
        { regs := he.regs
          outside := fun a ha => he.outside a (by rw [hk]; exact ha)
          wf := he.wf
          within := he.within
          codec := h1
          status := by
            rcases h2 with ⟨_, p, i, b, e⟩ | ⟨⟨_, e⟩ | ⟨_, e⟩, _⟩
            · exact Or.inl ⟨p, i, b, e⟩
            · exact Or.inr ⟨_, e⟩
            · exact Or.inr ⟨_, e⟩ }
      exact ⟨t, by cases fuel <;> simp [runTokens, h1], hj⟩

/-- A CMD word decodes to a command (30_encoding.md R82). -/
theorem decodeCommand_fits (w : Word) : (decodeCommand w).fits .command = true := by
  unfold decodeCommand
  simp only
  split_ifs <;> rfl

/-- A token's meaning in `exec` is its meaning in the job step. -/
theorem exec_eq_execToken {i : Instr} (h : jobKind i = none) (h0 : ∀ a b, i ≠ .reserved0 a b)
    (h8 : ∀ l a b, i ≠ .reserved8F l a b) (s : State) : exec i s = execToken i s := by
  cases i <;> first | rfl | (cases h; done) | exact absurd rfl (h0 _ _) | exact absurd rfl (h8 _ _ _)

/-- A job that passes validation and is opened runs to its end. -/
theorem opened_spec {k : JobKind} {s : State} {c : Codec} (hk : c.kind = k)
    (h : c.ok { s with codec := some c }) {fuel : Nat} (hf : jobCost s c ≤ fuel) :
    ∃ t, runTokens fuel { s with codec := some c } = .next t ∧ JobEffect k s t := by
  obtain ⟨t, e, ht⟩ := runTokens_spec fuel rfl h hk (by rw [jobCost_congr (keepsRegisters.codec s _)]; exact hf)
  exact ⟨t, e,
    { regs := (keepsRegisters.codec s _).trans ht.regs
      outside := fun a ha => ht.outside a (by rw [writeRegion_congr (keepsRegisters.codec s _)]; exact ha)
      wf := ht.wf
      within := ht.within
      codec := ht.codec
      status := ht.status }⟩

/-- The effect of a job that ends at once with an error. -/
theorem JobEffect.ofError (k : JobKind) (e : JobError) (s : State) : JobEffect k s (errorCompletion e s) :=
  { regs := keepsRegisters.errorCompletion e s
    outside := fun _ _ => rfl
    wf := id
    within := id
    codec := rfl
    status := Or.inr ⟨e, rfl⟩ }

/-- The effect of a job that writes output bytes and completes. -/
theorem JobEffect.ofWrote {P : Nat → Prop} {k : JobKind} {s t : State} (h : Wrote P s t) (hv : validate k s = none)
    (hP : ∀ a, P a → (writeRegion k s).has a = true) (p i b : Bool) (n : Nat) :
    JobEffect k s (complete p i b n t) :=
  { regs := h.keepsRegisters.trans (keepsRegisters.complete ..)
    outside := fun a ha => h.other a fun hp => by rw [hP a hp] at ha; exact absurd ha (by simp)
    wf := h.wf
    within := h.within _ fun _ ha => (validated_of_none hv).write_lt (hP _ ha)
    codec := rfl
    status := Or.inl ⟨p, i, b, rfl⟩ }

theorem validated_spec {k : JobKind} {run : State → Result} {s : State}
    (h : validate k s = none → ∃ t, run s = .next t ∧ JobEffect k s t) :
    ∃ t, validated k run s = .next t ∧ JobEffect k s t := by
  unfold validated
  cases hv : validate k s with
  | some e => exact ⟨_, rfl, JobEffect.ofError k e s⟩
  | none => exact h hv

theorem validate_codec (k : JobKind) (c : Option Codec) (s : State) :
    validate k { s with codec := c } = validate k s := rfl

theorem execRle_spec {s : State} (hk : currentJob s = some .rle) : ∃ t, execRle s = .next t ∧ JobEffect .rle s t :=
  validated_spec fun hv => opened_spec (c := .rle ⟨0, 0⟩) rfl
    ⟨hk, hv, Nat.zero_le _, Nat.zero_le _⟩ (by simp only [jobCost, rleFuel]; omega)

theorem execLzw_spec {s : State} (hk : currentJob s = some .lzw) : ∃ t, execLzw s = .next t ∧ JobEffect .lzw s t :=
  validated_spec fun hv => opened_spec (c := .lzw LzwState.start) rfl
    ⟨hk, hv, Nat.zero_le _, Nat.zero_le _, LzwState.ok_start _⟩ (by
      show (8 * s.srcLen.toNat - 0) / 9 + 1 ≤ 8 * s.srcLen.toNat / 9 + 1
      rw [Nat.sub_zero])

theorem execQt_spec {s : State} (hk : currentJob s = some .qt) : ∃ t, execQt s = .next t ∧ JobEffect .qt s t :=
  validated_spec fun hv => by
    unfold openQt
    rcases qtEnter_cases s.cfg.qtMaxDepth ⟨0, 0, s.width, s.height⟩ ⟨0, none, []⟩ with ⟨_, e⟩ | ⟨_, _, e⟩ | ⟨he, hd, e⟩
    · simp only [e, qtEntered]
      exact opened_spec (c := .qt ⟨0, none, []⟩) rfl ⟨hk, hv, fun f hf => absurd hf (by simp), Nat.zero_le _⟩
        (by simp only [jobCost, qtCost, stackCost, qtFuel]; omega)
    · simp only [e, qtEntered]
      obtain ⟨h1, h2, h3⟩ := drawRegion_spec (imageRegion s) s
      refine ⟨runtimeError .qtDepth (imageRegion s) s, by cases qtFuel s <;> rfl, ?_⟩
      exact
        { regs := keepsRegisters.runtimeError ..
          outside := h1
          wf := h2
          within := h3 _ fun a ha => (validated_of_none hv).write_lt ha
          codec := rfl
          status := Or.inr ⟨_, rfl⟩ }
    · simp only [e, qtEntered]
      refine opened_spec (c := .qt ⟨0, some ⟨0, 0, s.width, s.height⟩, []⟩) rfl
        ⟨hk, hv, fun f hf => absurd hf (by simp), ⟨he, ?_, ?_⟩, hd⟩ ?_
      · show 0 + s.width ≤ s.width; omega
      · show 0 + s.height ≤ s.height; omega
      · simp only [jobCost, qtCost, stackCost, qtFuel, Rect.area, List.length_nil, Nat.sub_zero]; omega

theorem execLz77_run_spec {b : Bool} {s : State} (hk : currentJob s = some (.lz77 b)) (hv : validate (.lz77 b) s = none) :
    ∃ t, runTokens (lz77Fuel s) (openLz77 b s) = .next t ∧ JobEffect (.lz77 b) s t :=
  opened_spec (c := .lz77 ⟨0, 0, 0, 0, b, .header⟩) rfl
    ⟨hk, hv, Nat.zero_le _, Nat.zero_le _, by simp, Nat.zero_le _, trivial, fun _ => rfl⟩
    (by simp only [jobCost, lz77Fuel]; omega)

theorem execNmerge_spec (s : State) : ∃ t, execNmerge s = .next t ∧ JobEffect .nmerge s t :=
  validated_spec fun hv => ⟨_, rfl, JobEffect.ofWrote
    (Wrote.writeEach (P := outSpan s 0 s.dstLen.toNat) (fun i hi => ⟨i, Nat.zero_le _, hi, rfl⟩) _ _) hv
    (fun _ ha => outSpan_dstRegion (Nat.le_refl _) ha) ..⟩

theorem execXpose_spec (s : State) : ∃ t, execXpose s = .next t ∧ JobEffect .xpose s t :=
  validated_spec fun hv => ⟨_, rfl, JobEffect.ofWrote
    (Wrote.writeEach (P := outSpan s 0 (s.width * s.height)) (fun i hi => ⟨i, Nat.zero_le _, hi, rfl⟩) _ _) hv
    (fun _ ha => outSpan_imageRegion (Nat.le_refl _) ha) ..⟩

theorem sampleAt_spec {x : Nat} {s : State} (hv : validate .sample s = none) : JobEffect .sample s (sampleAt x s) :=
  JobEffect.ofWrote (P := fun _ => False) (Wrote.refl _ s) hv (fun _ h => h.elim) ..

theorem execSample_spec (s : State) : ∃ t, execSample s = .next t ∧ JobEffect .sample s t :=
  validated_spec fun hv => ⟨_, rfl, sampleAt_spec hv⟩

theorem execSampleMir_spec (s : State) : ∃ t, execSampleMir s = .next t ∧ JobEffect .sample s t :=
  validated_spec fun hv => ⟨_, rfl, sampleAt_spec hv⟩

/-- Everything the job step of a command can do. -/
theorem exec_command_spec {s : State} {k : JobKind} (hk : currentJob s = some k) :
    ∃ t, exec (decodeCommand s.cmd) s = .next t ∧ JobEffect k s t := by
  have hk' := hk
  unfold currentJob at hk
  cases hd : decodeCommand s.cmd <;> rw [hd] at hk <;> simp only [jobKind, Option.some.injEq, reduceCtorEq] at hk <;> subst hk
  · exact execRle_spec hk'
  · exact execLzw_spec hk'
  · exact execQt_spec hk'
  · exact validated_spec (run := fun s => runTokens (lz77Fuel s) (openLz77 false s)) fun hv => execLz77_run_spec hk' hv
  · exact validated_spec (run := fun s => runTokens (lz77Fuel s) (openLz77 true s)) fun hv => execLz77_run_spec hk' hv
  · exact execNmerge_spec s
  · exact execXpose_spec s
  · exact execSample_spec s
  · exact execSampleMir_spec s

/-- A command without a job is a reserved one (60_exceptions.md R273). -/
theorem exec_reserved {s : State} (hk : currentJob s = none) :
    exec (decodeCommand s.cmd) s = .next (errorCompletion .badOp s) := by
  have hf := decodeCommand_fits s.cmd
  unfold currentJob at hk
  cases hd : decodeCommand s.cmd <;> rw [hd] at hk hf <;>
    first | rfl | (cases hk; done) | cases hf

end Sys2Proof.Machine
end

