-- ==== Sys2Proof/Laws/Host.lean ====
section
/-! SUPPORT. Everything the host's acts (10_state.md R23 to R38, 20_memory.md R74, 70_reset_and_hazards.md R300, R301) can do,
and that what the engine fetches inside a job is a token. -/

namespace Sys2Proof.Machine

/-- Which accesses reach a register, and which. -/
theorem busOffset_ok {addr width off : Nat} {s : State} (h : busOffset addr width s = .ok off) :
    addr = s.cfg.regBase + off ∧ off < 64 ∧ off % 4 = 0 ∧ width = 4 := by
  have hb : registerBlockSize = 64 := rfl
  unfold busOffset at h
  split at h
  · exact absurd h (by simp)
  · split at h
    · exact absurd h (by simp)
    · simp only [Except.ok.injEq] at h
      omega

theorem busOffset_reg {off : Nat} (s : State) (h : off < 64) (h4 : off % 4 = 0) :
    busOffset (s.cfg.regBase + off) 4 s = .ok off := by
  have hb : registerBlockSize = 64 := rfl
  unfold busOffset
  rw [if_neg (by omega), if_neg (by omega)]
  congr 1; omega

/-- While BUSY a register write changes nothing (10_state.md R25, R37). -/
theorem writeRegister_busy {s : State} (h : s.busy = true) (off : Nat) (v : Word) : writeRegister off v s = s := by
  unfold writeRegister; rw [if_pos h]

/-- What a register write while IDLE can do: start a job, or change a job register and nothing else. -/
theorem writeRegister_idle {s : State} (h : s.busy = false) (off : Nat) (v : Word) :
    (off = 0 ∧ writeRegister off v s = startJob v s) ∨
    (off ≠ 0 ∧ (writeRegister off v s).cmd = s.cmd ∧ (writeRegister off v s).status = s.status ∧
      (writeRegister off v s).result = s.result ∧ (writeRegister off v s).mem = s.mem ∧
      (writeRegister off v s).codec = s.codec ∧ (writeRegister off v s).cfg = s.cfg ∧
      (writeRegister off v s).turns = s.turns ∧ (writeRegister off v s).reads = s.reads ∧
      (writeRegister off v s).draws = s.draws) := by
  unfold writeRegister
  rw [if_neg (by simp [h])]
  by_cases h0 : off = 0
  · exact Or.inl ⟨h0, by rw [if_pos h0]⟩
  · rw [if_neg h0]
    refine Or.inr ⟨h0, ?_⟩
    split_ifs <;> exact ⟨rfl, rfl, rfl, rfl, rfl, rfl, rfl, rfl, rfl⟩

/-- What a register write of the value last read can do: that register write, or nothing where nothing has been read. -/
theorem hostWriteLastRead_cases (addr width : Nat) (s : State) :
    (s.reads = [] ∧ hostWriteLastRead addr width s = .next s) ∨
    ∃ v vs, s.reads = v :: vs ∧ hostWriteLastRead addr width s = hostWriteReg addr width v s := by
  unfold hostWriteLastRead
  split
  · next h => exact Or.inl ⟨h, rfl⟩
  · next v vs h => exact Or.inr ⟨v, vs, h, rfl⟩

/-- The part of a region that exists lies in memory. -/
theorem Region.clip_lt {c : Config} {r : Region} {a : Nat} (h : (r.clip c).has a = true) : a < c.memBytes := by
  rw [Region.has_iff] at h
  simp only [Region.clip] at h
  omega

/-- What a reset can do to memory. -/
theorem resetBlock_mem (s : State) :
    (s.busy = false → (resetBlock s).mem = s.mem) ∧
    keepsMemoryOutside ((currentWrites s).clip s.cfg) s (resetBlock s) ∧
    (Memory.wf s.mem = true → Memory.wf (resetBlock s).mem = true) ∧
    (Memory.within s.cfg.memBytes s.mem = true → Memory.within s.cfg.memBytes (resetBlock s).mem = true) := by
  obtain ⟨h1, h2, h3⟩ := drawRegion_spec ((currentWrites s).clip s.cfg) s
  cases hb : s.busy with
  | false =>
    have e : (resetBlock s).mem = s.mem := by simp [resetBlock, hb]
    exact ⟨fun _ => e, fun a _ => by unfold memRead; rw [e], fun h => by rw [e]; exact h, fun h => by rw [e]; exact h⟩
  | true =>
    have e : (resetBlock s).mem = (drawRegion ((currentWrites s).clip s.cfg) s).mem := by simp [resetBlock, hb]
    exact ⟨fun h => absurd h (by simp), fun a ha => by unfold memRead; rw [e]; exact h1 a ha, fun h => by rw [e]; exact h2 h,
      fun h => by rw [e]; exact h3 _ (fun a ha => Region.clip_lt ha) h⟩

/-- What a host write of a byte can do: it exists, lies in no region of a job in progress, and only it changes. -/
theorem hostWriteMem_next {a : Nat} {v : Byte} {s t : State} (h : hostWriteMem a v s = .next t) :
    a < s.cfg.memBytes ∧ (s.busy = true → ∀ r ∈ currentRegions s, r.has a = false) ∧ t = memWrite a v s := by
  unfold hostWriteMem at h
  split at h
  · exact absurd h (by simp)
  · split at h
    · exact absurd h (by simp)
    · next h1 h2 =>
      simp only [Host.Outcome.next.injEq] at h
      refine ⟨by omega, fun hb r hr => ?_, h.symm⟩
      simp only [hb, List.any_eq_true, true_and, not_exists, not_and, Bool.not_eq_true] at h2
      exact h2 r hr

/-- What a host read of a byte can do: only what the host has read, and the draw counter, change. -/
theorem hostReadMem_next {a : Nat} {s t : State} (h : hostReadMem a s = .next t) :
    a < s.cfg.memBytes ∧ ∃ v n, t = { s with reads := v :: s.reads, draws := n } := by
  unfold hostReadMem at h
  split at h
  · exact absurd h (by simp)
  · split at h <;> simp only [Host.Outcome.next.injEq] at h <;> exact ⟨by omega, _, _, h.symm⟩

/-- What stands at a cursor inside a job is a token. -/
theorem decode_token {ctx : Ctx} {w : Word} {i : Instr} (hc : ctx ≠ .command) (h : decode ctx w = .ok i) (s : State) :
    exec i s = execToken i s := by
  cases ctx with
  | command => exact absurd rfl hc
  | rle =>
    simp only [decode, decodeRle] at h
    split at h <;> cases h <;> rfl
  | lzw width next hasPrev =>
    simp only [decode, decodeLzw] at h
    split_ifs at h <;> cases h <;> rfl
  | qtMask => cases h; rfl
  | qtQuadrant bit qw qh =>
    cases bit with
    | true => cases h; rfl
    | false =>
      simp only [decode, decodeLeaf] at h
      split_ifs at h <;> first | (cases h; done) | (cases h; rfl)
  | lz77Hdr => cases h; rfl
  | lz77Flag => cases h; rfl
  | lz77Decision bit => cases bit <;> cases h <;> rfl

theorem decoded_token {ctx : Ctx} {w : Word} {i : Instr} (hc : ctx ≠ .command) (h : decoded ctx w = .token i) (s : State) :
    exec i s = execToken i s := by
  unfold decoded at h
  split at h
  · next j hj => cases h; exact decode_token hc hj s
  · exact absurd h (by simp)

/-- Inside a job, `exec` and the job step give a token the same meaning. -/
theorem fetch_token {c : Codec} {s : State} {i : Instr} (h : fetch c s = .token i) (u : State) :
    exec i u = execToken i u := by
  cases c with
  | rle c =>
    simp only [fetch, fetchRle] at h
    split_ifs at h
    exact decoded_token (by simp) h u
  | lzw c =>
    simp only [fetch, fetchLzw] at h
    split_ifs at h
    exact decoded_token (by simp [LzwState.ctx]) h u
  | qt c =>
    simp only [fetch, fetchQt] at h
    split at h
    · exact decoded_token (by simp) h u
    · exact absurd h (by simp)
    · split at h
      · exact decoded_token (by simp) h u
      · exact absurd h (by simp)
  | lz77 c =>
    simp only [fetch, fetchLz77, lz77Next] at h
    split at h
    · split_ifs at h
      exact decoded_token (by simp) h u
    · split_ifs at h
      exact decoded_token (by simp) h u
    · split_ifs at h <;> exact decoded_token (by simp) h u
    · exact absurd h (by simp)

/-- A token step of the engine is a token step of the job step. -/
theorem tokenStep_exec (c : Codec) (s : State) : tokenStep exec c s = tokenStep execToken c s := by
  unfold tokenStep
  cases h : fetch c s with
  | token i => exact fetch_token h s
  | skip | finish | fail => rfl

end Sys2Proof.Machine
end

