-- ==== Sys2Proof/Laws/PerInstr.lean ====
section
/-! SUPPORT. A family of lemmas over all instructions: what a context admits is well formed and its bits fit a word. -/

namespace Sys2Proof.Laws.FitsWf

/-- An instruction that a decoder's context admits (30_encoding.md R87, 43_quadtree.md R178) is well formed, and its own bits
fit the word the decoder reads. -/
def Statement (i : Instr) : Prop :=
  ∀ ctx : Ctx, ctx.wf = true → i.fits ctx = true → i.wf = true ∧ tokenBits ctx i ≤ 32

theorem bitcount1_le (n : Nat) : bitcount1 n ≤ 8 := Nat.min_le_left _ _

theorem codeWidth_le {ctx : Ctx} (h : ctx.wf = true) : ctx.codeWidth ≤ 32 := by
  cases ctx with
  | lzw w n p =>
    simp only [Ctx.wf, Bool.and_eq_true, decide_eq_true_eq] at h
    have : lzwWidthMax = 12 := rfl
    simp only [Ctx.codeWidth]; omega
  | _ => exact Nat.zero_le _

theorem rle (a b : Bool) : Statement (.rle a b) := fun _ _ _ => ⟨rfl, by simp [tokenBits]⟩
theorem lzw (a b : Bool) : Statement (.lzw a b) := fun _ _ _ => ⟨rfl, by simp [tokenBits]⟩
theorem qt (a b : Bool) : Statement (.qt a b) := fun _ _ _ => ⟨rfl, by simp [tokenBits]⟩
theorem lz77 (b : Bool) : Statement (.lz77 b) := fun _ _ _ => ⟨rfl, by simp [tokenBits]⟩
theorem lz77Ct (b : Bool) : Statement (.lz77Ct b) := fun _ _ _ => ⟨rfl, by simp [tokenBits]⟩
theorem nmerge (a b : Bool) : Statement (.nmerge a b) := fun _ _ _ => ⟨rfl, by simp [tokenBits]⟩
theorem xpose (a b : Bool) : Statement (.xpose a b) := fun _ _ _ => ⟨rfl, by simp [tokenBits]⟩
theorem sample (a : Bool) : Statement (.sample a) := fun _ _ _ => ⟨rfl, by simp [tokenBits]⟩
theorem sampleMir (a : Bool) : Statement (.sampleMir a) := fun _ _ _ => ⟨rfl, by simp [tokenBits]⟩
theorem reserved0 (a b : Bool) : Statement (.reserved0 a b) := fun _ _ _ => ⟨rfl, by simp [tokenBits]⟩
theorem reserved8F (l : BitVec 3) (a b : Bool) : Statement (.reserved8F l a b) := fun _ _ _ => ⟨rfl, by simp [tokenBits]⟩
theorem rleLit (n : BitVec 7) : Statement (.rleLit n) := fun _ _ _ => ⟨rfl, by simp [tokenBits]⟩
theorem rleRun (n : BitVec 7) (v : Byte) : Statement (.rleRun n v) := fun _ _ _ => ⟨rfl, by simp [tokenBits]⟩

theorem lzwClear : Statement .lzwClear := fun _ h _ => ⟨rfl, codeWidth_le h⟩
theorem lzwLit (b : Byte) : Statement (.lzwLit b) := fun _ h _ => ⟨rfl, codeWidth_le h⟩

theorem lzwDict (c : BitVec lzwWidthMax) : Statement (.lzwDict c) := fun ctx h hf => by
  refine ⟨?_, codeWidth_le h⟩
  cases ctx with
  | lzw w n p =>
    simp only [Instr.fits, Bool.and_eq_true, decide_eq_true_eq] at hf
    simp only [Instr.wf, decide_eq_true_eq]
    exact hf.1.1
  | _ => exact absurd hf (by simp [Instr.fits])

theorem lzwKwkwk (c : BitVec lzwWidthMax) : Statement (.lzwKwkwk c) := fun ctx h hf => by
  refine ⟨?_, codeWidth_le h⟩
  cases ctx with
  | lzw w n p =>
    simp only [Instr.fits, Bool.and_eq_true, decide_eq_true_eq] at hf
    simp only [Instr.wf, decide_eq_true_eq]
    exact hf.1.1.1
  | _ => exact absurd hf (by simp [Instr.fits])

theorem lzwBad (c : BitVec lzwWidthMax) : Statement (.lzwBad c) := fun ctx h hf => by
  refine ⟨?_, codeWidth_le h⟩
  cases ctx with
  | lzw w n p =>
    simp only [Instr.fits, Bool.and_eq_true, decide_eq_true_eq] at hf
    simp only [Instr.wf, decide_eq_true_eq]
    exact hf.1.1
  | _ => exact absurd hf (by simp [Instr.fits])

theorem qtMask (m : BitVec qtMaskBits) : Statement (.qtMask m) := fun _ _ _ => ⟨rfl, by simp [tokenBits, qtMaskBits]⟩
theorem qtSub : Statement .qtSub := fun _ _ _ => ⟨rfl, Nat.zero_le _⟩
theorem qtLeaf1 (v : Byte) : Statement (.qtLeaf1 v) := fun _ _ _ => ⟨rfl, by simp [tokenBits]⟩

/-- firstval 0 never passes the raw test of a leaf with more than one pixel (43_quadtree.md R178). -/
theorem rawTest_one {area : Nat} (h : 2 ≤ area) : rawTest area 1 = false := by
  have : bitcount2 1 = 0 := rfl
  unfold rawTest
  rw [this, decide_eq_false_iff_not]
  omega

theorem qtLeafRaw (f : Byte) : Statement (.qtLeafRaw f) := fun ctx h hf => by
  have hb := bitcount1_le ctx.leafArea
  refine ⟨?_, by simp only [tokenBits]; omega⟩
  cases ctx with
  | qtQuadrant bit w q =>
    cases bit with
    | true => exact absurd hf (by simp [Instr.fits])
    | false =>
      simp only [Ctx.wf, Bool.false_or, Bool.and_eq_true, decide_eq_true_eq] at h
      simp only [Instr.fits, Bool.and_eq_true, Bool.not_eq_true', Bool.and_eq_false_iff, decide_eq_false_iff_not,
        decide_eq_true_eq] at hf
      simp only [Instr.wf, decide_eq_true_eq]
      rintro rfl
      have ha : 2 ≤ w * q := by
        have h1 : 1 ≤ w := by omega
        have h2 : 1 ≤ q := by omega
        rcases hf.1.1 with h3 | h3
        · calc 2 ≤ w * 1 := by omega
            _ ≤ w * q := Nat.mul_le_mul_left w h2
        · calc 2 ≤ 1 * q := by omega
            _ ≤ w * q := Nat.mul_le_mul_right q h1
      have := rawTest_one ha
      rw [show ((0 : Byte).toNat + 1) = 1 from rfl] at hf
      rw [this] at hf
      exact absurd hf.2 (by simp)
  | _ => exact absurd hf (by simp [Instr.fits])

theorem qtLeafFill (v : Byte) : Statement (.qtLeafFill v) := fun ctx _ _ =>
  ⟨rfl, by have := bitcount1_le ctx.leafArea; simp only [tokenBits]; omega⟩

theorem qtLeafIdx (f : Byte) : Statement (.qtLeafIdx f) := fun ctx h hf => by
  have hb := bitcount1_le ctx.leafArea
  refine ⟨?_, by simp only [tokenBits]; omega⟩
  cases ctx with
  | qtQuadrant bit w q => cases bit <;> simp_all [Instr.fits, Instr.wf]
  | _ => exact absurd hf (by simp [Instr.fits])

theorem lz77Hdr (g : BitVec 16) (t : Byte) : Statement (.lz77Hdr g t) := fun _ _ _ => ⟨rfl, by simp [tokenBits]⟩
theorem lz77Flag (f : Byte) : Statement (.lz77Flag f) := fun _ _ _ => ⟨rfl, by simp [tokenBits]⟩
theorem lz77Lit (b : Byte) : Statement (.lz77Lit b) := fun _ _ _ => ⟨rfl, by simp [tokenBits]⟩
theorem lz77Bref (l : BitVec lz77LenBits) (d : BitVec lz77DistBits) : Statement (.lz77Bref l d) := fun _ _ _ =>
  ⟨rfl, by simp [tokenBits, lz77LenBits, lz77DistBits]⟩

end Sys2Proof.Laws.FitsWf
end

