-- ==== Sys2Proof/Laws/Pixel.lean ====
section
/-! SUPPORT. What a merged pixel is (45_pixel.md R231, R232). -/

namespace Sys2Proof.Machine

/-- A plane byte's nibble as a number. -/
theorem planeNibble_toNat (i : Nat) (b : Byte) :
    (planeNibble i b).toNat = if i % 2 = 0 then b.toNat % 16 else b.toNat / 16 := by
  have hm : nibbleMask.toNat = 2 ^ 4 - 1 := rfl
  unfold planeNibble
  rw [BitVec.toNat_and, hm, Nat.and_two_pow_sub_one_eq_mod]
  split
  · rfl
  · rw [BitVec.toNat_ushiftRight, Nat.shiftRight_eq_div_pow]; omega

/-- The two nibbles of a merged pixel do not overlap. -/
theorem mergedPixel_toNat (i : Nat) (s : State) :
    (mergedPixel i s).toNat = (planeNibble i (srcZ (i / 2) s)).toNat + 16 * (planeNibble i (auxZ (i / 2) s)).toNat := by
  have hlo : ∀ b, (planeNibble i b).toNat < 2 ^ 4 := fun b => by
    rw [planeNibble_toNat]; split <;> omega
  have h1 := hlo (srcZ (i / 2) s)
  have h2 := hlo (auxZ (i / 2) s)
  unfold mergedPixel
  rw [BitVec.toNat_or, BitVec.toNat_shiftLeft, Nat.shiftLeft_eq, Nat.mod_eq_of_lt (by omega), Nat.or_comm, Nat.mul_comm,
    ← Nat.two_pow_add_eq_or_of_lt h1]
  omega

end Sys2Proof.Machine
end

