-- ==== Sys2Proof/Tests/Slice0.lean ====
section
/-! SUPPORT. The model's own tests: the checks of WellFormed, words written out from the spec's encodings, single steps whose
results stand in spec/95_test_vectors.md, and for every obligation with hypotheses a state that meets them. -/

namespace Sys2Proof.Tests

open Sys2Proof.Machine

/-! ## Helpers -/

/-- A byte list laid at an address. -/
def lay (a : Nat) : List Byte → Memory → Memory
  | [], m => m
  | b :: bs, m => Memory.write a b (lay (a + 1) bs m)

/-- A job just started: source at 0x100, output at 0x200, auxiliary region at 0x300. -/
def started (cmd : Word) (src : List Byte) (dstLen dim : Word) : State :=
  { State.reset with
    cmd := cmd, status := statusStarted, srcBase := 0x100, srcLen := BitVec.ofNat 32 src.length, dstBase := 0x200,
    dstLen := dstLen, auxBase := 0x300, dim := dim, mem := lay 0x100 src [] }

/-- The same job with its codec open. -/
def inside (cmd : Word) (src : List Byte) (dstLen dim : Word) (c : Codec) : State :=
  { started cmd src dstLen dim with codec := some c }

/-- The state after a step (the state itself where it stops). -/
def after (r : Result) (s : State) : State :=
  match r with
  | .next t => t
  | .fault _ => s
  | .refused _ => s

/-- STATUS, RESULT and the first `n` output bytes after a step. -/
def outcome (n : Nat) (s : State) : Word × Word × List Byte :=
  let t := after (step s) s
  (t.status, t.result, outBytes n t)

/-! ## WellFormed refuses -/

theorem test_wf_refuses_dict_at_clear : Instr.wf (.lzwDict 0x100) = false := by decide
theorem test_wf_refuses_kwkwk_below_clear : Instr.wf (.lzwKwkwk 0x0FF) = false := by decide
theorem test_wf_refuses_bad_at_clear : Instr.wf (.lzwBad 0x100) = false := by decide
theorem test_wf_refuses_raw_firstval_zero : Instr.wf (.qtLeafRaw 0) = false := by decide
theorem test_wf_refuses_indexed_firstval_zero : Instr.wf (.qtLeafIdx 0) = false := by decide
theorem test_ctx_refuses_width : Ctx.wf (.lzw 8 257 true) = false ∧ Ctx.wf (.lzw 13 257 true) = false := by decide
theorem test_ctx_refuses_next : Ctx.wf (.lzw 9 256 true) = false := by decide
theorem test_ctx_refuses_empty_leaf :
    Ctx.wf (.qtQuadrant false 0 1) = false ∧ Ctx.wf (.qtQuadrant false 1 0) = false := by decide
theorem test_decode_rejects_empty_leaf : decode (.qtQuadrant false 0 3) 0 = .error .emptyLeaf := by rfl
theorem test_wf_admits_firsts : Instr.wf (.lzwDict 0x101) = true ∧ Instr.wf (.qtLeafRaw 1) = true := by decide

/-! ## Words written out from the encodings -/

/-- 30_encoding.md R82: OP in bits 3:0, CTAB_EN bit 4, MIRROR bit 5. -/
theorem test_decode_commands :
    decodeTableWord 32 0x00 = some (.reserved0 false false) ∧ decodeTableWord 32 0x01 = some (.rle false false) ∧
    decodeTableWord 32 0x02 = some (.lzw false false) ∧ decodeTableWord 32 0x03 = some (.qt false false) ∧
    decodeTableWord 32 0x04 = some (.lz77 false) ∧ decodeTableWord 32 0x14 = some (.lz77Ct false) ∧
    decodeTableWord 32 0x05 = some (.nmerge false false) ∧ decodeTableWord 32 0x06 = some (.xpose false false) ∧
    decodeTableWord 32 0x07 = some (.sample false) ∧ decodeTableWord 32 0x27 = some (.sampleMir false) ∧
    decodeTableWord 32 0x08 = some (.reserved8F 0 false false) ∧
    decodeTableWord 32 0x0F = some (.reserved8F 7 false false) := by decide

/-- 95_test_vectors.md V-ER-8: bits 7:6 set, OP 1. -/
theorem test_decode_ignores_high_bits : decode .command 0xFFFFFFC1#32 = .ok (.rle false false) := by rfl

/-- 30_encoding.md R84. -/
theorem test_decode_rle :
    decodeTableWord 8 0x03 = some (.rleLit 3) ∧ decodeTableWord 8 0x7F = some (.rleLit 127) ∧
    decode .rle 0x5A84#32 = .ok (.rleRun 4 0x5A) ∧ decode .rle 0x07FF#32 = .ok (.rleRun 127 0x07) := ⟨rfl, rfl, rfl, rfl⟩

/-- 30_encoding.md R87, every class at its edges. -/
theorem test_decode_lzw :
    decodeTableWord 12 0x100 = some .lzwClear ∧ decodeTableWord 12 0x0FF = some (.lzwLit 0xFF) ∧
    decode (.lzw 9 259 true) 0x102#32 = .ok (.lzwDict 0x102) ∧
    decode (.lzw 9 259 true) 0x103#32 = .ok (.lzwKwkwk 0x103) ∧
    decode (.lzw 9 259 true) 0x104#32 = .ok (.lzwBad 0x104) ∧
    decode (.lzw 9 257 false) 0x101#32 = .ok (.lzwBad 0x101) ∧
    decode (.lzw 9 257 false) 0xFE41#32 = .ok (.lzwLit 0x41) := ⟨rfl, rfl, rfl, rfl, rfl, rfl, rfl⟩

/-- 30_encoding.md R88; 43_quadtree.md R180, R182: a 2x2 leaf's firstval has 2 bits, a 16x16 leaf's has 8. -/
theorem test_decode_quadtree :
    decodeTableWord 4 0x8 = some (.qtMask 8) ∧ decode (.qtQuadrant true 3 3) 0xFFFF#32 = .ok .qtSub ∧
    decode (.qtQuadrant false 1 1) 0x0AB#32 = .ok (.qtLeaf1 0xAB) ∧
    decode (.qtQuadrant false 2 2) 0xFF#32 = .ok (.qtLeafRaw 3) ∧
    decode (.qtQuadrant false 2 2) 0x14#32 = .ok (.qtLeafFill 5) ∧
    decode (.qtQuadrant false 2 2) 0x01#32 = .ok (.qtLeafIdx 1) ∧
    decode (.qtQuadrant false 16 16) 0x0100#32 = .ok (.qtLeafFill 1) := ⟨rfl, rfl, rfl, rfl, rfl, rfl, rfl⟩

/-- 30_encoding.md R90, R91: little-endian G, then tailBits; a word's low 4 bits are the length. -/
theorem test_decode_lz77 :
    decodeTableWord 24 0x040102 = some (.lz77Hdr 0x0102 4) ∧ decode .lz77Flag 0x20#32 = .ok (.lz77Flag 0x20) ∧
    decode (.lz77Decision false) 0x55#32 = .ok (.lz77Lit 0x55) ∧
    decode (.lz77Decision true) 0x0012#32 = .ok (.lz77Bref 2 1) ∧
    decode (.lz77Decision true) 0xFFF0#32 = .ok (.lz77Bref 0 4095) := ⟨rfl, rfl, rfl, rfl, rfl⟩

theorem test_encode_words :
    encode .command (.lz77Ct false) = 0x14#32 ∧ encode .command (.sampleMir false) = 0x27#32 ∧
    encode .rle (.rleRun 4 0x5A) = 0x5A84#32 ∧ encode (.qtQuadrant false 2 2) (.qtLeafFill 5) = 0x14#32 ∧
    encode .lz77Hdr (.lz77Hdr 0x0102 4) = 0x040102#32 ∧ encode (.lz77Decision true) (.lz77Bref 2 1) = 0x12#32 := by
  decide

/-! ## Single steps (95_test_vectors.md) -/

/-- V-BR-1, V-BR-3. -/
theorem test_bit_reader :
    bitRead 0 4 (started 2 [0xB0, 0x0A] 0 0) = 0 ∧ bitRead 4 8 (started 2 [0xB0, 0x0A] 0 0) = 0xAB ∧
    bitRead 0 12 (started 2 [0x01] 0 0) = 1 ∧ bitRead 12 8 (started 2 [0x01] 0 0) = 0 := by decide

/-- V-RLE-2. -/
theorem test_rle_pads :
    outcome 10 (started 1 [0x03, 0x41, 0x42, 0x43, 0x84, 0x5A] 10 0) =
      (0x0E, 7, [0x41, 0x42, 0x43, 0x5A, 0x5A, 0x5A, 0x5A, 0, 0, 0]) := by decide

/-- V-RLE-3. -/
theorem test_rle_truncates :
    outcome 5 (started 1 [0x03, 0x41, 0x42, 0x43, 0x84, 0x5A] 5 0) = (0x02, 5, [0x41, 0x42, 0x43, 0x5A, 0x5A]) := by
  decide

/-- V-LZW-1: literals, a dictionary code and the self-referential code. -/
theorem test_lzw_self_reference :
    outcome 7 (started 2 [0x41, 0x84, 0x04, 0x1C, 0x08] 7 0) = (0x02, 7, [0x41, 0x42, 0x41, 0x42, 0x41, 0x42, 0x41]) := by
  decide

/-- V-LZW-3 and V-LZW-4: a clear code, an invalid code. -/
theorem test_lzw_clear_and_bad :
    outcome 4 (started 2 [0x41, 0x00, 0x0A, 0x09, 0x08] 4 0) = (0x02, 4, [0x41, 0x42, 0x42, 0x42]) ∧
    outcome 4 (started 2 [0x41, 0x0A, 0x02] 4 0) = (0x16, 1, [0x41, 0, 0, 0]) := by decide

/-- V-QT-6: a filled, an indexed and two raw leaves. -/
theorem test_qt_leaves :
    outcome 16 (started 3 [0x40, 0x41, 0xA0, 0xB0, 0x36, 0x44, 0x84, 0xC4, 0x84, 0x20, 0x21, 0x22, 0x23] 0 0x00040004) =
      (0x02, 104, [0x05, 0x05, 0xA0, 0xB0, 0x05, 0x05, 0xB0, 0xA0, 0x10, 0x12, 0x20, 0x22, 0x11, 0x13, 0x21, 0x23]) := by
  decide

/-- V-QT-3: a subdivided 1x1 quadrant. -/
theorem test_qt_subdivision :
    outcome 4 (started 3 [0x01, 0x99, 0x22, 0x33, 0x44] 0 0x00020002) = (0x02, 40, [0x99, 0x22, 0x33, 0x44]) := by decide

/-- V-LZ-4: literals and an overlapping backreference. -/
theorem test_lz77_overlap :
    outcome 7 (started 4 [0x00, 0x00, 0x03, 0x20, 0x41, 0x42, 0x12, 0x00] 16 0) =
      (0x02, 7, [0x41, 0x42, 0x41, 0x42, 0x41, 0x42, 0x41]) := by decide

/-- V-LZ-3 and V-LZ-15: zeros before the start; ERR_OVERFLOW. -/
theorem test_lz77_zeros_and_overflow :
    outcome 4 (started 4 [0x00, 0x00, 0x02, 0x40, 0x99, 0x50, 0x00] 16 0) = (0x02, 4, [0x99, 0, 0, 0]) ∧
    (outcome 0 (started 4 [0x00, 0x00, 0x02, 0x40, 0x61, 0x00, 0x00] 3 0)).1 = 0x0602 := by decide

/-- V-LZ-7's literals: 0x05 and 0x3F through the table Aux(i) = 0xC0 + i, 0x40 as read. -/
theorem test_lz77_colour_table :
    outcome 3 { started 0x14 [0x00, 0x00, 0x03, 0x00, 0x05, 0x3F, 0x40] 16 0 with
      mem := Memory.write 0x305 0xC5 (Memory.write 0x33F 0xFF
        (started 0x14 [0x00, 0x00, 0x03, 0x00, 0x05, 0x3F, 0x40] 16 0).mem) } =
      (0x02, 3, [0xC5, 0xFF, 0x40]) := by decide

/-- V-NM-2. -/
theorem test_nmerge :
    outcome 4 { started 5 [0x21, 0x43] 4 0 with
      auxLen := 2, mem := lay 0x300 [0x65, 0x87] (started 5 [0x21, 0x43] 4 0).mem } =
      (0x02, 4, [0x51, 0x62, 0x73, 0x84]) := by decide

/-- V-XP-1. -/
theorem test_xpose :
    outcome 6 (started 6 [0x0A, 0x0B, 0x0C, 0x0D, 0x0E, 0x0F] 0 0x00030002) =
      (0x02, 6, [0x0A, 0x0D, 0x0B, 0x0E, 0x0C, 0x0F]) := by decide

/-- V-SM-1, V-SM-3, V-SM-5. -/
theorem test_sample :
    outcome 0 (started 7 [0x10, 0x11, 0x12, 0x20, 0x21, 0x22] 0 0x00020003) = (0x02, 0x10, []) ∧
    outcome 0 { started 0x27 [0x10, 0x11, 0x12, 0x20, 0x21, 0x22] 0 0x00020003 with xy := 0x00010002 } =
      (0x02, 0x20, []) ∧
    outcome 0 { started 7 [0x10, 0x11, 0x12, 0x20, 0x21, 0x22] 0 0x00020003 with xy := 3 } = (0x0802, 0, []) := by decide

/-- V-ER-1, V-ER-2, and P5 step 2 (ERR_OVERLAP) and step 4 (ERR_RANGE). -/
theorem test_errors :
    outcome 0 (started 0 [] 0 0) = (0x0102, 0, []) ∧ outcome 0 (started 0x0F [] 0 0) = (0x0102, 0, []) ∧
    outcome 0 { started 1 [0x03, 0x41, 0x42, 0x43, 0x84, 0x5A] 7 0 with dstBase := 0x104 } = (0x0302, 0, []) ∧
    outcome 0 { started 1 [0x03, 0x41, 0x42, 0x43, 0x84, 0x5A] 7 0 with srcBase := 0xFFFFFFFE } = (0x0202, 0, []) := by
  decide

/-- V-LZ-11, V-LZ-12: ERR_TAIL, ERR_HDR. -/
theorem test_lz77_header_errors :
    outcome 0 (started 4 [0x00, 0x00, 0x09, 0x00] 16 0) = (0x0502, 0, []) ∧
    outcome 0 (started 4 [0x00, 0x00] 16 0) = (0x0402, 0, []) := by decide

/-- 10_state.md R25 with V-ER-8: a CMD write of 0xC1 starts an RLE job and CMD reads 0x01. -/
theorem test_cmd_write :
    let t := after (step { State.reset with turns := [.writeReg 0 4 0xC1] }) State.reset
    t.cmd = 1 ∧ t.status = 1 ∧ t.turns = [] := by decide

/-- R262: SRC_LEN takes the RESULT just read; a host that has read nothing writes nothing. -/
theorem test_write_last_read :
    (after (step { State.reset with reads := [7, 9], turns := [.writeRegLastRead 0x0C 4] }) State.reset).srcLen = 7 ∧
    step { State.reset with turns := [.writeRegLastRead 0x0C 4] } = .next State.reset := ⟨by decide, rfl⟩

/-- A table word laid where the next step fetches runs. -/
theorem test_fetch_word :
    step (State.reset.withFetchWord 12 0x041) = exec (.lzwLit 0x41) (State.reset.withFetchWord 12 0x041) := by rfl

/-! ## States that meet the hypotheses of the obligations -/

/-- An RLE job at its second token, two output bytes written, one more to come. -/
def midRle : State := inside 1 [0x02, 0x41, 0x42, 0x03, 0x43] 3 0 (.rle ⟨3, 2⟩)

/-- An LZW job after two literals: NEXT is 258. -/
def lzwMid : LzwState := { off := 18, width := 9, dict := [[0x41, 0x42]], prev := some [0x42], o := 2 }
def midLzw : State := inside 2 [0x41, 0x84, 0x04, 0x1C, 0x08] 7 0 (.lzw lzwMid)

/-- Quadtree jobs on a 4x4 image: the root's mask next; at quadrant 1 (2x2). -/
def atMask : State := inside 3 [0x40, 0x41] 0 0x00040004 (.qt ⟨0, some ⟨0, 0, 4, 4⟩, []⟩)
def qtFrame : Frame := ⟨⟨0, 0, 4, 4⟩, 0, 1⟩
def qtMid : QtState := ⟨4, none, [qtFrame]⟩
def midQt : State := inside 3 [0x40, 0x41] 0 0x00040004 (.qt qtMid)

/-- Quadtree job on a 1x1 image at its last quadrant, the only one that is not empty. -/
def qtFrame1 : Frame := ⟨⟨0, 0, 1, 1⟩, 8, 3⟩
def midQt1 : State := inside 3 [0xB0, 0x0A] 0 0x00010001 (.qt ⟨4, none, [qtFrame1]⟩)

/-- The same where a further level is too deep. -/
def deepQt1 : State := { midQt1 with cfg := { Config.standard with qtMaxDepth := 1 } }

/-- LZ77 jobs: at the header, at a flag byte, at the last decision of a tail group with one output byte written. -/
def lz77Stream : List Byte := [0x00, 0x00, 0x02, 0x40, 0x55, 0x00, 0x00]
def lz77Start : Lz77State := ⟨0, 0, 0, 0, false, .header⟩
def atHeader : State := inside 4 lz77Stream 16 0 (.lz77 lz77Start)
def lz77AtFlag (groups tailBits : Nat) : Lz77State := ⟨3, 0, groups, tailBits, false, .flag⟩
def atFlag (groups tailBits : Nat) : State := inside 4 lz77Stream 16 0 (.lz77 (lz77AtFlag groups tailBits))
def lz77Last : Lz77State := ⟨5, 1, 0, 2, false, .decisions 0x40 6 1 true⟩
def midLz77 (cap : Word) : State := inside 4 lz77Stream cap 0 (.lz77 lz77Last)

theorem jobOk_midRle : midRle.jobOk := by
  intro c h; cases h; exact ⟨by decide, by decide, by decide, by decide⟩

theorem lzwMid_ok : lzwMid.ok 0 := by
  refine ⟨by decide, by decide, by decide, by decide, ?_, ?_⟩
  · intro k seq h
    rcases k with _ | k
    · cases h; decide
    · exact absurd h (by simp [lzwMid])
  · intro seq h; cases h; decide

theorem jobOk_midLzw : midLzw.jobOk := by
  intro c h; cases h; exact ⟨by decide, by decide, by decide, by decide, lzwMid_ok⟩

theorem jobOk_midQt : midQt.jobOk := by
  intro c h; cases h
  refine ⟨by decide, by decide, ?_, (by decide : 1 ≤ 64)⟩
  intro f hf
  simp only [qtMid, List.mem_singleton] at hf
  subst hf
  exact ⟨⟨by decide, by decide, by decide⟩, by decide⟩

theorem jobOk_midLz77_one : (midLz77 1).jobOk := by
  intro c h; cases h
  exact ⟨by decide, by decide, by decide, by decide, by decide, by decide, ⟨by decide, by decide, by decide⟩, by decide⟩

theorem jobOk_midLz77_four : (midLz77 4).jobOk := by
  intro c h; cases h
  exact ⟨by decide, by decide, by decide, by decide, by decide, by decide, ⟨by decide, by decide, by decide⟩, by decide⟩

theorem jobOk_midLz77_three : (midLz77 3).jobOk := by
  intro c h; cases h
  exact ⟨by decide, by decide, by decide, by decide, by decide, by decide, ⟨by decide, by decide, by decide⟩, by decide⟩

/-- A job just started meets the invariant. -/
def startedRle : State := started 1 [0x03, 0x41, 0x42, 0x43, 0x84, 0x5A] 7 0

theorem inv_startedRle : startedRle.Inv :=
  ⟨by decide, ⟨by decide, by decide⟩, ⟨by decide, Or.inr (Or.inl rfl), fun h => absurd rfl h⟩,
    fun c h => absurd h (by simp [startedRle, started, State.reset])⟩

theorem witness_DecodeOfEncode :
    (Ctx.wf (.lzw 12 4095 true) = true ∧ Instr.fits (.lzw 12 4095 true) (.lzwKwkwk 4095) = true) ∧
    (Ctx.wf (.qtQuadrant false 2 2) = true ∧ Instr.fits (.qtQuadrant false 2 2) (.qtLeafRaw 3) = true) ∧
    Instr.fits .command (.reserved8F 7 true true) = true := by decide

theorem witness_EncodeOfDecode : Ctx.wf (.lzw 9 257 false) = true ∧ Ctx.wf (.qtQuadrant false 1 1) = true := by decide

theorem witness_CommandDecodeUsesOpAndItsOption :
    let v : Word := 0xC1
    let w : Word := 0x31
    v.extractLsb' 0 4 = w.extractLsb' 0 4 ∧ v.extractLsb' 0 4 ≠ 4#4 ∧ v.extractLsb' 0 4 ≠ 7#4 := by decide

/-- Areas at both sides of the cap, a firstval of each kind of larger leaf, one table entry. -/
theorem witness_BitlenIsLeastWidth :
    (2 ≤ 2 ∧ 2 ≤ 256 ∧ 256 ≤ 256 ∧ 256 ≤ 257 ∧ 1 ≤ 1) ∧
    decode (.qtQuadrant false 2 2) 0xFF#32 = .ok (.qtLeafRaw 3) ∧
    decode (.qtQuadrant false 2 2) 0x14#32 = .ok (.qtLeafFill 5) ∧
    decode (.qtQuadrant false 2 2) 0x01#32 = .ok (.qtLeafIdx 1) := ⟨by decide, rfl, rfl, rfl⟩

theorem witness_BitReadIsWindow : 7 % 8 + 17 ≤ 24 := by decide

theorem witness_BitReadsAreContiguous : 8 * (started 2 [0x01] 0 0).srcLen.toNat ≤ 8 := by decide

theorem witness_ResetSetsEveryRegister :
    (∃ s : State, s.turns = [.reset] ∧ s.busy = true) ∧ ∃ s : State, s.turns = [.reset] ∧ s.busy = false :=
  ⟨⟨{ startedRle with turns := [.reset] }, by decide⟩, ⟨{ State.reset with turns := [.reset] }, by decide⟩⟩

theorem witness_FirstJobAfterReset :
    (1#4 = (0x01#32).extractLsb' 0 4) ∧ (4#4 = (0x14#32).extractLsb' 0 4) ∧ (64 ≤ Config.standard.memBytes) ∧
      ({ Config.standard with addrW := 5 }.memBytes < 64) ∧ (8#4 ≤ (0x08#32).extractLsb' 0 4) ∧
      (8#4 ≤ (0x0F#32).extractLsb' 0 4) := by decide

theorem witness_JobRegisterWriteReadsBack :
    ∃ s : State, s.busy = false ∧ s.turns = [.writeReg (s.cfg.regBase + 0x24) 4 5] ∧
      0x24 ∈ [0x08, 0x0C, 0x10, 0x14, 0x18, 0x1C, 0x20, 0x24] :=
  ⟨{ State.reset with turns := [.writeReg 0x24 4 5] }, by decide⟩

theorem witness_ReservedOffsetsReadZeroIgnoreWrites :
    (∃ s : State, s.turns = [.writeReg (s.cfg.regBase + 0x3C) 4 5]) ∧
    (∃ s : State, s.turns = [.writeReg (s.cfg.regBase + 0x04) 4 5]) ∧
    (∃ s : State, s.turns = [.readReg (s.cfg.regBase + 0x40) 4]) ∧
    ∃ s : State, 3 < s.cfg.regBase ∧ s.turns = [.writeReg 3 4 5] :=
  ⟨⟨{ State.reset with turns := [.writeReg 0x3C 4 5] }, by decide⟩,
    ⟨{ State.reset with turns := [.writeReg 0x04 4 5] }, by decide⟩,
    ⟨{ State.reset with turns := [.readReg 0x40 4] }, by decide⟩,
    ⟨{ State.reset with cfg := { Config.standard with regBase := 4 }, turns := [.writeReg 3 4 5] }, by decide⟩⟩

theorem witness_MisshapenRegisterAccessRefused :
    (∃ s : State, s.turns = [.writeReg (s.cfg.regBase + 0x08) 2 5]) ∧
      ∃ s : State, s.turns = [.readReg (s.cfg.regBase + 0x3F) 4] :=
  ⟨⟨{ State.reset with turns := [.writeReg 0x08 2 5] }, by decide⟩,
    ⟨{ State.reset with turns := [.readReg 0x3F 4] }, by decide⟩⟩

theorem witness_CmdWriteStartsJob :
    (∃ s : State, s.busy = false ∧ s.turns = [.writeReg s.cfg.regBase 4 1]) ∧
      ∃ s : State, s.busy = true ∧ s.turns = [.writeReg s.cfg.regBase 4 1] :=
  ⟨⟨{ State.reset with turns := [.writeReg 0 4 1] }, by decide⟩, ⟨{ startedRle with turns := [.writeReg 0 4 1] }, by decide⟩⟩

theorem witness_BusyIgnoresRegisterWrites :
    (∃ s : State, s.busy = true ∧ s.turns = [.writeReg (s.cfg.regBase + 0x08) 4 1]) ∧
      ∃ s : State, s.busy = true ∧ s.turns = [.readReg (s.cfg.regBase + 0x3C) 4] :=
  ⟨⟨{ startedRle with turns := [.writeReg 8 4 1] }, by decide⟩, ⟨{ startedRle with turns := [.readReg 0x3C 4] }, by decide⟩⟩

theorem witness_RegisterReadHasNoEffect :
    (∃ s : State, s.turns = [.readReg (s.cfg.regBase + 0x28) 4]) ∧
      ∃ s : State, s.turns = [.writeReg (s.cfg.regBase + 0x24) 4 1] :=
  ⟨⟨{ State.reset with turns := [.readReg 0x28 4] }, by decide⟩, ⟨{ State.reset with turns := [.writeReg 0x24 4 1] }, by decide⟩⟩

theorem witness_HostMemoryAccess :
    (∃ s : State, 0x206 < s.cfg.memBytes ∧ s.turns = [.writeMem 0x206 1] ∧ s.busy = true ∧
      ∃ r ∈ currentRegions s, r.has 0x206 = true) ∧
    (∃ s : State, 0x207 < s.cfg.memBytes ∧ s.turns = [.writeMem 0x207 1] ∧ s.busy = true ∧
      ∀ r ∈ currentRegions s, r.has 0x207 = false) ∧
    (∃ s : State, s.turns = [.readMem 0x200] ∧ s.busy = true ∧ (currentWrites s).has 0x200 = true) ∧
    ∃ s : State, s.turns = [.readMem 0x100] ∧ s.busy = true ∧ (currentWrites s).has 0x100 = false :=
  ⟨⟨{ startedRle with turns := [.writeMem 0x206 1] }, by decide⟩, ⟨{ startedRle with turns := [.writeMem 0x207 1] }, by decide⟩,
    ⟨{ startedRle with turns := [.readMem 0x200] }, by decide⟩, ⟨{ startedRle with turns := [.readMem 0x100] }, by decide⟩⟩

theorem witness_ResultIsHandedOn :
    ∃ s : State, s.busy = false ∧ readRegister 0x28 s = 7 ∧
      s.turns = [Turn.read s.cfg 0x28, Turn.write s.cfg 0x08 0x200, Turn.writeLastRead s.cfg 0x0C] :=
  ⟨{ State.reset with
      result := 7, turns := [.readReg 0x28 4, .writeReg 0x08 4 0x200, .writeRegLastRead 0x0C 4] }, by decide⟩

theorem witness_StepRunsDecodedInstruction :
    (startedRle.busy = true ∧ startedRle.codec = none ∧ startedRle.turns = []) ∧
    (midRle.busy = true ∧ midRle.codec = some (.rle ⟨3, 2⟩) ∧ fetch (.rle ⟨3, 2⟩) midRle = .token (.rleLit 3) ∧
      decode .rle (window 24 midRle) = .ok (.rleLit 3)) ∧
    (lzwMid.o ≠ midLzw.dstLen.toNat ∧ lzwMid.off + lzwMid.width ≤ 8 * midLzw.srcLen.toNat ∧
      decode (.lzw 9 258 true) (window 18 midLzw) = .ok (.lzwDict 0x101)) ∧
    (decode .qtMask (window 0 atMask) = .ok (.qtMask 0)) ∧
    (decode (.qtQuadrant false 2 2) (window 4 midQt) = .ok (.qtLeafFill 5)) ∧
    (decode .lz77Hdr (window 0 atHeader) = .ok (.lz77Hdr 0 2) ∧ 3 ≤ atHeader.srcLen.toNat) ∧
    (decode .lz77Flag (window 24 (atFlag 0 2)) = .ok (.lz77Flag 0x40)) ∧
    (decode (.lz77Decision true) (window 40 (midLz77 4)) = .ok (.lz77Bref 0 0) ∧
      lz77Last.p + 2 ≤ (midLz77 4).srcLen.toNat) :=
  ⟨by decide, ⟨by decide, rfl, rfl, rfl⟩, ⟨by decide, by decide, rfl⟩, rfl, rfl, ⟨rfl, by decide⟩, rfl, ⟨rfl, by decide⟩⟩

theorem witness_TableWordRuns : decodeTableWord 8 0x84 = some (.rleRun 4 0) := by rfl

theorem witness_IdleEngineHasNoStep : State.reset.busy = false ∧ State.reset.turns = [] := by decide

theorem witness_ValidationOrder :
    let s : State := { startedRle with dstBase := 0x105 }
    (currentJob s = some .rle ∧ validate .rle s = some .overlap) ∧ validate .rle { s with dstBase := 0x106 } = none ∧
    validate .rle { s with srcBase := 0xFFFFFFFB } = some .range ∧ currentJob { s with cmd := 8 } = none ∧
    validate (.lz77 false) { startedRle with srcLen := 2 } = some .hdr ∧
    validate (.lz77 false) { startedRle with srcBase := 0x101, srcLen := 3 } = some .tail ∧
    validate .sample { startedRle with dim := 0x00010001, xy := 0x00010000 } = some .coord := by decide

theorem witness_ErrorCompletion :
    ∃ s : State, s.Inv ∧ s.busy = true ∧ s.codec = none ∧ currentJob s = some .rle ∧
      validate .rle s = some .overlap :=
  ⟨{ startedRle with dstBase := 0x105 },
    ⟨by decide, ⟨by decide, by decide⟩, ⟨by decide, Or.inr (Or.inl rfl), fun h => absurd rfl h⟩,
      fun c h => absurd h (by simp [startedRle, started, State.reset])⟩, by decide, rfl, by decide, by decide⟩

theorem witness_RleJobPadsOrTruncates : validate .rle startedRle = none := by decide

theorem witness_RleLiteralRun : midRle.codec = some (.rle ⟨3, 2⟩) ∧ midRle.jobOk := ⟨rfl, jobOk_midRle⟩

theorem witness_RleRepeatRun : midRle.codec = some (.rle ⟨3, 2⟩) ∧ midRle.jobOk := ⟨rfl, jobOk_midRle⟩

theorem witness_LzwJobPadsOrTruncates : validate .lzw midLzw = none := by decide

theorem witness_LzwClearResets : midLzw.codec = some (.lzw lzwMid) := rfl

theorem witness_LzwCodesResolve :
    midLzw.codec = some (.lzw lzwMid) ∧ midLzw.jobOk ∧ 257 ≤ (0x101#12).toNat ∧ (0x101#12).toNat < lzwMid.next ∧
      (0x102#12).toNat = lzwMid.next ∧ lzwMid.prev = some [0x42] :=
  ⟨rfl, jobOk_midLzw, by decide, by decide, by decide, rfl⟩

theorem witness_LzwBadCodeStops : midLzw.codec = some (.lzw lzwMid) ∧ midLzw.jobOk := ⟨rfl, jobOk_midLzw⟩

theorem witness_LzwInvariantKept :
    midLzw.codec = some (.lzw lzwMid) ∧ lzwMid.ok midLzw.cfg.growOffset ∧
      ∃ t d, exec (.lzwLit 0x43) midLzw = .next t ∧ t.codec = some (.lzw d) :=
  ⟨rfl, lzwMid_ok, _, _, rfl, rfl⟩

theorem witness_QtJobIsRecursion : 3 < 4 ∧ midQt.memoryOk ∧ validate .qt midQt = none :=
  ⟨by decide, ⟨by decide, by decide⟩, by decide⟩

theorem witness_QtMaskOpensRegion :
    atMask.codec = some (.qt ⟨0, some ⟨0, 0, 4, 4⟩, []⟩) := rfl

theorem witness_QtSubdivision :
    (∃ c fs, atQuadrant { midQt1 with codec := some (.qt ⟨4, none, [{ qtFrame1 with next := 0 }]⟩) } c
      { qtFrame1 with next := 0 } fs ∧ (qtFrame1.rect.quadrant 0).w = 0) ∧
    (∃ c, atQuadrant midQt1 c qtFrame1 [] ∧ (qtFrame1.rect.quadrant 3).w ≠ 0 ∧ (qtFrame1.rect.quadrant 3).h ≠ 0 ∧
      1 + 1 ≤ midQt1.cfg.qtMaxDepth) ∧
    (∃ c, atQuadrant deepQt1 c qtFrame1 [] ∧ deepQt1.cfg.qtMaxDepth < 1 + 1) :=
  ⟨⟨_, _, ⟨rfl, rfl, rfl, by decide⟩, by decide⟩, ⟨_, ⟨rfl, rfl, rfl, by decide⟩, by decide, by decide, by decide⟩,
    ⟨_, ⟨rfl, rfl, rfl, by decide⟩, by decide⟩⟩

theorem witness_QtLeafOnePixel :
    (∃ c, atQuadrant midQt1 c qtFrame1 []) ∧ (qtFrame1.rect.quadrant 3).w = 1 ∧ (qtFrame1.rect.quadrant 3).h = 1 :=
  ⟨⟨_, rfl, rfl, rfl, by decide⟩, by decide, by decide⟩

theorem witness_QtLeaves :
    atQuadrant midQt qtMid qtFrame [] ∧ midQt.jobOk ∧ 1 ≤ (qtFrame.rect.quadrant 1).w ∧
      1 ≤ (qtFrame.rect.quadrant 1).h :=
  ⟨⟨rfl, rfl, rfl, by decide⟩, jobOk_midQt, by decide, by decide⟩

theorem witness_Lz77JobIsGroupDecoding :
    (validate (.lz77 false) (midLz77 4) = none ∧ validate (.lz77 true) (midLz77 4) = none) ∧
    (lz77Expand (lz77Remap false (midLz77 4)) lz77Stream).1.length = 4 := by decide

theorem witness_Lz77HeaderChecked :
    atHeader.codec = some (.lz77 lz77Start) ∧ (8#8).toNat ≤ 8 ∧ 8 < (9#8).toNat := ⟨rfl, by decide, by decide⟩

theorem witness_Lz77FlagStartsGroup :
    (atFlag 1 0).codec = some (.lz77 (lz77AtFlag 1 0)) ∧ (atFlag 0 1).codec = some (.lz77 (lz77AtFlag 0 1)) ∧
      (atFlag 0 0).codec = some (.lz77 (lz77AtFlag 0 0)) := ⟨rfl, rfl, rfl⟩

theorem witness_Lz77Literal :
    ((midLz77 4).codec = some (.lz77 lz77Last) ∧ lz77Last.stage = .decisions 0x40 6 1 true ∧ (midLz77 4).jobOk ∧
      lz77Last.o < (midLz77 4).dstLen.toNat) ∧
    ((midLz77 1).jobOk ∧ lz77Last.o = (midLz77 1).dstLen.toNat) :=
  ⟨⟨rfl, rfl, jobOk_midLz77_four, by decide⟩, jobOk_midLz77_one, by decide⟩

theorem witness_Lz77Backreference :
    ((midLz77 4).codec = some (.lz77 lz77Last) ∧ lz77Last.stage = .decisions 0x40 6 1 true ∧ (midLz77 4).jobOk ∧
      lz77Last.o + 3 ≤ (midLz77 4).dstLen.toNat) ∧
    ((midLz77 3).jobOk ∧ (midLz77 3).dstLen.toNat < lz77Last.o + 3) :=
  ⟨⟨rfl, rfl, jobOk_midLz77_four, by decide⟩, jobOk_midLz77_three, by decide⟩

theorem witness_NmergePixels : validate .nmerge { started 5 [0x21, 0x43] 4 0 with auxLen := 2 } = none := by decide

theorem witness_XposeTransposes : validate .xpose (started 6 [1, 2, 3] 0 0x00020002) = none := by decide

theorem witness_SampleReadsOnePixel :
    validate .sample { started 7 [1, 2] 0 0x00010002 with xy := 1 } = none ∧
    (imageRegion { started 7 [1, 2] 0 0x00010002 with dstBase := 0x100 }).inRange Config.standard = true ∧
      (started 7 [1, 2] 0 0x00010002).width ≤ ({ started 7 [1, 2] 0 0x00010002 with xy := 2 } : State).coordX := by decide

theorem witness_InvariantKeptByEveryStep : startedRle.Inv ∧ ∃ t, step startedRle = .next t := ⟨inv_startedRle, _, rfl⟩

/-- Meets the hypotheses of EngineWritesOnlyWriteRegion, EveryJobTerminates and FinerStepsReachTheJobStep together. -/
theorem witness_EngineStatements :
    startedRle.Inv ∧ startedRle.busy = true ∧ startedRle.codec = none ∧ (∃ t, engineTurn startedRle = .next t) ∧
      currentJob startedRle = some .rle :=
  ⟨inv_startedRle, by decide, rfl, ⟨_, rfl⟩, by decide⟩

theorem witness_PollSeesDone :
    (∃ s : State, s.Inv ∧ s.turns = [.poll] ∧ s.busy = true) ∧ ∃ s : State, s.Inv ∧ s.turns = [.poll] ∧ s.isDone = true :=
  ⟨⟨{ startedRle with turns := [.poll] },
      ⟨by decide, ⟨by decide, by decide⟩, ⟨by decide, Or.inr (Or.inl rfl), fun h => absurd rfl h⟩,
        fun c h => absurd h (by simp [startedRle, started, State.reset])⟩, rfl, by decide⟩,
    ⟨{ State.reset with status := statusDone false false false, turns := [.poll] },
      ⟨by decide, ⟨by decide, by decide⟩, ⟨by decide, Or.inr (Or.inr (Or.inl ⟨_, _, _, rfl⟩)), fun h => absurd rfl h⟩,
        fun c h => absurd h (by simp [State.reset])⟩, rfl, by decide⟩⟩

theorem witness_OutcomeDependsOnReadRegions :
    ∃ s u : State, currentJob s = some .rle ∧ keepsRegisters s u ∧ u.draws = s.draws ∧ u ≠ s ∧
      ∀ r ∈ readRegions .rle s, ∀ a, r.has a = true → memRead a u = memRead a s := by
  refine ⟨startedRle, memWrite 0x200 1 startedRle, by decide, by simp [keepsRegisters], rfl, by decide, ?_⟩
  intro r hr a ha
  simp only [readRegions, List.mem_singleton] at hr
  subst hr
  refine memRead_memWrite_other ?_ _ _
  rintro rfl
  exact absurd ha (by decide)

theorem witness_HostWriteCommutesWithJob :
    startedRle.Inv ∧ startedRle.busy = true ∧ 0x207 < startedRle.cfg.memBytes ∧
      ∀ r ∈ currentRegions startedRle, r.has 0x207 = false :=
  ⟨inv_startedRle, by decide, by decide, by decide⟩

end Sys2Proof.Tests
end

section
/-! PROOF. The widths of 00_scope.md R11 and 43_quadtree.md R180, R181. -/

namespace Sys2Proof

/-- 00_scope.md R11: `bitlen n` is the least k with n < 2^k. -/
theorem bitlen_le_iff (n k : Nat) : bitlen n ≤ k ↔ n < 2 ^ k := by
  unfold bitlen
  split
  · next h => simp [h]
  · next h => rw [← Nat.log2_lt h, Nat.succ_le_iff]

/-- The width that numbers 0 to n - 1 need: the least k with n ≤ 2^k. -/
theorem bitlen_pred_le_iff {n : Nat} (h : 1 ≤ n) (k : Nat) : bitlen (n - 1) ≤ k ↔ n ≤ 2 ^ k := by
  rw [bitlen_le_iff]
  omega

theorem bitcount1_eq_min (area : Nat) : bitcount1 area = min 8 (bitlen (area - 1)) := rfl

/-- A leaf of two pixels or more has a firstval of at least one bit. -/
theorem one_le_bitcount1 {area : Nat} (h : 2 ≤ area) : 1 ≤ bitcount1 area := by
  have h0 : ¬ bitlen (area - 1) ≤ 0 := by
    rw [bitlen_pred_le_iff (by omega)]
    omega
  rw [bitcount1_eq_min]
  omega

theorem two_pow_bitcount1_le (area : Nat) : 2 ^ bitcount1 area ≤ 256 :=
  Nat.pow_le_pow_right (by decide) (Laws.FitsWf.bitcount1_le area)

/-- Up to area 256 the cap of R180 does not bind. -/
theorem bitcount1_le_iff {area : Nat} (h1 : 1 ≤ area) (h2 : area ≤ 256) (k : Nat) :
    bitcount1 area ≤ k ↔ area ≤ 2 ^ k := by
  have h8 : bitlen (area - 1) ≤ 8 := (bitlen_pred_le_iff h1 8).2 h2
  rw [bitcount1_eq_min, Nat.min_eq_right h8, bitlen_pred_le_iff h1]

/-- From area 256 on the cap of R180 is reached. -/
theorem bitcount1_of_256_le {area : Nat} (h : 256 ≤ area) : bitcount1 area = 8 := by
  have h7 : ¬ bitlen (area - 1) ≤ 7 := by
    rw [bitlen_pred_le_iff (by omega)]
    omega
  rw [bitcount1_eq_min]
  omega

/-- The firstval of a leaf: the low bitcount1 bits of the stream (43_quadtree.md R180). -/
def leafFirstval (w h : Nat) (word : Word) : Nat := word.toNat % 2 ^ bitcount1 (w * h)

theorem toNat_leafFirstval (w h : Nat) (word : Word) :
    (BitVec.ofNat 8 (leafFirstval w h word)).toNat = leafFirstval w h word := by
  have h1 : leafFirstval w h word < 2 ^ bitcount1 (w * h) := Nat.mod_lt _ (Nat.two_pow_pos _)
  rw [BitVec.toNat_ofNat]
  exact Nat.mod_eq_of_lt (h1.trans_le (two_pow_bitcount1_le _))

/-- What the decoder answers at a leaf (43_quadtree.md R178), with the firstval it read. -/
theorem decodeLeaf_cases (w h : Nat) (word : Word) :
    decodeLeaf w h word = .error .emptyLeaf ∨
    (∃ v, decodeLeaf w h word = .ok (.qtLeaf1 v)) ∨
    decodeLeaf w h word = .ok (.qtLeafRaw (BitVec.ofNat 8 (leafFirstval w h word))) ∨
    (leafFirstval w h word = 0 ∧ ∃ v, decodeLeaf w h word = .ok (.qtLeafFill v)) ∨
    decodeLeaf w h word = .ok (.qtLeafIdx (BitVec.ofNat 8 (leafFirstval w h word))) := by
  by_cases he : w = 0 ∨ h = 0
  · exact .inl (Machine.decodeLeaf_empty he word)
  · refine .inr ?_
    simp only [decodeLeaf, leafFirstval, if_neg he]
    by_cases h1 : w = 1 ∧ h = 1
    · exact .inl ⟨_, if_pos h1⟩
    · refine .inr ?_
      simp only [if_neg h1]
      split
      · exact .inl rfl
      · split
        · next hf => exact .inr (.inl ⟨hf, _, rfl⟩)
        · exact .inr (.inr rfl)

/-- The firstval a larger leaf's token carries is the one the decoder read; a fill's is 0. -/
theorem decode_leaf_firstval (w h : Nat) (word : Word) :
    (∀ f, decode (.qtQuadrant false w h) word = .ok (.qtLeafRaw f) → f.toNat = leafFirstval w h word) ∧
    (∀ v, decode (.qtQuadrant false w h) word = .ok (.qtLeafFill v) → leafFirstval w h word = 0) ∧
    (∀ f, decode (.qtQuadrant false w h) word = .ok (.qtLeafIdx f) → f.toNat = leafFirstval w h word) := by
  have hn := toNat_leafFirstval w h word
  simp only [decode]
  rcases decodeLeaf_cases w h word with e | ⟨v, e⟩ | e | ⟨h0, v, e⟩ | e <;> rw [e]
  · simp
  · simp
  · simp [hn, eq_comm]
  · simp [h0]
  · simp [hn, eq_comm]

/-- Settles O5, from `bitlen_le_iff` and the decoder's cases at a leaf. -/
theorem bitlenIsLeastWidth : Obligations.BitlenIsLeastWidth := by
  unfold Obligations.BitlenIsLeastWidth
  refine ⟨fun n k => (bitlen_le_iff n k).symm, bitcount1_eq_min, fun area h => ?_, decode_leaf_firstval,
    fun _ => rfl, fun n k h => (bitlen_pred_le_iff h k).symm⟩
  exact ⟨one_le_bitcount1 h, Laws.FitsWf.bitcount1_le area, two_pow_bitcount1_le area,
    fun h2 k => (bitcount1_le_iff (by omega) h2 k).symm, bitcount1_of_256_le⟩

end Sys2Proof
end

section
/-! PROOF. Two states that a job cannot tell apart (00_scope.md R13): the same registers, the same bytes in the read regions,
the same output bytes as far as the job has written them. What they read is the same, and equal writes keep them alike. -/

namespace Sys2Proof.Machine

/-! ### Equal registers -/

section
variable {s u : State}

theorem keepsRegisters.cfg (h : keepsRegisters s u) : u.cfg = s.cfg := h.1
theorem keepsRegisters.cmd (h : keepsRegisters s u) : u.cmd = s.cmd := h.2.1

theorem keepsRegisters.srcBase (h : keepsRegisters s u) : u.srcBase = s.srcBase := by
  obtain ⟨-, -, e, -⟩ := h; exact e

theorem keepsRegisters.srcLen (h : keepsRegisters s u) : u.srcLen = s.srcLen := by
  obtain ⟨-, -, -, e, -⟩ := h; exact e

theorem keepsRegisters.dstBase (h : keepsRegisters s u) : u.dstBase = s.dstBase := by
  obtain ⟨-, -, -, -, e, -⟩ := h; exact e

theorem keepsRegisters.dstLen (h : keepsRegisters s u) : u.dstLen = s.dstLen := by
  obtain ⟨-, -, -, -, -, e, -⟩ := h; exact e

theorem keepsRegisters.auxBase (h : keepsRegisters s u) : u.auxBase = s.auxBase := by
  obtain ⟨-, -, -, -, -, -, e, -⟩ := h; exact e

theorem keepsRegisters.auxLen (h : keepsRegisters s u) : u.auxLen = s.auxLen := by
  obtain ⟨-, -, -, -, -, -, -, e, -⟩ := h; exact e

theorem keepsRegisters.dim (h : keepsRegisters s u) : u.dim = s.dim := by
  obtain ⟨-, -, -, -, -, -, -, -, e, -⟩ := h; exact e

theorem keepsRegisters.xy (h : keepsRegisters s u) : u.xy = s.xy := by
  obtain ⟨-, -, -, -, -, -, -, -, -, e, -⟩ := h; exact e

theorem keepsRegisters.width (h : keepsRegisters s u) : u.width = s.width := by simp [State.width, h.dim]
theorem keepsRegisters.height (h : keepsRegisters s u) : u.height = s.height := by simp [State.height, h.dim]
theorem keepsRegisters.coordX (h : keepsRegisters s u) : u.coordX = s.coordX := by simp [State.coordX, h.xy]
theorem keepsRegisters.coordY (h : keepsRegisters s u) : u.coordY = s.coordY := by simp [State.coordY, h.xy]

theorem keepsRegisters.outAddr (h : keepsRegisters s u) (i : Nat) : outAddr u i = outAddr s i := by
  simp [Machine.outAddr, h.dstBase]

end

/-! ### Alike states -/

/-- A job of kind `k` cannot tell `s` and `u` apart: the same registers, the same bytes in its read regions, and the same
output bytes at the positions `D`. -/
structure Alike (k : JobKind) (D : Nat → Prop) (s u : State) : Prop where
  regs : keepsRegisters s u
  source : ∀ r ∈ readRegions k s, ∀ a, r.has a = true → memRead a u = memRead a s
  made : ∀ i, D i → memRead (outAddr s i) u = memRead (outAddr s i) s

/-- A write of the same byte at the same address keeps equal what was equal. -/
theorem memRead_memWrite_congr {s u : State} {a b : Nat} (h : memRead b u = memRead b s) (v : Byte) :
    memRead b (memWrite a v u) = memRead b (memWrite a v s) := by
  by_cases e : b = a
  · subst e; simp
  · rw [memRead_memWrite_other e, memRead_memWrite_other e, h]

theorem Codec.kind_ne_sample (c : Codec) : c.kind ≠ .sample := by cases c <;> simp [Codec.kind]

namespace Alike

variable {k : JobKind} {D E : Nat → Prop} {s u : State}

theorem mono (h : Alike k D s u) (hE : ∀ i, E i → D i) : Alike k E s u :=
  ⟨h.regs, h.source, fun i hi => h.made i (hE i hi)⟩

/-- The internal codec state is no part of what a job reads. -/
theorem withCodec (h : Alike k D s u) (c c' : Option Codec) :
    Alike k D { s with codec := c } { u with codec := c' } :=
  ⟨h.regs, h.source, h.made⟩

/-! #### Writes -/

theorem write (h : Alike k D s u) (i : Nat) (v : Byte) :
    Alike k (fun j => D j ∨ j = i) (memWrite (outAddr s i) v s) (memWrite (outAddr s i) v u) where
  regs := h.regs
  source r hr a ha := memRead_memWrite_congr (h.source r hr a ha) v
  made := by
    rintro j (hj | rfl)
    · exact memRead_memWrite_congr (h.made j hj) v
    · simp

theorem out (h : Alike k D s u) (i : Nat) (v : Byte) :
    Alike k (fun j => D j ∨ j = i) (Machine.out i v s) (Machine.out i v u) := by
  unfold Machine.out
  rw [h.regs.outAddr]
  exact h.write i v

/-- One more output byte. -/
theorem outNext {o : Nat} (h : Alike k (· < o) s u) (v : Byte) :
    Alike k (· < o + 1) (Machine.out o v s) (Machine.out o v u) :=
  (h.out o v).mono fun _ hi => by omega

/-- The writing loop, where the bytes are computed from what is alike. -/
theorem writeEach (h : Alike k D s u) (pos : Nat → Nat) {val : Nat → State → Byte} (n : Nat)
    (hval : ∀ j, j < n → ∀ t v, Alike k D t v → val j v = val j t) :
    Alike k (fun i => D i ∨ ∃ j, j < n ∧ i = pos j)
      (Machine.writeEach (fun j => outAddr s (pos j)) val n s)
      (Machine.writeEach (fun j => outAddr u (pos j)) val n u) := by
  simp only [h.regs.outAddr]
  induction n with
  | zero => exact h.mono (by simp)
  | succ n ih =>
    have ih := ih fun j hj => hval j (by omega)
    have hv := hval n (by omega) _ _ (ih.mono fun _ => .inl)
    have hw := ih.write (pos n) (val n (Machine.writeEach (fun j => outAddr s (pos j)) val n s))
    have ha : outAddr (Machine.writeEach (fun j => outAddr s (pos j)) val n s) (pos n) = outAddr s (pos n) := by
      simp [outAddr]
    rw [ha] at hw
    simp only [Machine.writeEach, hv]
    refine hw.mono ?_
    rintro i (hi | ⟨j, hj, rfl⟩)
    · exact .inl (.inl hi)
    · rcases Nat.lt_succ_iff_lt_or_eq.1 hj with hj | rfl
      · exact .inl (.inr ⟨j, hj, rfl⟩)
      · exact .inr rfl

/-- The zero padding makes the whole output alike. -/
theorem padZeros {o : Nat} (h : Alike k (· < o) s u) :
    Alike k (· < s.dstLen.toNat) (Machine.padZeros o s) (Machine.padZeros o u) := by
  unfold Machine.padZeros
  rw [h.regs.dstLen]
  refine (h.writeEach (fun j => o + j) (s.dstLen.toNat - o) fun _ _ _ _ _ => rfl).mono fun i hi => ?_
  by_cases ho : i < o
  · exact .inl ho
  · exact .inr ⟨i - o, by omega, by omega⟩

/-! #### Reads -/

theorem outByte (h : Alike k D s u) {i : Nat} (hi : D i) : outByte i u = outByte i s := by
  unfold Machine.outByte
  rw [h.regs.outAddr]
  exact h.made i hi

theorem srcByte (h : Alike k D s u) (hk : k ≠ .sample) {j : Nat} (hj : j < s.srcLen.toNat) :
    srcByte j u = srcByte j s := by
  unfold Machine.srcByte
  rw [h.regs.srcBase]
  refine h.source _ (srcRegion_mem_readRegions hk s) _ ?_
  rw [Region.has_iff]
  simp only [srcRegion]
  omega

theorem srcZ (h : Alike k D s u) (hk : k ≠ .sample) (j : Nat) : srcZ j u = srcZ j s := by
  unfold Machine.srcZ
  rw [h.regs.srcLen]
  split
  · next hj => exact h.srcByte hk hj
  · rfl

theorem bitRead (h : Alike k D s u) (hk : k ≠ .sample) (off n : Nat) : bitRead off n u = bitRead off n s := by
  induction n with
  | zero => rfl
  | succ n ih => simp only [Machine.bitRead, streamBit, ih, h.srcZ hk]

theorem window (h : Alike k D s u) (hk : k ≠ .sample) (off : Nat) : window off u = window off s := by
  simp only [Machine.window, h.srcZ hk]

/-- A byte of the LZ77 colour table (44_lz77.md R206). -/
theorem ctabByte (h : Alike (.lz77 true) D s u) {j : Nat} (hj : j < lz77CtabLimit) : auxByte j u = auxByte j s := by
  unfold auxByte
  rw [h.regs.auxBase]
  refine h.source (ctabRegion s) (by simp [readRegions]) _ ?_
  rw [Region.has_iff]
  simp only [ctabRegion]
  omega

/-- A byte of the high plane (45_pixel.md R231). -/
theorem auxZ (h : Alike .nmerge D s u) (j : Nat) : auxZ j u = auxZ j s := by
  unfold Machine.auxZ auxByte
  rw [h.regs.auxLen, h.regs.auxBase]
  split
  · refine h.source ⟨s.auxBase.toNat, s.auxLen.toNat⟩ (by simp [readRegions]) _ ?_
    rw [Region.has_iff]
    simp only
    omega
  · rfl

/-- Validation (60_exceptions.md R275) reads the registers and, for LZ77, the header in the source. -/
theorem validate (h : Alike k D s u) : validate k u = validate k s := by
  obtain ⟨hr, hw, -⟩ := regions_congr h.regs k
  unfold Machine.validate
  rw [hr, hw, h.regs.cfg]
  cases k with
  | lz77 b =>
    by_cases hl : s.srcLen.toNat < 3
    · simp only [h.regs.srcLen, hl, if_true]
    · simp only [h.regs.srcLen, h.srcByte (by simp) (by omega : 2 < s.srcLen.toNat)]
  | sample => simp only [h.regs.width, h.regs.height, h.regs.coordX, h.regs.coordY]
  | rle | lzw | qt | nmerge | xpose => rfl

/-- What the engine finds at its cursor is in the source. -/
theorem fetch {c : Codec} (h : Alike c.kind D s u) : fetch c u = fetch c s := by
  have hk := c.kind_ne_sample
  have hw := h.window hk
  cases c with
  | rle c =>
    simp only [Machine.fetch, fetchRle, h.regs.dstLen, h.regs.srcLen, hw]
    by_cases hp : s.srcLen.toNat ≤ c.p
    · simp only [hp, if_true]
    · rw [h.srcByte hk (by omega)]
  | lzw c => simp only [Machine.fetch, fetchLzw, h.regs.dstLen, h.regs.srcLen, hw]
  | qt c => simp only [Machine.fetch, fetchQt, h.regs.cfg, hw]
  | lz77 c => simp only [Machine.fetch, fetchLz77, lz77Next, h.regs.srcLen, hw]

end Alike

end Sys2Proof.Machine
end

section
/-! PROOF. Two jobs that run in lockstep: the relation between the states inside a job and at its end, and that every token,
every pass between tokens and every end of a job keeps it. -/

namespace Sys2Proof.Machine

/-! ### Which output positions a job has written -/

/-- Pixels of the region that are still to be decoded: those of its quadrants from the next one on. -/
def Frame.left (f : Frame) (px py : Nat) : Prop :=
  ∃ i, f.next ≤ i ∧ i < 4 ∧ (f.rect.quadrant i).holds px py = true

/-- Pixels that are still to be decoded: those of the region whose mask is next and of the regions around it. -/
def QtState.left (c : QtState) (px py : Nat) : Prop :=
  (∃ r, c.pending = some r ∧ r.holds px py = true) ∨ ∃ f ∈ c.stack, f.left px py

/-- The output positions a quadtree job has written, in an image of `w` by `h` pixels (43_quadtree.md R187). -/
def QtState.made (c : QtState) (w h i : Nat) : Prop := i < w * h ∧ ¬ c.left (i % w) (i / w)

/-- The output positions a job has written. -/
def Codec.made (s : State) : Codec → Nat → Prop
  | .rle c => fun i => i < c.o
  | .lzw c => fun i => i < c.o
  | .qt c => c.made s.width s.height
  | .lz77 c => fun i => i < c.o

/-! ### The relation -/

/-- Both states are inside the same job, at the same place. -/
structure InJob (c : Codec) (s u : State) : Prop where
  alike : Alike c.kind (c.made s) s u
  codec : s.codec = some c
  codec' : u.codec = some c

/-- Both jobs have ended with the same outcome: STATUS, RESULT and, where there is no error, the output. -/
structure AlikeEnds (k : JobKind) (t v : State) : Prop where
  codec : t.codec = none
  codec' : v.codec = none
  status : v.status = t.status
  result : v.result = t.result
  output : t.err = 0 → ∀ a, (writeRegion k t).has a = true →
    ((∃ c, k = .lz77 c) → a < t.dstBase.toNat + t.result.toNat) → memRead a v = memRead a t

/-- The relation that every step of the two jobs keeps. -/
def JobPair (k : JobKind) (t v : State) : Prop := (∃ c, c.kind = k ∧ InJob c t v) ∨ AlikeEnds k t v

/-- Two answers of the same kind, the next states related. -/
inductive Lockstep (R : State → State → Prop) : Result → Result → Prop
  | next {t v : State} (h : R t v) : Lockstep R (.next t) (.next v)
  | fault (r : Fault) : Lockstep R (.fault r) (.fault r)
  | refused (r : Refusal) : Lockstep R (.refused r) (.refused r)

/-- The job goes on in the internal state `c`, which claims no more output than is alike. -/
theorem InJob.goOn {k : JobKind} {D : Nat → Prop} {t v : State} (h : Alike k D t v) {c : Codec} (hk : c.kind = k)
    (hD : ∀ i, c.made t i → D i) : InJob c { t with codec := some c } { v with codec := some c } := by
  subst hk
  refine ⟨(h.withCodec _ _).mono fun i hi => hD i ?_, rfl, rfl⟩
  cases c <;> exact hi

theorem JobPair.goOn {k : JobKind} {D : Nat → Prop} {t v : State} (h : Alike k D t v) {c : Codec} (hk : c.kind = k)
    (hD : ∀ i, c.made t i → D i) : JobPair k { t with codec := some c } { v with codec := some c } :=
  .inl ⟨c, hk, InJob.goOn h hk hD⟩

theorem JobError.code_ne_zero (e : JobError) : e.code ≠ 0 := by cases e <;> decide

theorem errorCompletion_err (e : JobError) (s : State) : (errorCompletion e s).err = e.code := statusWord_err ..

/-- After an error no output is promised (60_exceptions.md R272), whatever memory holds. -/
theorem AlikeEnds.error (k : JobKind) (e : JobError) (s u : State) :
    AlikeEnds k (errorCompletion e s) (errorCompletion e u) where
  codec := rfl
  codec' := rfl
  status := rfl
  result := rfl
  output h := absurd ((errorCompletion_err e s).symm.trans h) e.code_ne_zero

theorem writeRegion_base (k : JobKind) (s : State) : (writeRegion k s).base = s.dstBase.toNat := by
  cases k <;> rfl

/-- A completion with the output alike as far as the job promises it. -/
theorem AlikeEnds.complete {k : JobKind} {D : Nat → Prop} {t v : State} (h : Alike k D t v) (p i b : Bool) {n : Nat}
    (hD : ∀ j, j < (writeRegion k t).len → ((∃ c, k = .lz77 c) → j < n) → D j) :
    AlikeEnds k (complete p i b n t) (complete p i b n v) where
  codec := rfl
  codec' := rfl
  status := rfl
  result := rfl
  output := by
    intro _ a ha hl
    change (writeRegion k t).has a = true at ha
    rw [Region.has_iff, writeRegion_base] at ha
    obtain ⟨j, rfl⟩ : ∃ j, a = outAddr t j := ⟨a - t.dstBase.toNat, by simp only [outAddr]; omega⟩
    refine h.made j (hD j ?_ fun hk => ?_)
    · simp only [outAddr] at ha; omega
    · have hn := Nat.mod_le n (2 ^ 32)
      have := hl hk
      simp only [outAddr, complete_dstBase, complete_result, BitVec.toNat_ofNat] at this
      omega

/-- A completion behind the zero padding (41_rle.md R126, 42_lzw.md R152): the whole output is alike. -/
theorem AlikeEnds.padded {k : JobKind} (hk : ∀ s, writeRegion k s = dstRegion s) {o : Nat} {s u : State}
    (h : Alike k (· < o) s u) (i b : Bool) :
    AlikeEnds k (Machine.complete (decide (o < s.dstLen.toNat)) i b o (padZeros o s))
      (Machine.complete (decide (o < u.dstLen.toNat)) i b o (padZeros o u)) := by
  rw [h.regs.dstLen]
  exact .complete h.padZeros _ _ _ fun j hj _ => by simpa [hk, dstRegion] using hj

/-! ### RLE (41_rle.md) -/

/-- Both literal runs copy the same source bytes. -/
theorem rleCopy_alike (n : Nat) {c : RleState} {s u : State} (h : Alike .rle (· < c.o) s u) :
    (rleCopy n c u).1 = (rleCopy n c s).1 ∧
      Alike .rle (· < (rleCopy n c s).1.o) (rleCopy n c s).2 (rleCopy n c u).2 := by
  induction n generalizing c s u with
  | zero => exact ⟨rfl, h⟩
  | succ n ih =>
    unfold rleCopy
    rw [h.regs.dstLen, h.regs.srcLen]
    split
    · exact ⟨rfl, h⟩
    · rw [h.srcByte (by simp) (by omega)]
      exact ih (h.outNext _)

theorem rleRepeat_alike (v : Byte) (n : Nat) {c : RleState} {s u : State} (h : Alike .rle (· < c.o) s u) :
    (rleRepeat v n c u).1 = (rleRepeat v n c s).1 ∧
      Alike .rle (· < (rleRepeat v n c s).1.o) (rleRepeat v n c s).2 (rleRepeat v n c u).2 := by
  induction n generalizing c s u with
  | zero => exact ⟨rfl, h⟩
  | succ n ih =>
    unfold rleRepeat
    rw [h.regs.dstLen]
    split
    · exact ⟨rfl, h⟩
    · exact ih (h.outNext _)

theorem execRleLit_lockstep {c : Codec} {s u : State} (h : InJob c s u) (n : BitVec 7) :
    Lockstep (JobPair c.kind) (execRleLit n s) (execRleLit n u) := by
  unfold execRleLit
  rw [h.codec, h.codec']
  cases c with
  | rle c =>
    obtain ⟨e, ha⟩ := rleCopy_alike n.toNat (c := { c with p := c.p + 1 }) h.alike
    simp only [e]
    exact .next (JobPair.goOn ha rfl fun _ hi => hi)
  | lzw c | qt c | lz77 c => exact .refused _

theorem execRleRun_lockstep {c : Codec} {s u : State} (h : InJob c s u) (n : BitVec 7) (v : Byte) :
    Lockstep (JobPair c.kind) (execRleRun n v s) (execRleRun n v u) := by
  unfold execRleRun
  rw [h.codec, h.codec']
  cases c with
  | rle c =>
    obtain ⟨e, ha⟩ := rleRepeat_alike v n.toNat (c := { c with p := c.p + 2 }) h.alike
    simp only [e]
    exact .next (JobPair.goOn ha rfl fun _ hi => hi)
  | lzw c | qt c | lz77 c => exact .refused _

theorem finishRle_alike {c : RleState} {s u : State} (h : Alike .rle (· < c.o) s u) (b : Bool) :
    AlikeEnds .rle (finishRle b c s) (finishRle b c u) :=
  .padded (fun _ => rfl) h _ _

/-! ### LZW (42_lzw.md) -/

theorem lzwEmit_alike {k : JobKind} (seq : List Byte) {o : Nat} {s u : State} (h : Alike k (· < o) s u) :
    (lzwEmit seq o u).1 = (lzwEmit seq o s).1 ∧
      Alike k (· < (lzwEmit seq o s).1) (lzwEmit seq o s).2 (lzwEmit seq o u).2 := by
  induction seq generalizing o s u with
  | nil => exact ⟨rfl, h⟩
  | cons b bs ih =>
    unfold lzwEmit
    rw [h.regs.dstLen]
    split
    · exact ih (h.outNext b)
    · exact ih h

theorem lzwResolved_lockstep (seq : List Byte) {c : LzwState} {s u : State} (h : InJob (.lzw c) s u) :
    Lockstep (JobPair .lzw) (lzwResolved seq c s) (lzwResolved seq c u) := by
  obtain ⟨e, ha⟩ := lzwEmit_alike seq h.alike
  unfold lzwResolved
  simp only [e, h.alike.regs.cfg]
  refine .next (JobPair.goOn ha rfl fun i hi => ?_)
  simpa only [Codec.made, lzwInsert_o] using hi

theorem finishLzw_alike {c : LzwState} {s u : State} (h : Alike .lzw (· < c.o) s u) (i b : Bool) :
    AlikeEnds .lzw (finishLzw i b c s) (finishLzw i b c u) :=
  .padded (fun _ => rfl) h _ _

theorem execLzwClear_lockstep {c : Codec} {s u : State} (h : InJob c s u) :
    Lockstep (JobPair c.kind) (execLzwClear s) (execLzwClear u) := by
  unfold execLzwClear
  rw [h.codec, h.codec']
  cases c with
  | lzw c => exact .next (JobPair.goOn h.alike rfl fun _ hi => hi)
  | rle c | qt c | lz77 c => exact .refused _

theorem execLzwLit_lockstep {c : Codec} {s u : State} (h : InJob c s u) (b : Byte) :
    Lockstep (JobPair c.kind) (execLzwLit b s) (execLzwLit b u) := by
  unfold execLzwLit
  rw [h.codec, h.codec']
  cases c with
  | lzw c => exact lzwResolved_lockstep _ h
  | rle c | qt c | lz77 c => exact .refused _

theorem execLzwDict_lockstep {c : Codec} {s u : State} (h : InJob c s u) (code : BitVec lzwWidthMax) :
    Lockstep (JobPair c.kind) (execLzwDict code s) (execLzwDict code u) := by
  unfold execLzwDict
  rw [h.codec, h.codec']
  cases c with
  | lzw c =>
    simp only
    cases c.slot code.toNat with
    | some seq => exact lzwResolved_lockstep _ h
    | none => exact .refused _
  | rle c | qt c | lz77 c => exact .refused _

theorem execLzwKwkwk_lockstep {c : Codec} {s u : State} (h : InJob c s u) (code : BitVec lzwWidthMax) :
    Lockstep (JobPair c.kind) (execLzwKwkwk code s) (execLzwKwkwk code u) := by
  unfold execLzwKwkwk
  rw [h.codec, h.codec']
  cases c with
  | lzw c =>
    simp only
    cases c.prev with
    | some prev =>
      simp only
      split
      · exact lzwResolved_lockstep _ h
      · exact .refused _
    | none => exact .refused _
  | rle c | qt c | lz77 c => exact .refused _

theorem execLzwBad_lockstep {c : Codec} {s u : State} (h : InJob c s u) (code : BitVec lzwWidthMax) :
    Lockstep (JobPair c.kind) (execLzwBad code s) (execLzwBad code u) := by
  unfold execLzwBad
  rw [h.codec, h.codec']
  cases c with
  | lzw c => exact .next (.inr (finishLzw_alike h.alike _ _))
  | rle c | qt c | lz77 c => exact .refused _

/-! ### LZ77 (44_lz77.md) -/

/-- Two emits that come to the same: both overflow, or both leave `o` output bytes, alike. -/
inductive EmitPair (k : JobKind) : Option (Nat × State) → Option (Nat × State) → Prop
  | full : EmitPair k none none
  | wrote {o : Nat} {t v : State} (h : Alike k (· < o) t v) : EmitPair k (some (o, t)) (some (o, v))

theorem lz77Emit_alike {k : JobKind} {o : Nat} {s u : State} (h : Alike k (· < o) s u) (v : Byte) :
    EmitPair k (lz77Emit v o s) (lz77Emit v o u) := by
  unfold lz77Emit
  rw [h.regs.dstLen]
  split
  · exact .full
  · exact .wrote (h.outNext v)

/-- A copy reads output bytes that the job itself has written, or none (44_lz77.md R209). -/
theorem lz77Copy_alike {k : JobKind} (start : Int) (n j : Nat) {o : Nat} {s u : State} (h : Alike k (· < o) s u)
    (hs : start + j < o) : EmitPair k (lz77Copy start n j o s) (lz77Copy start n j o u) := by
  induction n generalizing j o s u with
  | zero => exact .wrote h
  | succ n ih =>
    have hv : (if 0 ≤ start + j then outByte (start + j).toNat u else 0) =
        if 0 ≤ start + j then outByte (start + j).toNat s else 0 := by
      split
      · exact h.outByte (by omega)
      · rfl
    simp only [lz77Copy, hv]
    by_cases hf : s.dstLen.toNat ≤ o
    · rw [lz77Emit_none hf, lz77Emit_none (by rw [h.regs.dstLen]; exact hf)]
      exact .full
    · rw [lz77Emit_some (by omega), lz77Emit_some (by rw [h.regs.dstLen]; omega)]
      exact ih (j + 1) (h.outNext _) (by push_cast; omega)

theorem lz77Decided_lockstep {c : Lz77State} {e e' : Option (Nat × State)} (h : EmitPair (.lz77 c.ctab) e e')
    (n : Nat) (s u : State) : Lockstep (JobPair (.lz77 c.ctab)) (lz77Decided n c e s) (lz77Decided n c e' u) := by
  cases h with
  | full => exact .next (.inr (.error ..))
  | wrote h => exact .next (JobPair.goOn h rfl fun _ hi => hi)

theorem lz77Literal_alike {b : Bool} {D : Nat → Prop} {s u : State} (h : Alike (.lz77 b) D s u) (v : Byte) :
    lz77Literal b v u = lz77Literal b v s := by
  unfold lz77Literal
  split
  · next hb =>
    obtain ⟨rfl, hv⟩ := hb
    exact h.ctabByte hv
  · rfl

theorem execLz77Hdr_lockstep {c : Codec} {s u : State} (h : InJob c s u) (g : BitVec 16) (tail : Byte) :
    Lockstep (JobPair c.kind) (execLz77Hdr g tail s) (execLz77Hdr g tail u) := by
  unfold execLz77Hdr
  rw [h.codec, h.codec']
  cases c with
  | lz77 c =>
    simp only
    split
    · exact .next (.inr (.error ..))
    · exact .next (JobPair.goOn h.alike rfl fun _ hi => hi)
  | rle c | lzw c | qt c => exact .refused _

theorem execLz77Flag_lockstep {c : Codec} {s u : State} (h : InJob c s u) (flags : Byte) :
    Lockstep (JobPair c.kind) (execLz77Flag flags s) (execLz77Flag flags u) := by
  unfold execLz77Flag
  rw [h.codec, h.codec']
  cases c with
  | lz77 c =>
    simp only
    split
    · exact .next (JobPair.goOn h.alike rfl fun _ hi => hi)
    · exact .next (JobPair.goOn h.alike rfl fun _ hi => hi)
  | rle c | lzw c | qt c => exact .refused _

theorem execLz77Lit_lockstep {c : Codec} {s u : State} (h : InJob c s u) (b : Byte) :
    Lockstep (JobPair c.kind) (execLz77Lit b s) (execLz77Lit b u) := by
  unfold execLz77Lit
  rw [h.codec, h.codec']
  cases c with
  | lz77 c =>
    simp only [lz77Literal_alike h.alike]
    exact lz77Decided_lockstep (lz77Emit_alike h.alike _) ..
  | rle c | lzw c | qt c => exact .refused _

theorem execLz77Bref_lockstep {c : Codec} {s u : State} (h : InJob c s u) (len : BitVec lz77LenBits)
    (dist : BitVec lz77DistBits) : Lockstep (JobPair c.kind) (execLz77Bref len dist s) (execLz77Bref len dist u) := by
  unfold execLz77Bref
  rw [h.codec, h.codec']
  cases c with
  | lz77 c => exact lz77Decided_lockstep (lz77Copy_alike _ _ 0 h.alike (by omega)) ..
  | rle c | lzw c | qt c => exact .refused _

theorem finishLz77_alike {c : Lz77State} {s u : State} (h : Alike (.lz77 c.ctab) (· < c.o) s u) (b : Bool) :
    AlikeEnds (.lz77 c.ctab) (finishLz77 b c s) (finishLz77 b c u) :=
  .complete h _ _ _ fun _ _ hj => hj ⟨_, rfl⟩

end Sys2Proof.Machine
end

section
/-! PROOF. Quadtree jobs in lockstep (43_quadtree.md): what is still to be decoded, and that a job that ends without an error
has written every pixel of the image. -/

namespace Sys2Proof.Machine

/-! ### What is still to be decoded -/

theorem Rect.not_holds_of_isEmpty {r : Rect} (h : r.isEmpty = true) (px py : Nat) : r.holds px py = false := by
  rw [Rect.isEmpty_iff] at h
  rw [← Bool.not_eq_true, Rect.holds_iff]
  omega

/-- The quadrants of a region cover it (43_quadtree.md R175). -/
theorem Rect.exists_quadrant_holds {r : Rect} {px py : Nat} (h : r.holds px py = true) :
    ∃ i, i < 4 ∧ (r.quadrant i).holds px py = true := by
  rw [Rect.holds_iff] at h
  by_cases hx : px < r.x + r.w / 2
  · by_cases hy : py < r.y + r.h / 2
    · exact ⟨0, by decide, by rw [Rect.holds_iff, Rect.quadrant_zero]; simp only; omega⟩
    · exact ⟨2, by decide, by rw [Rect.holds_iff, Rect.quadrant_two]; simp only; omega⟩
  · by_cases hy : py < r.y + r.h / 2
    · exact ⟨1, by decide, by rw [Rect.holds_iff, Rect.quadrant_one]; simp only; omega⟩
    · exact ⟨3, by decide, by rw [Rect.holds_iff, Rect.quadrant_three]; simp only; omega⟩

/-- A leaf's column-major order reaches each of its pixels (43_quadtree.md R183). -/
theorem exists_leafIndex {q : Rect} {px py : Nat} (h : q.holds px py = true) (imageW : Nat) :
    ∃ k, k < q.w * q.h ∧ leafIndex q imageW k = py * imageW + px := by
  rw [Rect.holds_iff] at h
  obtain ⟨h1, h2, h3, h4⟩ := h
  obtain ⟨dx, rfl⟩ := Nat.exists_eq_add_of_le h1
  obtain ⟨dy, rfl⟩ := Nat.exists_eq_add_of_le h3
  have hdy : dy < q.h := by omega
  refine ⟨q.h * dx + dy, ?_, ?_⟩
  · calc q.h * dx + dy < q.h * (dx + 1) := by rw [Nat.mul_add]; omega
      _ ≤ q.h * q.w := Nat.mul_le_mul_left _ (by omega)
      _ = q.w * q.h := Nat.mul_comm ..
  · rw [leafIndex, Nat.mul_add_mod, Nat.mod_eq_of_lt hdy, Nat.mul_add_div (by omega), Nat.div_eq_of_lt hdy, Nat.add_zero]

/-- What a region leaves is in its next quadrant or in those behind it. -/
theorem Frame.left_next {f : Frame} {px py : Nat} (h : f.left px py) :
    (f.next < 4 ∧ (f.rect.quadrant f.next).holds px py = true) ∨ Frame.left { f with next := f.next + 1 } px py := by
  obtain ⟨i, h1, h2, h3⟩ := h
  rcases Nat.eq_or_lt_of_le h1 with rfl | h1
  · exact .inl ⟨h2, h3⟩
  · exact .inr ⟨i, h1, h2, h3⟩

theorem QtState.left_of_stack {c : QtState} (hp : c.pending = none) {f : Frame} {fs : List Frame}
    (hs : c.stack = f :: fs) {px py : Nat} (h : c.left px py) : f.left px py ∨ ∃ g ∈ fs, g.left px py := by
  rcases h with ⟨r, hr, _⟩ | ⟨g, hg, hl⟩
  · rw [hp] at hr
    cases hr
  · rw [hs, List.mem_cons] at hg
    rcases hg with rfl | hg
    · exact .inl hl
    · exact .inr ⟨g, hg, hl⟩

/-- With no mask awaited and no region open, no pixel is left to decode. -/
theorem QtState.not_left {c : QtState} (hp : c.pending = none) (hs : c.stack = []) (px py : Nat) : ¬ c.left px py := by
  rintro (⟨r, hr, _⟩ | ⟨f, hf, _⟩)
  · rw [hp] at hr
    cases hr
  · rw [hs] at hf
    cases hf

/-- The less is left to decode, the more has been written. -/
theorem QtState.made_mono {c c' : QtState} (h : ∀ px py, c.left px py → c'.left px py) (imageW imageH i : Nat)
    (hi : c'.made imageW imageH i) : c.made imageW imageH i :=
  ⟨hi.1, fun hl => hi.2 (h _ _ hl)⟩

/-! ### The quadrant a job stands at -/

theorem qtTurn_alike {c : Codec} {s u : State} (h : InJob c s u) : qtTurn u = qtTurn s := by
  simp only [qtTurn, h.codec, h.codec']

/-- What is known of the quadrant a job stands at. -/
theorem qtTurn_some {s : State} {t : QtTurn} (h : qtTurn s = some t) :
    s.codec = some (.qt t.c) ∧ t.c.pending = none ∧ t.c.stack = t.frame :: t.outer ∧
      t.quad = t.frame.rect.quadrant t.frame.next := by
  unfold qtTurn at h
  split at h
  · next c hc =>
    split at h
    · next f fs hp hs =>
      split at h
      · cases h
        exact ⟨hc, hp, hs, rfl⟩
      · cases h
    · cases h
    · cases h
  · cases h
  · cases h
  · cases h
  · cases h

/-- What is to be decoded at a quadrant is in it or is left behind it. -/
theorem QtTurn.left_advance {s : State} {t : QtTurn} (h : qtTurn s = some t) (off : Nat) {px py : Nat}
    (hl : t.c.left px py) : t.quad.holds px py = true ∨ (t.advance off).left px py := by
  obtain ⟨-, hp, hs, hq⟩ := qtTurn_some h
  rcases QtState.left_of_stack hp hs hl with hf | ⟨g, hg, hl⟩
  · rcases Frame.left_next hf with ⟨-, hn⟩ | hf
    · exact .inl (by rw [hq]; exact hn)
    · exact .inr (.inr ⟨_, List.mem_cons_self, hf⟩)
  · exact .inr (.inr ⟨g, List.mem_cons_of_mem _ hg, hl⟩)

/-! ### Tokens -/

theorem Alike.qtPutLeaf {D : Nat → Prop} {s u : State} (h : Alike .qt D s u) (q : Rect) {val : Nat → State → Byte}
    (hval : ∀ j t v, Alike .qt D t v → val j v = val j t) :
    Alike .qt (fun i => D i ∨ ∃ k, k < q.w * q.h ∧ i = leafIndex q s.width k)
      (Machine.qtPutLeaf q val s) (Machine.qtPutLeaf q val u) := by
  unfold Machine.qtPutLeaf
  rw [h.regs.width]
  exact h.writeEach (leafIndex q s.width) (q.w * q.h) fun j _ => hval j

/-- A leaf whose values are read from the stream alone. -/
theorem qtLeaf_lockstep {c : Codec} {s u : State} (h : InJob c s u) (bits : QtTurn → Nat)
    {val : QtTurn → Nat → State → Byte}
    (hval : ∀ (D : Nat → Prop) turn j t v, Alike .qt D t v → val turn j v = val turn j t) :
    Lockstep (JobPair c.kind) (qtLeaf bits val s) (qtLeaf bits val u) := by
  unfold qtLeaf
  rw [qtTurn_alike h]
  cases ht : qtTurn s with
  | none => exact .refused _
  | some t =>
    obtain rfl : c = .qt t.c := Option.some.inj (h.codec.symm.trans (qtTurn_some ht).1)
    refine .next (JobPair.goOn (h.alike.qtPutLeaf t.quad fun j => hval _ t j) rfl fun i hi => ?_)
    have hw : (Machine.qtPutLeaf t.quad (val t) s).width = s.width ∧
        (Machine.qtPutLeaf t.quad (val t) s).height = s.height := by
      simp [Machine.qtPutLeaf, State.width, State.height]
    simp only [Codec.made, hw] at hi ⊢
    by_cases hl : t.c.left (i % s.width) (i / s.width)
    · rcases QtTurn.left_advance ht (t.c.off + bits t) hl with hq | hl
      · obtain ⟨k, hk, e⟩ := exists_leafIndex hq s.width
        exact .inr ⟨k, hk, by rw [e, Nat.div_add_mod']⟩
      · exact absurd hl hi.2
    · exact .inl ⟨hi.1, hl⟩

/-- A leaf's local table is read from the stream (43_quadtree.md R185). -/
theorem Alike.qtTable {k : JobKind} {D : Nat → Prop} {s u : State} (h : Alike k D s u) (hk : k ≠ .sample)
    (off count : Nat) : qtTable off count u = qtTable off count s := by
  simp only [Machine.qtTable, h.bitRead hk]

theorem execQtLeafIdx_lockstep {c : Codec} {s u : State} (h : InJob c s u) (f : Byte) :
    Lockstep (JobPair c.kind) (execQtLeafIdx f s) (execQtLeafIdx f u) := by
  simp only [execQtLeafIdx, h.alike.qtTable c.kind_ne_sample]
  exact qtLeaf_lockstep h _ fun _ _ _ _ _ ha => by rw [ha.bitRead (by simp)]

theorem execQtMask_lockstep {c : Codec} {s u : State} (h : InJob c s u) (mask : BitVec qtMaskBits) :
    Lockstep (JobPair c.kind) (execQtMask mask s) (execQtMask mask u) := by
  unfold execQtMask
  rw [h.codec, h.codec']
  cases c with
  | qt c =>
    simp only
    cases hp : c.pending with
    | none => exact .refused _
    | some r =>
      refine .next (JobPair.goOn h.alike rfl (QtState.made_mono ?_ _ _))
      rintro px py (⟨r', hr', hh⟩ | ⟨f, hf, hl⟩)
      · cases hp.symm.trans hr'
        obtain ⟨i, h4, hi⟩ := Rect.exists_quadrant_holds hh
        exact .inr ⟨_, List.mem_cons_self, i, Nat.zero_le _, h4, hi⟩
      · exact .inr ⟨f, List.mem_cons_of_mem _ hf, hl⟩
  | rle c | lzw c | lz77 c => exact .refused _

/-- An entry into a region (43_quadtree.md R172 to R174), where all but the region and what `c` has to decode is alike. -/
theorem qtEntered_alike {D : Nat → Prop} {s u : State} (h : Alike .qt D s u) (maxDepth : Nat) {r : Rect} {c : QtState}
    (hp : c.pending = none)
    (hD : ∀ i, i < s.width * s.height → r.holds (i % s.width) (i / s.width) = false →
      ¬ c.left (i % s.width) (i / s.width) → D i) :
    JobPair .qt (qtEntered (qtEnter maxDepth r c) s) (qtEntered (qtEnter maxDepth r c) u) := by
  rcases qtEnter_cases maxDepth r c with ⟨he, e⟩ | ⟨_, _, e⟩ | ⟨_, _, e⟩ <;> rw [e]
  · exact JobPair.goOn h rfl fun i hi => hD i hi.1 (Rect.not_holds_of_isEmpty he _ _) hi.2
  · exact .inr (.error ..)
  · refine JobPair.goOn h rfl fun i hi => hD i hi.1 ?_ fun hl => hi.2 ?_
    · exact Bool.eq_false_iff.2 fun hh => hi.2 (.inl ⟨r, rfl, hh⟩)
    · rcases hl with ⟨r', hr', _⟩ | hl
      · cases hp.symm.trans hr'
      · exact .inr hl

theorem execQtSub_lockstep {c : Codec} {s u : State} (h : InJob c s u) :
    Lockstep (JobPair c.kind) (execQtSub s) (execQtSub u) := by
  unfold execQtSub
  rw [qtTurn_alike h, h.alike.regs.cfg]
  cases ht : qtTurn s with
  | none => exact .refused _
  | some t =>
    obtain ⟨hc, hp, -, -⟩ := qtTurn_some ht
    obtain rfl : c = .qt t.c := Option.some.inj (h.codec.symm.trans hc)
    refine .next (qtEntered_alike h.alike _ (by simpa [QtTurn.advance] using hp) fun i hi hq hl => ⟨hi, fun hl' => ?_⟩)
    rcases QtTurn.left_advance ht t.c.off hl' with h' | h'
    · rw [hq] at h'
      cases h'
    · exact hl h'

/-! ### Between tokens, and the end -/

theorem decoded_ne_finish (ctx : Ctx) (w : Word) (b : Bool) : decoded ctx w ≠ .finish b := by
  unfold decoded
  split <;> simp

/-- A quadtree job ends where nothing is left to decode. -/
theorem fetchQt_finish {c : QtState} {s : State} {b : Bool} (h : fetchQt c s = .finish b) :
    c.pending = none ∧ c.stack = [] := by
  unfold fetchQt at h
  split at h
  · exact (decoded_ne_finish _ _ _ h).elim
  · next hp hs => exact ⟨hp, hs⟩
  · split at h
    · exact (decoded_ne_finish _ _ _ h).elim
    · cases h

/-- A quadtree job passes a quadrant only where it is empty (43_quadtree.md R173). -/
theorem fetchQt_skip {c : QtState} {s : State} (h : fetchQt c s = .skip) :
    c.pending = none ∧ ∃ f fs, c.stack = f :: fs ∧ (f.next < 4 → (f.rect.quadrant f.next).isEmpty = true) := by
  unfold fetchQt at h
  split at h
  · cases h
  · cases h
  · next f fs hp hs =>
    refine ⟨hp, f, fs, hs, fun hf => ?_⟩
    rw [if_pos hf] at h
    cases hb : maskBit s.cfg.maskOrder f.mask f.next with
    | true =>
      rw [hb] at h
      cases h
    | false =>
      rw [hb] at h
      by_contra he
      rw [Rect.isEmpty_iff, not_or] at he
      simp only [decoded, decode] at h
      rcases decodeLeaf_token he.1 he.2 (window c.off s) with ⟨v, e⟩ | ⟨v, e⟩ | ⟨v, e⟩ | ⟨v, e⟩ <;>
        · rw [e] at h
          cases h

theorem qtSkip_alike {c : QtState} {s u : State} (h : InJob (.qt c) s u) (hf : fetchQt c s = .skip) :
    JobPair .qt (skip (.qt c) s) (skip (.qt c) u) := by
  obtain ⟨hp, f, fs, hs, he⟩ := fetchQt_skip hf
  refine JobPair.goOn h.alike rfl (QtState.made_mono (fun px py hl => ?_) _ _)
  simp only [qtSkip, hs]
  rcases QtState.left_of_stack hp hs hl with hl | ⟨g, hg, hl⟩
  · rcases Frame.left_next hl with ⟨h4, hh⟩ | hn
    · rw [Rect.not_holds_of_isEmpty (he h4)] at hh
      cases hh
    · obtain ⟨i, h1, h2, h3⟩ := hn
      have h4 : f.next < 4 := by simp only at h1; omega
      rw [if_pos h4]
      exact .inr ⟨_, List.mem_cons_self, i, h1, h2, h3⟩
  · split
    · exact .inr ⟨g, List.mem_cons_of_mem _ hg, hl⟩
    · exact .inr ⟨g, hg, hl⟩

theorem finishQt_alike {c : QtState} {s u : State} (h : InJob (.qt c) s u) {b : Bool} (hf : fetchQt c s = .finish b) :
    AlikeEnds .qt (finishQt c s) (finishQt c u) := by
  obtain ⟨hp, hs⟩ := fetchQt_finish hf
  unfold finishQt
  rw [h.alike.regs.srcLen]
  exact .complete h.alike _ _ _ fun j hj _ => ⟨hj, QtState.not_left hp hs _ _⟩

end Sys2Proof.Machine
end

section
/-! PROOF. Whole jobs in lockstep (10_state.md R40), and that the outcome of a job depends on its registers and its read
regions alone (00_scope.md R13). -/

namespace Sys2Proof.Machine

/-! ### Token steps -/

theorem execToken_lockstep {c : Codec} {s u : State} (h : InJob c s u) (i : Instr) :
    Lockstep (JobPair c.kind) (execToken i s) (execToken i u) := by
  cases i with
  | rleLit n => exact execRleLit_lockstep h n
  | rleRun n v => exact execRleRun_lockstep h n v
  | lzwClear => exact execLzwClear_lockstep h
  | lzwLit b => exact execLzwLit_lockstep h b
  | lzwDict code => exact execLzwDict_lockstep h code
  | lzwKwkwk code => exact execLzwKwkwk_lockstep h code
  | lzwBad code => exact execLzwBad_lockstep h code
  | qtMask mask => exact execQtMask_lockstep h mask
  | qtSub => exact execQtSub_lockstep h
  | qtLeaf1 v => exact qtLeaf_lockstep h _ fun _ _ _ _ _ _ => rfl
  | qtLeafRaw f => exact qtLeaf_lockstep h _ fun _ _ _ _ _ ha => by rw [ha.bitRead (by simp)]
  | qtLeafFill v => exact qtLeaf_lockstep h _ fun _ _ _ _ _ _ => rfl
  | qtLeafIdx f => exact execQtLeafIdx_lockstep h f
  | lz77Hdr g tail => exact execLz77Hdr_lockstep h g tail
  | lz77Flag flags => exact execLz77Flag_lockstep h flags
  | lz77Lit b => exact execLz77Lit_lockstep h b
  | lz77Bref len dist => exact execLz77Bref_lockstep h len dist
  | rle | lzw | qt | lz77 | lz77Ct | nmerge | xpose | sample | sampleMir | reserved0 | reserved8F => exact .refused _

theorem skip_alike {c : Codec} {s u : State} (h : InJob c s u) (hf : fetch c s = .skip) :
    JobPair c.kind (skip c s) (skip c u) := by
  cases c with
  | qt c => exact qtSkip_alike h hf
  | rle c | lzw c | lz77 c => exact .inl ⟨_, rfl, h⟩

theorem finish_alike {c : Codec} {s u : State} (h : InJob c s u) {b : Bool} (hf : fetch c s = .finish b) :
    AlikeEnds c.kind (finish b c s) (finish b c u) := by
  cases c with
  | rle c => exact finishRle_alike h.alike b
  | lzw c => exact finishLzw_alike h.alike b false
  | qt c => exact finishQt_alike h hf
  | lz77 c => exact finishLz77_alike h.alike b

/-- The engine finds the same in both jobs, and what it does there keeps them in lockstep. -/
theorem tokenStep_lockstep {c : Codec} {s u : State} (h : InJob c s u) :
    Lockstep (JobPair c.kind) (tokenStep execToken c s) (tokenStep execToken c u) := by
  unfold tokenStep
  rw [h.alike.fetch]
  cases hf : fetch c s with
  | token i => exact execToken_lockstep h i
  | skip => exact .next (skip_alike h hf)
  | finish b => exact .next (.inr (finish_alike h hf))
  | fail e => exact .next (.inr (.error ..))

theorem runTokens_ended (fuel : Nat) {s : State} (h : s.codec = none) : runTokens fuel s = .next s := by
  cases fuel with
  | zero => rfl
  | succ fuel => simp only [runTokens, h]

theorem runTokens_lockstep {k : JobKind} (fuel : Nat) {s u : State} (h : JobPair k s u) :
    Lockstep (JobPair k) (runTokens fuel s) (runTokens fuel u) := by
  induction fuel generalizing s u with
  | zero => exact .next h
  | succ fuel ih =>
    rcases h with ⟨c, rfl, hj⟩ | he
    · have hstep := tokenStep_lockstep hj
      simp only [runTokens, hj.codec, hj.codec']
      generalize tokenStep execToken c s = r at hstep ⊢
      generalize tokenStep execToken c u = r' at hstep ⊢
      cases hstep with
      | next hp => exact ih hp
      | fault e => exact .fault e
      | refused e => exact .refused e
    · rw [runTokens_ended _ he.codec, runTokens_ended _ he.codec']
      exact .next (.inr he)

/-! ### Jobs -/

/-- Validation answers the same in both states, so the job is refused in both or runs in both. -/
theorem validated_lockstep {k : JobKind} {D : Nat → Prop} {run run' : State → Result} {s u : State}
    (h : Alike k D s u) (hrun : validate k s = none → Lockstep (JobPair k) (run s) (run' u)) :
    Lockstep (JobPair k) (validated k run s) (validated k run' u) := by
  unfold validated
  rw [h.validate]
  cases hv : validate k s with
  | some e => exact .next (.inr (.error ..))
  | none => exact hrun hv

theorem execRle_lockstep {D : Nat → Prop} {s u : State} (h : Alike .rle D s u) :
    Lockstep (JobPair .rle) (execRle s) (execRle u) := by
  refine validated_lockstep h fun _ => ?_
  simp only [rleFuel, h.regs.srcLen]
  exact runTokens_lockstep _ (JobPair.goOn h rfl fun i hi => absurd hi (Nat.not_lt_zero i))

theorem execLzw_lockstep {D : Nat → Prop} {s u : State} (h : Alike .lzw D s u) :
    Lockstep (JobPair .lzw) (execLzw s) (execLzw u) := by
  refine validated_lockstep h fun _ => ?_
  simp only [lzwFuel, h.regs.srcLen]
  exact runTokens_lockstep _ (JobPair.goOn h rfl fun i hi => absurd hi (Nat.not_lt_zero i))

/-- LZ77 with and without the colour table (44_lz77.md R203, R206). -/
theorem lz77Job_lockstep {b : Bool} {D : Nat → Prop} {s u : State} (h : Alike (.lz77 b) D s u) :
    Lockstep (JobPair (.lz77 b))
      (validated (.lz77 b) (fun s => runTokens (lz77Fuel s) (openLz77 b s)) s)
      (validated (.lz77 b) (fun s => runTokens (lz77Fuel s) (openLz77 b s)) u) := by
  refine validated_lockstep h fun _ => ?_
  simp only [lz77Fuel, h.regs.srcLen]
  exact runTokens_lockstep _ (JobPair.goOn h rfl fun i hi => absurd hi (Nat.not_lt_zero i))

/-- Every output position of an image is a pixel of it. -/
theorem image_holds {w h i : Nat} (hi : i < w * h) : Rect.holds ⟨0, 0, w, h⟩ (i % w) (i / w) = true := by
  have hw : 0 < w := Nat.pos_of_mul_pos_right (Nat.zero_lt_of_lt hi)
  have hx := Nat.mod_lt i hw
  have hy := Nat.div_lt_of_lt_mul hi
  rw [Rect.holds_iff]
  simp only [Nat.zero_add]
  exact ⟨Nat.zero_le _, hx, Nat.zero_le _, hy⟩

theorem execQt_lockstep {D : Nat → Prop} {s u : State} (h : Alike .qt D s u) :
    Lockstep (JobPair .qt) (execQt s) (execQt u) := by
  refine validated_lockstep h fun _ => ?_
  simp only [qtFuel, openQt, h.regs.width, h.regs.height, h.regs.cfg]
  refine runTokens_lockstep _ (qtEntered_alike h _ rfl fun i hi hh _ => ?_)
  rw [image_holds hi] at hh
  cases hh

theorem execNmerge_lockstep {D : Nat → Prop} {s u : State} (h : Alike .nmerge D s u) :
    Lockstep (JobPair .nmerge) (execNmerge s) (execNmerge u) := by
  refine validated_lockstep h fun _ => ?_
  simp only [h.regs.dstLen]
  have hw := h.writeEach id (val := mergedPixel) s.dstLen.toNat fun j _ t v ha => by
    simp only [mergedPixel, ha.srcZ (by simp), ha.auxZ]
  exact .next (.inr (.complete hw _ _ _ fun j hj _ =>
    .inr ⟨j, by simpa [writeRegion, dstRegion] using hj, rfl⟩))

theorem execXpose_lockstep {D : Nat → Prop} {s u : State} (h : Alike .xpose D s u) :
    Lockstep (JobPair .xpose) (execXpose s) (execXpose u) := by
  refine validated_lockstep h fun _ => ?_
  simp only [h.regs.width, h.regs.height]
  have hw := h.writeEach id (val := transposedPixel s.width s.height) (s.width * s.height) fun j _ t v ha => by
    simp only [transposedPixel, ha.srcZ (by simp)]
  exact .next (.inr (.complete hw _ _ _ fun j hj _ =>
    .inr ⟨j, by simpa [writeRegion, imageRegion, State.width, State.height] using hj, rfl⟩))

/-- A validated SAMPLE names a pixel of its image (60_exceptions.md R275). -/
theorem validate_sample {s : State} (h : validate .sample s = none) :
    s.coordX < s.width ∧ s.coordY < s.height := by
  unfold validate at h
  split at h
  · cases h
  · split at h
    · cases h
    · simp only at h
      split at h
      · cases h
      · omega

/-- The byte that SAMPLE reads is a pixel of the image, which is its read region (45_pixel.md R242). -/
theorem sampleAt_alike {D : Nat → Prop} {s u : State} (h : Alike .sample D s u) {x : Nat} (hx : x < s.width)
    (hy : s.coordY < s.height) : AlikeEnds .sample (sampleAt x s) (sampleAt x u) := by
  have hpix : s.coordY * s.width + x < s.width * s.height := by
    calc s.coordY * s.width + x < (s.coordY + 1) * s.width := by rw [Nat.succ_mul]; omega
      _ ≤ s.height * s.width := Nat.mul_le_mul_right _ hy
      _ = s.width * s.height := Nat.mul_comm ..
  have hread : memRead (s.srcBase.toNat + (s.coordY * s.width + x)) u =
      memRead (s.srcBase.toNat + (s.coordY * s.width + x)) s := by
    refine h.source ⟨s.srcBase.toNat, s.width * s.height⟩ (by simp [readRegions]) _ ?_
    rw [Region.has_iff]
    simp only
    omega
  unfold sampleAt
  rw [h.regs.srcBase, h.regs.coordY, h.regs.width, hread]
  exact .complete h _ _ _ fun j hj _ => absurd hj (Nat.not_lt_zero j)

theorem execSample_lockstep {D : Nat → Prop} {s u : State} (h : Alike .sample D s u) :
    Lockstep (JobPair .sample) (execSample s) (execSample u) := by
  refine validated_lockstep h fun hv => ?_
  obtain ⟨hx, hy⟩ := validate_sample hv
  rw [h.regs.coordX]
  exact .next (.inr (sampleAt_alike h hx hy))

theorem execSampleMir_lockstep {D : Nat → Prop} {s u : State} (h : Alike .sample D s u) :
    Lockstep (JobPair .sample) (execSampleMir s) (execSampleMir u) := by
  refine validated_lockstep h fun hv => ?_
  obtain ⟨hx, hy⟩ := validate_sample hv
  rw [h.regs.coordX, h.regs.width]
  exact .next (.inr (sampleAt_alike h (by omega) hy))

/-- The job step of a command, run in two states its job cannot tell apart. -/
theorem exec_lockstep {i : Instr} {k : JobKind} (hk : jobKind i = some k) {D : Nat → Prop} {s u : State}
    (h : Alike k D s u) : Lockstep (JobPair k) (exec i s) (exec i u) := by
  cases i <;> simp only [jobKind, Option.some.injEq, reduceCtorEq] at hk <;> subst hk
  case rle => exact execRle_lockstep h
  case lzw => exact execLzw_lockstep h
  case qt => exact execQt_lockstep h
  case lz77 => exact lz77Job_lockstep h
  case lz77Ct => exact lz77Job_lockstep h
  case nmerge => exact execNmerge_lockstep h
  case xpose => exact execXpose_lockstep h
  case sample => exact execSample_lockstep h
  case sampleMir => exact execSampleMir_lockstep h

/-- A job that has ended in one of two runs in lockstep has ended alike in the other. -/
theorem Lockstep.ended {k : JobKind} {r r' : Result} (h : Lockstep (JobPair k) r r') {t : State} (hr : r = .next t)
    (ht : t.codec = none) : ∃ v, r' = .next v ∧ AlikeEnds k t v := by
  subst hr
  cases h with
  | next hp =>
    rcases hp with ⟨c, -, hj⟩ | he
    · cases ht.symm.trans hj.codec
    · exact ⟨_, rfl, he⟩

/-- Settles O57: the two jobs run in lockstep, the states alike on the registers, the read regions and the output bytes
written so far; and a job that succeeds has written its whole write region (LZ77: RESULT bytes of it). The count of drawn
bytes plays no part, since bytes are drawn only where the job fails. -/
theorem outcomeDependsOnReadRegions : Obligations.OutcomeDependsOnReadRegions := by
  unfold Obligations.OutcomeDependsOnReadRegions
  intro s u k hk hregs _ hread
  have halike : Alike k (fun _ => False) s u := ⟨hregs, hread, fun _ h => h.elim⟩
  obtain ⟨t, ht, heff⟩ := exec_command_spec hk
  obtain ⟨v, hv, hends⟩ := (exec_lockstep hk halike).ended ht heff.codec
  refine ⟨t, v, ht, by rw [hregs.cmd]; exact hv, hends.status, hends.result, fun herr a ha hl => ?_⟩
  refine hends.output herr a (by rw [writeRegion_congr heff.regs]; exact ha) fun hlz => ?_
  rw [heff.regs.dstBase]
  exact hl hlz

end Sys2Proof.Machine
end

section
/-! PROOF. The invariant of the machine holds at reset and every step keeps it: the host's acts, the engine's job step and its
finer steps (10_state.md R24 to R28, R42 to R46, R49). -/

namespace Sys2Proof.Machine

/-! ### What the invariant asks -/

/-- Among the words the rules give STATUS, BUSY is set in the started one alone (10_state.md R26, R27). -/
theorem State.controlOk.started {s : State} (h : s.controlOk) (hb : s.busy = true) : s.status = statusStarted := by
  obtain ⟨-, hst, -⟩ := h
  unfold State.busy at hb
  rcases hst with e | e | ⟨p, i, b, e⟩ | ⟨er, e⟩
  · rw [e] at hb; exact absurd hb (by decide)
  · exact e
  · rw [e] at hb; exact absurd (hb.symm.trans (statusWord_busy ..)) (by decide)
  · rw [e] at hb; exact absurd (hb.symm.trans (statusWord_busy ..)) (by decide)

/-- Internal codec state exists only while BUSY (10_state.md R42). -/
theorem State.controlOk.busy {s : State} (h : s.controlOk) {c : Codec} (hc : s.codec = some c) : s.busy = true := by
  obtain ⟨-, -, hcodec⟩ := h
  exact busy_of_started (hcodec (by simp [hc]))

/-- Without codec state the invariant asks nothing of a job. -/
theorem State.Inv.ofNoCodec {t : State} (hcfg : t.cfg.valid = true) (hmem : t.memoryOk) (hcmd : t.cmd.toNat < 64)
    (hst : t.status = 0 ∨ t.status = statusStarted ∨ (∃ p i b, t.status = statusDone p i b) ∨
      ∃ e, t.status = statusError e)
    (hc : t.codec = none) : t.Inv :=
  ⟨hcfg, hmem, ⟨hcmd, hst, fun h => absurd hc h⟩, fun c h => by rw [hc] at h; cases h⟩

/-- The invariant speaks of no turn, no value read and no count of drawn bytes. -/
theorem State.Inv.withWorld {s : State} (h : s.Inv) (turns : List Turn) (reads : List Word) (draws : Nat) :
    State.Inv { s with turns := turns, reads := reads, draws := draws } := by
  obtain ⟨hcfg, hmem, hctl, hjob⟩ := h
  refine ⟨hcfg, hmem, hctl, fun c hc => ?_⟩
  have hok := hjob c hc
  cases c <;> exact hok

theorem State.Inv.withTurns {s : State} (h : s.Inv) (turns : List Turn) : State.Inv { s with turns := turns } :=
  h.withWorld turns s.reads s.draws

/-- What the host has read is no part of the invariant. -/
theorem State.Inv.receive {s : State} (h : s.Inv) (v : Word) : (receive v s).Inv :=
  h.withWorld s.turns (v :: s.reads) s.draws

/-- Settles O51: the reset state has no codec state, and its other fields are checked one by one. -/
theorem invariantHoldsAtReset : Obligations.InvariantHoldsAtReset :=
  State.Inv.ofNoCodec (by decide) ⟨rfl, rfl⟩ (by decide) (.inl rfl) rfl

/-! ### The host's acts -/

/-- CMD keeps six bits of the word written to it (10_state.md R24). -/
theorem cmdBits_lt (v : Word) : (v &&& 0x3F#32).toNat < 64 := by
  have h := Nat.and_le_right (n := v.toNat) (m := 63)
  rw [BitVec.toNat_and]
  exact Nat.lt_succ_of_le h

/-- While IDLE no job has internal state (10_state.md R42). -/
theorem State.Inv.noCodec_of_idle {s : State} (h : s.Inv) (hb : s.busy = false) : s.codec = none := by
  obtain ⟨-, -, hctl, -⟩ := h
  cases hc : s.codec with
  | none => rfl
  | some c => rw [hctl.busy hc] at hb; cases hb

theorem State.Inv.writeRegister {s : State} (h : s.Inv) (off : Nat) (v : Word) : (writeRegister off v s).Inv := by
  cases hb : s.busy with
  | true => rw [writeRegister_busy hb]; exact h
  | false =>
    have hc := h.noCodec_of_idle hb
    obtain ⟨hcfg, hmem, ⟨hcmd, hst, -⟩, -⟩ := h
    rcases writeRegister_idle hb off v with ⟨-, e⟩ | ⟨-, ecmd, est, -, emem, ecodec, ecfg, -⟩
    · rw [e]
      exact .ofNoCodec hcfg hmem (cmdBits_lt v) (.inr (.inl rfl)) rfl
    · refine .ofNoCodec (by rw [ecfg]; exact hcfg) ?_ (by rw [ecmd]; exact hcmd) (by rw [est]; exact hst)
        (by rw [ecodec]; exact hc)
      unfold State.memoryOk
      rw [emem, ecfg]
      exact hmem

theorem State.Inv.hostWriteReg {s t : State} (h : s.Inv) {addr width : Nat} {v : Word}
    (ht : hostWriteReg addr width v s = .next t) : t.Inv := by
  unfold Machine.hostWriteReg at ht
  split at ht
  · cases ht; exact h.writeRegister _ v
  · cases ht

theorem State.Inv.hostReadReg {s t : State} (h : s.Inv) {addr width : Nat}
    (ht : hostReadReg addr width s = .next t) : t.Inv := by
  unfold Machine.hostReadReg at ht
  split at ht
  · cases ht; exact h.receive _
  · cases ht

theorem State.Inv.hostWriteLastRead {s t : State} (h : s.Inv) {addr width : Nat}
    (ht : hostWriteLastRead addr width s = .next t) : t.Inv := by
  rcases hostWriteLastRead_cases addr width s with ⟨-, e⟩ | ⟨v, vs, -, e⟩ <;> rw [e] at ht
  · cases ht; exact h
  · exact h.hostWriteReg ht

/-- A byte written outside a job's regions is none that its invariant speaks of (20_memory.md R74). -/
theorem Codec.ok.memWrite {s : State} {c : Codec} (h : c.ok s) {a : Nat} (v : Byte)
    (ha : ∀ r ∈ readRegions c.kind s, r.has a = false) : c.ok (memWrite a v s) := by
  have halike : Alike c.kind (fun _ => False) s (Machine.memWrite a v s) :=
    ⟨keepsRegisters.refl s, fun r hr b hb => memRead_memWrite_other (fun e => by rw [e, ha r hr] at hb; cases hb) v s,
      fun _ h => h.elim⟩
  have hv := halike.validate.trans h.current.2
  cases c <;>
    (obtain ⟨hjob, -, hbounds⟩ := h
     exact ⟨hjob, hv, hbounds⟩)

theorem State.Inv.hostWriteMem {s t : State} (h : s.Inv) {a : Nat} {v : Byte} (ht : hostWriteMem a v s = .next t) :
    t.Inv := by
  obtain ⟨hcfg, ⟨hwf, hin⟩, hctl, hjob⟩ := h
  obtain ⟨ha, hfree, rfl⟩ := hostWriteMem_next ht
  refine ⟨hcfg, ⟨Memory.wf_write a v hwf, Memory.within_write ha v hin⟩, hctl, fun c hc => ?_⟩
  have hok := hjob c hc
  refine hok.memWrite v fun r hr => hfree (hctl.busy hc) r ?_
  unfold currentRegions
  rw [hok.current.1]
  exact List.mem_cons_of_mem _ hr

theorem State.Inv.hostReadMem {s t : State} (h : s.Inv) {a : Nat} (ht : hostReadMem a s = .next t) : t.Inv := by
  obtain ⟨-, v, n, rfl⟩ := hostReadMem_next ht
  exact h.withWorld s.turns (v :: s.reads) n

theorem resetBlock_cfg (s : State) : (resetBlock s).cfg = s.cfg := by
  unfold resetBlock
  split <;> simp

theorem State.Inv.resetBlock {s : State} (h : s.Inv) : (resetBlock s).Inv := by
  obtain ⟨hcfg, ⟨hwf, hin⟩, -, -⟩ := h
  obtain ⟨-, -, hwf', hin'⟩ := resetBlock_mem s
  have e := resetBlock_cfg s
  exact .ofNoCodec (by rw [e]; exact hcfg) ⟨hwf' hwf, by rw [e]; exact hin' hin⟩ (by decide : (0 : Word).toNat < 64)
    (.inl rfl) rfl

/-! ### The engine's steps -/

/-- A job that has run to its end keeps the invariant (10_state.md R28, 60_exceptions.md R272). -/
theorem State.Inv.jobEffect {s t : State} (h : s.Inv) {k : JobKind} (he : JobEffect k s t) : t.Inv := by
  obtain ⟨hcfg, ⟨hwf, hin⟩, ⟨hcmd, -, -⟩, -⟩ := h
  have ecfg := he.regs.cfg
  exact .ofNoCodec (by rw [ecfg]; exact hcfg) ⟨he.wf hwf, by rw [ecfg]; exact he.within hin⟩
    (by rw [he.regs.cmd]; exact hcmd) (.inr (.inr he.status)) he.codec

theorem State.Inv.errorCompletion {s : State} (h : s.Inv) (e : JobError) : (errorCompletion e s).Inv :=
  h.jobEffect (JobEffect.ofError .rle e s)

/-- A token step keeps the invariant: the job goes on within its bounds, or it has ended. -/
theorem State.Inv.tokenEffect {s t : State} (h : s.Inv) {c : Codec} (hc : s.codec = some c) (he : TokenEffect c s t) :
    t.Inv := by
  obtain ⟨hcfg, ⟨hwf, hin⟩, ⟨hcmd, hst, hcodec⟩, -⟩ := h
  have ecfg := he.regs.cfg
  have hmem : t.memoryOk := ⟨he.wf hwf, by rw [ecfg]; exact he.within hin⟩
  have hcfg' : t.cfg.valid = true := by rw [ecfg]; exact hcfg
  have hcmd' : t.cmd.toNat < 64 := by rw [he.regs.cmd]; exact hcmd
  rcases he.phase with ⟨c', ec, -, hok, ⟨est, -, -⟩, -⟩ | ⟨ec, ⟨-, hdone⟩ | ⟨herr, -, -⟩⟩
  · refine ⟨hcfg', hmem, ⟨hcmd', by rw [est]; exact hst, fun _ => by rw [est]; exact hcodec (by simp [hc])⟩,
      fun d hd => ?_⟩
    obtain rfl : c' = d := Option.some.inj (ec.symm.trans hd)
    exact hok
  · exact .ofNoCodec hcfg' hmem hcmd' (.inr (.inr (.inl hdone))) ec
  · exact .ofNoCodec hcfg' hmem hcmd' (.inr (.inr (.inr (herr.elim (fun e => ⟨_, e.2⟩) fun e => ⟨_, e.2⟩)))) ec

/-- Inside a job both kinds of the engine's step are the token step. -/
theorem State.Inv.tokenStep {s t : State} (h : s.Inv) {c : Codec} (hc : s.codec = some c)
    (ht : tokenStep exec c s = .next t) : t.Inv := by
  obtain ⟨-, -, -, hjob⟩ := id h
  obtain ⟨u, hu, he⟩ := tokenStep_spec hc (hjob c hc)
  rw [tokenStep_exec, hu] at ht
  cases ht
  exact h.tokenEffect hc he

/-- The job step of any command keeps the invariant. -/
theorem State.Inv.jobStep {s t : State} (h : s.Inv) (ht : exec (decodeCommand s.cmd) s = .next t) : t.Inv := by
  cases hk : currentJob s with
  | none =>
    rw [exec_reserved hk] at ht
    cases ht
    exact h.errorCompletion .badOp
  | some k =>
    obtain ⟨u, hu, he⟩ := exec_command_spec hk
    rw [hu] at ht
    cases ht
    exact h.jobEffect he

theorem State.Inv.engineTurn {s t : State} (h : s.Inv) (ht : engineTurn s = .next t) : t.Inv := by
  unfold Machine.engineTurn at ht
  split at ht
  · split at ht
    · exact h.jobStep ht
    · next c hc => exact h.tokenStep hc ht
  · cases ht; exact h

theorem State.Inv.pollTurn {s t : State} (h : s.Inv) {rest : List Turn} (ht : pollTurn rest s = .next t) : t.Inv := by
  unfold Machine.pollTurn at ht
  split at ht
  · cases ht; exact (h.withTurns rest).receive s.status
  · exact h.engineTurn ht

/-! ### Opening a job -/

/-- What the family rule's start leaves (10_state.md R42 to R46): a job inside its bounds, or, for a quadtree deeper than
QT_MAX_DEPTH at its root, the job's end. -/
def OpenedOrEnded (k : JobKind) (s u : State) : Prop :=
  (∃ c : Codec, u = { s with codec := some c } ∧ c.ok u) ∨ JobEffect k s u

theorem openRle_spec {s : State} (hk : currentJob s = some .rle) (hv : validate .rle s = none) :
    OpenedOrEnded .rle s (openRle s) :=
  .inl ⟨_, rfl, hk, hv, Nat.zero_le _, Nat.zero_le _⟩

theorem openLzw_spec {s : State} (hk : currentJob s = some .lzw) (hv : validate .lzw s = none) :
    OpenedOrEnded .lzw s (openLzw s) :=
  .inl ⟨_, rfl, hk, hv, Nat.zero_le _, Nat.zero_le _, LzwState.ok_start _⟩

theorem openLz77_spec {b : Bool} {s : State} (hk : currentJob s = some (.lz77 b)) (hv : validate (.lz77 b) s = none) :
    OpenedOrEnded (.lz77 b) s (openLz77 b s) :=
  .inl ⟨_, rfl, hk, hv, Nat.zero_le _, Nat.zero_le _, Nat.succ_pos _, Nat.zero_le _, trivial, fun _ => rfl⟩

/-- The three cases of R173 and R174 at the root of the recursion. -/
theorem openQt_spec {s : State} (hk : currentJob s = some .qt) (hv : validate .qt s = none) :
    OpenedOrEnded .qt s (openQt s) := by
  unfold openQt
  rcases qtEnter_cases s.cfg.qtMaxDepth ⟨0, 0, s.width, s.height⟩ ⟨0, none, []⟩ with ⟨-, e⟩ | ⟨-, -, e⟩ | ⟨he, hd, e⟩ <;>
    rw [e]
  · exact .inl ⟨_, rfl, hk, hv, fun f hf => (List.not_mem_nil hf).elim, Nat.zero_le _⟩
  · obtain ⟨hout, hwf, hin⟩ := drawRegion_spec (imageRegion s) s
    exact .inr
      { regs := keepsRegisters.runtimeError ..
        outside := hout
        wf := hwf
        within := hin _ fun a ha => (validated_of_none hv).write_lt ha
        codec := rfl
        status := .inr ⟨_, rfl⟩ }
  · exact .inl ⟨_, rfl, hk, hv, fun f hf => (List.not_mem_nil hf).elim,
      ⟨he, (Nat.zero_add _).le, (Nat.zero_add _).le⟩, hd⟩

/-- Opening behind validation: an error found ends the job (60_exceptions.md R275). -/
theorem validated_opened {k : JobKind} {start : State → State} {s : State}
    (h : validate k s = none → OpenedOrEnded k s (start s)) :
    ∃ u, validated k (fun s => .next (start s)) s = .next u ∧ OpenedOrEnded k s u := by
  unfold validated
  cases hv : validate k s with
  | some e => exact ⟨_, rfl, .inr (JobEffect.ofError k e s)⟩
  | none => exact ⟨_, rfl, h hv⟩

/-- Everything the first of the finer steps of a job can do. -/
theorem beginJob_spec {s : State} {k : JobKind} (hk : currentJob s = some k) :
    ∃ u, beginJob (decodeCommand s.cmd) s = .next u ∧ OpenedOrEnded k s u := by
  have hk' := hk
  unfold currentJob at hk
  cases hd : decodeCommand s.cmd <;> rw [hd] at hk <;> simp only [jobKind, Option.some.injEq, reduceCtorEq] at hk <;>
    subst hk
  case rle => exact validated_opened (openRle_spec hk')
  case lzw => exact validated_opened (openLzw_spec hk')
  case qt => exact validated_opened (openQt_spec hk')
  case lz77 => exact validated_opened (openLz77_spec hk')
  case lz77Ct => exact validated_opened (openLz77_spec hk')
  case nmerge => exact (execNmerge_spec s).imp fun _ h => ⟨h.1, .inr h.2⟩
  case xpose => exact (execXpose_spec s).imp fun _ h => ⟨h.1, .inr h.2⟩
  case sample => exact (execSample_spec s).imp fun _ h => ⟨h.1, .inr h.2⟩
  case sampleMir => exact (execSampleMir_spec s).imp fun _ h => ⟨h.1, .inr h.2⟩

/-- A reserved command's first finer step is its whole job step (60_exceptions.md R273). -/
theorem beginJob_reserved {s : State} (hk : currentJob s = none) :
    beginJob (decodeCommand s.cmd) s = .next (errorCompletion .badOp s) := by
  have hf := decodeCommand_fits s.cmd
  unfold currentJob at hk
  cases hd : decodeCommand s.cmd <;> rw [hd] at hk hf <;> simp only [jobKind, reduceCtorEq] at hk
  case reserved0 => rfl
  case reserved8F => rfl
  all_goals cases hf

theorem State.Inv.openedOrEnded {s u : State} (h : s.Inv) (hb : s.busy = true) {k : JobKind}
    (hu : OpenedOrEnded k s u) : u.Inv := by
  rcases hu with ⟨c, rfl, hok⟩ | he
  · obtain ⟨hcfg, hmem, hctl, -⟩ := h
    obtain ⟨hcmd, hst, -⟩ := id hctl
    refine ⟨hcfg, hmem, ⟨hcmd, hst, fun _ => hctl.started hb⟩, fun d hd => ?_⟩
    cases hd
    exact hok
  · exact h.jobEffect he

theorem State.Inv.beginJob {s t : State} (h : s.Inv) (hb : s.busy = true)
    (ht : beginJob (decodeCommand s.cmd) s = .next t) : t.Inv := by
  cases hk : currentJob s with
  | none =>
    rw [beginJob_reserved hk] at ht
    cases ht
    exact h.errorCompletion .badOp
  | some k =>
    obtain ⟨u, hu, ho⟩ := beginJob_spec hk
    rw [hu] at ht
    cases ht
    exact h.openedOrEnded hb ho

theorem State.Inv.engineFineTurn {s t : State} (h : s.Inv) (ht : engineFineTurn s = .next t) : t.Inv := by
  unfold Machine.engineFineTurn at ht
  split at ht
  · next hb =>
    split at ht
    · exact h.beginJob hb ht
    · next c hc => exact h.tokenStep hc ht
  · cases ht; exact h

/-! ### Every step -/

/-- Settles O52, by the turn taken: each act of the host and each step of the engine keeps the invariant. -/
theorem invariantKeptByEveryStep : Obligations.InvariantKeptByEveryStep := by
  unfold Obligations.InvariantKeptByEveryStep
  intro s t h ht
  unfold step takeTurn at ht
  cases hs : s.turns with
  | nil => rw [hs] at ht; exact h.engineTurn ht
  | cons turn rest =>
    rw [hs] at ht
    have hrest := h.withTurns rest
    cases turn with
    | writeReg addr width v => exact hrest.hostWriteReg ht
    | readReg addr width => exact hrest.hostReadReg ht
    | writeRegLastRead addr width => exact hrest.hostWriteLastRead ht
    | writeMem a v => exact hrest.hostWriteMem ht
    | readMem a => exact hrest.hostReadMem ht
    | reset => cases ht; exact hrest.resetBlock
    | poll => exact h.pollTurn ht
    | engine => exact hrest.engineTurn ht
    | engineFine => exact hrest.engineFineTurn ht

end Sys2Proof.Machine
end

section
/-! PROOF. The finer steps of a job (10_state.md R40) run it to the very state of the atomic job step, within the family's bound
(R41), so every job ends. -/

namespace Sys2Proof.Machine

/-! ### Running the finer steps -/

/-- The first of `n + 1` steps, where it answers a state. -/
theorem runFor_succ {f : State → Result} {s u : State} (h : f s = .next u) (n : Nat) :
    runFor f (n + 1) s = runFor f n u := by
  simp only [runFor, h]

/-- At a job's start the engine's step is the whole job step. -/
theorem engineTurn_jobStart {s : State} (hb : s.busy = true) (hc : s.codec = none) :
    engineTurn s = exec (decodeCommand s.cmd) s := by
  simp only [engineTurn, hb, hc, if_true]

/-- At a job's start the engine's finer step validates and opens it. -/
theorem engineFineTurn_jobStart {s : State} (hb : s.busy = true) (hc : s.codec = none) :
    engineFineTurn s = beginJob (decodeCommand s.cmd) s := by
  simp only [engineFineTurn, hb, hc, if_true]

/-- Inside a job the engine's finer step is a token step of the job step. -/
theorem engineFineTurn_inJob {s : State} (hb : s.busy = true) {c : Codec} (hc : s.codec = some c) :
    engineFineTurn s = tokenStep execToken c s := by
  simp only [engineFineTurn, hb, hc, if_true, tokenStep_exec]

/-- The token steps that the job step runs are as many finer steps, or fewer where the job ends before its fuel does. -/
theorem runTokens_eq_finerSteps (fuel : Nat) {s t : State} (h : s.Inv) (ht : runTokens fuel s = .next t) :
    ∃ n, n ≤ fuel ∧ runFor engineFineTurn n s = .next t := by
  induction fuel generalizing s with
  | zero => exact ⟨0, Nat.le_refl 0, ht⟩
  | succ fuel ih =>
    cases hc : s.codec with
    | none =>
      rw [runTokens_ended _ hc] at ht
      exact ⟨0, Nat.zero_le _, ht⟩
    | some c =>
      obtain ⟨-, -, hctl, hjob⟩ := id h
      obtain ⟨u, hu, he⟩ := tokenStep_spec hc (hjob c hc)
      have hfine : engineFineTurn s = .next u := (engineFineTurn_inJob (hctl.busy hc) hc).trans hu
      simp only [runTokens, hc, hu] at ht
      obtain ⟨n, hn, hrun⟩ := ih (h.tokenEffect hc he) ht
      exact ⟨n + 1, Nat.succ_le_succ hn, (runFor_succ hfine n).trans hrun⟩

/-! ### Splitting the job step -/

/-- How a job step splits: it is one finer step, or one that opens the job and then token steps within the bound. -/
def Splits (bound : Nat) (whole first : Result) : Prop :=
  first = whole ∨ ∃ fuel u, first = .next u ∧ whole = runTokens fuel u ∧ fuel + 1 = bound

/-- Validation stands before both forms of the job step, and an error it finds ends both alike. -/
theorem validated_splits (k : JobKind) (start : State → State) (fuel : State → Nat) (s : State) :
    Splits (fuel s + 1) (validated k (fun s => runTokens (fuel s) (start s)) s)
      (validated k (fun s => .next (start s)) s) := by
  unfold validated
  cases validate k s with
  | some e => exact .inl rfl
  | none => exact .inr ⟨_, _, rfl, rfl, rfl⟩

/-- The job step of a command splits as its family's bound says. -/
theorem exec_splits {i : Instr} {k : JobKind} (hk : jobKind i = some k) (s : State) :
    Splits (jobBound k s) (exec i s) (beginJob i s) := by
  cases i <;> simp only [jobKind, Option.some.injEq, reduceCtorEq] at hk <;> subst hk
  case rle => exact validated_splits .rle openRle rleFuel s
  case lzw => exact validated_splits .lzw openLzw lzwFuel s
  case qt => exact validated_splits .qt openQt qtFuel s
  case lz77 => exact validated_splits (.lz77 false) (openLz77 false) lz77Fuel s
  case lz77Ct => exact validated_splits (.lz77 true) (openLz77 true) lz77Fuel s
  case nmerge => exact .inl rfl
  case xpose => exact .inl rfl
  case sample => exact .inl rfl
  case sampleMir => exact .inl rfl

theorem jobBound_pos (k : JobKind) (s : State) : 1 ≤ jobBound k s := by
  cases k <;> exact Nat.succ_pos _

/-- The finer steps of a job just started reach the state of its job step, in no more than its family's bound. -/
theorem finerSteps_reach_jobStep {s t : State} (h : s.Inv) (hb : s.busy = true) (hc : s.codec = none) {k : JobKind}
    (hk : currentJob s = some k) (ht : exec (decodeCommand s.cmd) s = .next t) :
    ∃ n, n ≤ jobBound k s ∧ runFor engineFineTurn n s = .next t := by
  have hfine := engineFineTurn_jobStart hb hc
  rcases exec_splits hk s with e | ⟨fuel, u, hu, hwhole, hfuel⟩
  · exact ⟨1, jobBound_pos k s, runFor_succ (hfine.trans (e.trans ht)) 0⟩
  · obtain ⟨n, hn, hrun⟩ := runTokens_eq_finerSteps fuel (h.beginJob hb hu) (hwhole.symm.trans ht)
    exact ⟨n + 1, by omega, (runFor_succ (hfine.trans hu) n).trans hrun⟩

/-- The job step of any command ends the job (10_state.md R41). -/
theorem jobStep_ends (s : State) : ∃ t, exec (decodeCommand s.cmd) s = .next t ∧ t.ended := by
  cases hk : currentJob s with
  | none => exact ⟨_, exec_reserved hk, errorCompletion_ended .badOp s⟩
  | some k =>
    obtain ⟨t, ht, he⟩ := exec_command_spec hk
    exact ⟨t, ht, he.ended⟩

/-- Settles O54: the job step ends the job, and the finer steps reach its state within the bound. -/
theorem everyJobTerminates : Obligations.EveryJobTerminates := by
  unfold Obligations.EveryJobTerminates
  intro s h hb hc
  obtain ⟨t, ht, hend⟩ := jobStep_ends s
  refine ⟨⟨t, (engineTurn_jobStart hb hc).trans ht, hend⟩, fun k hk => ?_⟩
  obtain ⟨n, hn, hrun⟩ := finerSteps_reach_jobStep h hb hc hk ht
  exact ⟨n, t, hn, hrun, hend⟩

/-- Settles O55: a reserved command's one finer step is its job step; any other job's finer steps open it and run its
tokens. -/
theorem finerStepsReachTheJobStep : Obligations.FinerStepsReachTheJobStep := by
  unfold Obligations.FinerStepsReachTheJobStep
  intro s t h hb ht hc
  rw [engineTurn_jobStart hb hc] at ht
  cases hk : currentJob s with
  | none =>
    rw [exec_reserved hk] at ht
    exact ⟨1, runFor_succ ((engineFineTurn_jobStart hb hc).trans ((beginJob_reserved hk).trans ht)) 0⟩
  | some k =>
    obtain ⟨n, -, hrun⟩ := finerSteps_reach_jobStep h hb hc hk ht
    exact ⟨n, hrun⟩

end Sys2Proof.Machine
end

section
/-! PROOF. The register block as the host sees it (10_state.md R23 to R38): what a turn of the host at an offset of the block
does, which accesses are refused, and what a CMD write starts. -/

namespace Sys2Proof.Machine

/-! ### A turn of the host at an offset of the block -/

theorem step_writeReg {s : State} {rest : List Turn} {off : Nat} {v : Word}
    (h : s.turns = .writeReg (s.cfg.regBase + off) 4 v :: rest) (h64 : off < 0x40) (h4 : off % 4 = 0) :
    step s = .next (writeRegister off v { s with turns := rest }) := by
  have hbus := busOffset_reg { s with turns := rest } h64 h4
  simp only [step, takeTurn, h, hostWriteReg, hbus]

theorem step_readReg {s : State} {rest : List Turn} {off : Nat}
    (h : s.turns = .readReg (s.cfg.regBase + off) 4 :: rest) (h64 : off < 0x40) (h4 : off % 4 = 0) :
    step s = .next { s with turns := rest, reads := readRegister off s :: s.reads } := by
  have hbus := busOffset_reg { s with turns := rest } h64 h4
  simp only [step, takeTurn, h, hostReadReg, hbus]
  rfl

/-- An access that the bus gives no offset is refused for the bus's reason, a write or a read. -/
theorem step_refused {s : State} {rest : List Turn} {addr width : Nat} {v : Word} {r : Refusal}
    (hbus : busOffset addr width { s with turns := rest } = .error r)
    (h : s.turns = .writeReg addr width v :: rest ∨ s.turns = .readReg addr width :: rest) : step s = .refused r := by
  rcases h with h | h
  · simp only [step, takeTurn, h, hostWriteReg, hbus]
  · simp only [step, takeTurn, h, hostReadReg, hbus]

/-- 10_state.md R35: the block's 64 offsets end at 0x3F. -/
theorem busOffset_outside {addr : Nat} {s : State} (h : addr < s.cfg.regBase ∨ s.cfg.regBase + 0x40 ≤ addr)
    (width : Nat) : busOffset addr width s = .error .outsideRegisterBlock :=
  if_pos h

/-- 10_state.md R36: inside the block only an aligned access of four bytes has a meaning. -/
theorem busOffset_misshapen {off width : Nat} (s : State) (h64 : off < 0x40) (h : width ≠ 4 ∨ off % 4 ≠ 0) :
    busOffset (s.cfg.regBase + off) width s = .error .badRegisterAccess := by
  have hsize : registerBlockSize = 0x40 := rfl
  have hoff : s.cfg.regBase + off - s.cfg.regBase = off := Nat.add_sub_cancel_left ..
  unfold busOffset
  rw [if_neg (by omega), hoff, if_pos h]

/-! ### The register map -/

/-- 10_state.md R35: the reserved offsets read 0. -/
theorem readRegister_reserved {off : Nat} (h : 0x2C ≤ off) (s : State) : readRegister off s = 0 := by
  unfold readRegister
  iterate 11 rw [if_neg (by omega)]

/-- 10_state.md R23, R35: a write to STATUS, to RESULT or to a reserved offset is ignored. -/
theorem writeRegister_readOnly {off : Nat} (h4 : off % 4 = 0) (h : off = 0x04 ∨ 0x28 ≤ off) (v : Word) (s : State) :
    writeRegister off v s = s := by
  unfold writeRegister
  split
  · rfl
  · iterate 9 rw [if_neg (by omega)]

/-- The offsets of the job registers (10_state.md R23, R29 to R33). -/
def jobRegisters : List Nat := [0x08, 0x0C, 0x10, 0x14, 0x18, 0x1C, 0x20, 0x24]

/-- A job register written while IDLE reads back whole, and every other offset reads as before. -/
theorem readRegister_writeRegister {s : State} (hb : s.busy = false) {off : Nat} (h : off ∈ jobRegisters) (v : Word) :
    readRegister off (writeRegister off v s) = v ∧
      ∀ o, o ≠ off → readRegister o (writeRegister off v s) = readRegister o s := by
  simp only [jobRegisters, List.mem_cons, List.not_mem_nil, or_false] at h
  rcases h with rfl | rfl | rfl | rfl | rfl | rfl | rfl | rfl <;>
    exact ⟨by simp [writeRegister, readRegister, hb], fun o ho => by simp [writeRegister, readRegister, hb, ho]⟩

/-- A CMD write changes no register but CMD and STATUS (10_state.md R25, R27). -/
theorem readRegister_startJob {o : Nat} (h0 : o ≠ 0x00) (h4 : o ≠ 0x04) (v : Word) (s : State) :
    readRegister o (startJob v s) = readRegister o s := by
  unfold readRegister
  simp [h0, h4]

/-! ### What a CMD write starts -/

/-- 30_encoding.md R81: the decoder looks at none of the bits that CMD does not store. -/
theorem decodeCommand_cmdBits (v : Word) : decodeCommand (v &&& 0x3F#32) = decodeCommand v := by
  have hbit : ∀ k, k < 6 → (v &&& 0x3F#32).getLsbD k = v.getLsbD k := fun k hk => by
    have hmask : ∀ k : Fin 6, (0x3F#32).getLsbD k = true := by decide
    rw [BitVec.getLsbD_and, hmask ⟨k, hk⟩, Bool.and_true]
  have hlow : ∀ n, n ≤ 6 → (v &&& 0x3F#32).extractLsb' 0 n = v.extractLsb' 0 n := fun n hn => by
    ext k hk
    simp only [BitVec.getElem_extractLsb', Nat.zero_add, hbit k (by omega)]
  simp only [decodeCommand, hbit 4 (by decide), hbit 5 (by decide), hlow 4 (by decide), hlow 3 (by decide)]

/-- After a CMD write the engine's next step is the job step of the word written (10_state.md R25, R40). -/
theorem engineTurn_startJob (v : Word) (s : State) :
    engineTurn (startJob v s) = exec (decodeCommand v) (startJob v s) := by
  rw [engineTurn_jobStart (busy_of_started rfl) rfl, startJob_cmd, decodeCommand_cmdBits]

/-! ### The statements -/

/-- Settles O14: while IDLE the write is `startJob`, while BUSY it is ignored. -/
theorem cmdWriteStartsJob : Obligations.CmdWriteStartsJob := by
  unfold Obligations.CmdWriteStartsJob
  intro s rest v h
  have hstep := step_writeReg (off := 0) h (by decide) rfl
  constructor
  · intro hb
    have hstart : writeRegister 0 v { s with turns := rest } = startJob v { s with turns := rest } := by
      rcases writeRegister_idle (s := { s with turns := rest }) hb 0 v with ⟨-, e⟩ | ⟨h0, -⟩
      · exact e
      · exact absurd rfl h0
    exact ⟨startJob v { s with turns := rest }, by rw [hstep, hstart], rfl, statusWord_busy .., statusWord_done ..,
      statusWord_padded .., statusWord_inexh .., statusWord_badcode .., statusWord_err .., rfl, rfl,
      fun o h0 h4 => readRegister_startJob h0 h4 v _, rfl, rfl, rfl, rfl, rfl, engineTurn_startJob v _⟩
  · intro hb
    rw [hstep, writeRegister_busy (s := { s with turns := rest }) hb]

/-- Settles O9: nothing is pending, so the step is the engine's, which is IDLE. -/
theorem resetStateWaits : Obligations.ResetStateWaits := by
  unfold Obligations.ResetStateWaits
  refine ⟨fun off => ?_, rfl, rfl, rfl⟩
  unfold readRegister
  simp [State.reset]

/-- Settles O11: the register map by its definition, and `readRegister_writeRegister` for the write. -/
theorem jobRegisterWriteReadsBack : Obligations.JobRegisterWriteReadsBack := by
  unfold Obligations.JobRegisterWriteReadsBack
  refine ⟨fun s => ⟨rfl, rfl, rfl, rfl, rfl, rfl, rfl, rfl, rfl, rfl, rfl⟩, fun s rest off v hb hoff h => ?_⟩
  have hshape : ∀ o ∈ jobRegisters, o < 0x40 ∧ o % 4 = 0 ∧ o ≠ 0 := by decide
  obtain ⟨h64, h4, h0⟩ := hshape off hoff
  obtain ⟨hsame, hother⟩ := readRegister_writeRegister (s := { s with turns := rest }) hb hoff v
  rcases writeRegister_idle (s := { s with turns := rest }) hb off v with
    ⟨e, -⟩ | ⟨-, -, -, -, emem, ecodec, ecfg, eturns, ereads, edraws⟩
  · exact absurd e h0
  · exact ⟨_, step_writeReg h h64 h4, hsame, hother, emem, ecodec, edraws, ereads, eturns, ecfg⟩

/-- Settles O12, from the register map and the bus's refusal outside the block. -/
theorem reservedOffsetsReadZeroIgnoreWrites : Obligations.ReservedOffsetsReadZeroIgnoreWrites := by
  unfold Obligations.ReservedOffsetsReadZeroIgnoreWrites
  intro s rest off v
  refine ⟨fun h _ => readRegister_reserved h s, fun h4 hro h64 h => ?_, fun addr width hout h => ?_⟩
  · rw [step_writeReg h h64 h4, writeRegister_readOnly h4 hro]
  · exact step_refused (busOffset_outside (s := { s with turns := rest }) hout width) h

/-- Settles O13: the bus gives a misshapen access no offset. -/
theorem misshapenRegisterAccessRefused : Obligations.MisshapenRegisterAccessRefused := by
  unfold Obligations.MisshapenRegisterAccessRefused
  intro s rest off width v h64 hbad h
  exact step_refused (busOffset_misshapen { s with turns := rest } h64 hbad) h

/-- Settles O15, from what a register turn does, the write being ignored while BUSY. -/
theorem busyIgnoresRegisterWrites : Obligations.BusyIgnoresRegisterWrites := by
  unfold Obligations.BusyIgnoresRegisterWrites
  intro s rest off v hb h4 h64
  refine ⟨fun h => ?_, fun h => step_readReg h h64 h4⟩
  rw [step_writeReg h h64 h4, writeRegister_busy (s := { s with turns := rest }) hb]

/-- Settles O16: BUSY the write is ignored, IDLE it reaches a job register or nothing. -/
theorem registerReadHasNoEffect : Obligations.RegisterReadHasNoEffect := by
  unfold Obligations.RegisterReadHasNoEffect
  intro s rest off v h4 h64
  refine ⟨fun h => step_readReg h h64 h4, fun h0 h => ⟨_, step_writeReg h h64 h4, ?_⟩⟩
  cases hb : s.busy with
  | true =>
    rw [writeRegister_busy (s := { s with turns := rest }) hb]
    exact ⟨rfl, rfl, rfl, rfl, rfl, rfl, rfl⟩
  | false =>
    rcases writeRegister_idle (s := { s with turns := rest }) hb off v with
      ⟨e, -⟩ | ⟨-, ecmd, est, eres, emem, ecodec, -, -, ereads, edraws⟩
    · exact absurd e h0
    · exact ⟨ecmd, est, eres, ecodec, emem, edraws, ereads⟩

end Sys2Proof.Machine
end

section
/-! PROOF. What a step of the engine runs (10_state.md R40, 30_encoding.md R94). -/

namespace Sys2Proof.Machine

/-- What the decoder reads is the token found. -/
theorem decoded_eq_token {ctx : Ctx} {w : Word} {i : Instr} (h : decode ctx w = .ok i) : decoded ctx w = .token i := by
  simp only [decoded, h]

/-- With no turn pending the step is the engine's. -/
theorem step_noTurns {s : State} (h : s.turns = []) : step s = engineTurn s := by
  simp only [step, takeTurn, h]

/-- A token found inside a job is what the engine's step runs. -/
theorem engineTurn_token {s : State} (hb : s.busy = true) {c : Codec} {i : Instr} (hc : s.codec = some c)
    (hf : fetch c s = .token i) : engineTurn s = exec i s := by
  simp only [engineTurn, hb, hc, if_true, tokenStep, hf]

/-- 41_rle.md R125: the control byte, and a run's value byte, are in the source. -/
theorem fetchRle_token {c : RleState} {s : State} {i : Instr} (ho : c.o ≠ s.dstLen.toNat) (hp : c.p < s.srcLen.toNat)
    (hrun : ¬((srcByte c.p s).getLsbD 7 = true ∧ s.srcLen.toNat ≤ c.p + 1))
    (h : decode .rle (window (8 * c.p) s) = .ok i) : fetchRle c s = .token i := by
  unfold fetchRle
  rw [if_neg ho, if_neg (by omega), isRunControl_eq, if_neg hrun]
  exact decoded_eq_token h

/-- 42_lzw.md R143, R151: the output is not full and a whole code is left. -/
theorem fetchLzw_token {c : LzwState} {s : State} {i : Instr} (ho : c.o ≠ s.dstLen.toNat)
    (hw : c.off + c.width ≤ 8 * s.srcLen.toNat) (h : decode c.ctx (window c.off s) = .ok i) :
    fetchLzw c s = .token i := by
  unfold fetchLzw
  rw [if_neg ho, if_neg (by omega)]
  exact decoded_eq_token h

/-- 43_quadtree.md R176: a pending region's mask is next. -/
theorem fetchQt_mask {c : QtState} {s : State} {r : Rect} {i : Instr} (hp : c.pending = some r)
    (h : decode .qtMask (window c.off s) = .ok i) : fetchQt c s = .token i := by
  simp only [fetchQt, hp]
  exact decoded_eq_token h

/-- 43_quadtree.md R177: the innermost region's next quadrant. -/
theorem fetchQt_quadrant {c : QtState} {s : State} {f : Frame} {fs : List Frame} {i : Instr} (hp : c.pending = none)
    (hs : c.stack = f :: fs) (hf : f.next < 4)
    (h : decode (.qtQuadrant (maskBit s.cfg.maskOrder f.mask f.next) (f.rect.quadrant f.next).w
      (f.rect.quadrant f.next).h) (window c.off s) = .ok i) : fetchQt c s = .token i := by
  simp only [fetchQt, hp, hs, if_pos hf]
  exact decoded_eq_token h

/-- 44_lz77.md R203, R211: a token that is not cut. -/
theorem lz77Next_token {ctx : Ctx} {bytes : Nat} {c : Lz77State} {s : State} {i : Instr}
    (hp : c.p + bytes ≤ s.srcLen.toNat) (h : decode ctx (window (8 * c.p) s) = .ok i) :
    lz77Next ctx bytes c s = .token i := by
  unfold lz77Next
  rw [if_neg (by omega)]
  exact decoded_eq_token h

theorem fetchLz77_header {c : Lz77State} {s : State} {i : Instr} (hst : c.stage = .header)
    (hl : 3 ≤ s.srcLen.toNat) (h : decode .lz77Hdr (window (8 * c.p) s) = .ok i) : fetchLz77 c s = .token i := by
  simp only [fetchLz77, hst]
  rw [if_neg (by omega)]
  exact decoded_eq_token h

theorem fetchLz77_flag {c : Lz77State} {s : State} {i : Instr} (hst : c.stage = .flag) (hp : c.p < s.srcLen.toNat)
    (h : decode .lz77Flag (window (8 * c.p) s) = .ok i) : fetchLz77 c s = .token i := by
  simp only [fetchLz77, hst]
  exact lz77Next_token hp h

/-- 44_lz77.md R204: the decision bit says how many bytes the token has. -/
theorem fetchLz77_decision {c : Lz77State} {s : State} {f : Byte} {idx left : Nat} {tail : Bool} {i : Instr}
    (hst : c.stage = .decisions f idx left tail) (hp : c.p + (if f.getLsbD idx then 2 else 1) ≤ s.srcLen.toNat)
    (h : decode (.lz77Decision (f.getLsbD idx)) (window (8 * c.p) s) = .ok i) : fetchLz77 c s = .token i := by
  simp only [fetchLz77, hst]
  cases hb : f.getLsbD idx with
  | true =>
    rw [hb] at hp h
    exact lz77Next_token hp h
  | false =>
    rw [hb] at hp h
    exact lz77Next_token hp h

/-- Settles O20: the step runs what stands at the engine, and what each codec's fetch finds is what the decoder reads. -/
theorem stepRunsDecodedInstruction : Obligations.StepRunsDecodedInstruction := by
  unfold Obligations.StepRunsDecodedInstruction
  intro s rest hb
  refine ⟨fun hc h => ?_, fun hc h => ?_, fun c i hc hf h => ?_, fun c i => fetchRle_token, fun c i => fetchLzw_token,
    fun c r i => fetchQt_mask, fun c f fs i => fetchQt_quadrant, fun c i => fetchLz77_header, fun c i => fetchLz77_flag,
    fun c f idx left tail i => fetchLz77_decision⟩
  · rw [step_noTurns h, engineTurn_jobStart hb hc]
  · have hstep : step s = engineTurn { s with turns := rest } := by simp only [step, takeTurn, h]
    rw [hstep, engineTurn_jobStart (s := { s with turns := rest }) hb hc]
  · rw [step_noTurns h, engineTurn_token hb hc hf]

/-- Settles O22, by the engine's two steps while IDLE. -/
theorem idleEngineHasNoStep : Obligations.IdleEngineHasNoStep := by
  unfold Obligations.IdleEngineHasNoStep
  intro s hb
  have hidle : engineTurn s = .next s := by simp [engineTurn, hb]
  have hfine : engineFineTurn s = .next s := by simp [engineFineTurn, hb]
  exact ⟨hidle, hfine, fun h => (step_noTurns h).trans hidle⟩

end Sys2Proof.Machine
end

section
/-! PROOF. The engine writes only inside the write region of the job CMD names (20_memory.md R63, R69). -/

namespace Sys2Proof.Machine

/-- What an engine step leaves alone: every register but STATUS and RESULT, and every byte outside the write region of the job
CMD names. -/
def StaysInWriteRegion (s t : State) : Prop := keepsRegisters s t ∧ keepsMemoryOutside (currentWrites s) s t

theorem currentWrites_of_job {s : State} {k : JobKind} (hk : currentJob s = some k) :
    currentWrites s = writeRegion k s := by
  simp only [currentWrites, hk]

theorem StaysInWriteRegion.errorCompletion (e : JobError) (s : State) :
    StaysInWriteRegion s (errorCompletion e s) :=
  ⟨keepsRegisters.errorCompletion e s, fun _ _ => rfl⟩

theorem JobEffect.staysInWriteRegion {k : JobKind} {s t : State} (hk : currentJob s = some k) (h : JobEffect k s t) :
    StaysInWriteRegion s t :=
  ⟨h.regs, by rw [currentWrites_of_job hk]; exact h.outside⟩

theorem TokenEffect.staysInWriteRegion {c : Codec} {s t : State} (hk : currentJob s = some c.kind)
    (h : TokenEffect c s t) : StaysInWriteRegion s t :=
  ⟨h.regs, by rw [currentWrites_of_job hk]; exact h.outside⟩

/-- Opening a job writes no byte, unless it ends the job. -/
theorem OpenedOrEnded.staysInWriteRegion {k : JobKind} {s u : State} (hk : currentJob s = some k)
    (h : OpenedOrEnded k s u) : StaysInWriteRegion s u := by
  rcases h with ⟨c, rfl, -⟩ | he
  · exact ⟨keepsRegisters.codec s _, fun _ _ => rfl⟩
  · exact he.staysInWriteRegion hk

/-- The job step of any command. -/
theorem exec_staysInWriteRegion {s t : State} (ht : exec (decodeCommand s.cmd) s = .next t) :
    StaysInWriteRegion s t := by
  cases hk : currentJob s with
  | none =>
    rw [exec_reserved hk] at ht
    cases ht
    exact .errorCompletion .badOp s
  | some k =>
    obtain ⟨u, hu, he⟩ := exec_command_spec hk
    cases hu.symm.trans ht
    exact he.staysInWriteRegion hk

/-- The first of the finer steps of any command. -/
theorem beginJob_staysInWriteRegion {s t : State} (ht : beginJob (decodeCommand s.cmd) s = .next t) :
    StaysInWriteRegion s t := by
  cases hk : currentJob s with
  | none =>
    rw [beginJob_reserved hk] at ht
    cases ht
    exact .errorCompletion .badOp s
  | some k =>
    obtain ⟨u, hu, ho⟩ := beginJob_spec hk
    cases hu.symm.trans ht
    exact ho.staysInWriteRegion hk

/-- A token step inside a job that keeps its invariant. -/
theorem tokenStep_staysInWriteRegion {s t : State} {c : Codec} (hc : s.codec = some c) (hok : c.ok s)
    (ht : tokenStep exec c s = .next t) : StaysInWriteRegion s t := by
  obtain ⟨u, hu, he⟩ := tokenStep_spec hc hok
  cases hu.symm.trans ((tokenStep_exec c s).symm.trans ht)
  exact he.staysInWriteRegion hok.current.1

/-- Inside a job the engine's step is a token step of the job step. -/
theorem engineTurn_inJob {s : State} (hb : s.busy = true) {c : Codec} (hc : s.codec = some c) :
    engineTurn s = tokenStep exec c s := by
  simp only [engineTurn, hb, hc, if_true]

/-- Settles O53: at a job's start by the job step or its opening, inside a job by the token step, each of which writes only
the job's write region. -/
theorem engineWritesOnlyWriteRegion : Obligations.EngineWritesOnlyWriteRegion := by
  unfold Obligations.EngineWritesOnlyWriteRegion
  refine ⟨fun s a v => memRead_memWrite_same a v s, fun s t hinv hb hturn => ?_⟩
  obtain ⟨-, -, -, hjob⟩ := hinv
  cases hc : s.codec with
  | none =>
    rw [engineTurn_jobStart hb hc, engineFineTurn_jobStart hb hc] at hturn
    exact hturn.elim exec_staysInWriteRegion beginJob_staysInWriteRegion
  | some c =>
    rw [engineTurn_inJob hb hc, engineFineTurn_inJob hb hc, ← tokenStep_exec, or_self] at hturn
    exact tokenStep_staysInWriteRegion hc (hjob c hc) hturn

end Sys2Proof.Machine
end

section
/-! PROOF. The regions of a job (20_memory.md R69 to R71) and the order in which validation looks for its errors
(60_exceptions.md R275). -/

namespace Sys2Proof.Machine

/-- Settles O23, the table row by row. -/
theorem jobRegionsTable : Obligations.JobRegionsTable := by
  unfold Obligations.JobRegionsTable
  intro s
  refine ⟨?_, ?_, rfl, rfl, fun _ => rfl, rfl, rfl, rfl, rfl⟩
  · rintro k (rfl | rfl) <;> exact ⟨rfl, rfl⟩
  · rintro k (rfl | rfl) <;> exact ⟨rfl, rfl⟩

/-! ### What each error says of a job -/

/-- 20_memory.md R70: a region of the job that is not empty passes the top of the address space. -/
def OutOfRange (k : JobKind) (s : State) : Prop :=
  ∃ r ∈ writeRegion k s :: readRegions k s, r.len ≠ 0 ∧ 2 ^ s.cfg.addrW < r.base + r.len

/-- 20_memory.md R71: the write region and a read region share an address. -/
def SharesAddress (k : JobKind) (s : State) : Prop :=
  ∃ r ∈ readRegions k s, ∃ a, (writeRegion k s).has a = true ∧ r.has a = true

/-- 45_pixel.md R242: a SAMPLE job names no pixel of its image. -/
def CoordOutside (k : JobKind) (s : State) : Prop := k = .sample ∧ (s.width ≤ s.coordX ∨ s.height ≤ s.coordY)

/-- The jobs with OP 0x4, without and with the colour table (30_encoding.md R82). -/
def IsLz77 (k : JobKind) : Prop := k = .lz77 false ∨ k = .lz77 true

/-- 44_lz77.md R201: the source of an LZ77 job is shorter than a header. -/
def HeaderCut (k : JobKind) (s : State) : Prop := IsLz77 k ∧ s.srcLen.toNat < 3

/-- 44_lz77.md R202: the header of an LZ77 job names more than eight tail bits. -/
def TailTooLong (k : JobKind) (s : State) : Prop := IsLz77 k ∧ 3 ≤ s.srcLen.toNat ∧ 8 < (srcByte 2 s).toNat

theorem isLz77_lz77 (b : Bool) : IsLz77 (.lz77 b) := by cases b <;> simp [IsLz77]

theorem not_isLz77_sample : ¬IsLz77 .sample := by simp [IsLz77]

theorem any_not_inRange_iff (k : JobKind) (s : State) :
    (writeRegion k s :: readRegions k s).any (fun r => !r.inRange s.cfg) = true ↔ OutOfRange k s := by
  have hr : ∀ r : Region, (!r.inRange s.cfg) = true ↔ r.len ≠ 0 ∧ 2 ^ s.cfg.addrW < r.base + r.len := fun r => by
    rw [Bool.not_eq_true', ← Bool.not_eq_true, Region.inRange_iff, Config.memBytes, not_or, Nat.not_le]
  simp only [List.any_eq_true, hr, OutOfRange]

/-- Two regions overlap exactly where some address lies in both: the higher of their bases. -/
theorem Region.overlaps_iff_exists_has (r q : Region) :
    r.overlaps q = true ↔ ∃ a, r.has a = true ∧ q.has a = true := by
  constructor
  · intro h
    simp only [Region.overlaps, Bool.and_eq_true, decide_eq_true_eq] at h
    refine ⟨max r.base q.base, ?_⟩
    simp only [Region.has_iff]
    omega
  · rintro ⟨a, hr, hq⟩
    by_contra h
    rw [Region.disjoint_of_not_overlaps (Bool.not_eq_true _ ▸ h) hr] at hq
    cases hq

theorem any_overlaps_iff (k : JobKind) (s : State) :
    (readRegions k s).any (fun r => (writeRegion k s).overlaps r) = true ↔ SharesAddress k s := by
  simp only [List.any_eq_true, Region.overlaps_iff_exists_has, SharesAddress]

/-! ### What validation finds -/

theorem validate_outOfRange {k : JobKind} {s : State} (h : OutOfRange k s) : validate k s = some .range := by
  unfold validate
  rw [if_pos ((any_not_inRange_iff k s).2 h)]

theorem validate_sharesAddress {k : JobKind} {s : State} (h1 : ¬OutOfRange k s) (h2 : SharesAddress k s) :
    validate k s = some .overlap := by
  unfold validate
  rw [if_neg (mt (any_not_inRange_iff k s).1 h1), if_pos ((any_overlaps_iff k s).2 h2)]

/-- Everything validation can find where the regions are in order: the family's own errors, or none. -/
theorem validate_family {k : JobKind} {s : State} (h1 : ¬OutOfRange k s) (h2 : ¬SharesAddress k s) :
    (validate k s = some .coord ∧ CoordOutside k s) ∨ (validate k s = some .hdr ∧ HeaderCut k s) ∨
      (validate k s = some .tail ∧ TailTooLong k s) ∨
      (validate k s = none ∧ ¬CoordOutside k s ∧ ¬HeaderCut k s ∧ ¬TailTooLong k s) := by
  have hbits : flagBits = 8 := rfl
  unfold validate
  rw [if_neg (mt (any_not_inRange_iff k s).1 h1), if_neg (mt (any_overlaps_iff k s).1 h2)]
  cases k with
  | sample =>
    simp only
    split
    · next h => exact .inl ⟨rfl, rfl, h⟩
    · next h =>
      exact .inr (.inr (.inr ⟨rfl, fun hc => h hc.2, fun hh => not_isLz77_sample hh.1,
        fun ht => not_isLz77_sample ht.1⟩))
  | lz77 b =>
    have hk := isLz77_lz77 b
    simp only
    split
    · next h => exact .inr (.inl ⟨rfl, hk, h⟩)
    · next h =>
      split
      · next ht => exact .inr (.inr (.inl ⟨rfl, hk, by omega, by omega⟩))
      · next ht =>
        refine .inr (.inr (.inr ⟨rfl, ?_, ?_, ?_⟩))
        · simp [CoordOutside]
        · exact fun hh => h hh.2
        · exact fun ⟨_, _, h8⟩ => ht (by omega)
  | rle | lzw | qt | nmerge | xpose =>
    exact .inr (.inr (.inr ⟨rfl, by simp [CoordOutside], by simp [HeaderCut, IsLz77], by simp [TailTooLong, IsLz77]⟩))

theorem CoordOutside.not_header_not_tail {k : JobKind} {s : State} (h : CoordOutside k s) :
    ¬HeaderCut k s ∧ ¬TailTooLong k s := by
  obtain ⟨rfl, -⟩ := h
  exact ⟨fun hh => not_isLz77_sample hh.1, fun ht => not_isLz77_sample ht.1⟩

theorem HeaderCut.not_tailTooLong {k : JobKind} {s : State} (h : HeaderCut k s) : ¬TailTooLong k s := by
  rintro ⟨-, hlen, -⟩
  have := h.2
  omega

/-- Which error validation finds, exactly. -/
theorem validate_iff (k : JobKind) (s : State) :
    (validate k s = some .range ↔ OutOfRange k s) ∧
    (validate k s = some .overlap ↔ ¬OutOfRange k s ∧ SharesAddress k s) ∧
    (validate k s = some .coord ↔ ¬OutOfRange k s ∧ ¬SharesAddress k s ∧ CoordOutside k s) ∧
    (validate k s = some .hdr ↔ ¬OutOfRange k s ∧ ¬SharesAddress k s ∧ HeaderCut k s) ∧
    (validate k s = some .tail ↔ ¬OutOfRange k s ∧ ¬SharesAddress k s ∧ TailTooLong k s) ∧
    (validate k s = none ↔
      ¬OutOfRange k s ∧ ¬SharesAddress k s ∧ ¬CoordOutside k s ∧ ¬HeaderCut k s ∧ ¬TailTooLong k s) := by
  by_cases h1 : OutOfRange k s
  · simp [validate_outOfRange h1, h1]
  · by_cases h2 : SharesAddress k s
    · simp [validate_sharesAddress h1 h2, h1, h2]
    · rcases validate_family h1 h2 with ⟨e, hc⟩ | ⟨e, hh⟩ | ⟨e, ht⟩ | ⟨e, hc, hh, ht⟩
      · simp [e, h1, h2, hc, hc.not_header_not_tail]
      · have hc : ¬CoordOutside k s := fun hc => hc.not_header_not_tail.1 hh
        simp [e, h1, h2, hc, hh, hh.not_tailTooLong]
      · have hc : ¬CoordOutside k s := fun hc => hc.not_header_not_tail.2 ht
        have hh : ¬HeaderCut k s := fun hh => hh.not_tailTooLong ht
        simp [e, h1, h2, hc, hh, ht]
      · simp [e, h1, h2, hc, hh, ht]

/-! ### What the job step does with an error found -/

theorem errorCompletion_refusedWith (e : JobError) (s : State) : refusedWith e.code s (errorCompletion e s) :=
  ⟨⟨statusWord_busy .., statusWord_done .., statusWord_err .., statusWord_padded .., statusWord_inexh ..,
    statusWord_badcode .., rfl, rfl, keepsRegisters.errorCompletion e s⟩, rfl, rfl⟩

theorem validated_error {k : JobKind} {s : State} {e : JobError} (hv : validate k s = some e) (run : State → Result) :
    validated k run s = .next (errorCompletion e s) := by
  simp only [validated, hv]

/-- Every command with a job validates before its family rule runs (60_exceptions.md R275). -/
theorem exec_eq_validated {i : Instr} {k : JobKind} (hk : jobKind i = some k) :
    ∃ run : State → Result, ∀ s, exec i s = validated k run s := by
  cases i <;> simp only [jobKind, Option.some.injEq, reduceCtorEq] at hk <;> subst hk
  case rle => exact ⟨_, fun _ => rfl⟩
  case lzw => exact ⟨_, fun _ => rfl⟩
  case qt => exact ⟨_, fun _ => rfl⟩
  case lz77 => exact ⟨_, fun _ => rfl⟩
  case lz77Ct => exact ⟨_, fun _ => rfl⟩
  case nmerge => exact ⟨_, fun _ => rfl⟩
  case xpose => exact ⟨_, fun _ => rfl⟩
  case sample => exact ⟨_, fun _ => rfl⟩
  case sampleMir => exact ⟨_, fun _ => rfl⟩

/-- An error found is all that the job step of a command comes to. -/
theorem exec_validationError {i : Instr} {k : JobKind} (hk : jobKind i = some k) {s : State} {e : JobError}
    (hv : validate k s = some e) : exec i s = .next (errorCompletion e s) := by
  obtain ⟨run, hrun⟩ := exec_eq_validated hk
  rw [hrun, validated_error hv]

/-- Settles O24, from `validate_iff`; the job step completes with the error found. -/
theorem validationOrder : Obligations.ValidationOrder := by
  unfold Obligations.ValidationOrder
  intro k s
  obtain ⟨hrange, hoverlap, hcoord, hhdr, htail, hnone⟩ := validate_iff k s
  refine ⟨hrange, hoverlap, hcoord, hhdr, htail, hnone, fun hk e he => ?_, fun hk => ?_⟩
  · exact ⟨_, exec_validationError hk he, errorCompletion_refusedWith e s⟩
  · exact ⟨_, exec_reserved hk, errorCompletion_refusedWith .badOp s⟩

end Sys2Proof.Machine
end

section
/-! PROOF. Buffer memory as the host sees it (20_memory.md R62, R63, R73, R74). -/

namespace Sys2Proof.Machine

/-- Settles O18, by the laws of a memory write. -/
theorem memoryReadAfterWrite : Obligations.MemoryReadAfterWrite := by
  unfold Obligations.MemoryReadAfterWrite
  exact fun s a b v => ⟨memRead_memWrite_same a v s, fun h => memRead_memWrite_other h v s, Memory.wf_write a v⟩

/-- A turn of the host that writes a byte. -/
theorem step_writeMem {s : State} {rest : List Turn} {a : Nat} {v : Byte} (h : s.turns = .writeMem a v :: rest) :
    step s = hostWriteMem a v { s with turns := rest } := by
  simp only [step, takeTurn, h]

/-- A turn of the host that reads a byte. -/
theorem step_readMem {s : State} {rest : List Turn} {a : Nat} (h : s.turns = .readMem a :: rest) :
    step s = hostReadMem a { s with turns := rest } := by
  simp only [step, takeTurn, h]

/-- 20_memory.md R74: while BUSY a write to a byte of the job's regions is refused. -/
theorem hostWriteMem_refused {s : State} {a : Nat} (v : Byte) (ha : a < s.cfg.memBytes) (hb : s.busy = true)
    (h : ∃ r ∈ currentRegions s, r.has a = true) : hostWriteMem a v s = .refused .hostWriteInJobRegion := by
  unfold hostWriteMem
  rw [if_neg (Nat.not_le.2 ha), if_pos ⟨hb, List.any_eq_true.2 h⟩]

/-- Any other write of a byte that exists is a memory write. -/
theorem hostWriteMem_eq_memWrite {s : State} {a : Nat} (v : Byte) (ha : a < s.cfg.memBytes)
    (h : s.busy = false ∨ ∀ r ∈ currentRegions s, r.has a = false) : hostWriteMem a v s = .next (memWrite a v s) := by
  unfold hostWriteMem
  rw [if_neg (Nat.not_le.2 ha), if_neg]
  rintro ⟨hb, hr⟩
  obtain ⟨r, hmem, hhas⟩ := List.any_eq_true.1 hr
  rcases h with h | h
  · exact Bool.false_ne_true (h.symm.trans hb)
  · exact Bool.false_ne_true ((h r hmem).symm.trans hhas)

/-- 20_memory.md R74: while BUSY a byte of the job's write region reads as a draw. -/
theorem hostReadMem_drawn {s : State} {a : Nat} (ha : a < s.cfg.memBytes) (hb : s.busy = true)
    (h : (currentWrites s).has a = true) :
    hostReadMem a s = .next { receive ((Config.freeByte s.draws).setWidth 32) s with draws := s.draws + 1 } := by
  unfold hostReadMem
  rw [if_neg (Nat.not_le.2 ha), if_pos ⟨hb, h⟩]

/-- Any other byte that exists reads as it stands in memory (log 29 for a read region). -/
theorem hostReadMem_eq_receive {s : State} {a : Nat} (ha : a < s.cfg.memBytes)
    (h : s.busy = false ∨ (currentWrites s).has a = false) :
    hostReadMem a s = .next (receive ((memRead a s).setWidth 32) s) := by
  unfold hostReadMem
  rw [if_neg (Nat.not_le.2 ha), if_neg]
  rintro ⟨hb, hr⟩
  rcases h with h | h
  · exact Bool.false_ne_true (h.symm.trans hb)
  · exact Bool.false_ne_true (h.symm.trans hr)

/-- Settles O17, by the two answers of each host access to a byte that exists. -/
theorem hostMemoryAccess : Obligations.HostMemoryAccess := by
  unfold Obligations.HostMemoryAccess
  intro s rest a v ha
  refine ⟨fun h => ?_, fun h => ?_⟩
  · rw [step_writeMem h]
    refine ⟨fun ⟨hb, hr⟩ => hostWriteMem_refused (s := { s with turns := rest }) v ha hb hr, fun hfree => ?_⟩
    exact ⟨_, hostWriteMem_eq_memWrite (s := { s with turns := rest }) v ha hfree, memRead_memWrite_same a v _,
      fun b hne => memRead_memWrite_other hne v _, rfl⟩
  · rw [step_readMem h]
    exact ⟨fun ⟨hb, hw⟩ => hostReadMem_drawn (s := { s with turns := rest }) ha hb hw,
      fun hfree => hostReadMem_eq_receive (s := { s with turns := rest }) ha hfree⟩

end Sys2Proof.Machine
end

section
/-! PROOF. The bits an encoding stands in (30_encoding.md R80 to R91): the low bits of a word, whatever bits follow them. -/

namespace Sys2Proof.Machine

/-! ### Bits that follow -/

/-- The bits that follow `n` low bits do not reach into them. -/
theorem getLsbD_behind {a rest : Word} {n k : Nat} (h : k < n) :
    (a ||| (rest <<< n)).getLsbD k = a.getLsbD k := by
  simp [BitVec.getLsbD_or, BitVec.getLsbD_shiftLeft, h]

theorem extractLsb'_behind {a rest : Word} {n start len : Nat} (h : start + len ≤ n) :
    (a ||| (rest <<< n)).extractLsb' start len = a.extractLsb' start len := by
  ext k hk
  rw [BitVec.getElem_extractLsb', BitVec.getElem_extractLsb', getLsbD_behind (by omega)]

/-- A value of `n` bits is read back from a word with any bits behind it. -/
theorem toNat_behind_mod {a rest : Word} {n : Nat} (ha : a.toNat < 2 ^ n) :
    (a ||| (rest <<< n)).toNat % 2 ^ n = a.toNat := by
  apply Nat.eq_of_testBit_eq
  intro k
  rw [Nat.testBit_mod_two_pow, BitVec.testBit_toNat]
  by_cases hk : k < n
  · rw [getLsbD_behind hk, BitVec.testBit_toNat, decide_eq_true hk, Bool.true_and]
  · have hpow : 2 ^ n ≤ 2 ^ k := Nat.pow_le_pow_right (by decide) (by omega)
    rw [Nat.testBit_lt_two_pow (ha.trans_le hpow), decide_eq_false hk, Bool.false_and]

/-- Bits cut out of a word's low end are the word's remainder. -/
theorem toNat_setWidth_extractLsb'_zero {n : Nat} (hn : n ≤ 32) (w : Word) :
    ((w.extractLsb' 0 n).setWidth 32).toNat = w.toNat % 2 ^ n := by
  rw [BitVec.toNat_setWidth_of_le hn, BitVec.extractLsb'_toNat, Nat.shiftRight_zero]

/-- One bit of a word, cut out. -/
theorem ofBool_getLsbD (w : Word) (k : Nat) : BitVec.ofBool (w.getLsbD k) = w.extractLsb' k 1 := by
  ext i hi
  obtain rfl : i = 0 := by omega
  simp

/-! ### CMD words (30_encoding.md R80 to R82) -/

/-- The low six bits of a word are the CMD word of its fields. -/
theorem toNat_commandWord_fields (w : Word) :
    (commandWord (w.extractLsb' 0 4) (w.getLsbD 4) (w.getLsbD 5)).toNat = w.toNat % 2 ^ 6 := by
  rw [commandWord, ofBool_getLsbD, ofBool_getLsbD,
    BitVec.extractLsb'_append_extractLsb'_eq_extractLsb' (show 5 = 4 + 1 from rfl),
    BitVec.extractLsb'_append_extractLsb'_eq_extractLsb' (show 4 = 0 + 4 from rfl),
    toNat_setWidth_extractLsb'_zero (by decide)]

/-- OP 8 to 15 is a set bit 3 over OP[2:0]. -/
theorem reservedOp_eq {w : Word} (h : 8 ≤ (w.extractLsb' 0 4).toNat) :
    (1#1 ++ w.extractLsb' 0 3).setWidth 4 = w.extractLsb' 0 4 := by
  have h1 : w.extractLsb' 3 1 = 1#1 := by
    apply BitVec.eq_of_toNat_eq
    simp only [BitVec.extractLsb'_toNat, Nat.shiftRight_eq_div_pow, BitVec.toNat_ofNat] at h ⊢
    omega
  rw [← h1, BitVec.extractLsb'_append_extractLsb'_eq_extractLsb' (show 3 = 0 + 3 from rfl), BitVec.setWidth_eq]

/-- A command encodes to the fields it was decoded from. -/
theorem encode_decodeCommand (w : Word) :
    encode .command (decodeCommand w) = commandWord (w.extractLsb' 0 4) (w.getLsbD 4) (w.getLsbD 5) := by
  have hop {n : Nat} (h : (w.extractLsb' 0 4).toNat = n) : w.extractLsb' 0 4 = BitVec.ofNat 4 n := by
    rw [← h, BitVec.ofNat_toNat, BitVec.setWidth_eq]
  unfold decodeCommand
  simp only
  split_ifs with h0 h1 h2 h3 h4 hc h5 h6 h7 hm
  · rw [hop h0]; rfl
  · rw [hop h1]; rfl
  · rw [hop h2]; rfl
  · rw [hop h3]; rfl
  · rw [hop h4, hc]; rfl
  · rw [hop h4, Bool.eq_false_of_not_eq_true hc]; rfl
  · rw [hop h5]; rfl
  · rw [hop h6]; rfl
  · rw [hop h7, hm]; rfl
  · rw [hop h7, Bool.eq_false_of_not_eq_true hm]; rfl
  · rw [encode, reservedOp_eq (by omega)]

/-- 30_encoding.md R81: the bits from bit 6 on do not matter. -/
theorem decodeCommand_behind (a rest : Word) : decodeCommand (a ||| (rest <<< 6)) = decodeCommand a := by
  simp only [decodeCommand, getLsbD_behind (show 4 < 6 by decide), getLsbD_behind (show 5 < 6 by decide),
    extractLsb'_behind (show 0 + 4 ≤ 6 by decide), extractLsb'_behind (show 0 + 3 ≤ 6 by decide)]

theorem decodeCommand_encode {i : Instr} (h : i.fits .command = true) : decodeCommand (encode .command i) = i := by
  cases i with
  | rle ctab mirror | lzw ctab mirror | qt ctab mirror | nmerge ctab mirror | xpose ctab mirror
  | reserved0 ctab mirror => cases ctab <;> cases mirror <;> rfl
  | lz77 b | lz77Ct b | sample b | sampleMir b => cases b <;> rfl
  | reserved8F low ctab mirror => revert low ctab mirror; decide
  | _ => exact absurd h (by simp [Instr.fits])

/-- Settles O4: the effects of the two words are the same in every branch of the command decoder. -/
theorem commandDecodeUsesOpAndItsOption : Obligations.CommandDecodeUsesOpAndItsOption := by
  unfold Obligations.CommandDecodeUsesOpAndItsOption
  intro v w s hop hctab hmirror
  rw [hop] at hctab hmirror
  simp only [decodeCommand, hop]
  by_cases h4 : w.extractLsb' 0 4 = 4#4
  · rw [h4, hctab h4]
    cases w.getLsbD 4 <;> rfl
  by_cases h7 : w.extractLsb' 0 4 = 7#4
  · rw [h7, hmirror h7]
    cases w.getLsbD 5 <;> rfl
  have h4' : (w.extractLsb' 0 4).toNat ≠ 4 := fun h => h4 (BitVec.eq_of_toNat_eq h)
  have h7' : (w.extractLsb' 0 4).toNat ≠ 7 := fun h => h7 (BitVec.eq_of_toNat_eq h)
  simp only [if_neg h4', if_neg h7']
  split_ifs <;> rfl

end Sys2Proof.Machine
end

section
/-! PROOF. Every token decodes from its own encoding, and every word decodes to a token that encodes to the bits used
(30_encoding.md R83 to R93, 43_quadtree.md R178 to R182). -/

namespace Sys2Proof.Machine

/-- What decoding a word gives back (30_encoding.md R93): an instruction that fits, whose encoding is the bits used. -/
def Recodes (ctx : Ctx) (w : Word) (i : Instr) : Prop :=
  i.fits ctx = true ∧ (encode ctx i).toNat = w.toNat % 2 ^ usedBits ctx i

/-! ### RLE control bytes (30_encoding.md R84) -/

/-- Bit 7 of the control byte is the class, bits 6:0 the count. -/
theorem decodeRle_eq (w : Word) :
    decodeRle w =
      if w.getLsbD 7 then .rleRun (w.extractLsb' 0 7) (w.extractLsb' 8 8) else .rleLit (w.extractLsb' 0 7) := by
  have hclass : (w.extractLsb' 0 8).getLsbD 7 = w.getLsbD 7 := by simp
  have hcount : (w.extractLsb' 0 8).extractLsb' 0 7 = w.extractLsb' 0 7 := by
    ext k hk
    simp
  simp only [decodeRle, isRunControl_eq, litCount_eq, hclass]
  split
  · next h => rw [runCount_eq (hclass.trans h), hcount]
  · rw [hcount]

theorem encode_rleRun (ctx : Ctx) (count : BitVec 7) (value : Byte) :
    encode ctx (.rleRun count value) = (value ++ (1#1 ++ count)).setWidth 32 := by
  rw [encode, runControl_eq]

theorem encode_rleLit (ctx : Ctx) (count : BitVec 7) : encode ctx (.rleLit count) = (0#1 ++ count).setWidth 32 := by
  apply BitVec.eq_of_toNat_eq
  rw [encode, BitVec.toNat_setWidth_of_le (by decide), BitVec.toNat_setWidth_of_le (by decide), BitVec.toNat_append]
  simp

theorem decodeRle_encode {i : Instr} (h : i.fits .rle = true) (rest : Word) :
    decodeRle (encode .rle i ||| (rest <<< usedBits .rle i)) = i := by
  cases i with
  | rleLit count =>
    have hclass : ((0#1 ++ count).setWidth 32).getLsbD 7 = false := by
      simp only [BitVec.getLsbD_setWidth, BitVec.getLsbD_append]
      rfl
    simp only [usedBits, tokenBits, decodeRle_eq]
    rw [getLsbD_behind (by decide), extractLsb'_behind (by decide), encode_rleLit, hclass,
      BitVec.extractLsb'_setWidth_of_le (by decide), BitVec.extractLsb'_append_eq_right, if_neg (by decide)]
  | rleRun count value =>
    have hclass : ((value ++ (1#1 ++ count)).setWidth 32).getLsbD 7 = true := by
      simp only [BitVec.getLsbD_setWidth, BitVec.getLsbD_append]
      rfl
    simp only [usedBits, tokenBits, decodeRle_eq]
    rw [getLsbD_behind (by decide), extractLsb'_behind (by decide), extractLsb'_behind (by decide), encode_rleRun, hclass,
      BitVec.extractLsb'_setWidth_of_le (by decide), BitVec.extractLsb'_setWidth_of_le (by decide),
      BitVec.extractLsb'_append_eq_left, BitVec.extractLsb'_append_eq_of_add_le (by decide),
      BitVec.extractLsb'_append_eq_right, if_pos rfl]
  | _ => exact absurd h (by simp [Instr.fits])

theorem decodeRle_recodes (w : Word) : Recodes .rle w (decodeRle w) := by
  have hclass := ofBool_getLsbD w 7
  rw [decodeRle_eq]
  split
  · next h =>
    rw [h] at hclass
    refine ⟨rfl, ?_⟩
    rw [encode_rleRun, show 1#1 = _ from hclass,
      BitVec.extractLsb'_append_extractLsb'_eq_extractLsb' (show 7 = 0 + 7 from rfl),
      BitVec.extractLsb'_append_extractLsb'_eq_extractLsb' (show 8 = 0 + 8 from rfl)]
    exact toNat_setWidth_extractLsb'_zero (by decide) w
  · next h =>
    rw [Bool.eq_false_of_not_eq_true h] at hclass
    refine ⟨rfl, ?_⟩
    rw [encode_rleLit, show 0#1 = _ from hclass,
      BitVec.extractLsb'_append_extractLsb'_eq_extractLsb' (show 7 = 0 + 7 from rfl)]
    exact toNat_setWidth_extractLsb'_zero (by decide) w

/-! ### LZW codes (30_encoding.md R86, R87) -/

section
variable {width next : Nat} {hasPrev : Bool} {code : BitVec lzwWidthMax} {i : Instr}

theorem fits_lzwDict_iff : (Instr.lzwDict code).fits (.lzw width next hasPrev) = true ↔
    lzwClearCode < code.toNat ∧ code.toNat < next ∧ code.toNat < 2 ^ width := by
  simp [Instr.fits, and_assoc]

theorem fits_lzwKwkwk_iff : (Instr.lzwKwkwk code).fits (.lzw width next hasPrev) = true ↔
    lzwClearCode < code.toNat ∧ (code.toNat = next ∧ hasPrev = true) ∧ code.toNat < 2 ^ width := by
  simp [Instr.fits, and_assoc]

theorem fits_lzwBad_iff : (Instr.lzwBad code).fits (.lzw width next hasPrev) = true ↔
    lzwClearCode < code.toNat ∧ next ≤ code.toNat ∧ ¬(code.toNat = next ∧ hasPrev = true) ∧ code.toNat < 2 ^ width := by
  simp only [Instr.fits, Bool.and_eq_true, Bool.or_eq_true, decide_eq_true_eq, Bool.not_eq_true']
  cases hasPrev <;> simp <;> omega

theorem decodeLzw_recodes (hctx : (Ctx.lzw width next hasPrev).wf = true) (w : Word) :
    Recodes (.lzw width next hasPrev) w (decodeLzw width next hasPrev w) := by
  obtain ⟨c, hc⟩ : ∃ c, c = w.toNat % 2 ^ width := ⟨_, rfl⟩
  simp only [Ctx.wf, Bool.and_eq_true, decide_eq_true_eq] at hctx
  have hlt : c < 2 ^ width := hc ▸ Nat.mod_lt _ (Nat.two_pow_pos _)
  have hmax : c < 2 ^ 12 := hlt.trans_le (Nat.pow_le_pow_right (by decide) hctx.1.2)
  have hcode : (BitVec.ofNat lzwWidthMax c).toNat = c := Nat.mod_eq_of_lt hmax
  have hword : ((BitVec.ofNat lzwWidthMax c).setWidth 32).toNat = c := by
    rw [BitVec.toNat_setWidth_of_le (by decide), hcode]
  simp only [Recodes, decodeLzw, usedBits, ← hc]
  split_ifs with hclear hlit hdict hkwkwk
  · exact ⟨rfl, by rw [encode, tokenBits, Ctx.codeWidth, ← hc, hclear]; rfl⟩
  · refine ⟨rfl, ?_⟩
    rw [encode, tokenBits, Ctx.codeWidth, ← hc, BitVec.toNat_setWidth_of_le (by decide)]
    exact Nat.mod_eq_of_lt hlit
  all_goals
    have habove : lzwClearCode < c := by
      have : lzwLiterals = lzwClearCode := rfl
      omega
    refine ⟨?_, by rw [encode, tokenBits, Ctx.codeWidth, ← hc, hword]⟩
  · rw [fits_lzwDict_iff, hcode]
    exact ⟨habove, hdict, hlt⟩
  · rw [fits_lzwKwkwk_iff, hcode]
    exact ⟨habove, hkwkwk, hlt⟩
  · rw [fits_lzwBad_iff, hcode]
    exact ⟨habove, by omega, hkwkwk, hlt⟩

/-- A code that fits takes no more than WIDTH bits. -/
theorem encode_lt_of_fits_lzw (hctx : (Ctx.lzw width next hasPrev).wf = true)
    (h : i.fits (.lzw width next hasPrev) = true) :
    (encode (.lzw width next hasPrev) i).toNat < 2 ^ width ∧ usedBits (.lzw width next hasPrev) i = width := by
  simp only [Ctx.wf, Bool.and_eq_true, decide_eq_true_eq] at hctx
  have hwidth : 2 ^ 9 ≤ 2 ^ width := Nat.pow_le_pow_right (by decide) hctx.1.1
  have hcode (code : BitVec lzwWidthMax) (hlt : code.toNat < 2 ^ width) : (code.setWidth 32).toNat < 2 ^ width := by
    rwa [BitVec.toNat_setWidth_of_le (by decide)]
  cases i with
  | lzwClear => exact ⟨(show 256 < 2 ^ 9 by decide).trans_le hwidth, rfl⟩
  | lzwLit byte =>
    refine ⟨?_, rfl⟩
    rw [encode, BitVec.toNat_setWidth_of_le (by decide)]
    omega
  | lzwDict code => exact ⟨hcode code (fits_lzwDict_iff.1 h).2.2, rfl⟩
  | lzwKwkwk code => exact ⟨hcode code (fits_lzwKwkwk_iff.1 h).2.2, rfl⟩
  | lzwBad code => exact ⟨hcode code (fits_lzwBad_iff.1 h).2.2.2, rfl⟩
  | _ => exact absurd h (by simp [Instr.fits])

/-- An instruction that fits is the class its code is decoded to. -/
theorem decodeLzw_of_code {w : Word} (h : i.fits (.lzw width next hasPrev) = true)
    (hcode : w.toNat % 2 ^ width = (encode (.lzw width next hasPrev) i).toNat) : decodeLzw width next hasPrev w = i := by
  simp only [decodeLzw, hcode]
  have hclear : lzwClearCode = 256 := rfl
  have hlits : lzwLiterals = 256 := rfl
  cases i with
  | lzwClear => rfl
  | lzwLit byte =>
    rw [encode, BitVec.toNat_setWidth_of_le (by decide), if_neg (by omega), if_pos (by omega), BitVec.ofNat_toNat,
      BitVec.setWidth_eq]
  | lzwDict code =>
    obtain ⟨habove, hnext, -⟩ := fits_lzwDict_iff.1 h
    rw [encode, BitVec.toNat_setWidth_of_le (by decide), if_neg (by omega), if_neg (by omega), if_pos hnext,
      BitVec.ofNat_toNat, BitVec.setWidth_eq]
  | lzwKwkwk code =>
    obtain ⟨habove, hnext, -⟩ := fits_lzwKwkwk_iff.1 h
    rw [encode, BitVec.toNat_setWidth_of_le (by decide), if_neg (by omega), if_neg (by omega), if_neg (by omega),
      if_pos hnext, BitVec.ofNat_toNat, BitVec.setWidth_eq]
  | lzwBad code =>
    obtain ⟨habove, hnext, hnot, -⟩ := fits_lzwBad_iff.1 h
    rw [encode, BitVec.toNat_setWidth_of_le (by decide), if_neg (by omega), if_neg (by omega), if_neg (by omega),
      if_neg hnot, BitVec.ofNat_toNat, BitVec.setWidth_eq]
  | _ => exact absurd h (by simp [Instr.fits])

theorem decodeLzw_encode (hctx : (Ctx.lzw width next hasPrev).wf = true)
    (h : i.fits (.lzw width next hasPrev) = true) (rest : Word) :
    decodeLzw width next hasPrev
      (encode (.lzw width next hasPrev) i ||| (rest <<< usedBits (.lzw width next hasPrev) i)) = i := by
  obtain ⟨hlt, hused⟩ := encode_lt_of_fits_lzw hctx h
  rw [hused]
  exact decodeLzw_of_code h (toNat_behind_mod hlt)

end

/-! ### Quadtree leaves (43_quadtree.md R178 to R185) -/

section
variable {w h : Nat} {f : Byte}

theorem fits_qtLeafRaw_iff : (Instr.qtLeafRaw f).fits (.qtQuadrant false w h) = true ↔
    ¬(w = 1 ∧ h = 1) ∧ f.toNat < 2 ^ bitcount1 (w * h) ∧ rawTest (w * h) (f.toNat + 1) = true := by
  simp [Instr.fits, and_assoc, imp_iff_not_or]

theorem fits_qtLeafFill_iff {value : Byte} : (Instr.qtLeafFill value).fits (.qtQuadrant false w h) = true ↔
    ¬(w = 1 ∧ h = 1) ∧ ¬rawTest (w * h) 1 = true := by
  simp [Instr.fits, imp_iff_not_or]

theorem fits_qtLeafIdx_iff : (Instr.qtLeafIdx f).fits (.qtQuadrant false w h) = true ↔
    ¬(w = 1 ∧ h = 1) ∧ f.toNat < 2 ^ bitcount1 (w * h) ∧ f ≠ 0 ∧ ¬rawTest (w * h) (f.toNat + 1) = true := by
  simp [Instr.fits, and_assoc, imp_iff_not_or]

end

/-- A leaf of one pixel. -/
theorem decodeLeaf_one (word : Word) : decodeLeaf 1 1 word = .ok (.qtLeaf1 (word.extractLsb' 0 8)) := rfl

/-- A leaf of more pixels, by its firstval (43_quadtree.md R178). -/
theorem decodeLeaf_larger {w h : Nat} (hpos : w ≠ 0 ∧ h ≠ 0) (hone : ¬(w = 1 ∧ h = 1)) (word : Word) :
    decodeLeaf w h word =
      if rawTest (w * h) (leafFirstval w h word + 1) then .ok (.qtLeafRaw (BitVec.ofNat 8 (leafFirstval w h word)))
      else if leafFirstval w h word = 0 then .ok (.qtLeafFill (word.extractLsb' (bitcount1 (w * h)) 8))
      else .ok (.qtLeafIdx (BitVec.ofNat 8 (leafFirstval w h word))) := by
  have hshift (n : Nat) : (word >>> n).extractLsb' 0 8 = word.extractLsb' n 8 := by
    ext k hk
    simp
  rw [decodeLeaf, if_neg (by omega), if_neg hone, ← hshift]
  rfl

/-- A fill's value stands behind its firstval, which is 0. -/
theorem toNat_fillWord {n : Nat} (hn : n ≤ 8) (value : Byte) :
    (value.setWidth 32 <<< n : Word).toNat = 2 ^ n * value.toNat := by
  have hpow : 2 ^ n ≤ 2 ^ 8 := Nat.pow_le_pow_right (by decide) hn
  have hlt : value.toNat * 2 ^ n < 2 ^ 32 := by
    calc value.toNat * 2 ^ n ≤ 2 ^ 8 * 2 ^ 8 := Nat.mul_le_mul value.isLt.le hpow
      _ < 2 ^ 32 := by decide
  rw [BitVec.toNat_shiftLeft, BitVec.toNat_setWidth_of_le (by decide), Nat.shiftLeft_eq, Nat.mod_eq_of_lt hlt,
    Nat.mul_comm]

theorem decodeLeaf_recodes {w h : Nat} (hpos : w ≠ 0 ∧ h ≠ 0) (word : Word) :
    ∃ i, decodeLeaf w h word = .ok i ∧ Recodes (.qtQuadrant false w h) word i := by
  by_cases hone : w = 1 ∧ h = 1
  · obtain ⟨rfl, rfl⟩ := hone
    exact ⟨_, decodeLeaf_one word, rfl, toNat_setWidth_extractLsb'_zero (by decide) word⟩
  have hfirst := toNat_leafFirstval w h word
  have hlt : leafFirstval w h word < 2 ^ bitcount1 (w * h) := Nat.mod_lt _ (Nat.two_pow_pos _)
  rw [decodeLeaf_larger hpos hone]
  by_cases hraw : rawTest (w * h) (leafFirstval w h word + 1) = true
  · rw [if_pos hraw]
    refine ⟨_, rfl, ?_, ?_⟩
    · rw [fits_qtLeafRaw_iff, hfirst]
      exact ⟨hone, hlt, hraw⟩
    · rw [encode, BitVec.toNat_setWidth_of_le (by decide), hfirst]
      rfl
  rw [if_neg hraw]
  by_cases hzero : leafFirstval w h word = 0
  · rw [if_pos hzero]
    rw [hzero] at hraw
    refine ⟨_, rfl, fits_qtLeafFill_iff.2 ⟨hone, hraw⟩, ?_⟩
    rw [leafFirstval] at hzero
    simp only [encode, usedBits, tokenBits, Ctx.leafArea]
    rw [toNat_fillWord (Laws.FitsWf.bitcount1_le _), BitVec.extractLsb'_toNat, Nat.shiftRight_eq_div_pow, Nat.pow_add,
      Nat.mod_mul, hzero, Nat.zero_add]
  · rw [if_neg hzero]
    refine ⟨_, rfl, ?_, ?_⟩
    · rw [fits_qtLeafIdx_iff, hfirst]
      exact ⟨hone, hlt, fun e => hzero (hfirst.symm.trans (congrArg BitVec.toNat e)), hraw⟩
    · rw [encode, BitVec.toNat_setWidth_of_le (by decide), hfirst]
      rfl

/-- The firstval of a raw or an indexed leaf is read back. -/
theorem leafFirstval_behind {w h : Nat} {f : Byte} (hf : f.toNat < 2 ^ bitcount1 (w * h)) (rest : Word) :
    leafFirstval w h (f.setWidth 32 ||| (rest <<< bitcount1 (w * h))) = f.toNat := by
  have hword : (f.setWidth 32).toNat = f.toNat := BitVec.toNat_setWidth_of_le (by decide)
  rw [leafFirstval, toNat_behind_mod (hword ▸ hf), hword]

/-- A fill's firstval is 0. -/
theorem leafFirstval_fill (w h : Nat) (v rest : Word) :
    leafFirstval w h ((v <<< bitcount1 (w * h)) ||| (rest <<< (bitcount1 (w * h) + 8))) = 0 := by
  have hsplit : (v <<< bitcount1 (w * h)) ||| (rest <<< (bitcount1 (w * h) + 8)) =
      0#32 ||| ((v ||| rest <<< 8) <<< bitcount1 (w * h)) := by
    rw [Nat.add_comm, BitVec.shiftLeft_add, BitVec.zero_or, BitVec.shiftLeft_or_distrib]
  rw [leafFirstval, hsplit, toNat_behind_mod (Nat.two_pow_pos _)]
  rfl

theorem extractLsb'_fill {n : Nat} (hn : n ≤ 8) (value : Byte) :
    (value.setWidth 32 <<< n : Word).extractLsb' n 8 = value := by
  ext k hk
  have : n + k < 32 := by omega
  simp [this, BitVec.getLsbD_eq_getElem hk]

theorem decodeLeaf_encode {w h : Nat} (hpos : w ≠ 0 ∧ h ≠ 0) {i : Instr}
    (hi : i.fits (.qtQuadrant false w h) = true) (rest : Word) :
    decodeLeaf w h (encode (.qtQuadrant false w h) i ||| (rest <<< usedBits (.qtQuadrant false w h) i)) = .ok i := by
  cases i with
  | qtLeaf1 value =>
    simp only [Instr.fits, Bool.and_eq_true, decide_eq_true_eq] at hi
    obtain ⟨rfl, rfl⟩ := hi
    simp only [encode, usedBits, tokenBits]
    rw [decodeLeaf_one, extractLsb'_behind (by decide), BitVec.extractLsb'_setWidth_of_le (by decide),
      BitVec.extractLsb'_eq_self]
  | qtLeafRaw f =>
    obtain ⟨hone, hf, hraw⟩ := fits_qtLeafRaw_iff.1 hi
    simp only [encode, usedBits, tokenBits, Ctx.leafArea]
    rw [decodeLeaf_larger hpos hone, leafFirstval_behind hf, if_pos hraw, BitVec.ofNat_toNat, BitVec.setWidth_eq]
  | qtLeafFill value =>
    obtain ⟨hone, hraw⟩ := fits_qtLeafFill_iff.1 hi
    simp only [encode, usedBits, tokenBits, Ctx.leafArea]
    rw [decodeLeaf_larger hpos hone, leafFirstval_fill, if_neg hraw, if_pos rfl, extractLsb'_behind (Nat.le_refl _),
      extractLsb'_fill (Laws.FitsWf.bitcount1_le _)]
  | qtLeafIdx f =>
    obtain ⟨hone, hf, hne, hraw⟩ := fits_qtLeafIdx_iff.1 hi
    have hzero : f.toNat ≠ 0 := fun e => hne (BitVec.eq_of_toNat_eq e)
    simp only [encode, usedBits, tokenBits, Ctx.leafArea]
    rw [decodeLeaf_larger hpos hone, leafFirstval_behind hf, if_neg hraw, if_neg hzero, BitVec.ofNat_toNat,
      BitVec.setWidth_eq]
  | _ => exact absurd hi (by simp [Instr.fits])

/-! ### Every context -/

theorem wf_of_fits {ctx : Ctx} {i : Instr} (hctx : ctx.wf = true) (h : i.fits ctx = true) : i.wf = true := by
  cases i with
  | lzwDict code => exact (Laws.FitsWf.lzwDict code ctx hctx h).1
  | lzwKwkwk code => exact (Laws.FitsWf.lzwKwkwk code ctx hctx h).1
  | lzwBad code => exact (Laws.FitsWf.lzwBad code ctx hctx h).1
  | qtLeafRaw f => exact (Laws.FitsWf.qtLeafRaw f ctx hctx h).1
  | qtLeafIdx f => exact (Laws.FitsWf.qtLeafIdx f ctx hctx h).1
  | _ => rfl

theorem quadrant_notEmpty {w h : Nat} (hctx : (Ctx.qtQuadrant false w h).wf = true) : w ≠ 0 ∧ h ≠ 0 := by
  simpa [Ctx.wf] using hctx

/-- A token of one field is read back. -/
theorem extractLsb'_field {n : Nat} (hn : n ≤ 32) (x : BitVec n) (rest : Word) :
    (x.setWidth 32 ||| (rest <<< n)).extractLsb' 0 n = x := by
  rw [extractLsb'_behind (by omega), BitVec.extractLsb'_setWidth_of_le (by omega), BitVec.extractLsb'_eq_self]

/-- Both fields of a token of two are read back. -/
theorem extractLsb'_fields {m n : Nat} (hn : m + n ≤ 32) (hi : BitVec m) (lo : BitVec n) (rest : Word) :
    let w := (hi ++ lo).setWidth 32 ||| (rest <<< (m + n))
    w.extractLsb' 0 n = lo ∧ w.extractLsb' n m = hi := by
  refine ⟨?_, ?_⟩
  · rw [extractLsb'_behind (by omega), BitVec.extractLsb'_setWidth_of_le (by omega), BitVec.extractLsb'_append_eq_right]
  · rw [extractLsb'_behind (by omega), BitVec.extractLsb'_setWidth_of_le (by omega), BitVec.extractLsb'_append_eq_left]

/-- Settles O1: each format's decoder reads its own encoding back, whatever follows. -/
theorem decodeOfEncode : Obligations.DecodeOfEncode := by
  unfold Obligations.DecodeOfEncode
  intro ctx i rest hctx h
  cases ctx with
  | command => exact congrArg Except.ok ((decodeCommand_behind _ rest).trans (decodeCommand_encode h))
  | rle => exact congrArg Except.ok (decodeRle_encode h rest)
  | lzw width next hasPrev => exact congrArg Except.ok (decodeLzw_encode hctx h rest)
  | qtMask =>
    cases i with
    | qtMask mask => exact congrArg (Except.ok ∘ Instr.qtMask) (extractLsb'_field (by decide) mask rest)
    | _ => exact absurd h (by simp [Instr.fits])
  | qtQuadrant bit w q =>
    cases bit with
    | false => exact decodeLeaf_encode (quadrant_notEmpty hctx) h rest
    | true =>
      cases i with
      | qtSub => rfl
      | _ => exact absurd h (by simp [Instr.fits])
  | lz77Hdr =>
    cases i with
    | lz77Hdr groups tailBits =>
      obtain ⟨hlo, hhi⟩ := extractLsb'_fields (by decide) tailBits groups rest
      exact congrArg₂ (fun g t => Except.ok (Instr.lz77Hdr g t)) hlo hhi
    | _ => exact absurd h (by simp [Instr.fits])
  | lz77Flag =>
    cases i with
    | lz77Flag flags => exact congrArg (Except.ok ∘ Instr.lz77Flag) (extractLsb'_field (by decide) flags rest)
    | _ => exact absurd h (by simp [Instr.fits])
  | lz77Decision bit =>
    cases bit with
    | false =>
      cases i with
      | lz77Lit byte => exact congrArg (Except.ok ∘ Instr.lz77Lit) (extractLsb'_field (by decide) byte rest)
      | _ => exact absurd h (by simp [Instr.fits])
    | true =>
      cases i with
      | lz77Bref len dist =>
        obtain ⟨hlo, hhi⟩ := extractLsb'_fields (by decide) dist len rest
        exact congrArg₂ (fun l d => Except.ok (Instr.lz77Bref l d)) hlo hhi
      | _ => exact absurd h (by simp [Instr.fits])

/-- Settles O2: what each format's decoder answers recodes the word, and what fits is well formed. -/
theorem encodeOfDecode : Obligations.EncodeOfDecode := by
  unfold Obligations.EncodeOfDecode
  intro ctx w hctx
  suffices h : ∃ i, decode ctx w = .ok i ∧ Recodes ctx w i by
    obtain ⟨i, hdec, hfits, henc⟩ := h
    exact ⟨i, hdec, hfits, wf_of_fits hctx hfits, henc⟩
  cases ctx with
  | command =>
    refine ⟨_, rfl, decodeCommand_fits w, ?_⟩
    rw [encode_decodeCommand]
    exact toNat_commandWord_fields w
  | rle => exact ⟨_, rfl, decodeRle_recodes w⟩
  | lzw width next hasPrev => exact ⟨_, rfl, decodeLzw_recodes hctx w⟩
  | qtMask => exact ⟨_, rfl, rfl, toNat_setWidth_extractLsb'_zero (by decide) w⟩
  | qtQuadrant bit qw qh =>
    cases bit with
    | false => exact decodeLeaf_recodes (quadrant_notEmpty hctx) w
    | true => exact ⟨_, rfl, rfl, (Nat.mod_one _).symm⟩
  | lz77Hdr =>
    refine ⟨_, rfl, rfl, ?_⟩
    rw [encode, BitVec.extractLsb'_append_extractLsb'_eq_extractLsb' (show 16 = 0 + 16 from rfl)]
    exact toNat_setWidth_extractLsb'_zero (by decide) w
  | lz77Flag => exact ⟨_, rfl, rfl, toNat_setWidth_extractLsb'_zero (by decide) w⟩
  | lz77Decision bit =>
    cases bit with
    | false => exact ⟨_, rfl, rfl, toNat_setWidth_extractLsb'_zero (by decide) w⟩
    | true =>
      refine ⟨_, rfl, rfl, ?_⟩
      rw [encode, BitVec.extractLsb'_append_extractLsb'_eq_extractLsb' (show lz77LenBits = 0 + 4 from rfl)]
      exact toNat_setWidth_extractLsb'_zero (by decide) w

end Sys2Proof.Machine
end

section
/-! PROOF. Words written out from the encoding tables, and the turns of the host's JOB (30_encoding.md R82 to R96). -/

namespace Sys2Proof.Machine

/-- Settles O3, by running the decoder on the eleven words. -/
theorem writtenWordsDecode : Obligations.WrittenWordsDecode := by
  unfold Obligations.WrittenWordsDecode
  decide

/-- A pair operand is one word, the first half low (30_encoding.md R96). -/
theorem pairWord_eq (lo hi : BitVec 16) : (hi ++ lo).setWidth 32 = BitVec.ofNat 32 (hi.toNat * 65536 + lo.toNat) := by
  apply BitVec.eq_of_toNat_eq
  have hlo := lo.isLt
  have hhi := hi.isLt
  rw [BitVec.setWidth_eq, BitVec.toNat_append, BitVec.toNat_ofNat, ← Nat.shiftLeft_add_eq_or_of_lt hlo,
    Nat.shiftLeft_eq]
  omega

/-- Settles O19: the writes of each operand in turn, a pair's word by `pairWord_eq`. -/
theorem jobNotationExpands : Obligations.JobNotationExpands := by
  unfold Obligations.JobNotationExpands
  intro c i sb sn db dn ab an w h x y
  rw [← pairWord_eq, ← pairWord_eq]
  exact ⟨rfl, rfl⟩

end Sys2Proof.Machine
end

section
/-! PROOF. A word of the opcode table laid for the next step (30_encoding.md R80, R94; logs 11, 12). -/

namespace Sys2Proof.Machine

/-! ### The bytes laid -/

/-- Byte `k` of what is laid is byte `k` of the value. -/
theorem read_layBytes (a v : Nat) (m : Memory) {k n : Nat} (h : k < n) :
    Memory.read (a + k) (layBytes a v n m) = BitVec.ofNat 8 (v >>> (8 * k)) := by
  induction n with
  | zero => exact absurd h (Nat.not_lt_zero k)
  | succ n ih =>
    rw [layBytes, Memory.read]
    rcases Nat.lt_succ_iff_lt_or_eq.1 h with hlt | rfl
    · rw [Memory.lookup_write_other (by omega)]
      exact ih hlt
    · rw [Memory.lookup_write_same]
      rfl

/-- A stream that starts with the four bytes of a word shows that word to the decoder. -/
theorem window_zero_of_bytes {s : State} {word : Word} (h : ∀ k, k < 4 → srcZ k s = word.extractLsb' (8 * k) 8) :
    window 0 s = word := by
  rw [window, h _ (by decide), h _ (by decide), h _ (by decide), h _ (by decide),
    BitVec.extractLsb'_append_extractLsb'_eq_extractLsb' (by decide),
    BitVec.extractLsb'_append_extractLsb'_eq_extractLsb' (by decide),
    BitVec.extractLsb'_append_extractLsb'_eq_extractLsb' (by decide)]
  calc (word.extractLsb' 0 32).setWidth 32 >>> 0 = word.extractLsb' 0 32 := by
        rw [BitVec.ushiftRight_zero, BitVec.setWidth_eq]
    _ = word := BitVec.extractLsb'_eq_self

/-! ### Where the word is laid -/

/-- A job in progress at a token of the given format, the stream at the start of `mem`. -/
def jobLaid (ctx : Ctx) (mem : Memory) (s : State) : State :=
  { s with
    cmd := tableOp ctx, status := statusStarted, srcBase := 0, srcLen := BitVec.ofNat 32 longestToken,
    dstBase := 0x100, dstLen := 64, dim := 0x00010001#32, codec := tableCodec ctx, turns := [], mem := mem }

section
variable (ctx : Ctx) (mem : Memory) (s : State)

theorem jobLaid_turns : (jobLaid ctx mem s).turns = [] := rfl
theorem jobLaid_busy : (jobLaid ctx mem s).busy = true := busy_of_started rfl
@[simp] theorem jobLaid_srcLen : (jobLaid ctx mem s).srcLen.toNat = 128 := rfl
@[simp] theorem jobLaid_dstLen : (jobLaid ctx mem s).dstLen.toNat = 64 := rfl

theorem srcZ_jobLaid {k : Nat} (hk : k < 128) : srcZ k (jobLaid ctx mem s) = Memory.read (0 + k) mem := by
  rw [srcZ, jobLaid_srcLen, if_pos hk]
  rfl

end

/-- A token's word is laid in the stream of its job. -/
theorem placeTableWord_token {nbits w : Nat} {ctx : Ctx} (h : tableCtx nbits w = some ctx) (hc : ctx ≠ .command)
    (s : State) :
    placeTableWord nbits w s = jobLaid ctx (layBytes 0 (tableOperands nbits w).toNat longestToken s.mem) s := by
  unfold placeTableWord jobLaid
  rw [h]
  cases ctx with
  | command => exact absurd rfl hc
  | _ => rfl

/-- The word laid is what the decoder sees. -/
theorem window_jobLaid (ctx : Ctx) (word : Word) (m : Memory) (s : State) :
    window 0 (jobLaid ctx (layBytes 0 word.toNat longestToken m) s) = word := by
  apply window_zero_of_bytes
  intro k hk
  have hlong : longestToken = 128 := rfl
  rw [srcZ_jobLaid _ _ _ (by omega), read_layBytes 0 _ _ (by omega)]
  rfl

/-- The formats of the opcode table's words (log 11); a word of 32 bits alone is a command. -/
theorem tableCtx_cases {nbits w : Nat} {ctx : Ctx} (h : tableCtx nbits w = some ctx) :
    (ctx = .command ∧ nbits = 32) ∨ ctx = .rle ∨ ctx = .lzw lzwWidthMax (lzwLiterals + 1) false ∨ ctx = .lz77Hdr ∨
      ctx = .qtMask ∨ ∃ bit, ctx = .lz77Decision bit := by
  unfold tableCtx at h
  split_ifs at h with h32 <;> cases h <;> simp [h32]

/-- The job laid for a format of the table stands at the token its decoder reads. -/
theorem fetch_jobLaid {nbits w : Nat} {ctx : Ctx} (hctx : tableCtx nbits w = some ctx) (hc : ctx ≠ .command)
    {mem : Memory} {s : State} {i : Instr} (h : decode ctx (window 0 (jobLaid ctx mem s)) = .ok i) :
    ∃ c, tableCodec ctx = some c ∧ fetch c (jobLaid ctx mem s) = .token i := by
  rcases tableCtx_cases hctx with ⟨rfl, -⟩ | rfl | rfl | rfl | rfl | ⟨bit, rfl⟩
  · exact absurd rfl hc
  · exact ⟨_, rfl, fetchRle_token (by simp) (by simp) (by simp) h⟩
  · exact ⟨_, rfl, fetchLzw_token (by simp [LzwState.start]) (by simp [LzwState.start, lzwWidthMax]) h⟩
  · exact ⟨_, rfl, fetchLz77_header (c := ⟨0, 0, 0, 0, false, .header⟩) rfl (by simp) h⟩
  · exact ⟨_, rfl, fetchQt_mask (c := ⟨0, some ⟨0, 0, 1, 1⟩, []⟩) rfl h⟩
  · have hbit : (if bit then 0x80 else 0 : Byte).getLsbD 7 = bit := by cases bit <;> rfl
    refine ⟨_, rfl,
      fetchLz77_decision (c := ⟨0, 0, 0, 1, false, .decisions (if bit then 0x80 else 0) 7 1 true⟩) rfl ?_ ?_⟩
    · rw [hbit, jobLaid_srcLen]
      cases bit <;> decide
    · rw [hbit]
      exact h

/-- A table word that decodes does so in its format's context. -/
theorem decodeTableWord_some {nbits w : Nat} {i : Instr} (h : decodeTableWord nbits w = some i) :
    ∃ ctx, tableCtx nbits w = some ctx ∧ decode ctx (tableOperands nbits w) = .ok i := by
  unfold decodeTableWord at h
  cases hctx : tableCtx nbits w with
  | none =>
    rw [hctx] at h
    cases h
  | some ctx =>
    simp only [hctx] at h
    cases hdec : decode ctx (tableOperands nbits w) with
    | ok j =>
      simp only [hdec] at h
      cases h
      exact ⟨ctx, rfl, hdec⟩
    | error e =>
      simp only [hdec] at h
      cases h

/-- Settles O21: a command is what the CMD register holds, a token what the laid job's decoder reads. -/
theorem tableWordRuns : Obligations.TableWordRuns := by
  unfold Obligations.TableWordRuns
  intro s nbits w i h
  obtain ⟨ctx, hctx, hdec⟩ := decodeTableWord_some h
  rw [State.withFetchWord]
  by_cases hc : ctx = .command
  · subst hc
    have h32 : nbits = 32 := by
      rcases tableCtx_cases hctx with ⟨-, h32⟩ | e | e | e | e | ⟨bit, e⟩
      · exact h32
      all_goals cases e
    subst h32
    cases hdec
    exact (step_noTurns rfl).trans (engineTurn_startJob (BitVec.ofNat 32 w) { s with turns := [] })
  · rw [placeTableWord_token hctx hc]
    rw [← window_jobLaid ctx (tableOperands nbits w) s.mem s] at hdec
    obtain ⟨c, hcodec, hfetch⟩ := fetch_jobLaid hctx hc hdec
    rw [step_noTurns (jobLaid_turns ..), engineTurn_token (jobLaid_busy ..) hcodec hfetch]

end Sys2Proof.Machine
end

section
/-! PROOF. The bit reader's window form and the splitting of a read (40_bitstream.md R110 to R119). -/

namespace Sys2Proof.Machine

/-! ### The window form -/

/-- The number form of `BitVec.toNat_append`, whose right side is a bitwise or. -/
theorem toNat_append_eq_add {n m : Nat} (hi : BitVec n) (lo : BitVec m) :
    (hi ++ lo).toNat = hi.toNat * 2 ^ m + lo.toNat := by
  rw [BitVec.toNat_append, ← Nat.shiftLeft_add_eq_or_of_lt lo.isLt, Nat.shiftLeft_eq]

/-- The decoder's window holds four source bytes, the earliest lowest, from the cursor's own bit on. -/
theorem window_toNat (off : Nat) (s : State) :
    (window off s).toNat =
      ((srcZ (off / 8) s).toNat + 256 * (srcZ (off / 8 + 1) s).toNat + 65536 * (srcZ (off / 8 + 2) s).toNat +
        2 ^ 24 * (srcZ (off / 8 + 3) s).toNat) / 2 ^ (off % 8) := by
  rw [window, BitVec.setWidth_eq, BitVec.toNat_ushiftRight, Nat.shiftRight_eq_div_pow]
  simp only [toNat_append_eq_add]
  congr 1
  omega

/-- A multiple of `2 ^ m` does not reach the `n` bits from bit `k` on when these end at or below bit `m`. -/
theorem add_two_pow_mul_div_mod {k n m : Nat} (h : k + n ≤ m) (x y : Nat) :
    (x + 2 ^ m * y) / 2 ^ k % 2 ^ n = x / 2 ^ k % 2 ^ n := by
  have hsplit : 2 ^ m * y = 2 ^ k * (2 ^ n * (2 ^ (m - (k + n)) * y)) := by
    rw [← Nat.mul_assoc, ← Nat.mul_assoc, ← Nat.pow_add, ← Nat.pow_add, Nat.add_sub_cancel' h]
  rw [hsplit, Nat.add_mul_div_left _ _ (Nat.two_pow_pos k), Nat.add_mul_mod_self_left]

/-- Settles O6: a read is the low bits of the decoder's window (`window_mod`), which the window's fourth byte does not
reach. -/
theorem bitReadIsWindow : Obligations.BitReadIsWindow := by
  unfold Obligations.BitReadIsWindow
  intro off n s h
  rw [← window_mod off n s (Nat.le_trans h (by decide)), window_toNat, add_two_pow_mul_div_mod h]

/-! ### Successive reads -/

/-- The last bit of a read stands above the others (40_bitstream.md R112, R115). -/
theorem bitRead_succ (off n : Nat) (s : State) :
    bitRead off (n + 1) s = bitRead off n s + (streamBit (off + n) s).toNat * 2 ^ n := by
  rw [bitRead, Nat.or_comm, ← Nat.shiftLeft_add_eq_or_of_lt (bitRead_lt off n s), Nat.shiftLeft_eq, Nat.add_comm]

/-- A read splits at any bit (40_bitstream.md R116), by induction on the second read's bits. -/
theorem bitRead_add (off a b : Nat) (s : State) :
    bitRead off (a + b) s = bitRead off a s + bitRead (off + a) b s * 2 ^ a := by
  induction b with
  | zero => simp [bitRead]
  | succ b ih =>
    rw [← Nat.add_assoc, bitRead_succ, ih, bitRead_succ (off + a), Nat.add_assoc off, Nat.pow_add]
    ring

/-- Every bit read at or past the end of the source is 0 (40_bitstream.md R114, R118). -/
theorem bitRead_past_end {off : Nat} {s : State} (h : 8 * s.srcLen.toNat ≤ off) (n : Nat) : bitRead off n s = 0 := by
  induction n with
  | zero => rfl
  | succ n ih =>
    have hbit := streamBit_past_end (off + n) s (Nat.le_add_right_of_le h)
    rw [bitRead_succ, ih, hbit, Bool.toNat_false, Nat.zero_mul]

/-- Settles O7: the reads split by `bitRead_add`, the bound is `bitRead_lt`. -/
theorem bitReadsAreContiguous : Obligations.BitReadsAreContiguous := by
  unfold Obligations.BitReadsAreContiguous
  intro off a b s
  exact ⟨bitRead_add off a b s, bitRead_lt off a s, rfl, fun h => bitRead_past_end h a⟩

end Sys2Proof.Machine
end

section
/-! PROOF. A job that sends bytes to its output one token after another, cut at L, and pads the rest with zeros (41_rle.md
R125 to R127, 42_lzw.md R146, R152). -/

namespace Sys2Proof.Machine

/-! ### Bytes sent to the output -/

/-- What steps of a job that send `bytes` to the output positions from `o` on leave: those bytes, and all else but STATUS,
RESULT and the codec state as it was. -/
structure Emitted (o : Nat) (bytes : List Byte) (s t : State) : Prop where
  regs : keepsRegisters s t
  draws : t.draws = s.draws
  written : ∀ j (h : j < bytes.length), outByte (o + j) t = bytes[j]
  outside : keepsMemoryOutside ⟨outAddr s o, bytes.length⟩ s t

/-- A token that fills the output bytes `o` to `o + n - 1` has sent `n` bytes. -/
theorem Emitted.of_tokenFrame {o n : Nat} {bytes : List Byte} {s t : State} (h : tokenFrame s t o (o + n))
    (hn : bytes.length = n) (hw : ∀ j (h : j < bytes.length), outByte (o + j) t = bytes[j]) : Emitted o bytes s t := by
  obtain ⟨hregs, ⟨-, -, hdraws⟩, hmem⟩ := h
  rw [Nat.add_sub_cancel_left, ← hn] at hmem
  exact ⟨hregs, hdraws, hw, hmem⟩

/-- A byte below or above those sent reads as before. -/
theorem Emitted.memRead_other {o a : Nat} {bytes : List Byte} {s t : State} (h : Emitted o bytes s t)
    (ha : a < outAddr s o ∨ outAddr s o + bytes.length ≤ a) : memRead a t = memRead a s :=
  h.outside a ((Region.has_false_iff _ _).2 ha)

/-- Bytes sent one after another. -/
theorem Emitted.append {o : Nat} {xs ys : List Byte} {s t u : State} (hx : Emitted o xs s t)
    (hy : Emitted (o + xs.length) ys t u) : Emitted o (xs ++ ys) s u where
  regs := hx.regs.trans hy.regs
  draws := hy.draws.trans hx.draws
  written j hj := by
    rw [List.getElem_append]
    split
    · next hlt =>
      rw [← hx.written j hlt, outByte, outByte, hy.regs.outAddr]
      exact hy.memRead_other (.inl (by simp only [outAddr]; omega))
    · next hge =>
      rw [List.length_append] at hj
      have := hy.written (j - xs.length) (by omega)
      rwa [Nat.add_assoc, Nat.add_sub_cancel' (by omega)] at this
  outside a ha := by
    rw [Region.has_false_iff, List.length_append] at ha
    simp only [outAddr] at ha
    have hsecond := hy.memRead_other (a := a) (by rw [hx.regs.outAddr, outAddr]; omega)
    exact hsecond.trans (hx.memRead_other (by rw [outAddr]; omega))

/-- Bytes sent within the output region change nothing outside it. -/
theorem Emitted.outside_dstRegion {o : Nat} {bytes : List Byte} {s t : State} (h : Emitted o bytes s t)
    (ho : o + bytes.length ≤ s.dstLen.toNat) : keepsMemoryOutside (dstRegion s) s t := by
  intro a ha
  rw [Region.has_false_iff] at ha
  simp only [dstRegion] at ha
  exact h.memRead_other (by rw [outAddr]; omega)

/-! ### The end of the job -/

theorem complete_doneWith (padded inexh badcode : Bool) (n : Nat) (s : State) :
    doneWith padded inexh badcode n s (complete padded inexh badcode n s) :=
  ⟨complete_busy .., complete_isDone .., statusWord_err .., statusWord_padded .., statusWord_inexh ..,
    statusWord_badcode .., BitVec.toNat_ofNat .., rfl, rfl, keepsRegisters.complete ..⟩

/-- A job's end, seen from an earlier state of the job. -/
theorem doneWith.since {padded inexh badcode : Bool} {n : Nat} {s t u : State} (h : doneWith padded inexh badcode n t u)
    (hregs : keepsRegisters s t) (hdraws : t.draws = s.draws) : doneWith padded inexh badcode n s u := by
  obtain ⟨hb, hd, he, hp, hi, hc, hr, hn, hdr, hk⟩ := h
  exact ⟨hb, hd, he, hp, hi, hc, hr, hn, hdr.trans hdraws, hregs.trans hk⟩

/-- The rest of a job that stands at output position `o` while its stream still gives `bytes`, ended by an invalid code where
`badcode`: `bytes` cut at L or padded to L go to the output, RESULT counts the bytes before the padding, and the flags say
what stopped it short of L (41_rle.md R126, R127, 42_lzw.md R152, R153). -/
structure PaddedEnd (badcode : Bool) (o : Nat) (bytes : List Byte) (s t : State) : Prop where
  emitted : Emitted o (padTruncate (s.dstLen.toNat - o) bytes) s t
  done : doneWith (decide (o + bytes.length < s.dstLen.toNat))
    (decide (o + bytes.length < s.dstLen.toNat) && !badcode) (decide (o + bytes.length < s.dstLen.toNat) && badcode)
    (min s.dstLen.toNat (o + bytes.length)) s t

@[simp] theorem length_padTruncate (l : Nat) (bytes : List Byte) : (padTruncate l bytes).length = l := by
  simp [padTruncate]

theorem padTruncate_nil (l : Nat) : padTruncate l [] = List.replicate l 0 := by simp [padTruncate]

theorem padTruncate_zero (bytes : List Byte) : padTruncate 0 bytes = [] := by simp [padTruncate]

/-- The bytes of a first part are cut at L; the rest is padded or cut in the room they leave. -/
theorem padTruncate_append (l : Nat) (xs ys : List Byte) :
    padTruncate l (xs ++ ys) = xs.take l ++ padTruncate (l - (xs.take l).length) ys := by
  have hroom : l - (xs.take l).length = l - xs.length := by rw [List.length_take]; omega
  rw [hroom, padTruncate, padTruncate, List.append_assoc, List.take_append, List.take_append, List.take_append,
    List.take_replicate, List.take_replicate]
  congr 3
  omega

/-- The zero padding sends zeros to what is left of the output. -/
theorem Emitted.padZeros (o : Nat) (s : State) :
    Emitted o (List.replicate (s.dstLen.toNat - o) 0) s (Machine.padZeros o s) := by
  have hw := Wrote.padZeros o s
  refine ⟨hw.keepsRegisters, hw.draws, fun j hj => ?_, ?_⟩
  · rw [List.length_replicate] at hj
    rw [outByte_padZeros (by omega) (by omega), List.getElem_replicate]
  · rw [List.length_replicate]
    exact (hw.mono (outSpan_has s o _)).keepsMemoryOutside

/-- A job whose output is full, or whose stream gives nothing more, ends with the padding. -/
theorem PaddedEnd.complete {badcode : Bool} {o : Nat} {bytes : List Byte} {s : State} (ho : o ≤ s.dstLen.toNat)
    (h : o = s.dstLen.toNat ∨ bytes = []) :
    PaddedEnd badcode o bytes s
      (Machine.complete (decide (o < s.dstLen.toNat)) (decide (o < s.dstLen.toNat) && !badcode)
        (decide (o < s.dstLen.toNat) && badcode) o (Machine.padZeros o s)) := by
  have hpad := Emitted.padZeros o s
  have hbytes : padTruncate (s.dstLen.toNat - o) bytes = List.replicate (s.dstLen.toNat - o) 0 := by
    rcases h with h | h
    · rw [h, Nat.sub_self, padTruncate_zero, List.replicate_zero]
    · rw [h, padTruncate_nil]
  have hlen : o = s.dstLen.toNat ∨ bytes.length = 0 := h.imp_right List.length_eq_zero_iff.2
  have hshort : o + bytes.length < s.dstLen.toNat ↔ o < s.dstLen.toNat := by omega
  have hvalue : min s.dstLen.toNat (o + bytes.length) = o := by omega
  refine ⟨?_, ?_⟩
  · rw [hbytes]
    exact ⟨hpad.regs.trans (keepsRegisters.complete ..), hpad.draws, hpad.written, hpad.outside⟩
  · simp only [hshort, hvalue]
    exact (complete_doneWith ..).since hpad.regs hpad.draws

/-- A token that sends as much of `xs` as the output has room for comes before the rest of the job; once the output is full,
what the stream would still give plays no part. -/
theorem PaddedEnd.after {badcode : Bool} {o : Nat} {xs ys zs : List Byte} {s t u : State} (ho : o ≤ s.dstLen.toNat)
    (hx : Emitted o (xs.take (s.dstLen.toNat - o)) s t)
    (h : PaddedEnd badcode (o + (xs.take (s.dstLen.toNat - o)).length) zs t u)
    (hz : o + (xs.take (s.dstLen.toNat - o)).length < s.dstLen.toNat → zs = ys) :
    PaddedEnd badcode o (xs ++ ys) s u := by
  obtain ⟨hemit, hdone⟩ := h
  rw [hx.regs.dstLen] at hemit hdone
  have hlen : (xs.take (s.dstLen.toNat - o)).length = min (s.dstLen.toNat - o) xs.length := List.length_take
  refine ⟨?_, ?_⟩
  · have hrest : padTruncate (s.dstLen.toNat - (o + (xs.take (s.dstLen.toNat - o)).length)) zs =
        padTruncate (s.dstLen.toNat - o - (xs.take (s.dstLen.toNat - o)).length) ys := by
      rw [Nat.sub_add_eq]
      rcases Nat.lt_or_ge (o + (xs.take (s.dstLen.toNat - o)).length) s.dstLen.toNat with hroom | hfull
      · rw [hz hroom]
      · rw [Nat.sub_eq_zero_of_le (by omega), padTruncate_zero, padTruncate_zero]
    rw [padTruncate_append, ← hrest]
    exact hx.append hemit
  · have hzlen := fun hroom => congrArg List.length (hz hroom)
    have hshort : o + (xs.take (s.dstLen.toNat - o)).length + zs.length < s.dstLen.toNat ↔
        o + (xs ++ ys).length < s.dstLen.toNat := by
      rw [List.length_append]
      omega
    have hvalue : min s.dstLen.toNat (o + (xs.take (s.dstLen.toNat - o)).length + zs.length) =
        min s.dstLen.toNat (o + (xs ++ ys).length) := by
      rw [List.length_append]
      omega
    simp only [hshort, hvalue] at hdone
    exact hdone.since hx.regs hx.draws

/-- Opening the codec state is no part of what the job is held against. -/
theorem PaddedEnd.of_opened {badcode : Bool} {o : Nat} {bytes : List Byte} {s t : State} {c : Option Codec}
    (h : PaddedEnd badcode o bytes { s with codec := c } t) : PaddedEnd badcode o bytes s t :=
  ⟨⟨h.emitted.regs, h.emitted.draws, h.emitted.written, h.emitted.outside⟩, h.done⟩

/-- The output of a whole job. -/
theorem PaddedEnd.outBytes {badcode : Bool} {bytes : List Byte} {s t : State} (h : PaddedEnd badcode 0 bytes s t) :
    outBytes s.dstLen.toNat t = padTruncate s.dstLen.toNat bytes := by
  refine List.ext_getElem (by simp [Machine.outBytes]) fun j hj _ => ?_
  have hlt : j < s.dstLen.toNat := by simpa [Machine.outBytes] using hj
  simpa [Machine.outBytes] using h.emitted.written j (by simpa using hlt)

/-- A whole job writes only its output. -/
theorem PaddedEnd.keepsMemoryOutside {badcode : Bool} {bytes : List Byte} {s t : State}
    (h : PaddedEnd badcode 0 bytes s t) : keepsMemoryOutside (dstRegion s) s t := by
  simpa [dstRegion, outAddr] using h.emitted.outside

/-! ### The run of token steps -/

/-- A token found is run, and the job goes on from the state it leaves. -/
theorem runTokens_token {fuel : Nat} {c : Codec} {s t : State} {i : Instr} (hc : s.codec = some c)
    (hf : fetch c s = .token i) (ht : execToken i s = .next t) : runTokens (fuel + 1) s = runTokens fuel t := by
  simp only [runTokens, hc, tokenStep, hf, ht]

/-- A job that stops has ended. -/
theorem runTokens_finish {fuel : Nat} {c : Codec} {s : State} {inexh : Bool} (hc : s.codec = some c)
    (hf : fetch c s = .finish inexh) : runTokens (fuel + 1) s = .next (finish inexh c s) := by
  simp only [runTokens, hc, tokenStep, hf]
  exact runTokens_ended fuel (by cases c <;> rfl)

/-! ### The source of the job -/

@[simp] theorem length_srcBytes (s : State) : (srcBytes s).length = s.srcLen.toNat := by simp [srcBytes]

@[simp] theorem getElem_srcBytes (s : State) (k : Nat) (h : k < (srcBytes s).length) : (srcBytes s)[k] = srcByte k s := by
  simp [srcBytes]

theorem drop_srcBytes {s : State} {p : Nat} (h : p < s.srcLen.toNat) :
    (srcBytes s).drop p = srcByte p s :: (srcBytes s).drop (p + 1) := by
  rw [List.drop_eq_getElem_cons (by simpa using h), getElem_srcBytes]

theorem drop_srcBytes_of_le {s : State} {p : Nat} (h : s.srcLen.toNat ≤ p) : (srcBytes s).drop p = [] :=
  List.drop_eq_nil_of_le (by simpa using h)

/-- A step that keeps the registers and writes only the job's write region leaves the source as it was. -/
theorem srcBytes_congr {k : JobKind} (hk : k ≠ .sample) {s t : State} (hv : validate k s = none)
    (hregs : keepsRegisters s t) (hmem : keepsMemoryOutside (writeRegion k s) s t) : srcBytes t = srcBytes s := by
  refine List.ext_getElem (by simp [hregs.srcLen]) fun j _ hj => ?_
  rw [getElem_srcBytes, getElem_srcBytes, srcByte, srcByte, hregs.srcBase]
  refine hmem _ (Bool.eq_false_iff.2 fun hw => ?_)
  have hfree := (validated_of_none hv).read_free (srcRegion_mem_readRegions hk s) hw
  rw [length_srcBytes] at hj
  rw [Region.has_false_iff] at hfree
  simp only [srcRegion] at hfree
  omega

end Sys2Proof.Machine
end

section
/-! PROOF. The tokens of an RLE job and the whole job (41_rle.md). -/

namespace Sys2Proof.Machine

/-! ### The two tokens -/

/-- RLE.LIT but for what the job finds next (41_rle.md R123). -/
theorem execRleLit_spec {c : RleState} {s : State} (hc : s.codec = some (.rle c)) (hv : validate .rle s = none)
    (ho : c.o ≤ s.dstLen.toNat) (count : BitVec 7) :
    let n := min count.toNat (min (s.dstLen.toNat - c.o) (s.srcLen.toNat - (c.p + 1)))
    ∃ t, execRleLit count s = .next t ∧ t.codec = some (.rle ⟨c.p + 1 + n, c.o + n⟩) ∧
      (∀ j, j < n → outByte (c.o + j) t = srcByte (c.p + 1 + j) s) ∧ tokenFrame s t c.o (c.o + n) := by
  obtain ⟨hstate, hwrote⟩ := rleCopy_spec count.toNat { c with p := c.p + 1 } s ho
  have hbytes := fun j => rleCopy_bytes count.toNat { c with p := c.p + 1 } s ho
    (fun i hi => (validated_of_none hv).read_free (srcRegion_mem_readRegions (by decide) s)
      (outAddr_mem_dstRegion s hi)) (j := j)
  simp only [execRleLit, hc]
  exact ⟨_, rfl, congrArg (fun r => some (Codec.rle r)) hstate, hbytes, hwrote.tokenFrame⟩

/-- RLE.RUN but for what the job finds next (41_rle.md R124). -/
theorem execRleRun_spec {c : RleState} {s : State} (hc : s.codec = some (.rle c)) (ho : c.o ≤ s.dstLen.toNat)
    (count : BitVec 7) (v : Byte) :
    let n := min count.toNat (s.dstLen.toNat - c.o)
    ∃ t, execRleRun count v s = .next t ∧ t.codec = some (.rle ⟨c.p + 2, c.o + n⟩) ∧
      (∀ j, j < n → outByte (c.o + j) t = v) ∧ tokenFrame s t c.o (c.o + n) := by
  obtain ⟨hstate, hwrote, hbytes⟩ := rleRepeat_spec v count.toNat { c with p := c.p + 2 } s ho
  simp only [execRleRun, hc]
  exact ⟨_, rfl, congrArg (fun r => some (Codec.rle r)) hstate, hbytes, hwrote.tokenFrame⟩

/-- The stop conditions at the head of R122's loop (41_rle.md R125); INEXH exactly where the output is short of L. -/
theorem fetchRle_stops {c : RleState} {s : State} (ho : c.o ≤ s.dstLen.toNat)
    (h : c.o = s.dstLen.toNat ∨ s.srcLen.toNat ≤ c.p) : fetchRle c s = .finish (decide (c.o < s.dstLen.toNat)) := by
  unfold fetchRle
  by_cases hfull : c.o = s.dstLen.toNat
  · rw [if_pos hfull, hfull, decide_eq_false (Nat.lt_irrefl _)]
  · rw [if_neg hfull, if_pos (h.resolve_left hfull), decide_eq_true (by omega)]

/-- Settles O28: the token's effect is `execRleLit_spec`; a cut run has met one of the stop conditions. -/
theorem rleLiteralRun : Obligations.RleLiteralRun := by
  unfold Obligations.RleLiteralRun
  intro s c count hc hok
  obtain ⟨-, hv, -, ho⟩ := hok _ hc
  obtain ⟨t, ht, hcodec, hbytes, hframe⟩ := execRleLit_spec hc hv ho count
  refine ⟨t, ht, hcodec, hbytes, hframe, fun hcut => ?_⟩
  obtain ⟨hregs, -, -⟩ := hframe
  rw [← hregs.dstLen]
  exact fetchRle_stops (by rw [hregs.dstLen]; simp only; omega) (by rw [hregs.dstLen, hregs.srcLen]; simp only; omega)

/-- Settles O29: the token's effect is `execRleRun_spec`; a cut run has filled the output. -/
theorem rleRepeatRun : Obligations.RleRepeatRun := by
  unfold Obligations.RleRepeatRun
  intro s c count v hc hok
  obtain ⟨-, -, -, ho⟩ := hok _ hc
  obtain ⟨t, ht, hcodec, hbytes, hframe⟩ := execRleRun_spec hc ho count v
  refine ⟨t, ht, hcodec, hbytes, hframe, fun hcut => ?_⟩
  obtain ⟨hregs, -, -⟩ := hframe
  have hfull : c.o + min count.toNat (s.dstLen.toNat - c.o) = t.dstLen.toNat := by
    rw [hregs.dstLen]; omega
  rw [hfull]
  exact (fetchRle_stops (Nat.le_refl _) (.inl rfl)).trans (by simp)

/-! ### The reference form (41_rle.md R130) -/

theorem rleExpandFrom_nil (fuel : Nat) : rleExpandFrom fuel [] = [] := by cases fuel <;> rfl

theorem rleExpandFrom_lit {b : Byte} (h : b.getLsbD 7 = false) (fuel : Nat) (rest : List Byte) :
    rleExpandFrom (fuel + 1) (b :: rest) =
      rest.take (b.extractLsb' 0 7).toNat ++ rleExpandFrom fuel (rest.drop (b.extractLsb' 0 7).toNat) := by
  simp only [rleExpandFrom, h, Bool.false_eq_true, if_false]

theorem rleExpandFrom_run {b : Byte} (h : b.getLsbD 7 = true) (fuel : Nat) (v : Byte) (rest : List Byte) :
    rleExpandFrom (fuel + 1) (b :: v :: rest) =
      List.replicate (b.extractLsb' 0 7).toNat v ++ rleExpandFrom fuel rest := by
  simp [rleExpandFrom, h]

/-- A run without its value byte produces nothing. -/
theorem rleExpandFrom_cutRun {b : Byte} (h : b.getLsbD 7 = true) (fuel : Nat) : rleExpandFrom fuel [b] = [] := by
  cases fuel <;> simp [rleExpandFrom, h]

/-! ### The job -/

/-- RLE.LIT sends as many of its literals as the source holds and the output has room for. -/
theorem execRleLit_emits {c : RleState} {s : State} (hc : s.codec = some (.rle c)) (hv : validate .rle s = none)
    (ho : c.o ≤ s.dstLen.toNat) (count : BitVec 7) :
    let lits := (((srcBytes s).drop (c.p + 1)).take count.toNat).take (s.dstLen.toNat - c.o)
    ∃ t, execRleLit count s = .next t ∧ t.codec = some (.rle ⟨c.p + 1 + lits.length, c.o + lits.length⟩) ∧
      Emitted c.o lits s t := by
  obtain ⟨t, ht, hcodec, hbytes, hframe⟩ := execRleLit_spec hc hv ho count
  have hlen : ((((srcBytes s).drop (c.p + 1)).take count.toNat).take (s.dstLen.toNat - c.o)).length =
      min count.toNat (min (s.dstLen.toNat - c.o) (s.srcLen.toNat - (c.p + 1))) := by
    simp only [List.length_take, List.length_drop, length_srcBytes]; omega
  refine ⟨t, ht, by rw [hcodec, hlen], .of_tokenFrame hframe hlen fun j hj => ?_⟩
  rw [hbytes j (by omega)]
  simp only [List.getElem_take, List.getElem_drop, getElem_srcBytes]

/-- RLE.RUN sends as many copies as the output has room for. -/
theorem execRleRun_emits {c : RleState} {s : State} (hc : s.codec = some (.rle c)) (ho : c.o ≤ s.dstLen.toNat)
    (count : BitVec 7) (v : Byte) :
    let copies := (List.replicate count.toNat v).take (s.dstLen.toNat - c.o)
    ∃ t, execRleRun count v s = .next t ∧ t.codec = some (.rle ⟨c.p + 2, c.o + copies.length⟩) ∧
      Emitted c.o copies s t := by
  obtain ⟨t, ht, hcodec, hbytes, hframe⟩ := execRleRun_spec hc ho count v
  have hlen : ((List.replicate count.toNat v).take (s.dstLen.toNat - c.o)).length =
      min count.toNat (s.dstLen.toNat - c.o) := by
    rw [List.length_take, List.length_replicate, Nat.min_comm]
  refine ⟨t, ht, by rw [hcodec, hlen], .of_tokenFrame hframe hlen fun j hj => ?_⟩
  rw [hbytes j (by omega), List.getElem_take, List.getElem_replicate]

/-- Bytes sent within the output leave the job validated and its source as it was. -/
theorem Emitted.keepsRleJob {o : Nat} {bytes : List Byte} {s t : State} (h : Emitted o bytes s t)
    (hv : validate .rle s = none) (ho : o + bytes.length ≤ s.dstLen.toNat) :
    validate .rle t = none ∧ srcBytes t = srcBytes s :=
  have hmem := h.outside_dstRegion ho
  ⟨validate_congr h.regs hmem hv, srcBytes_congr (k := .rle) (by decide) hv h.regs hmem⟩

/-- An RLE job that stops pads what is left of its output, where the output is full or the source gives nothing more. -/
theorem runTokens_rleStops {fuel : Nat} {c : RleState} {s : State} {bytes : List Byte} (hc : s.codec = some (.rle c))
    (ho : c.o ≤ s.dstLen.toNat) (hf : fetchRle c s = .finish (decide (c.o < s.dstLen.toNat)))
    (h : c.o = s.dstLen.toNat ∨ bytes = []) :
    ∃ t, runTokens (fuel + 1) s = .next t ∧ PaddedEnd false c.o bytes s t := by
  refine ⟨_, runTokens_finish hc hf, ?_⟩
  simpa [finish, finishRle] using PaddedEnd.complete (badcode := false) ho h

/-- Every RLE job with at most `n` source bytes left runs to its end and sends what these expand to. Every token takes a
source byte, so `n` bounds the tokens left, of the machine and of the reference form alike. -/
def RleExpandsWithin (n : Nat) : Prop :=
  ∀ (c : RleState) (s : State), s.codec = some (.rle c) → validate .rle s = none → c.o ≤ s.dstLen.toNat →
    s.srcLen.toNat - c.p ≤ n →
    ∃ t, runTokens (n + 1) s = .next t ∧ PaddedEnd false c.o (rleExpandFrom n ((srcBytes s).drop c.p)) s t

/-- A token that sends as much of `xs` as the output has room for, and the job behind it. -/
theorem RleExpandsWithin.token {n p : Nat} (hrest : RleExpandsWithin n) {c : RleState} {s : State} {i : Instr}
    {xs ys : List Byte} (hc : s.codec = some (.rle c)) (hv : validate .rle s = none) (ho : c.o ≤ s.dstLen.toNat)
    (hf : fetch (.rle c) s = .token i)
    (hi : ∃ t, execToken i s = .next t ∧
      t.codec = some (.rle ⟨p, c.o + (xs.take (s.dstLen.toNat - c.o)).length⟩) ∧
      Emitted c.o (xs.take (s.dstLen.toNat - c.o)) s t)
    (hn : s.srcLen.toNat - p ≤ n)
    (hys : c.o + (xs.take (s.dstLen.toNat - c.o)).length < s.dstLen.toNat →
      rleExpandFrom n ((srcBytes s).drop p) = ys) :
    ∃ t, runTokens (n + 2) s = .next t ∧ PaddedEnd false c.o (xs ++ ys) s t := by
  obtain ⟨t, ht, hcodec, hemit⟩ := hi
  have hfit : c.o + (xs.take (s.dstLen.toNat - c.o)).length ≤ s.dstLen.toNat := by rw [List.length_take]; omega
  obtain ⟨hvt, hsrc⟩ := hemit.keepsRleJob hv hfit
  obtain ⟨u, hu, hend⟩ := hrest _ t hcodec hvt (by rw [hemit.regs.dstLen]; exact hfit)
    (by rw [hemit.regs.srcLen]; exact hn)
  rw [hsrc] at hend
  exact ⟨u, (runTokens_token hc hf ht).trans hu, hend.after ho hemit hys⟩

theorem rleExpandsWithin_zero : RleExpandsWithin 0 := by
  intro c s hc hv ho hn
  have hp : s.srcLen.toNat ≤ c.p := by omega
  exact runTokens_rleStops hc ho (fetchRle_stops ho (.inr hp)) (.inr rfl)

theorem RleExpandsWithin.succ {n : Nat} (hrest : RleExpandsWithin n) : RleExpandsWithin (n + 1) := by
  intro c s hc hv ho hn
  rcases fetchRle_cases (c := c) (s := s) with ⟨hf, hfull⟩ | ⟨hf, hroom, hend⟩ | ⟨-, hp, hlit, hf⟩ | ⟨-, hp, hrun, hf⟩
  · exact runTokens_rleStops hc ho (fetchRle_stops ho (.inl hfull)) (.inl hfull)
  · refine runTokens_rleStops hc ho (by rw [hf, decide_eq_true (by omega)]) (.inr ?_)
    by_cases hp : s.srcLen.toNat ≤ c.p
    · rw [drop_srcBytes_of_le hp, rleExpandFrom_nil]
    · obtain ⟨hrun, hcut⟩ := hend.resolve_left hp
      rw [drop_srcBytes (by omega), drop_srcBytes_of_le hcut, rleExpandFrom_cutRun hrun]
  · rw [drop_srcBytes hp, rleExpandFrom_lit hlit]
    refine hrest.token hc hv ho hf (execRleLit_emits hc hv ho _) (by omega) fun hroom => ?_
    have hall := List.take_of_length_le (l := ((srcBytes s).drop (c.p + 1)).take ((srcByte c.p s).extractLsb' 0 7).toNat)
      (i := s.dstLen.toNat - c.o) (by rw [List.length_take] at hroom; omega)
    rw [hall, ← List.drop_drop, List.length_take, ← List.drop_eq_drop_min]
  · rw [drop_srcBytes (by omega), drop_srcBytes hp, rleExpandFrom_run hrun]
    exact hrest.token hc hv ho hf (execRleRun_emits hc ho _ _) (by omega) fun _ => rfl

theorem rleExpandsWithin (n : Nat) : RleExpandsWithin n := by
  induction n with
  | zero => exact rleExpandsWithin_zero
  | succ n ih => exact ih.succ

/-- Settles O27: from the opened job on, at its first output position, the token steps send what the source expands to
(`rleExpandsWithin`). -/
theorem rleJobPadsOrTruncates : Obligations.RleJobPadsOrTruncates := by
  unfold Obligations.RleJobPadsOrTruncates
  intro s ctab mirror hv
  obtain ⟨t, ht, hend⟩ := rleExpandsWithin s.srcLen.toNat ⟨0, 0⟩ (openRle s) rfl hv (Nat.zero_le _) (Nat.sub_le ..)
  have hjob : PaddedEnd false 0 (rleExpand (srcBytes s)) s t := by
    rw [rleExpand, length_srcBytes]
    exact PaddedEnd.of_opened hend
  have hexec : exec (.rle ctab mirror) s = .next t := by
    simp only [exec, execRle, validated, hv]
    exact ht
  exact ⟨t, hexec, hjob.outBytes, by simpa using hjob.done, hjob.keepsMemoryOutside⟩

end Sys2Proof.Machine
end

section
/-! PROOF. The codes of an LZW job (42_lzw.md R144 to R150, R155). -/

namespace Sys2Proof.Machine

/-! ### Insertion and growth -/

@[simp] theorem lzwGrow_width (g : Nat) (c : LzwState) :
    (lzwGrow g c).width = if c.next - g = 2 ^ c.width ∧ c.width < lzwWidthMax then c.width + 1 else c.width := by
  unfold lzwGrow
  split <;> rfl

theorem LzwState.next_push (c : LzwState) (entry : List Byte) :
    LzwState.next { c with dict := c.dict ++ [entry] } = c.next + 1 := by
  simp [LzwState.next, Nat.add_assoc]

theorem lzwInsert_noPrev {c : LzwState} (h : c.prev = none) (g : Nat) (seq : List Byte) : lzwInsert g seq c = c := by
  simp only [lzwInsert, h]

theorem lzwInsert_full {c : LzwState} (h : ¬c.next < lzwTable) (g : Nat) (seq : List Byte) : lzwInsert g seq c = c := by
  unfold lzwInsert
  split
  · rfl
  · rw [if_neg h]

theorem lzwInsert_room {c : LzwState} {prev : List Byte} (hp : c.prev = some prev) (hn : c.next < lzwTable) (g : Nat)
    (seq : List Byte) : lzwInsert g seq c = lzwGrow g { c with dict := c.dict ++ [prev ++ seq.take 1] } := by
  simp only [lzwInsert, hp, if_pos hn]

/-- What an insertion leaves of the table and the width (42_lzw.md R147 to R149). -/
theorem lzwInsert_table (g : Nat) (seq : List Byte) (c : LzwState) :
    match c.prev with
    | none => (lzwInsert g seq c).dict = c.dict ∧ (lzwInsert g seq c).width = c.width
    | some prev =>
      if c.next < 4096 then
        (lzwInsert g seq c).dict = c.dict ++ [prev ++ seq.take 1] ∧
          (lzwInsert g seq c).width =
            if c.next + 1 - g = 2 ^ c.width ∧ c.width < 12 then c.width + 1 else c.width
      else (lzwInsert g seq c).dict = c.dict ∧ (lzwInsert g seq c).width = c.width := by
  split
  · next hp => exact ⟨by rw [lzwInsert_noPrev hp], by rw [lzwInsert_noPrev hp]⟩
  · next prev hp =>
    split
    · next hn =>
      rw [lzwInsert_room hp hn, lzwGrow_dict, lzwGrow_width, LzwState.next_push]
      exact ⟨rfl, rfl⟩
    · next hn => exact ⟨by rw [lzwInsert_full hn], by rw [lzwInsert_full hn]⟩

/-- The state with another output count. -/
def LzwState.withO (o : Nat) (c : LzwState) : LzwState := { c with o := o }

@[simp] theorem LzwState.withO_o (o : Nat) (c : LzwState) : (c.withO o).o = o := rfl

theorem lzwGrow_withO (g o : Nat) (c : LzwState) : lzwGrow g (c.withO o) = (lzwGrow g c).withO o := by
  rw [lzwGrow, lzwGrow, apply_ite (LzwState.withO o)]
  rfl

/-- The output count plays no part in an insertion. -/
theorem lzwInsert_withO (g : Nat) (seq : List Byte) (o : Nat) (c : LzwState) :
    lzwInsert g seq (c.withO o) = (lzwInsert g seq c).withO o := by
  rcases Option.eq_none_or_eq_some c.prev with hp | ⟨prev, hp⟩
  · rw [lzwInsert_noPrev hp, lzwInsert_noPrev (c := c.withO o) hp]
  · by_cases hn : c.next < lzwTable
    · rw [lzwInsert_room hp hn, lzwInsert_room (c := c.withO o) hp hn]
      exact lzwGrow_withO g o { c with dict := c.dict ++ [prev ++ seq.take 1] }
    · rw [lzwInsert_full hn, lzwInsert_full (c := c.withO o) hn]

/-! ### A code that resolves -/

/-- The codec state behind a code that resolved to `seq`, with the output count then at `o` (42_lzw.md R147 to R150). -/
def LzwState.resolvedTo (g : Nat) (seq : List Byte) (o : Nat) (c : LzwState) : LzwState :=
  { lzwInsert g seq { c with off := c.off + c.width, o := o } with prev := some seq }

section
variable (g : Nat) (seq : List Byte) (o : Nat) (c : LzwState)

@[simp] theorem LzwState.resolvedTo_off : (c.resolvedTo g seq o).off = c.off + c.width := lzwInsert_off ..
@[simp] theorem LzwState.resolvedTo_o : (c.resolvedTo g seq o).o = o := lzwInsert_o ..
@[simp] theorem LzwState.resolvedTo_prev : (c.resolvedTo g seq o).prev = some seq := rfl

theorem LzwState.resolvedTo_withO (o' : Nat) : (c.withO o).resolvedTo g seq o' = (c.resolvedTo g seq c.o).withO o' :=
  congrArg (fun d : LzwState => { d with prev := some seq })
    (lzwInsert_withO g seq o' { c with off := c.off + c.width })

end

/-- Everything a code that resolves can do. -/
theorem lzwResolved_spec (seq : List Byte) {c : LzwState} {s : State} (ho : c.o ≤ s.dstLen.toNat) :
    let n := min seq.length (s.dstLen.toNat - c.o)
    ∃ t, lzwResolved seq c s = .next t ∧ t.codec = some (.lzw (c.resolvedTo s.cfg.growOffset seq (c.o + n))) ∧
      (∀ j, j < n → outByte (c.o + j) t = seq.getD j 0) ∧ tokenFrame s t c.o (c.o + n) := by
  obtain ⟨hcount, hwrote, hbytes⟩ := lzwEmit_spec seq c.o s ho
  refine ⟨_, rfl, ?_, hbytes, hwrote.tokenFrame⟩
  rw [hcount]
  rfl

theorem lzwResolved_after (seq : List Byte) {c : LzwState} {s : State} (ho : c.o ≤ s.dstLen.toNat) :
    ∃ t, lzwResolved seq c s = .next t ∧ lzwAfter c seq s t := by
  obtain ⟨t, ht, hcodec, hbytes, hframe⟩ := lzwResolved_spec seq ho
  refine ⟨t, ht, hbytes, hframe, _, hcodec, LzwState.resolvedTo_off .., LzwState.resolvedTo_o ..,
    LzwState.resolvedTo_prev .., ?_⟩
  exact lzwInsert_table s.cfg.growOffset seq { c with off := c.off + c.width, o := _ }

/-! ### The classes of codes (30_encoding.md R87, 42_lzw.md R145) -/

section
variable {c : LzwState} {s : State}

theorem execLzwClear_eq (hc : s.codec = some (.lzw c)) :
    execLzwClear s = .next { s with codec := some (.lzw { c with off := c.off + c.width }.clear) } := by
  simp only [execLzwClear, hc]

theorem execLzwLit_eq (hc : s.codec = some (.lzw c)) (byte : Byte) : execLzwLit byte s = lzwResolved [byte] c s := by
  simp only [execLzwLit, hc]

theorem execLzwDict_eq (hc : s.codec = some (.lzw c)) {code : BitVec lzwWidthMax} {seq : List Byte}
    (hs : c.slot code.toNat = some seq) : execLzwDict code s = lzwResolved seq c s := by
  simp only [execLzwDict, hc, hs]

theorem execLzwKwkwk_eq (hc : s.codec = some (.lzw c)) {code : BitVec lzwWidthMax} {prev : List Byte}
    (hp : c.prev = some prev) (hn : code.toNat = c.next) : execLzwKwkwk code s = lzwResolved (selfExtended prev) c s := by
  simp only [execLzwKwkwk, hc, hp, if_pos hn]

theorem execLzwBad_eq (hc : s.codec = some (.lzw c)) (code : BitVec lzwWidthMax) :
    execLzwBad code s = .next (finishLzw false true c s) := by
  simp only [execLzwBad, hc]

end

/-- Settles O31: the arm of the clear code, `LzwState.clear` written out. -/
theorem lzwClearResets : Obligations.LzwClearResets := by
  unfold Obligations.LzwClearResets
  intro s c hc
  exact execLzwClear_eq hc

/-- Settles O32: each class runs the rest of the loop (`lzwResolved_after`) with its own sequence. -/
theorem lzwCodesResolve : Obligations.LzwCodesResolve := by
  unfold Obligations.LzwCodesResolve
  intro s c hc hok
  obtain ⟨-, -, -, ho, -⟩ := hok _ hc
  refine ⟨fun byte => ?_, fun code hlo hlt => ?_, fun code prev hn hp => ?_⟩
  · rw [show exec (.lzwLit byte) s = _ from execLzwLit_eq hc byte]
    exact lzwResolved_after _ ho
  · obtain ⟨seq, hseq⟩ := Option.isSome_iff_exists.1 ((c.slot_isSome_iff hlo).2 hlt)
    obtain ⟨t, ht, hafter⟩ := lzwResolved_after seq ho
    exact ⟨seq, t, hseq, (execLzwDict_eq hc hseq).trans ht, hafter⟩
  · rw [show exec (.lzwKwkwk code) s = _ from execLzwKwkwk_eq hc hp hn]
    exact lzwResolved_after _ ho

/-- Settles O33: the completion behind the zero padding. -/
theorem lzwBadCodeStops : Obligations.LzwBadCodeStops := by
  unfold Obligations.LzwBadCodeStops
  intro s c code hc _
  obtain ⟨hregs, hdraws, -, hout⟩ := Emitted.padZeros c.o s
  refine ⟨_, execLzwBad_eq hc code, (complete_doneWith ..).since hregs hdraws,
    fun i hlo hhi => outByte_padZeros hlo hhi, ?_⟩
  rw [List.length_replicate] at hout
  exact hout

/-! ### The invariants of R155 -/

/-- The sequences that R155 leaves room for in the table: those of an assigned slot, and the previous one and a byte where
NEXT is a slot. -/
def LzwState.Admits (c : LzwState) (seq : List Byte) : Prop :=
  1 ≤ seq.length ∧ (seq.length ≤ c.next - lzwLiterals ∨
    ∃ prev, c.prev = some prev ∧ seq.length ≤ prev.length + 1 ∧ c.next < lzwTable)

theorem LzwState.admits_lit (c : LzwState) (byte : Byte) : c.Admits [byte] :=
  ⟨Nat.le_refl 1, .inl (by simp only [next, List.length_singleton]; omega)⟩

theorem LzwState.admits_slot {c : LzwState} {g code : Nat} (h : c.ok g) {seq : List Byte} (hs : c.slot code = some seq) :
    c.Admits seq := by
  obtain ⟨-, -, -, -, hdict, -⟩ := h
  obtain ⟨hpos, hlen⟩ := hdict _ seq hs
  obtain ⟨hslot, -⟩ := List.getElem?_eq_some_iff.1 hs
  exact ⟨hpos, .inl (by simp only [next]; omega)⟩

theorem LzwState.admits_selfExtended {c : LzwState} {g : Nat} (h : c.ok g) {prev : List Byte} (hp : c.prev = some prev)
    (hn : c.next < lzwTable) : c.Admits (selfExtended prev) := by
  obtain ⟨-, -, -, -, -, hprev⟩ := h
  have hlen := length_selfExtended (hprev prev hp).1
  exact ⟨by omega, .inr ⟨prev, hp, by omega, hn⟩⟩

/-- A code that resolves keeps the invariants. -/
theorem LzwState.ok_resolvedTo {c : LzwState} {g : Nat} (h : c.ok g) {seq : List Byte} (hseq : c.Admits seq) (o : Nat) :
    (c.resolvedTo g seq o).ok g :=
  LzwState.ok_resolved (c := { c with off := c.off + c.width, o := o }) (LzwState.ok_congr (c := c) rfl rfl rfl h) hseq.1
    hseq.2

/-- A code of one of the three classes that resolve, where it answers, ran the rest of the loop with a sequence the table
has room for. -/
theorem exec_lzwCode_resolved {s t : State} {i : Instr} {c : LzwState} {g : Nat} (hc : s.codec = some (.lzw c))
    (h : c.ok g)
    (hi : (∃ b, i = .lzwLit b) ∨ (∃ code, i = .lzwDict code ∧ 257 ≤ code.toNat) ∨ ∃ code, i = .lzwKwkwk code)
    (ht : exec i s = .next t) : ∃ seq, c.Admits seq ∧ lzwResolved seq c s = .next t := by
  rcases hi with ⟨b, rfl⟩ | ⟨code, rfl, -⟩ | ⟨code, rfl⟩
  · exact ⟨[b], c.admits_lit b, (execLzwLit_eq hc b).symm.trans ht⟩
  · cases hs : c.slot code.toNat with
    | none => simp [exec, execLzwDict, hc, hs] at ht
    | some seq => exact ⟨seq, LzwState.admits_slot h hs, (execLzwDict_eq hc hs).symm.trans ht⟩
  · cases hp : c.prev with
    | none => simp [exec, execLzwKwkwk, hc, hp] at ht
    | some prev =>
      by_cases hn : code.toNat = c.next
      · exact ⟨_, LzwState.admits_selfExtended h hp (hn ▸ code.isLt), (execLzwKwkwk_eq hc hp hn).symm.trans ht⟩
      · simp [exec, execLzwKwkwk, hc, hp, hn] at ht

/-- Settles O34: the clear code resets to the start's invariants, every other code admits its sequence. -/
theorem lzwInvariantKept : Obligations.LzwInvariantKept := by
  unfold Obligations.LzwInvariantKept
  refine ⟨LzwState.ok_start, fun s t i c d hc hok ht hi hd => ?_⟩
  rcases hi with rfl | hi
  · cases (execLzwClear_eq hc).symm.trans ht
    cases hd
    exact LzwState.ok_clear _ _
  · obtain ⟨seq, hseq, hres⟩ := exec_lzwCode_resolved hc hok hi ht
    cases hres
    cases hd
    exact LzwState.ok_resolvedTo hok hseq _

end Sys2Proof.Machine
end

section
/-! PROOF. The whole LZW job against the loop without a length limit (42_lzw.md R141, R152, R153). -/

namespace Sys2Proof.Machine

/-! ### The source as a byte string -/

theorem listBit_srcBytes (k : Nat) (s : State) : listBit (srcBytes s) k = streamBit k s := by
  rw [listBit, streamBit, srcZ]
  split
  · next h => rw [List.getD_eq_getElem _ _ (by simpa using h), getElem_srcBytes]
  · next h => rw [List.getD_eq_default _ _ (by simpa using h)]

/-- A read of the byte string is the bit reader's (40_bitstream.md R112). -/
theorem listBits_srcBytes (off n : Nat) (s : State) : listBits (srcBytes s) off n = bitRead off n s := by
  induction n with
  | zero => rfl
  | succ n ih => rw [listBits, bitRead, ih, listBit_srcBytes]

/-! ### What a code resolves to -/

/-- The table of 42_lzw.md R145: the sequence of a code other than the clear code, none for an invalid one. -/
inductive LzwState.Resolves (c : LzwState) (code : Nat) : Option (List Byte) → Prop
  | lit (hlit : code < lzwLiterals) : c.Resolves code (some [BitVec.ofNat 8 code])
  | dict {seq : List Byte} (habove : lzwClearCode < code) (hs : c.slot code = some seq) : c.Resolves code (some seq)
  | kwkwk {prev : List Byte} (hn : code = c.next) (hp : c.prev = some prev) : c.Resolves code (some (selfExtended prev))
  | bad (hge : c.next ≤ code) (hnot : code = c.next → c.prev = none) : c.Resolves code none

section
variable {c : LzwState} {code : Nat}

theorem LzwState.clearCode_lt_next (c : LzwState) : lzwClearCode < c.next := by
  have : lzwClearCode = lzwLiterals := rfl
  simp only [next]
  omega

/-- 42_lzw.md R155: no slot from NEXT on is assigned. -/
theorem LzwState.slot_eq_none (h : c.next ≤ code) : c.slot code = none := by
  have hiff := c.slot_isSome_iff (Nat.lt_of_lt_of_le c.clearCode_lt_next h)
  exact Option.not_isSome_iff_eq_none.1 fun hs => Nat.not_lt.2 h (hiff.1 hs)

/-- Every code but the clear code is in a row of the table. -/
theorem LzwState.exists_resolves (c : LzwState) (hclear : code ≠ lzwClearCode) : ∃ r, c.Resolves code r := by
  by_cases hlit : code < lzwLiterals
  · exact ⟨_, .lit hlit⟩
  have habove : lzwClearCode < code := Nat.lt_of_le_of_ne (Nat.not_lt.1 hlit) hclear.symm
  by_cases hlt : code < c.next
  · obtain ⟨seq, hs⟩ := Option.isSome_iff_exists.1 ((c.slot_isSome_iff habove).2 hlt)
    exact ⟨_, .dict habove hs⟩
  rcases Option.eq_none_or_eq_some c.prev with hp | ⟨prev, hp⟩
  · exact ⟨_, .bad (Nat.not_lt.1 hlt) fun _ => hp⟩
  by_cases hn : code = c.next
  · exact ⟨_, .kwkwk hn hp⟩
  · exact ⟨_, .bad (Nat.not_lt.1 hlt) fun h => absurd h hn⟩

/-- A sequence that a code resolves to has room in the table. -/
theorem LzwState.Resolves.admits {g : Nat} {seq : List Byte} (h : c.Resolves code (some seq)) (hok : c.ok g)
    (hcode : code < lzwTable) : c.Admits seq := by
  cases h with
  | lit hlit => exact c.admits_lit _
  | dict habove hs => exact admits_slot hok hs
  | kwkwk hn hp => exact admits_selfExtended hok hp (hn ▸ hcode)

/-! ### The machine's token for a code -/

variable {s : State} {w : Word}

theorem toNat_ofNat_code (hcode : code < lzwTable) : (BitVec.ofNat lzwWidthMax code).toNat = code :=
  Nat.mod_eq_of_lt hcode

theorem decodeLzw_clear (hw : w.toNat % 2 ^ c.width = lzwClearCode) :
    decodeLzw c.width c.next c.prev.isSome w = .lzwClear := by
  simp only [decodeLzw, hw, if_true]

/-- The token of a code that resolves runs the loop's rest with its sequence. -/
theorem LzwState.Resolves.execToken_some {seq : List Byte} (h : c.Resolves code (some seq)) (hc : s.codec = some (.lzw c))
    (hw : w.toNat % 2 ^ c.width = code) (hcode : code < lzwTable) :
    execToken (decodeLzw c.width c.next c.prev.isSome w) s = lzwResolved seq c s := by
  have hnat := toNat_ofNat_code hcode
  have hclear : lzwClearCode = lzwLiterals := rfl
  cases h with
  | lit hlit =>
    simp only [decodeLzw, hw, if_neg (show code ≠ lzwClearCode by omega), if_pos hlit]
    exact execLzwLit_eq hc _
  | dict habove hs =>
    have hlt := (c.slot_isSome_iff habove).1 (Option.isSome_of_eq_some hs)
    simp only [decodeLzw, hw, if_neg habove.ne', if_neg (show ¬code < lzwLiterals by omega), if_pos hlt]
    exact execLzwDict_eq hc (hnat.symm ▸ hs)
  | kwkwk hn hp =>
    have habove := c.clearCode_lt_next
    have hnext : code = c.next ∧ c.prev.isSome = true := ⟨hn, Option.isSome_of_eq_some hp⟩
    simp only [decodeLzw, hw, if_neg (show code ≠ lzwClearCode by omega), if_neg (show ¬code < lzwLiterals by omega),
      if_neg (show ¬code < c.next by omega), if_pos hnext]
    exact execLzwKwkwk_eq hc hp (hnat.trans hn)

/-- The token of an invalid code ends the job. -/
theorem LzwState.Resolves.execToken_none (h : c.Resolves code none) (hc : s.codec = some (.lzw c))
    (hw : w.toNat % 2 ^ c.width = code) :
    execToken (decodeLzw c.width c.next c.prev.isSome w) s = .next (finishLzw false true c s) := by
  have hclear : lzwClearCode = lzwLiterals := rfl
  have habove := c.clearCode_lt_next
  cases h with
  | bad hge hnot =>
    have hnext : ¬(code = c.next ∧ c.prev.isSome = true) := fun ⟨hn, hsome⟩ => by simp [hnot hn] at hsome
    simp only [decodeLzw, hw, if_neg (show code ≠ lzwClearCode by omega), if_neg (show ¬code < lzwLiterals by omega),
      if_neg (show ¬code < c.next by omega), if_neg hnext]
    exact execLzwBad_eq hc (BitVec.ofNat lzwWidthMax code)

end

/-! ### The reference form's turn of the loop -/

section
variable {g fuel : Nat} {bytes : List Byte} {c : LzwState}

/-- R143: fewer than WIDTH bits are left. -/
theorem lzwExpandFrom_cut (h : 8 * bytes.length < c.off + c.width) : lzwExpandFrom g bytes fuel c = ([], false) := by
  cases fuel with
  | zero => rfl
  | succ fuel => rw [lzwExpandFrom, if_pos h]

theorem lzwExpandFrom_clear (hw : c.off + c.width ≤ 8 * bytes.length)
    (hclear : listBits bytes c.off c.width = lzwClearCode) :
    lzwExpandFrom g bytes (fuel + 1) c = lzwExpandFrom g bytes fuel { c with off := c.off + c.width }.clear := by
  rw [lzwExpandFrom, if_neg (Nat.not_lt.2 hw)]
  exact if_pos hclear

/-- A code that resolves gives its sequence, then what the stream gives behind it. -/
theorem LzwState.Resolves.lzwExpandFrom_some {seq : List Byte} (hw : c.off + c.width ≤ 8 * bytes.length)
    (h : c.Resolves (listBits bytes c.off c.width) (some seq)) :
    lzwExpandFrom g bytes (fuel + 1) c =
      (seq ++ (lzwExpandFrom g bytes fuel (c.resolvedTo g seq c.o)).1,
        (lzwExpandFrom g bytes fuel (c.resolvedTo g seq c.o)).2) := by
  have hclear : lzwClearCode = lzwLiterals := rfl
  rw [lzwExpandFrom, if_neg (Nat.not_lt.2 hw)]
  generalize listBits bytes c.off c.width = code at h
  cases h with
  | lit hlit =>
    simp only [if_neg (show code ≠ lzwClearCode by omega), if_pos hlit]
    rfl
  | dict habove hs =>
    simp only [if_neg habove.ne', if_neg (show ¬code < lzwLiterals by omega), hs]
    rfl
  | kwkwk hn hp =>
    have habove := c.clearCode_lt_next
    simp only [if_neg (show code ≠ lzwClearCode by omega), if_neg (show ¬code < lzwLiterals by omega),
      c.slot_eq_none hn.ge, hp, if_pos hn]
    rw [resolvedTo, hp]

/-- An invalid code ends what the stream gives. -/
theorem LzwState.Resolves.lzwExpandFrom_none (hw : c.off + c.width ≤ 8 * bytes.length)
    (h : c.Resolves (listBits bytes c.off c.width) none) : lzwExpandFrom g bytes (fuel + 1) c = ([], true) := by
  have hclear : lzwClearCode = lzwLiterals := rfl
  have habove := c.clearCode_lt_next
  rw [lzwExpandFrom, if_neg (Nat.not_lt.2 hw)]
  generalize listBits bytes c.off c.width = code at h
  cases h with
  | bad hge hnot =>
    simp only [if_neg (show code ≠ lzwClearCode by omega), if_neg (show ¬code < lzwLiterals by omega), slot_eq_none hge]
    cases hp : c.prev with
    | none => rfl
    | some prev => exact if_neg fun hn => by rw [hnot hn] at hp; cases hp

theorem LzwState.Resolves.withO {code : Nat} {r : Option (List Byte)} (h : c.Resolves code r) (o : Nat) :
    (c.withO o).Resolves code r := by
  cases h with
  | lit hlit => exact .lit hlit
  | dict habove hs => exact .dict habove hs
  | kwkwk hn hp => exact .kwkwk hn hp
  | bad hge hnot => exact .bad hge hnot

/-- The output count plays no part in what the stream gives. -/
theorem lzwExpandFrom_withO (o : Nat) : lzwExpandFrom g bytes fuel (c.withO o) = lzwExpandFrom g bytes fuel c := by
  induction fuel generalizing c with
  | zero => rfl
  | succ fuel ih =>
    by_cases hw : c.off + c.width ≤ 8 * bytes.length
    · by_cases hclear : listBits bytes c.off c.width = lzwClearCode
      · rw [lzwExpandFrom_clear (c := c.withO o) hw hclear, lzwExpandFrom_clear hw hclear]
        exact ih (c := { c with off := c.off + c.width }.clear)
      · obtain ⟨_ | seq, hr⟩ := c.exists_resolves hclear
        · rw [(hr.withO o).lzwExpandFrom_none (c := c.withO o) hw, hr.lzwExpandFrom_none hw]
        · rw [(hr.withO o).lzwExpandFrom_some (c := c.withO o) hw, hr.lzwExpandFrom_some hw, LzwState.resolvedTo_withO,
            LzwState.withO_o, ih]
    · rw [lzwExpandFrom_cut (c := c.withO o) (Nat.not_le.1 hw), lzwExpandFrom_cut (Nat.not_le.1 hw)]

theorem lzwExpandFrom_resolvedTo (seq : List Byte) (o : Nat) :
    lzwExpandFrom g bytes fuel (c.resolvedTo g seq o) = lzwExpandFrom g bytes fuel (c.resolvedTo g seq c.o) := by
  rw [show c.resolvedTo g seq o = _ from LzwState.resolvedTo_withO g seq c.o c o, lzwExpandFrom_withO]

end

/-! ### The job -/

/-- Bytes sent within the output of a job that writes its destination region leave the job validated and its source as it
was. -/
theorem Emitted.keepsJob {k : JobKind} (hk : k ≠ .sample) {o : Nat} {bytes : List Byte} {s t : State}
    (hdst : writeRegion k s = dstRegion s) (h : Emitted o bytes s t) (hv : validate k s = none)
    (ho : o + bytes.length ≤ s.dstLen.toNat) : validate k t = none ∧ srcBytes t = srcBytes s := by
  have hmem := h.outside_dstRegion ho
  rw [← hdst] at hmem
  exact ⟨validate_congr h.regs hmem hv, srcBytes_congr hk hv h.regs hmem⟩

/-- A code that resolves sends as much of its sequence as the output has room for. -/
theorem lzwResolved_emits (seq : List Byte) {c : LzwState} {s : State} (ho : c.o ≤ s.dstLen.toNat) :
    let sent := seq.take (s.dstLen.toNat - c.o)
    ∃ t, lzwResolved seq c s = .next t ∧
      t.codec = some (.lzw (c.resolvedTo s.cfg.growOffset seq (c.o + sent.length))) ∧ Emitted c.o sent s t := by
  obtain ⟨t, ht, hcodec, hbytes, hframe⟩ := lzwResolved_spec seq ho
  have hlen : (seq.take (s.dstLen.toNat - c.o)).length = min seq.length (s.dstLen.toNat - c.o) := by
    rw [List.length_take, Nat.min_comm]
  refine ⟨t, ht, by rw [hcodec, hlen], .of_tokenFrame hframe hlen fun j hj => ?_⟩
  rw [hbytes j (by omega), List.getD_eq_getElem _ _ (by omega), List.getElem_take]

/-- The end of an LZW job whose output is full, or whose stream gives nothing more. -/
theorem PaddedEnd.finishLzw {inexh bad badcode : Bool} {c : LzwState} {bytes : List Byte} {s : State}
    (ho : c.o ≤ s.dstLen.toNat) (h : c.o = s.dstLen.toNat ∨ bytes = [])
    (hinexh : inexh = (decide (c.o < s.dstLen.toNat) && !badcode))
    (hbad : bad = (decide (c.o < s.dstLen.toNat) && badcode)) :
    PaddedEnd badcode c.o bytes s (Machine.finishLzw inexh bad c s) := by
  subst hinexh hbad
  exact PaddedEnd.complete ho h

/-- An LZW job in progress: validated, its output count within L, its table as R155 says. -/
structure LzwRuns (c : LzwState) (s : State) : Prop where
  codec : s.codec = some (.lzw c)
  valid : validate .lzw s = none
  room : c.o ≤ s.dstLen.toNat
  table : c.ok s.cfg.growOffset

/-- Within `n` token steps the job ends as the reference form says: it sends what the stream still gives. -/
def LzwEnds (n : Nat) (c : LzwState) (s : State) : Prop :=
  ∃ t, runTokens n s = .next t ∧
    PaddedEnd (lzwExpandFrom s.cfg.growOffset (srcBytes s) n c).2 c.o
      (lzwExpandFrom s.cfg.growOffset (srcBytes s) n c).1 s t

/-- Every LZW job with fewer than `n` codes left ends within `n` token steps. Every code takes at least 9 bits, so `n`
bounds the codes left, of the machine and of the reference form alike. -/
def LzwEndsWithin (n : Nat) : Prop :=
  ∀ (c : LzwState) (s : State), LzwRuns c s → (8 * s.srcLen.toNat - c.off) / 9 < n → LzwEnds n c s

section
variable {n : Nat} {c : LzwState} {s : State}

theorem LzwRuns.width_bounds (h : LzwRuns c s) : 9 ≤ c.width ∧ c.width ≤ 12 := ⟨h.table.1, h.table.2.1⟩

/-- A code read leaves fewer codes. -/
theorem LzwRuns.codesLeft_lt (h : LzwRuns c s) (hw : c.off + c.width ≤ 8 * s.srcLen.toNat)
    (hn : (8 * s.srcLen.toNat - c.off) / 9 < n + 1) : (8 * s.srcLen.toNat - (c.off + c.width)) / 9 < n := by
  have hcost := lzwCost (Nat.add_le_add_left h.width_bounds.1 c.off) hw
  omega

/-- The code read, of the decoder's window and of the byte string, and its bound. -/
theorem LzwRuns.code_eq (h : LzwRuns c s) :
    (window c.off s).toNat % 2 ^ c.width = listBits (srcBytes s) c.off c.width ∧
      listBits (srcBytes s) c.off c.width < lzwTable := by
  obtain ⟨-, hmax⟩ := h.width_bounds
  rw [listBits_srcBytes]
  exact ⟨window_mod _ _ _ (by omega), (bitRead_lt ..).trans_le (Nat.pow_le_pow_right (by decide) hmax)⟩

/-- R151: the output is full. -/
theorem LzwRuns.ends_full (h : LzwRuns c s) (hfull : c.o = s.dstLen.toNat) : LzwEnds (n + 1) c s := by
  have hf : fetchLzw c s = .finish false := by rw [fetchLzw, if_pos hfull]
  have hlt : decide (c.o < s.dstLen.toNat) = false := decide_eq_false (by omega)
  exact ⟨_, runTokens_finish h.codec hf, .finishLzw h.room (.inl hfull) (by rw [hlt]; rfl) (by rw [hlt]; rfl)⟩

/-- R143: the source holds no whole code. -/
theorem LzwRuns.ends_cut (h : LzwRuns c s) (hroom : c.o ≠ s.dstLen.toNat) (hcut : 8 * s.srcLen.toNat < c.off + c.width) :
    LzwEnds (n + 1) c s := by
  have hf : fetchLzw c s = .finish true := by rw [fetchLzw, if_neg hroom, if_pos hcut]
  have hlt : decide (c.o < s.dstLen.toNat) = true := decide_eq_true (Nat.lt_of_le_of_ne h.room hroom)
  rw [LzwEnds, lzwExpandFrom_cut (by rwa [length_srcBytes])]
  exact ⟨_, runTokens_finish h.codec hf, .finishLzw h.room (.inr rfl) (by rw [hlt]; rfl) (by rw [hlt]; rfl)⟩

section
variable (h : LzwRuns c s) (hroom : c.o ≠ s.dstLen.toNat) (hw : c.off + c.width ≤ 8 * s.srcLen.toNat)

include hroom hw in
theorem fetch_lzw_token : fetch (.lzw c) s = .token (decodeLzw c.width c.next c.prev.isSome (window c.off s)) :=
  fetchLzw_token hroom hw rfl

include h hroom hw

/-- R144: the clear code, and the job behind it. -/
theorem LzwRuns.ends_clear (hrest : LzwEndsWithin n) (hn : (8 * s.srcLen.toNat - c.off) / 9 < n + 1)
    (hclear : listBits (srcBytes s) c.off c.width = lzwClearCode) : LzwEnds (n + 1) c s := by
  have hf := fetch_lzw_token hroom hw
  rw [decodeLzw_clear (h.code_eq.1.trans hclear)] at hf
  obtain ⟨t, ht, hend⟩ := hrest _ { s with codec := some (.lzw { c with off := c.off + c.width }.clear) }
    ⟨rfl, h.valid, h.room, LzwState.ok_clear ..⟩ (h.codesLeft_lt hw hn)
  rw [LzwEnds, lzwExpandFrom_clear (by rwa [length_srcBytes]) hclear]
  exact ⟨t, (runTokens_token h.codec hf (execLzwClear_eq h.codec)).trans ht, hend.of_opened⟩

/-- R145, R152: an invalid code. -/
theorem LzwRuns.ends_bad (hr : c.Resolves (listBits (srcBytes s) c.off c.width) none) : LzwEnds (n + 1) c s := by
  have ht := hr.execToken_none h.codec h.code_eq.1
  have hlt : decide (c.o < s.dstLen.toNat) = true := decide_eq_true (Nat.lt_of_le_of_ne h.room hroom)
  rw [LzwEnds, hr.lzwExpandFrom_none (by rwa [length_srcBytes]), runTokens_token h.codec (fetch_lzw_token hroom hw) ht,
    runTokens_ended n rfl]
  exact ⟨_, rfl, .finishLzw h.room (.inr rfl) (by rw [hlt]; rfl) (by rw [hlt]; rfl)⟩

/-- R146 to R150: a code that resolves, and the job behind it. -/
theorem LzwRuns.ends_resolved (hrest : LzwEndsWithin n) (hn : (8 * s.srcLen.toNat - c.off) / 9 < n + 1) {seq : List Byte}
    (hr : c.Resolves (listBits (srcBytes s) c.off c.width) (some seq)) : LzwEnds (n + 1) c s := by
  obtain ⟨hcode, hbound⟩ := h.code_eq
  obtain ⟨t, ht, hcodec, hemit⟩ := lzwResolved_emits seq h.room
  have hfit : c.o + (seq.take (s.dstLen.toNat - c.o)).length ≤ s.dstLen.toNat := by
    have := h.room
    rw [List.length_take]
    omega
  obtain ⟨hvalid, hsrc⟩ := hemit.keepsJob (k := .lzw) (by decide) rfl h.valid hfit
  obtain ⟨u, hu, hend⟩ := hrest _ t
    ⟨hcodec, hvalid, by rw [hemit.regs.dstLen]; simpa using hfit,
      by rw [hemit.regs.cfg]; exact LzwState.ok_resolvedTo h.table (hr.admits h.table hbound) _⟩
    (by rw [hemit.regs.srcLen]; simpa using h.codesLeft_lt hw hn)
  rw [hsrc, hemit.regs.cfg, lzwExpandFrom_resolvedTo, LzwState.resolvedTo_o] at hend
  rw [LzwEnds, hr.lzwExpandFrom_some (by rwa [length_srcBytes])]
  exact ⟨u, (runTokens_token h.codec (fetch_lzw_token hroom hw)
    ((hr.execToken_some h.codec hcode hbound).trans ht)).trans hu, hend.after h.room hemit fun _ => rfl⟩

end

end

/-- By induction on the bound: R141's loop stops, or reads a code that ends the job or leaves the rest of it. -/
theorem lzwEndsWithin (n : Nat) : LzwEndsWithin n := by
  induction n with
  | zero => exact fun c s _ hn => absurd hn (Nat.not_lt_zero _)
  | succ n ih =>
    intro c s h hn
    by_cases hfull : c.o = s.dstLen.toNat
    · exact h.ends_full hfull
    by_cases hcut : 8 * s.srcLen.toNat < c.off + c.width
    · exact h.ends_cut hfull hcut
    have hw := Nat.not_lt.1 hcut
    by_cases hclear : listBits (srcBytes s) c.off c.width = lzwClearCode
    · exact h.ends_clear hfull hw ih hn hclear
    obtain ⟨_ | seq, hr⟩ := c.exists_resolves hclear
    · exact h.ends_bad hfull hw hr
    · exact h.ends_resolved hfull hw ih hn hr

/-- Settles O30: from the opened job on, at its first output position, the token steps send what the codes produce
(`lzwEndsWithin`). -/
theorem lzwJobPadsOrTruncates : Obligations.LzwJobPadsOrTruncates := by
  unfold Obligations.LzwJobPadsOrTruncates
  intro s ctab mirror hv
  obtain ⟨t, ht, hend⟩ := lzwEndsWithin (lzwFuel s) LzwState.start (openLzw s)
    ⟨rfl, hv, Nat.zero_le _, LzwState.ok_start _⟩ (Nat.lt_succ_self _)
  have hjob : PaddedEnd (lzwExpand s.cfg.growOffset (srcBytes s)).2 0 (lzwExpand s.cfg.growOffset (srcBytes s)).1 s t := by
    rw [lzwExpand, length_srcBytes]
    exact PaddedEnd.of_opened hend
  have hexec : exec (.lzw ctab mirror) s = .next t := by
    simp only [exec, execLzw, validated, hv]
    exact ht
  exact ⟨t, hexec, hjob.outBytes, by simpa using hjob.done, hjob.keepsMemoryOutside⟩

end Sys2Proof.Machine
end

section
/-! PROOF. The quadrants of a region and the tokens of a quadtree job (43_quadtree.md R175 to R187). -/

namespace Sys2Proof.Machine

/-! ### The quadrants -/

/-- A pixel's side of the two splits is its quadrant's number: bit 0 says right, bit 1 below (43_quadtree.md R175). -/
theorem Rect.side_of_quadrant_holds {r : Rect} {i px py : Nat} (hi : i < 4) (h : (r.quadrant i).holds px py = true) :
    (i % 2 = 1 ↔ r.x + r.w / 2 ≤ px) ∧ (2 ≤ i ↔ r.y + r.h / 2 ≤ py) := by
  rw [holds_iff] at h
  obtain rfl | rfl | rfl | rfl : i = 0 ∨ i = 1 ∨ i = 2 ∨ i = 3 := by omega
  all_goals
    simp only [quadrant_zero, quadrant_one, quadrant_two, quadrant_three] at h
    omega

theorem Rect.holds_of_quadrant_holds {r : Rect} {i px py : Nat} (h : (r.quadrant i).holds px py = true) :
    r.holds px py = true := by
  have hinside := r.quadrant_inside i
  rw [holds_iff] at h ⊢
  omega

/-- Settles O36: the quadrants cover the region (`Rect.exists_quadrant_holds`), and a pixel's sides tell them apart. -/
theorem quadrantsPartition : Obligations.QuadrantsPartition := by
  unfold Obligations.QuadrantsPartition
  refine fun r px py => ⟨⟨Rect.exists_quadrant_holds, ?_⟩, fun i j hi hj hpi hpj => ?_, rfl, rfl, rfl, rfl⟩
  · rintro ⟨i, -, h⟩
    exact Rect.holds_of_quadrant_holds h
  · obtain ⟨hxi, hyi⟩ := Rect.side_of_quadrant_holds hi hpi
    obtain ⟨hxj, hyj⟩ := Rect.side_of_quadrant_holds hj hpj
    omega

/-! ### Masks and subdivision -/

theorem execQtMask_eq {s : State} {c : QtState} {r : Rect} (hc : s.codec = some (.qt c)) (hp : c.pending = some r)
    (mask : BitVec qtMaskBits) :
    execQtMask mask s = .next { s with codec := some (.qt ⟨c.off + qtMaskBits, none, ⟨r, mask, 0⟩ :: c.stack⟩) } := by
  simp only [execQtMask, hc, hp]

/-- Settles O37: the mask's own equation. -/
theorem qtMaskOpensRegion : Obligations.QtMaskOpensRegion := by
  unfold Obligations.QtMaskOpensRegion
  exact fun s c r mask hc hp => execQtMask_eq hc hp mask

/-- A drawn region's bytes are the next draws (60_exceptions.md R272). -/
theorem drawRegion_drawnRegion (r : Region) (s : State) : drawnRegion r s (drawRegion r s) :=
  ⟨fun _ hk => memRead_writeEach (addr := fun k => r.base + k) (fun _ _ _ _ h => Nat.add_left_cancel h) _ s hk,
    (drawRegion_spec r s).1⟩

/-- A run-time error is the error completion over a drawn region (60_exceptions.md R272). -/
theorem runtimeError_failedWith (e : JobError) (r : Region) (s : State) : failedWith e.code s (runtimeError e r s) :=
  ⟨statusWord_busy .., statusWord_done .., statusWord_err .., statusWord_padded .., statusWord_inexh ..,
    statusWord_badcode .., rfl, rfl, keepsRegisters.runtimeError e r s⟩

theorem runtimeError_drawnRegion (e : JobError) (r : Region) (s : State) : drawnRegion r s (runtimeError e r s) :=
  drawRegion_drawnRegion r s

section
variable {s : State} {c : QtState} {f : Frame} {fs : List Frame}

/-- The job's turn at quadrant `f.next` of its innermost region `f`. -/
def quadrantTurn (c : QtState) (f : Frame) (fs : List Frame) : QtTurn := ⟨c, f, fs, f.rect.quadrant f.next⟩

theorem atQuadrant.qtTurn_eq (h : atQuadrant s c f fs) : qtTurn s = some (quadrantTurn c f fs) := by
  obtain ⟨hc, hp, hs, hf⟩ := h
  exact Machine.qtTurn_eq hc hp hs hf

/-- The job behind the quadrant: the cursor moved, the next quadrant next (43_quadtree.md R177). -/
theorem atQuadrant.advance_eq (h : atQuadrant s c f fs) (off : Nat) :
    (quadrantTurn c f fs).advance off = ⟨off, none, { f with next := f.next + 1 } :: fs⟩ := by
  obtain ⟨-, hp, -, -⟩ := h
  simp only [QtTurn.advance, quadrantTurn, hp]

theorem atQuadrant.execQtSub_eq (h : atQuadrant s c f fs) :
    execQtSub s = .next (qtEntered (qtEnter s.cfg.qtMaxDepth (f.rect.quadrant f.next)
      ⟨c.off, none, { f with next := f.next + 1 } :: fs⟩) s) := by
  rw [← h.advance_eq]
  simp only [execQtSub, h.qtTurn_eq]
  rfl

end

/-! ### Entering a region (43_quadtree.md R172 to R174) -/

section
variable {r : Rect} {c : QtState}

theorem qtEnter_empty (he : r.isEmpty = true) (maxDepth : Nat) : qtEnter maxDepth r c = some c := if_pos he

theorem qtEnter_fits (he : r.isEmpty = false) {maxDepth : Nat} (hd : c.stack.length < maxDepth) :
    qtEnter maxDepth r c = some { c with pending := some r } := by
  rw [qtEnter, he, if_neg Bool.false_ne_true, if_neg (by omega)]

theorem qtEnter_tooDeep (he : r.isEmpty = false) {maxDepth : Nat} (hd : maxDepth ≤ c.stack.length) :
    qtEnter maxDepth r c = none := by
  rw [qtEnter, he, if_neg Bool.false_ne_true, if_pos (by omega)]

end

/-- Settles O38, by the three answers of an entry. -/
theorem qtSubdivision : Obligations.QtSubdivision := by
  unfold Obligations.QtSubdivision
  intro s c f fs h
  have hsub : exec .qtSub s = _ := h.execQtSub_eq
  simp only [hsub]
  refine ⟨fun he => ?_, fun hw hh hd => ?_, fun hw hh hd => ?_⟩
  · rw [qtEnter_empty ((Rect.isEmpty_iff _).2 he)]
    rfl
  · rw [qtEnter_fits ((Rect.isEmpty_false_iff _).2 (by omega)) hd]
    rfl
  · rw [qtEnter_tooDeep ((Rect.isEmpty_false_iff _).2 (by omega)) (Nat.lt_succ_iff.1 hd)]
    exact ⟨_, rfl, runtimeError_failedWith .qtDepth _ s, runtimeError_drawnRegion .qtDepth _ s⟩

/-! ### The pixels of a leaf (43_quadtree.md R183, R187) -/

/-- Value `dx * h + dy` of the column-major order is pixel (x + dx, y + dy). -/
theorem leafIndex_pixel {q : Rect} {dy : Nat} (hy : dy < q.h) (imageW dx : Nat) :
    leafIndex q imageW (dx * q.h + dy) = (q.y + dy) * imageW + (q.x + dx) := by
  rw [leafIndex, Nat.mul_comm dx, Nat.mul_add_mod, Nat.mod_eq_of_lt hy, Nat.mul_add_div (by omega), Nat.div_eq_of_lt hy,
    Nat.add_zero]

theorem leafOrder_lt {q : Rect} {dx dy : Nat} (hx : dx < q.w) (hy : dy < q.h) : dx * q.h + dy < q.w * q.h := by
  have hcol : (dx + 1) * q.h ≤ q.w * q.h := Nat.mul_le_mul_right _ hx
  rw [Nat.add_mul, Nat.one_mul] at hcol
  omega

/-- A leaf writes its own pixels alone. -/
theorem Wrote.leafPixels (q : Rect) (val : Nat → State → Byte) (s : State) :
    Wrote (fun a => ∃ dx dy, dx < q.w ∧ dy < q.h ∧ a = Machine.outAddr s ((q.y + dy) * s.width + (q.x + dx))) s
      (Machine.qtPutLeaf q val s) := by
  refine Wrote.writeEach (fun k hk => ⟨k / q.h, k % q.h, ?_, Nat.mod_lt _ ?_, rfl⟩) val s
  · exact Nat.div_lt_of_lt_mul (Nat.mul_comm q.w q.h ▸ hk)
  · exact Nat.pos_of_ne_zero fun h0 => by simp [h0] at hk

/-- A leaf of one pixel writes it (43_quadtree.md R179). -/
theorem qtPutLeaf_one {q : Rect} (hw : q.w = 1) (hh : q.h = 1) (val : Nat → State → Byte) (s : State) :
    qtPutLeaf q val s = qtPut q.x q.y (val 0 s) s := by
  simp [qtPutLeaf, hw, hh, writeEach, qtPut, out]

/-- A pixel's place is DIM's. -/
theorem pixel_eq_outByte {s t : State} (h : keepsRegisters s t) (x y : Nat) :
    pixel x y t = outByte (y * s.width + x) t := by
  rw [pixel, h.width]

section
variable {s : State} {c : QtState} {f : Frame} {fs : List Frame}

/-- What every leaf token does at its quadrant. -/
theorem atQuadrant.qtLeaf_eq (h : atQuadrant s c f fs) (bits : QtTurn → Nat) (val : QtTurn → Nat → State → Byte) :
    qtLeaf bits val s =
      .next { qtPutLeaf (f.rect.quadrant f.next) (val (quadrantTurn c f fs)) s with
              codec := some (.qt
                ⟨c.off + bits (quadrantTurn c f fs), none, { f with next := f.next + 1 } :: fs⟩) } := by
  rw [← h.advance_eq]
  simp only [qtLeaf, h.qtTurn_eq]
  rfl

theorem qtPutLeaf_leafFrame (val : Nat → State → Byte) (s : State) (f : Frame) (fs : List Frame) (off : Nat) :
    leafFrame s { qtPutLeaf (f.rect.quadrant f.next) val s with
                  codec := some (.qt ⟨off, none, { f with next := f.next + 1 } :: fs⟩) } f fs off := by
  have hw := Wrote.leafPixels (f.rect.quadrant f.next) val s
  refine ⟨rfl, hw.keepsRegisters.trans (keepsRegisters.codec _ _), hw.keepsStatus, fun a ha => hw.other a ?_⟩
  rintro ⟨dx, dy, hx, hy, rfl⟩
  exact ha dx dy hx hy rfl

/-- Settles O39: a leaf of one pixel puts it, and leaves what every leaf leaves. -/
theorem qtLeafOnePixel : Obligations.QtLeafOnePixel := by
  unfold Obligations.QtLeafOnePixel
  intro s c f fs v h q hw hh
  refine ⟨_, h.qtLeaf_eq (fun _ => 8) fun _ _ _ => v, ?_, qtPutLeaf_leafFrame ..⟩
  rw [qtPutLeaf_one hw hh]
  exact outByte_out_same (q.y * s.width + q.x) v s

/-- No pixel of a leaf is a byte of the stream, so a read gives the same while the leaf is written
(20_memory.md R71). -/
theorem bitRead_inLeaf {q : Rect} (hq : q.inImage s) (hv : validate .qt s = none) (val : Nat → State → Byte) {n : Nat}
    (hn : n ≤ q.w * q.h) (off len : Nat) :
    bitRead off len (writeEach (fun k => outAddr s (leafIndex q s.width k)) val n s) = bitRead off len s := by
  refine Wrote.bitRead (P := fun a => (imageRegion s).has a = true) (Wrote.writeEach (fun k hk => ?_) val s)
    (fun a ha => ?_) off len
  · exact outAddr_mem_imageRegion s (leafIndex_lt hq (by omega))
  · exact (validated_of_none hv).read_free (srcRegion_mem_readRegions (by decide) s) ha

/-- A leaf token inside a job: the frame, and pixel (x + dx, y + dy) is value `dx * h + dy` of the column-major order,
computed in a state with the stream of `s`. -/
theorem atQuadrant.qtLeaf_pixels (h : atQuadrant s c f fs) (hjob : s.jobOk) (hw : 1 ≤ (f.rect.quadrant f.next).w)
    (hh : 1 ≤ (f.rect.quadrant f.next).h) (bits : QtTurn → Nat) (val : QtTurn → Nat → State → Byte) :
    ∃ t, qtLeaf bits val s = .next t ∧ leafFrame s t f fs (c.off + bits (quadrantTurn c f fs)) ∧
      ∀ dx dy, dx < (f.rect.quadrant f.next).w → dy < (f.rect.quadrant f.next).h →
        ∃ u, (∀ off len, bitRead off len u = bitRead off len s) ∧
          pixel ((f.rect.quadrant f.next).x + dx) ((f.rect.quadrant f.next).y + dy) t =
            val (quadrantTurn c f fs) (dx * (f.rect.quadrant f.next).h + dy) u := by
  obtain ⟨hc, -, hs, -⟩ := id h
  obtain ⟨-, hv, hregions, -⟩ := hjob _ hc
  have hq : (f.rect.quadrant f.next).inImage s :=
    Rect.inImage_quadrant (hregions f (hs ▸ List.mem_cons_self)).1 ((Rect.isEmpty_false_iff _).2 ⟨hw, hh⟩)
  refine ⟨_, h.qtLeaf_eq bits val, qtPutLeaf_leafFrame .., fun dx dy hx hy => ?_⟩
  have hlt := leafOrder_lt hx hy
  refine ⟨_, fun off len => bitRead_inLeaf hq hv (val (quadrantTurn c f fs)) hlt.le off len, ?_⟩
  have hbyte := outByte_qtPutLeaf hq (val (quadrantTurn c f fs)) hlt
  rw [leafIndex_pixel hy] at hbyte
  exact (pixel_eq_outByte (qtPutLeaf_leafFrame ..).2.1 ..).trans hbyte

end

/-! ### The values of a leaf -/

/-- An 8-bit value is its byte. -/
theorem toNat_ofNat_bitRead (off : Nat) (s : State) : (BitVec.ofNat 8 (bitRead off 8 s)).toNat = bitRead off 8 s :=
  Nat.mod_eq_of_lt (bitRead_lt off 8 s)

/-- A lookup in a leaf's table; an index past it gives 0 (43_quadtree.md R185, R186). -/
theorem toNat_getD_qtTable (off count idx : Nat) (s : State) :
    ((qtTable off count s).getD idx 0).toNat = if idx < count then bitRead (off + 8 * idx) 8 s else 0 := by
  split
  · next h =>
    rw [List.getD_eq_getElem _ _ (by simpa [qtTable] using h)]
    simp only [qtTable, List.getElem_map, List.getElem_range]
    exact toNat_ofNat_bitRead ..
  · next h =>
    rw [List.getD_eq_default _ _ (by simpa [qtTable] using h)]
    rfl

/-- Settles O40: value k of a raw leaf is the k-th byte behind firstval. -/
theorem qtLeafRawPixels : Obligations.QtLeafRawPixels := by
  unfold Obligations.QtLeafRawPixels
  intro s c f fs firstval h hjob q area body hw hh
  obtain ⟨t, ht, hframe, hpix⟩ := h.qtLeaf_pixels hjob hw hh (fun t => bitcount1 t.area + 8 * t.area)
    fun t k s' => BitVec.ofNat 8 (bitRead (t.body + 8 * k) 8 s')
  refine ⟨t, ht, ?_, fun dx dy hx hy => ?_⟩
  · rw [Nat.add_assoc]
    exact hframe
  · obtain ⟨u, hu, hp⟩ := hpix dx dy hx hy
    rw [hp, hu]
    exact toNat_ofNat_bitRead ..

/-- Settles O41: every value of a filled leaf is the one. -/
theorem qtLeafFillUniform : Obligations.QtLeafFillUniform := by
  unfold Obligations.QtLeafFillUniform
  intro s c f fs v h hjob q hw hh
  obtain ⟨t, ht, hframe, hpix⟩ := h.qtLeaf_pixels hjob hw hh (fun t => bitcount1 t.area + 8) fun _ _ _ => v
  refine ⟨t, ht, ?_, fun dx dy hx hy => ?_⟩
  · rw [Nat.add_assoc]
    exact hframe
  · obtain ⟨-, -, hp⟩ := hpix dx dy hx hy
    exact hp

/-- Settles O42: value k of an indexed leaf is its table's entry at the k-th index. -/
theorem qtLeafIndexedPixels : Obligations.QtLeafIndexedPixels := by
  unfold Obligations.QtLeafIndexedPixels
  intro s c f fs firstval h hjob q colorCount b2 body hw hh
  obtain ⟨t, ht, hframe, hpix⟩ := h.qtLeaf_pixels hjob hw hh
    (fun t => bitcount1 t.area + 8 * colorCount + b2 * t.area)
    fun t k s' => (qtTable t.body colorCount s).getD (bitRead (t.body + 8 * colorCount + b2 * k) b2 s') 0
  refine ⟨t, ht, ?_, fun dx dy hx hy => ?_⟩
  · rw [Nat.add_assoc, Nat.add_assoc c.off, ← Nat.add_assoc (bitcount1 _)]
    exact hframe
  · obtain ⟨u, hu, hp⟩ := hpix dx dy hx hy
    rw [hp, hu]
    exact toNat_getD_qtTable ..

end Sys2Proof.Machine
end

section
/-! PROOF. A region that is drawn forgets what was written in it (60_exceptions.md R272), so a quadtree job that ends too
deep leaves the memory of its start but for the image (43_quadtree.md R174). -/

namespace Sys2Proof.Machine

/-! ### Two writes -/

theorem Memory.write_write_same (a : Nat) (u v : Byte) (m : Memory) :
    Memory.write a v (Memory.write a u m) = Memory.write a v m := by
  induction m with
  | nil => simp [Memory.write]
  | cons cell m ih =>
    obtain ⟨b, w⟩ := cell
    rcases Nat.lt_trichotomy a b with h | rfl | h
    · simp [Memory.write, h]
    · simp [Memory.write]
    · simp [Memory.write, Nat.not_lt.2 h.le, h.ne', ih]

theorem Memory.write_comm {a b : Nat} (h : a < b) (u v : Byte) (m : Memory) :
    Memory.write a u (Memory.write b v m) = Memory.write b v (Memory.write a u m) := by
  induction m with
  | nil => simp [Memory.write, h, h.not_gt, h.ne']
  | cons cell m ih =>
    obtain ⟨d, w⟩ := cell
    rcases Nat.lt_trichotomy a d with had | rfl | hda
    · rcases Nat.lt_trichotomy b d with hbd | rfl | hdb
      · simp [Memory.write, h, h.not_gt, h.ne', had, hbd]
      · simp [Memory.write, h, h.not_gt, h.ne']
      · simp [Memory.write, had, h.not_gt, h.ne', hdb.not_gt, hdb.ne']
    · simp [Memory.write, h.not_gt, h.ne']
    · have hdb := hda.trans h
      simp [Memory.write, hda.not_gt, hda.ne', hdb.not_gt, hdb.ne', ih]

theorem memWrite_memWrite_same (a : Nat) (u v : Byte) (s : State) :
    memWrite a v (memWrite a u s) = memWrite a v s := by
  simp [memWrite, Memory.write_write_same]

theorem memWrite_comm {a b : Nat} (h : a ≠ b) (u v : Byte) (s : State) :
    memWrite a u (memWrite b v s) = memWrite b v (memWrite a u s) := by
  rcases Nat.lt_or_gt_of_ne h with h | h
  · simp [memWrite, Memory.write_comm h]
  · simp [memWrite, Memory.write_comm h]

/-! ### Drawing over a write -/

section
variable (addr : Nat → Nat) (byte : Nat → Byte)

/-- A write made before a loop of given bytes is lost under a write of its address behind the loop. -/
theorem memWrite_writeEach_memWrite (n a : Nat) (u v : Byte) (s : State) :
    memWrite a v (writeEach addr (fun k _ => byte k) n (memWrite a u s)) =
      memWrite a v (writeEach addr (fun k _ => byte k) n s) := by
  induction n with
  | zero => exact memWrite_memWrite_same a u v s
  | succ n ih =>
    simp only [writeEach]
    by_cases h : a = addr n
    · rw [← h, memWrite_memWrite_same, memWrite_memWrite_same, ih]
    · rw [memWrite_comm h, memWrite_comm h, ih]

/-- A write made before a loop that writes its address is lost. -/
theorem writeEach_memWrite {j n : Nat} (hj : j < n) (u : Byte) (s : State) :
    writeEach addr (fun k _ => byte k) n (memWrite (addr j) u s) = writeEach addr (fun k _ => byte k) n s := by
  induction n with
  | zero => exact absurd hj (Nat.not_lt_zero j)
  | succ n ih =>
    simp only [writeEach]
    rcases Nat.eq_or_lt_of_le (Nat.le_of_lt_succ hj) with rfl | hlt
    · exact memWrite_writeEach_memWrite addr byte ..
    · rw [ih hlt]

end

theorem drawRegion_memWrite {r : Region} {a : Nat} (ha : r.has a = true) (v : Byte) (s : State) :
    drawRegion r (memWrite a v s) = drawRegion r s := by
  obtain ⟨hlo, hhi⟩ := (Region.has_iff r a).1 ha
  obtain ⟨j, rfl⟩ := Nat.exists_eq_add_of_le hlo
  simp only [drawRegion, memWrite_draws]
  rw [writeEach_memWrite (fun k => r.base + k) (fun k => Config.freeByte (s.draws + k)) (Nat.lt_of_add_lt_add_left hhi)]

theorem drawRegion_writeEach {r : Region} {addr : Nat → Nat} {n : Nat} (h : ∀ k, k < n → r.has (addr k) = true)
    (val : Nat → State → Byte) (s : State) : drawRegion r (writeEach addr val n s) = drawRegion r s := by
  induction n with
  | zero => rfl
  | succ n ih =>
    simp only [writeEach]
    rw [drawRegion_memWrite (h n (Nat.lt_succ_self n)), ih fun k hk => h k (Nat.lt_succ_of_lt hk)]

/-! ### A state with part of the image written -/

/-- `t` is `s` but for image bytes: drawing the image gives the same state from either. -/
def PaintedOver (s t : State) : Prop := drawRegion (imageRegion s) t = drawRegion (imageRegion s) s

section
variable {s t : State}

theorem PaintedOver.cfg (h : PaintedOver s t) : t.cfg = s.cfg := by simpa using congrArg State.cfg h
theorem PaintedOver.srcLen (h : PaintedOver s t) : t.srcLen = s.srcLen := by simpa using congrArg State.srcLen h
theorem PaintedOver.dstBase (h : PaintedOver s t) : t.dstBase = s.dstBase := by simpa using congrArg State.dstBase h
theorem PaintedOver.dim (h : PaintedOver s t) : t.dim = s.dim := by simpa using congrArg State.dim h

theorem PaintedOver.imageRegion (h : PaintedOver s t) : imageRegion t = imageRegion s := by
  simp only [Machine.imageRegion, State.width, State.height, h.dstBase, h.dim]

theorem PaintedOver.qtPutLeaf (h : PaintedOver s t) {q : Rect} (hq : q.inImage s) (val : Nat → State → Byte) :
    PaintedOver s (qtPutLeaf q val t) := by
  have hqt : q.inImage t := by
    simpa only [Rect.inImage, State.width, State.height, h.dim] using hq
  refine (drawRegion_writeEach (fun k hk => ?_) val t).trans h
  rw [← h.imageRegion]
  exact outAddr_mem_imageRegion t (leafIndex_lt hqt hk)

/-- A run-time error forgets what was painted. -/
theorem PaintedOver.runtimeError (h : PaintedOver s t) (e : JobError) :
    runtimeError e (Machine.imageRegion t) t = runtimeError e (Machine.imageRegion s) s := by
  rw [h.imageRegion]
  exact congrArg (errorCompletion e) h

end

end Sys2Proof.Machine
end

section
/-! PROOF. The tokens of a quadtree job against `DecodeLeaf` of the pseudocode (43_quadtree.md R172, R178). -/

namespace Sys2Proof.Machine

/-! ### A state inside a quadtree job -/

/-- The state with a quadtree job at `c`. The operations of R172 do not look at the internal codec state. -/
def State.inQt (c : QtState) (s : State) : State := { s with codec := some (.qt c) }

section
variable (c : QtState) (s : State)

@[simp] theorem inQt_codec : (s.inQt c).codec = some (.qt c) := rfl
@[simp] theorem inQt_cfg : (s.inQt c).cfg = s.cfg := rfl

@[simp] theorem bitRead_inQt (off n : Nat) : bitRead off n (s.inQt c) = bitRead off n s := by
  induction n with
  | zero => rfl
  | succ n ih => exact congrArg (· ||| _) ih

@[simp] theorem qtTable_inQt (off count : Nat) : qtTable off count (s.inQt c) = qtTable off count s := by
  simp only [qtTable, bitRead_inQt]

end

section
variable {val : Nat → State → Byte} {c : QtState} (hval : ∀ k t, val k (t.inQt c) = val k t)
include hval

theorem writeEach_inQt (addr : Nat → Nat) (n : Nat) (s : State) :
    writeEach addr val n (s.inQt c) = (writeEach addr val n s).inQt c := by
  induction n with
  | zero => rfl
  | succ n ih =>
    simp only [writeEach, ih, hval]
    rfl

theorem qtPutLeaf_inQt (q : Rect) (s : State) : qtPutLeaf q val (s.inQt c) = (qtPutLeaf q val s).inQt c :=
  writeEach_inQt hval _ _ s

end

/-- An entry does not look at the internal codec state either (43_quadtree.md R172 to R174). -/
theorem qtEntered_inQt (o : Option QtState) (c : QtState) (s : State) : qtEntered o (s.inQt c) = qtEntered o s := by
  cases o with
  | some d => rfl
  | none =>
    have hdraw : ∀ r, drawRegion r (s.inQt c) = (drawRegion r s).inQt c := fun r => by
      simp only [drawRegion]
      rw [writeEach_inQt fun _ _ => rfl]
      rfl
    simp only [qtEntered, runtimeError, hdraw]
    rfl

/-! ### What the decoder reads at the cursor -/

/-- A field of the decoder's window is a read (40_bitstream.md R117). -/
theorem extractLsb'_window {off n len : Nat} (h : off % 8 + n + len ≤ 32) (s : State) :
    (window off s).extractLsb' n len = BitVec.ofNat len (bitRead (off + n) len s) := by
  ext k hk
  have hin : off % 8 + (n + k) < 32 := by omega
  rw [BitVec.getElem_extractLsb', getLsbD_window, BitVec.getElem_eq_testBit_toNat, BitVec.toNat_ofNat,
    Nat.mod_eq_of_lt (bitRead_lt ..), testBit_bitRead, Nat.add_assoc]
  simp [hin, hk]

/-- A leaf's firstval (43_quadtree.md R180). -/
theorem leafFirstval_window (w h off : Nat) (s : State) :
    leafFirstval w h (window off s) = bitRead off (bitcount1 (w * h)) s := by
  have hcap : bitcount1 (w * h) ≤ 8 := Laws.FitsWf.bitcount1_le _
  exact window_mod _ _ _ (by omega)

/-! ### The leaves of the pseudocode -/

section
variable {q : Rect} {off : Nat} {s : State}

theorem refLeaf_empty (he : q.isEmpty = true) : refLeaf q off s = (off, s) := if_pos he

theorem refLeaf_one (hw : q.w = 1) (hh : q.h = 1) :
    refLeaf q off s = (off + 8, qtPutLeaf q (fun _ _ => BitVec.ofNat 8 (bitRead off 8 s)) s) := by
  have he : q.isEmpty = false := (Rect.isEmpty_false_iff q).2 (by omega)
  rw [refLeaf, he, if_neg Bool.false_ne_true, if_pos ⟨hw, hh⟩, qtPutLeaf_one hw hh]

section
variable (he : q.isEmpty = false) (hone : ¬(q.w = 1 ∧ q.h = 1))
include he hone

theorem refLeaf_raw (hraw : rawTest (q.w * q.h) (bitRead off (bitcount1 (q.w * q.h)) s + 1) = true) :
    refLeaf q off s =
      (off + bitcount1 (q.w * q.h) + 8 * (q.w * q.h),
        qtPutLeaf q (fun k s' => BitVec.ofNat 8 (bitRead (off + bitcount1 (q.w * q.h) + 8 * k) 8 s')) s) := by
  rw [refLeaf, he, if_neg Bool.false_ne_true, if_neg hone]
  exact if_pos (of_decide_eq_true hraw)

theorem refLeaf_fill (hraw : ¬rawTest (q.w * q.h) (bitRead off (bitcount1 (q.w * q.h)) s + 1) = true)
    (hzero : bitRead off (bitcount1 (q.w * q.h)) s = 0) :
    refLeaf q off s =
      (off + bitcount1 (q.w * q.h) + 8,
        qtPutLeaf q (fun _ _ => BitVec.ofNat 8 (bitRead (off + bitcount1 (q.w * q.h)) 8 s)) s) := by
  rw [refLeaf, he, if_neg Bool.false_ne_true, if_neg hone]
  exact (if_neg fun h => hraw (decide_eq_true h)).trans (if_pos (congrArg (· + 1) hzero))

theorem refLeaf_idx (hraw : ¬rawTest (q.w * q.h) (bitRead off (bitcount1 (q.w * q.h)) s + 1) = true)
    (hzero : bitRead off (bitcount1 (q.w * q.h)) s ≠ 0) :
    let body := off + bitcount1 (q.w * q.h)
    let colorCount := bitRead off (bitcount1 (q.w * q.h)) s + 1
    refLeaf q off s =
      (body + 8 * colorCount + bitcount2 colorCount * (q.w * q.h),
        qtPutLeaf q (fun k s' => (qtTable body colorCount s).getD
          (bitRead (body + 8 * colorCount + bitcount2 colorCount * k) (bitcount2 colorCount) s') 0) s) := by
  rw [refLeaf, he, if_neg Bool.false_ne_true, if_neg hone]
  exact (if_neg fun h => hraw (decide_eq_true h)).trans (if_neg fun h => hzero (Nat.succ_inj.1 h))

end

/-- `DecodeLeaf` writes image bytes alone. -/
theorem PaintedOver.refLeaf {s₀ : State} (h : PaintedOver s₀ s) (hq : q.isEmpty = false → q.inImage s₀) :
    PaintedOver s₀ (refLeaf q off s).2 := by
  cases he : q.isEmpty with
  | true =>
    rw [refLeaf_empty he]
    exact h
  | false =>
    have hput (val : Nat → State → Byte) : PaintedOver s₀ (Machine.qtPutLeaf q val s) := h.qtPutLeaf (hq he) val
    by_cases hone : q.w = 1 ∧ q.h = 1
    · rw [refLeaf_one hone.1 hone.2]
      exact hput _
    by_cases hraw : rawTest (q.w * q.h) (bitRead off (bitcount1 (q.w * q.h)) s + 1) = true
    · rw [refLeaf_raw he hone hraw]
      exact hput _
    by_cases hzero : bitRead off (bitcount1 (q.w * q.h)) s = 0
    · rw [refLeaf_fill he hone hraw hzero]
      exact hput _
    · rw [refLeaf_idx he hone hraw hzero]
      exact hput _

end

/-! ### The machine's leaves -/

section
variable {f : Frame} {fs : List Frame} {off : Nat} {s : State} (hf : f.next < 4)
include hf

/-- A leaf token inside a job whose values do not look at the internal codec state. -/
theorem qtLeaf_inQt (bits : QtTurn → Nat) {val : QtTurn → Nat → State → Byte}
    (hval : ∀ turn k t c, val turn k (State.inQt c t) = val turn k t) :
    qtLeaf bits val (s.inQt ⟨off, none, f :: fs⟩) =
      .next ((qtPutLeaf (f.rect.quadrant f.next) (val (quadrantTurn ⟨off, none, f :: fs⟩ f fs)) s).inQt
        ⟨off + bits (quadrantTurn ⟨off, none, f :: fs⟩ f fs), none, { f with next := f.next + 1 } :: fs⟩) := by
  have hat : atQuadrant (s.inQt ⟨off, none, f :: fs⟩) ⟨off, none, f :: fs⟩ f fs := ⟨rfl, rfl, rfl, hf⟩
  rw [hat.qtLeaf_eq, qtPutLeaf_inQt fun k t => hval _ k t _]
  rfl

/-- The token that the decoder finds at a leaf does what `DecodeLeaf` does. -/
theorem exists_leafToken (he : (f.rect.quadrant f.next).isEmpty = false) :
    ∃ i, decode (.qtQuadrant false (f.rect.quadrant f.next).w (f.rect.quadrant f.next).h) (window off s) = .ok i ∧
      execToken i (s.inQt ⟨off, none, f :: fs⟩) =
        .next ((refLeaf (f.rect.quadrant f.next) off s).2.inQt
          ⟨(refLeaf (f.rect.quadrant f.next) off s).1, none, { f with next := f.next + 1 } :: fs⟩) := by
  generalize hq : f.rect.quadrant f.next = q at he ⊢
  simp only [decode]
  by_cases hone : q.w = 1 ∧ q.h = 1
  · rw [refLeaf_one hone.1 hone.2, hone.1, hone.2, decodeLeaf_one, extractLsb'_window (by omega)]
    subst hq
    exact ⟨_, rfl, qtLeaf_inQt hf _ fun _ _ _ _ => rfl⟩
  have hpos := (Rect.isEmpty_false_iff q).1 he
  have hcap : bitcount1 (q.w * q.h) ≤ 8 := Laws.FitsWf.bitcount1_le _
  rw [decodeLeaf_larger (by omega) hone, leafFirstval_window]
  by_cases hraw : rawTest (q.w * q.h) (bitRead off (bitcount1 (q.w * q.h)) s + 1) = true
  · rw [if_pos hraw, refLeaf_raw he hone hraw, Nat.add_assoc off]
    subst hq
    exact ⟨_, rfl, qtLeaf_inQt hf _ fun _ _ _ _ => by rw [bitRead_inQt]⟩
  by_cases hzero : bitRead off (bitcount1 (q.w * q.h)) s = 0
  · rw [if_neg hraw, if_pos hzero, refLeaf_fill he hone hraw hzero, Nat.add_assoc off, extractLsb'_window (by omega)]
    subst hq
    exact ⟨_, rfl, qtLeaf_inQt hf _ fun _ _ _ _ => rfl⟩
  · have hnat := toNat_leafFirstval q.w q.h (window off s)
    rw [leafFirstval_window] at hnat
    rw [if_neg hraw, if_neg hzero, refLeaf_idx he hone hraw hzero]
    refine ⟨_, rfl, ?_⟩
    simp only [execToken, execQtLeafIdx, hnat, qtTable_inQt]
    subst hq
    rw [qtLeaf_inQt hf _ fun _ _ _ _ => by rw [bitRead_inQt], ← Nat.add_assoc, ← Nat.add_assoc]
    rfl

end

end Sys2Proof.Machine
end

section
/-! PROOF. The quadtree job over a stack of regions against the recursion of the pseudocode (43_quadtree.md R172,
R177). -/

namespace Sys2Proof.Machine

/-! ### Runs of token steps -/

/-- The run of token steps from `s` comes to `t` within `bound` of them, and goes on from there. -/
def RunsTo (bound : Nat) (s t : State) : Prop := ∃ k, k ≤ bound ∧ ∀ fuel, runTokens (fuel + k) s = runTokens fuel t

section
variable {a b : Nat} {s t u : State}

theorem RunsTo.refl (b : Nat) (s : State) : RunsTo b s s := ⟨0, Nat.zero_le b, fun _ => rfl⟩

theorem RunsTo.mono (h : RunsTo a s t) (hab : a ≤ b) : RunsTo b s t := by
  obtain ⟨k, hk, hrun⟩ := h
  exact ⟨k, hk.trans hab, hrun⟩

theorem RunsTo.trans (h : RunsTo a s t) (h' : RunsTo b t u) : RunsTo (a + b) s u := by
  obtain ⟨k, hk, hrun⟩ := h
  obtain ⟨k', hk', hrun'⟩ := h'
  refine ⟨k' + k, by omega, fun fuel => ?_⟩
  rw [← Nat.add_assoc, hrun, hrun']

section
variable {c : QtState}

theorem RunsTo.qtToken {i : Instr} (hf : fetchQt c (s.inQt c) = .token i) (ht : execToken i (s.inQt c) = .next t) :
    RunsTo 1 (s.inQt c) t :=
  ⟨1, Nat.le_refl 1, fun _ => runTokens_token (c := .qt c) rfl hf ht⟩

theorem RunsTo.qtSkip (hf : fetchQt c (s.inQt c) = .skip) : RunsTo 1 (s.inQt c) (s.inQt (qtSkip c)) := by
  have hfetch : fetch (.qt c) (s.inQt c) = .skip := hf
  exact ⟨1, Nat.le_refl 1, fun fuel => by simp only [runTokens, inQt_codec, tokenStep, hfetch]; rfl⟩

theorem RunsTo.qtFinish {inexh : Bool} (hf : fetchQt c (s.inQt c) = .finish inexh) :
    RunsTo 1 (s.inQt c) (finishQt c (s.inQt c)) := by
  have hfetch : fetch (.qt c) (s.inQt c) = .finish inexh := hf
  exact ⟨1, Nat.le_refl 1, fun fuel => by simp only [runTokens, inQt_codec, tokenStep, hfetch]; rfl⟩

end

/-- A run to the end of the job, given enough fuel. -/
theorem RunsTo.runTokens_eq {fuel : Nat} (h : RunsTo b s t) (hb : b ≤ fuel) (ht : t.codec = none) :
    runTokens fuel s = .next t := by
  obtain ⟨k, hk, hrun⟩ := h
  rw [← Nat.sub_add_cancel (hk.trans hb), hrun, runTokens_ended _ ht]

end

/-! ### Where the recursion leaves a job -/

/-- The job's state after a part of the recursion that began in the job of `s₀`: the cursor and the memory the part
gives, inside the regions `stack`; or ERR_QT_DEPTH. -/
def qtReached (s₀ : State) (stack : List Frame) : Option (Nat × State) → State
  | some (off, t) => t.inQt ⟨off, none, stack⟩
  | none => runtimeError .qtDepth (imageRegion s₀) s₀

/-- Within `bound` token steps the job at `start` comes to where `part` of the recursion leaves it. -/
structure QtRuns (s₀ : State) (bound : Nat) (stack : List Frame) (start : State) (part : Option (Nat × State)) :
    Prop where
  runs : RunsTo bound start (qtReached s₀ stack part)
  painted : ∀ p, part = some p → PaintedOver s₀ p.2

section
variable {s₀ start : State} {a b : Nat} {stack stack' : List Frame} {part : Option (Nat × State)}

theorem QtRuns.mono (h : QtRuns s₀ a stack start part) (hab : a ≤ b) : QtRuns s₀ b stack start part :=
  ⟨h.runs.mono hab, h.painted⟩

theorem QtRuns.after {s : State} (h : RunsTo a s start) (h' : QtRuns s₀ b stack start part) :
    QtRuns s₀ (a + b) stack s part :=
  ⟨h.trans h'.runs, h'.painted⟩

/-- A part that gives a cursor and a state the job itself has come to. -/
theorem QtRuns.here {off : Nat} {s : State} (h : RunsTo b start (s.inQt ⟨off, none, stack⟩)) (hs : PaintedOver s₀ s) :
    QtRuns s₀ b stack start (some (off, s)) :=
  ⟨h, fun p hp => by cases hp; exact hs⟩

/-- One part behind another. -/
theorem QtRuns.bind (h : QtRuns s₀ a stack start part) {next : Nat × State → Option (Nat × State)}
    (hnext : ∀ off s, PaintedOver s₀ s → QtRuns s₀ b stack' (s.inQt ⟨off, none, stack⟩) (next (off, s))) :
    QtRuns s₀ (a + b) stack' start (part.bind next) := by
  cases part with
  | none => exact ⟨h.runs.mono (Nat.le_add_right a b), fun p hp => by cases hp⟩
  | some p => exact (hnext p.1 p.2 (h.painted p rfl)).after h.runs

end

/-! ### The recursion of the pseudocode, part by part -/

/-- Quadrant `f.next` of the region of `f`: a region or a leaf, by its mask bit. -/
def refQuadrant (order : MaskOrder) (levels : Nat) (f : Frame) (p : Nat × State) : Option (Nat × State) :=
  if maskBit order f.mask f.next then refRegion levels (f.rect.quadrant f.next) p.1 p.2
  else some (refLeaf (f.rect.quadrant f.next) p.1 p.2)

/-- The last `n` quadrants of a region, in their order. -/
def refQuadrants (order : MaskOrder) (levels : Nat) (r : Rect) (mask : BitVec qtMaskBits) :
    Nat → Nat × State → Option (Nat × State)
  | 0, p => some p
  | n + 1, p => (refQuadrant order levels ⟨r, mask, 3 - n⟩ p).bind fun p' => refQuadrants order levels r mask n p'

section
variable {r : Rect} {off : Nat} {s : State}

theorem refRegion_empty (he : r.isEmpty = true) (levels : Nat) : refRegion levels r off s = some (off, s) := by
  unfold refRegion
  exact if_pos he

theorem refRegion_tooDeep (he : r.isEmpty = false) : refRegion 0 r off s = none := by
  unfold refRegion
  exact if_neg (he ▸ Bool.false_ne_true)

theorem refRegion_succ (he : r.isEmpty = false) (levels : Nat) :
    refRegion (levels + 1) r off s =
      refQuadrants s.cfg.maskOrder levels r (BitVec.ofNat 4 (bitRead off 4 s)) 4 (off + 4, s) := by
  simp only [refQuadrants, Option.bind_fun_some]
  conv_lhs => unfold refRegion
  exact if_neg (he ▸ Bool.false_ne_true)

end

/-! ### The steps of the job -/

section
variable {r : Rect} {f : Frame} {stack : List Frame} {off : Nat} {s : State}

/-- 43_quadtree.md R176: the mask of the region entered. -/
theorem mask_runsTo (r : Rect) (stack : List Frame) (off : Nat) (s : State) :
    RunsTo 1 (s.inQt ⟨off, some r, stack⟩)
      (s.inQt ⟨off + 4, none, ⟨r, BitVec.ofNat 4 (bitRead off 4 s), 0⟩ :: stack⟩) := by
  have hmask : (window off s).extractLsb' 0 4 = BitVec.ofNat 4 (bitRead off 4 s) := extractLsb'_window (by omega) s
  exact .qtToken (fetchQt_mask rfl (congrArg (Except.ok ∘ Instr.qtMask) hmask))
    (execQtMask_eq (s := s.inQt ⟨off, some r, stack⟩) (c := ⟨off, some r, stack⟩) rfl rfl _)

/-- 43_quadtree.md R177: a region whose quadrants are done is left. -/
theorem leave_runsTo (hf : ¬f.next < 4) : RunsTo 1 (s.inQt ⟨off, none, f :: stack⟩) (s.inQt ⟨off, none, stack⟩) := by
  have hfetch : fetchQt ⟨off, none, f :: stack⟩ (s.inQt ⟨off, none, f :: stack⟩) = .skip := if_neg hf
  have hskip : qtSkip ⟨off, none, f :: stack⟩ = ⟨off, none, stack⟩ := if_neg hf
  exact hskip ▸ RunsTo.qtSkip hfetch

section
variable (hf : f.next < 4)
include hf

/-- 43_quadtree.md R175: a quadrant whose mask bit is set is entered. -/
theorem sub_runsTo (hbit : maskBit s.cfg.maskOrder f.mask f.next = true) :
    RunsTo 1 (s.inQt ⟨off, none, f :: stack⟩)
      (qtEntered (qtEnter s.cfg.qtMaxDepth (f.rect.quadrant f.next) ⟨off, none, { f with next := f.next + 1 } :: stack⟩)
        s) := by
  have hat : atQuadrant (s.inQt ⟨off, none, f :: stack⟩) ⟨off, none, f :: stack⟩ f stack := ⟨rfl, rfl, rfl, hf⟩
  refine .qtToken (i := .qtSub) (fetchQt_quadrant rfl rfl hf ?_)
    (hat.execQtSub_eq.trans (congrArg _ (qtEntered_inQt ..)))
  rw [inQt_cfg, hbit]
  rfl

/-- 43_quadtree.md R178: a quadrant whose mask bit is clear is a leaf. -/
theorem leaf_runsTo (hbit : maskBit s.cfg.maskOrder f.mask f.next = false) :
    RunsTo 1 (s.inQt ⟨off, none, f :: stack⟩)
      ((refLeaf (f.rect.quadrant f.next) off s).2.inQt
        ⟨(refLeaf (f.rect.quadrant f.next) off s).1, none, { f with next := f.next + 1 } :: stack⟩) := by
  cases he : (f.rect.quadrant f.next).isEmpty with
  | true =>
    have hfetch : fetchQt ⟨off, none, f :: stack⟩ (s.inQt ⟨off, none, f :: stack⟩) = .skip := by
      simp only [fetchQt, if_pos hf, inQt_cfg, hbit, decoded, decode, decodeLeaf_empty ((Rect.isEmpty_iff _).1 he)]
    have hskip : qtSkip ⟨off, none, f :: stack⟩ = ⟨off, none, { f with next := f.next + 1 } :: stack⟩ := if_pos hf
    rw [refLeaf_empty he]
    exact hskip ▸ RunsTo.qtSkip hfetch
  | false =>
    obtain ⟨i, hdecode, hexec⟩ := exists_leafToken (off := off) (fs := stack) (s := s) hf he
    refine .qtToken (fetchQt_quadrant rfl rfl hf ?_) hexec
    rw [inQt_cfg, hbit]
    exact hdecode

end

end

/-! ### The job is the recursion -/

/-- 43_quadtree.md R173: an empty region is a no-op. -/
theorem QtRuns.emptyEntry {s₀ s : State} {r : Rect} (he : r.isEmpty = true) (hs : PaintedOver s₀ s)
    {maxDepth levels b off : Nat} {stack : List Frame} :
    QtRuns s₀ b stack (qtEntered (qtEnter maxDepth r ⟨off, none, stack⟩) s) (refRegion levels r off s) := by
  rw [qtEnter_empty he, refRegion_empty he]
  exact .here (.refl ..) hs

/-- A region entered with `levels` of nesting left runs as `DecodeRegion` says, within the steps of `qtCost`. -/
def EntriesRun (s₀ : State) (levels : Nat) : Prop :=
  ∀ (r : Rect) (stack : List Frame) (off : Nat) (s : State), (r.isEmpty = false → r.inImage s₀) → PaintedOver s₀ s →
    stack.length + levels = s₀.cfg.qtMaxDepth →
    QtRuns s₀ (6 * r.area * levels) stack (qtEntered (qtEnter s₀.cfg.qtMaxDepth r ⟨off, none, stack⟩) s)
      (refRegion levels r off s)

section
variable {s₀ : State} {levels : Nat} (hentry : EntriesRun s₀ levels) {r : Rect} (hr : r.inImage s₀) {stack : List Frame}
  (hdepth : stack.length + 1 + levels = s₀.cfg.qtMaxDepth) (mask : BitVec qtMaskBits)
include hentry hr hdepth

/-- One quadrant of a region. -/
theorem EntriesRun.quadrant {i off : Nat} {s : State} (hi : i < 4) (hs : PaintedOver s₀ s) :
    QtRuns s₀ (1 + 6 * (r.quadrant i).area * levels) (⟨r, mask, i + 1⟩ :: stack)
      (s.inQt ⟨off, none, ⟨r, mask, i⟩ :: stack⟩) (refQuadrant s₀.cfg.maskOrder levels ⟨r, mask, i⟩ (off, s)) := by
  have hq : (r.quadrant i).isEmpty = false → (r.quadrant i).inImage s₀ := Rect.inImage_quadrant hr
  rw [← hs.cfg, refQuadrant]
  cases hbit : maskBit s.cfg.maskOrder mask i with
  | true =>
    have hsub := sub_runsTo (f := ⟨r, mask, i⟩) (stack := stack) (off := off) (s := s) hi hbit
    rw [hs.cfg] at hsub
    exact (hentry _ (⟨r, mask, i + 1⟩ :: stack) off s hq hs hdepth).after hsub
  | false =>
    exact (QtRuns.here (leaf_runsTo (f := ⟨r, mask, i⟩) hi hbit) (hs.refLeaf hq)).mono (Nat.le_add_right 1 _)

/-- The last `n` quadrants of a region, and leaving it. -/
theorem EntriesRun.quadrants {n off : Nat} {s : State} (hn : n ≤ 4) (hs : PaintedOver s₀ s) :
    QtRuns s₀ (quadrantsCost levels r n) stack (s.inQt ⟨off, none, ⟨r, mask, 4 - n⟩ :: stack⟩)
      (refQuadrants s₀.cfg.maskOrder levels r mask n (off, s)) := by
  induction n generalizing off s with
  | zero => exact .here (leave_runsTo (f := ⟨r, mask, 4⟩) (Nat.lt_irrefl 4)) hs
  | succ n ih =>
    have hthis : 4 - (n + 1) = 3 - n := by omega
    have hnext : 3 - n + 1 = 4 - n := by omega
    have hquad := hentry.quadrant hr hdepth mask (i := 3 - n) (off := off) (by omega) hs
    rw [hnext] at hquad
    rw [hthis]
    exact hquad.bind fun _ _ hs' => ih (by omega) hs'

end

/-- By induction on the levels of nesting left, as `DecodeRegion` recurs. -/
theorem entriesRun (s₀ : State) (levels : Nat) : EntriesRun s₀ levels := by
  induction levels with
  | zero =>
    intro r stack off s hr hs hdepth
    cases he : r.isEmpty with
    | true => exact .emptyEntry he hs
    | false =>
      rw [qtEnter_tooDeep he hdepth.ge, refRegion_tooDeep he, qtEntered, hs.runtimeError]
      exact ⟨.refl .., fun p hp => by cases hp⟩
  | succ levels ih =>
    intro r stack off s hr hs hdepth
    cases he : r.isEmpty with
    | true => exact .emptyEntry he hs
    | false =>
      have hcost := cost_mask he (maxDepth := s₀.cfg.qtMaxDepth) (n := stack.length) (by omega)
      have hlevels : s₀.cfg.qtMaxDepth - (stack.length + 1) = levels := by omega
      have hlevels' : s₀.cfg.qtMaxDepth - stack.length = levels + 1 := by omega
      rw [hlevels, hlevels', Nat.add_comm] at hcost
      rw [qtEnter_fits he (by show stack.length < _; omega), refRegion_succ he, hs.cfg]
      exact ((ih.quadrants (hr he) (by omega) _ (Nat.le_refl 4) hs).after (mask_runsTo r stack off s)).mono hcost

/-- A job whose regions are all done ends with R172's RESULT and INEXH. -/
theorem finish_runsTo (off : Nat) (t : State) :
    RunsTo 1 (t.inQt ⟨off, none, []⟩) (complete false (decide (8 * t.srcLen.toNat < off)) false off t) :=
  .qtFinish (c := ⟨off, none, []⟩) (inexh := false) rfl

/-- The whole job, opened, comes to where the pseudocode does. -/
theorem openQt_runsTo (s : State) : RunsTo (qtFuel s) (openQt s) (refQt s) := by
  have himage : Rect.isEmpty ⟨0, 0, s.width, s.height⟩ = false → Rect.inImage ⟨0, 0, s.width, s.height⟩ s :=
    fun he => ⟨he, by simp, by simp⟩
  obtain ⟨hrun, hpainted⟩ := entriesRun s s.cfg.qtMaxDepth _ [] 0 s himage rfl (Nat.zero_add _)
  refine RunsTo.trans hrun ?_
  rw [refQt]
  cases hpart : refRegion s.cfg.qtMaxDepth ⟨0, 0, s.width, s.height⟩ 0 s with
  | none => exact .refl ..
  | some p =>
    have hsrc := (hpainted p hpart).srcLen
    simp only [← hsrc]
    exact finish_runsTo p.1 p.2

theorem refQt_codec (s : State) : (refQt s).codec = none := by
  rw [refQt]
  split <;> rfl

/-- Settles O35: the token steps over the stack come to the recursion's state within the job's fuel (`openQt_runsTo`). -/
theorem qtJobIsRecursion : Obligations.QtJobIsRecursion := by
  unfold Obligations.QtJobIsRecursion
  refine ⟨fun mask i _ => ⟨rfl, rfl⟩, fun s ctab mirror _ hv => ?_⟩
  simp only [exec, execQt, validated, hv]
  exact (openQt_runsTo s).runTokens_eq (Nat.le_refl _) (refQt_codec s)

end Sys2Proof.Machine
end

section
/-! PROOF. The tokens of an LZ77 job (44_lz77.md R201 to R210). -/

namespace Sys2Proof.Machine

section
variable {c : Lz77State} {s : State}

/-! ### The header and the flag byte -/

theorem execLz77Hdr_eq (hc : s.codec = some (.lz77 c)) (groups : BitVec 16) {tailBits : Byte}
    (ht : tailBits.toNat ≤ flagBits) :
    execLz77Hdr groups tailBits s =
      .next { s with codec := some (.lz77 { c with p := c.p + 3, groups := groups.toNat, tailBits := tailBits.toNat,
                                                   stage := .flag }) } := by
  simp only [execLz77Hdr, hc, if_neg (Nat.not_lt.2 ht)]

theorem execLz77Hdr_tooLong (hc : s.codec = some (.lz77 c)) (groups : BitVec 16) {tailBits : Byte}
    (ht : flagBits < tailBits.toNat) : execLz77Hdr groups tailBits s = .next (errorCompletion .tail s) := by
  simp only [execLz77Hdr, hc, if_pos ht]

/-- Settles O44, by the header's two answers. -/
theorem lz77HeaderChecked : Obligations.Lz77HeaderChecked := by
  unfold Obligations.Lz77HeaderChecked
  intro s c groups tailBits hc
  exact ⟨execLz77Hdr_eq hc groups,
    fun ht => ⟨_, execLz77Hdr_tooLong hc groups ht, errorCompletion_refusedWith .tail s⟩⟩

theorem execLz77Flag_full (hc : s.codec = some (.lz77 c)) (hg : c.groups ≠ 0) (flags : Byte) :
    execLz77Flag flags s =
      .next { s with codec := some (.lz77 { c with p := c.p + 1, groups := c.groups - 1,
                                                   stage := groupStage flags 7 flagBits false }) } := by
  simp only [execLz77Flag, hc, if_neg hg]

theorem execLz77Flag_tail (hc : s.codec = some (.lz77 c)) (hg : c.groups = 0) (flags : Byte) :
    execLz77Flag flags s =
      .next { s with codec := some (.lz77 { c with p := c.p + 1, stage := groupStage flags 7 c.tailBits true }) } := by
  simp only [execLz77Flag, hc, if_pos hg]

theorem groupStage_over (flags : Byte) (idx : Nat) (tail : Bool) :
    groupStage flags idx 0 tail = if tail then .done else .flag := rfl

theorem groupStage_open (flags : Byte) (idx : Nat) {left : Nat} (h : left ≠ 0) (tail : Bool) :
    groupStage flags idx left tail = .decisions flags idx left tail := if_neg h

/-- Settles O45: a full group or the tail group; a tail group of no decisions is over at once. -/
theorem lz77FlagStartsGroup : Obligations.Lz77FlagStartsGroup := by
  unfold Obligations.Lz77FlagStartsGroup
  intro s c flags hc
  refine ⟨fun hg => execLz77Flag_full hc (by omega) flags, fun hg ht => ?_, fun hg ht => ?_⟩
  · rw [← groupStage_open flags 7 (by omega) true]
    exact execLz77Flag_tail hc hg flags
  · have hover : groupStage flags 7 c.tailBits true = .done := by rw [ht, groupStage_over, if_pos rfl]
    rw [← hover]
    exact execLz77Flag_tail hc hg flags

/-! ### A decision -/

/-- The next decision of the group, or what follows the group (44_lz77.md R204, R215). -/
theorem afterDecision_decisions (flags : Byte) (idx : Nat) {left : Nat} (h : 1 ≤ left) (tail : Bool) :
    (Lz77Stage.decisions flags idx left tail).afterDecision =
      if left = 1 then (if tail then .done else .flag) else .decisions flags (idx - 1) (left - 1) tail := by
  rw [Lz77Stage.afterDecision]
  split
  · next hl => rw [hl, groupStage_over]
  · next hl => exact groupStage_open flags _ (by omega) tail

/-- Where the emits fit, the decision leaves the bytes written and moves the cursor and the count on. -/
theorem lz77Decided_fits {o : Nat} {t : State} (hw : Wrote (outSpan s c.o o) s t) (bytes : Nat) :
    ∃ u, lz77Decided bytes c (some (o, t)) s = .next u ∧ tokenFrame s u c.o o ∧
      u.codec = some (.lz77 { c with p := c.p + bytes, o := o, stage := c.stage.afterDecision }) ∧
      ∀ i, outByte i u = outByte i t :=
  ⟨_, rfl, hw.tokenFrame, rfl, fun _ => rfl⟩

/-- 44_lz77.md R210, where they do not fit. -/
theorem lz77Decided_overflows (bytes : Nat) (c : Lz77State) (s : State) :
    ∃ t, lz77Decided bytes c none s = .next t ∧ failedWith 6 s t ∧ drawnRegion (dstRegion s) s t :=
  ⟨_, rfl, runtimeError_failedWith .overflow _ s, runtimeError_drawnRegion .overflow _ s⟩

theorem execLz77Lit_eq (hc : s.codec = some (.lz77 c)) (b : Byte) :
    execLz77Lit b s = lz77Decided 1 c (lz77Emit (lz77Literal c.ctab b s) c.o s) s := by
  simp only [execLz77Lit, hc]

theorem execLz77Bref_eq (hc : s.codec = some (.lz77 c)) (len : BitVec lz77LenBits) (dist : BitVec lz77DistBits) :
    execLz77Bref len dist s =
      lz77Decided 2 c (lz77Copy ((c.o : Int) - dist.toNat - 1) (len.toNat + lz77LenBias) 0 c.o s) s := by
  simp only [execLz77Bref, hc]

end

/-- Settles O46: a literal is one emit of its output byte (`lz77Literal` names that byte in the model). -/
theorem lz77Literal_appendsOrOverflows : Obligations.Lz77Literal := by
  unfold Obligations.Lz77Literal
  intro s c flags idx left tail b hc hst hok
  obtain ⟨-, -, -, -, -, -, hstage, -⟩ := hok _ hc
  rw [hst] at hstage
  obtain ⟨hleft, -, -⟩ := hstage
  have hexec : exec (.lz77Lit b) s = _ := execLz77Lit_eq hc b
  rw [hexec, ← afterDecision_decisions flags idx hleft tail, ← hst]
  refine ⟨fun hroom => ?_, fun hfull => ?_⟩
  · rw [lz77Emit_some hroom]
    obtain ⟨t, ht, hframe, hcodec, hbytes⟩ :=
      lz77Decided_fits (c := c) (Wrote.out (Nat.le_refl c.o) (Nat.lt_succ_self _) (lz77Literal c.ctab b s)) 1
    exact ⟨t, ht, hframe, (hbytes c.o).trans (outByte_out_same ..), hcodec⟩
  · rw [lz77Emit_none (Nat.le_of_eq hfull.symm)]
    exact lz77Decided_overflows 1 c s

/-- Settles O47: the copy's bytes are those of the final output (`lz77Copy_some`). -/
theorem lz77Backreference : Obligations.Lz77Backreference := by
  unfold Obligations.Lz77Backreference
  intro s c flags idx left tail len dist hc hst hok
  obtain ⟨-, -, -, ho, -, -, hstage, -⟩ := hok _ hc
  rw [hst] at hstage
  obtain ⟨hleft, -, -⟩ := hstage
  have hexec : exec (.lz77Bref len dist) s = _ := execLz77Bref_eq hc len dist
  rw [hexec, ← afterDecision_decisions flags idx hleft tail, ← hst]
  refine ⟨fun hroom => ?_, fun hfull => ?_⟩
  · obtain ⟨v, hcopy, hwrote, hsource⟩ :=
      lz77Copy_some ((c.o : Int) - dist.toNat - 1) (len.toNat + lz77LenBias) 0 c.o s hroom (by omega)
    rw [hcopy]
    obtain ⟨t, ht, hframe, hcodec, hbytes⟩ := lz77Decided_fits (c := c) hwrote 2
    refine ⟨t, ht, hframe, fun j hj => ?_, hcodec⟩
    rw [hbytes, hbytes, hsource j hj]
    by_cases hback : dist.toNat + 1 ≤ c.o + j
    · rw [if_pos (by omega), if_pos hback]
      congr 1
      omega
    · rw [if_neg (by omega), if_neg hback]
  · rw [lz77Copy_none _ (len.toNat + lz77LenBias) _ _ _ hfull ho]
    exact lz77Decided_overflows 2 c s

end Sys2Proof.Machine
end

section
/-! PROOF. The reference form of an LZ77 stream (44_lz77.md R203) stage by stage, and the bytes that the machine's emits
send. -/

namespace Sys2Proof.Machine

/-! ### The output so far -/

@[simp] theorem length_outBytes (n : Nat) (s : State) : (outBytes n s).length = n := by simp [outBytes]

theorem getElem_outBytes {n i : Nat} {s : State} (h : i < (outBytes n s).length) : (outBytes n s)[i] = outByte i s := by
  simp [outBytes]

/-- An emit appends its byte to the output. -/
theorem outBytes_out (o : Nat) (v : Byte) (s : State) : outBytes (o + 1) (out o v s) = outBytes o s ++ [v] := by
  have hkept : outBytes o (out o v s) = outBytes o s :=
    List.map_congr_left fun i hi => outByte_out_other (List.mem_range.1 hi).ne v s
  rw [← hkept]
  simp [outBytes, List.range_succ]

/-! ### What is left of a stream -/

section
variable (remap : Byte → Byte) (tailBits groups : Nat)

/-- What follows a group in 44_lz77.md R203, given what its decisions came to. -/
def lz77AfterGroup (tail : Bool) : List Byte × List Byte × Bool → List Byte × Bool
  | (_, produced, true) => (produced, true)
  | (src, produced, false) =>
    if tail then (produced, false) else lz77GroupsList remap tailBits groups src produced

/-- The output of 44_lz77.md R203, and whether the input ended first, from a stage on: `src` is what is left of the
input, `produced` the output so far. -/
def lz77Rest : Lz77Stage → List Byte → List Byte → List Byte × Bool
  | .header, src, _ => lz77Expand remap src
  | .flag, src, produced => lz77GroupsList remap tailBits groups src produced
  | .decisions flags idx left tail, src, produced =>
    lz77AfterGroup remap tailBits groups tail (lz77DecisionsList remap flags left idx src produced)
  | .done, _, produced => (produced, false)

theorem lz77Rest_groupStage (flags : Byte) (idx left : Nat) (tail : Bool) (src produced : List Byte) :
    lz77Rest remap tailBits groups (groupStage flags idx left tail) src produced =
      lz77AfterGroup remap tailBits groups tail (lz77DecisionsList remap flags left idx src produced) := by
  cases left with
  | zero => cases tail <;> rfl
  | succ left => rw [groupStage_open flags idx (Nat.succ_ne_zero left)]; rfl

theorem lz77Rest_flag_nil (produced : List Byte) :
    lz77Rest remap tailBits groups .flag [] produced = (produced, true) := by
  simp only [lz77Rest, lz77GroupsList]

theorem lz77Rest_flag_full (flags : Byte) (src produced : List Byte) :
    lz77Rest remap tailBits (groups + 1) .flag (flags :: src) produced =
      lz77Rest remap tailBits groups (groupStage flags 7 8 false) src produced := by
  rw [lz77Rest_groupStage, lz77Rest, lz77GroupsList]
  obtain ⟨src', produced', ended⟩ := lz77DecisionsList remap flags 8 7 src produced
  cases ended <;> rfl

theorem lz77Rest_flag_tail (flags : Byte) (src produced : List Byte) :
    lz77Rest remap tailBits 0 .flag (flags :: src) produced =
      lz77Rest remap tailBits 0 (groupStage flags 7 tailBits true) src produced := by
  rw [lz77Rest_groupStage, lz77Rest, lz77GroupsList]
  obtain ⟨src', produced', ended⟩ := lz77DecisionsList remap flags tailBits 7 src produced
  cases ended <;> rfl

variable {remap} {tailBits groups} {flags : Byte} {idx left : Nat} {tail : Bool}
variable {src src' produced produced' : List Byte}

theorem lz77Rest_decision (hleft : 1 ≤ left)
    (h : lz77DecideList remap (flags.getLsbD idx) src produced = some (src', produced')) :
    lz77Rest remap tailBits groups (.decisions flags idx left tail) src produced =
      lz77Rest remap tailBits groups (Lz77Stage.decisions flags idx left tail).afterDecision src' produced' := by
  obtain ⟨left, rfl⟩ := Nat.exists_eq_add_of_le' hleft
  rw [Lz77Stage.afterDecision, lz77Rest_groupStage, lz77Rest, lz77DecisionsList, h]
  rfl

theorem lz77Rest_decision_cut (hleft : 1 ≤ left) (h : lz77DecideList remap (flags.getLsbD idx) src produced = none) :
    lz77Rest remap tailBits groups (.decisions flags idx left tail) src produced = (produced, true) := by
  obtain ⟨left, rfl⟩ := Nat.exists_eq_add_of_le' hleft
  rw [lz77Rest, lz77DecisionsList, h]
  rfl

end

/-! ### The output only grows -/

theorem length_lz77CopyList (start : Int) (n k : Nat) (produced : List Byte) :
    (lz77CopyList start n k produced).length = produced.length + n := by
  induction n generalizing k produced with
  | zero => rfl
  | succ n ih => rw [lz77CopyList, ih, List.length_append, List.length_singleton]; omega

section
variable {remap : Byte → Byte}

theorem length_le_lz77DecideList {bit : Bool} {src src' produced produced' : List Byte}
    (h : lz77DecideList remap bit src produced = some (src', produced')) : produced.length ≤ produced'.length := by
  unfold lz77DecideList at h
  split at h
  · cases h; simp
  · cases h; rw [length_lz77CopyList]; omega
  all_goals cases h

theorem length_le_lz77DecisionsList (flags : Byte) (n idx : Nat) (src produced : List Byte) :
    produced.length ≤ (lz77DecisionsList remap flags n idx src produced).2.1.length := by
  induction n generalizing idx src produced with
  | zero => exact Nat.le_refl _
  | succ n ih =>
    rw [lz77DecisionsList]
    split
    · next h => exact (length_le_lz77DecideList h).trans (ih ..)
    · exact Nat.le_refl _

theorem length_le_lz77GroupsList (tailBits groups : Nat) (src produced : List Byte) :
    produced.length ≤ (lz77GroupsList remap tailBits groups src produced).1.length := by
  induction groups generalizing src produced with
  | zero =>
    cases src with
    | nil => simp only [lz77GroupsList, Nat.le_refl]
    | cons flags src => exact length_le_lz77DecisionsList ..
  | succ groups ih =>
    cases src with
    | nil => simp only [lz77GroupsList, Nat.le_refl]
    | cons flags src =>
      have hgroup := length_le_lz77DecisionsList (remap := remap) flags 8 7 src produced
      rw [lz77GroupsList]
      split
      · next h => rw [h] at hgroup; exact hgroup.trans (ih ..)
      · next h => rw [h] at hgroup; exact hgroup

theorem length_le_lz77Rest {stage : Lz77Stage} (h : stage ≠ .header) (tailBits groups : Nat)
    (src produced : List Byte) : produced.length ≤ (lz77Rest remap tailBits groups stage src produced).1.length := by
  cases stage with
  | header => exact absurd rfl h
  | flag => exact length_le_lz77GroupsList ..
  | done => exact Nat.le_refl _
  | decisions flags idx left tail =>
    have hgroup := length_le_lz77DecisionsList (remap := remap) flags left idx src produced
    rw [lz77Rest]
    unfold lz77AfterGroup
    split
    · next h => rw [h] at hgroup; exact hgroup
    · next h =>
      rw [h] at hgroup
      split
      · exact hgroup
      · exact hgroup.trans (length_le_lz77GroupsList ..)

end

/-! ### The emits of a decision -/

/-- The emits `e` of a decision take the output from position `o` on to `produced`, or overflow where that is more than
CAP bytes (44_lz77.md R210). -/
structure EmitsTo (o : Nat) (produced : List Byte) (s : State) (e : Option (Nat × State)) : Prop where
  fits : produced.length ≤ s.dstLen.toNat →
    ∃ t, e = some (produced.length, t) ∧ Wrote (outSpan s o produced.length) s t ∧
      outBytes produced.length t = produced
  full : s.dstLen.toNat < produced.length → e = none

theorem lz77Emit_emitsTo (v : Byte) (o : Nat) (s : State) :
    EmitsTo o (outBytes o s ++ [v]) s (lz77Emit v o s) := by
  have hlen : (outBytes o s ++ [v]).length = o + 1 := by simp
  refine ⟨fun hfits => ?_, fun hfull => lz77Emit_none (by omega) v⟩
  rw [hlen] at hfits ⊢
  exact ⟨_, lz77Emit_some hfits v, Wrote.out (Nat.le_refl o) (Nat.lt_succ_self o) v, outBytes_out o v s⟩

/-- A copy reads the output so far as the reference form does (44_lz77.md R208, R209). -/
theorem outBytes_lz77Copy {start : Int} {n k o o' : Nat} {s t : State} (h : lz77Copy start n k o s = some (o', t))
    (hs : start + k < o) : outBytes o' t = lz77CopyList start n k (outBytes o s) := by
  induction n generalizing k o s with
  | zero => cases h; rfl
  | succ n ih =>
    have hbyte : (if 0 ≤ start + k then outByte (start + k).toNat s else 0) =
        if 0 ≤ start + k then (outBytes o s).getD (start + k).toNat 0 else 0 := by
      split
      · rw [List.getD_eq_getElem _ _ (by rw [length_outBytes]; omega), getElem_outBytes]
      · rfl
    by_cases hroom : o < s.dstLen.toNat
    · simp only [lz77Copy, lz77Emit_some hroom] at h
      rw [ih h (by push_cast; omega), outBytes_out, hbyte, lz77CopyList]
    · simp only [lz77Copy, lz77Emit_none (Nat.not_lt.1 hroom)] at h
      cases h

theorem lz77Copy_emitsTo {start : Int} {o : Nat} {s : State} (n : Nat) (ho : o ≤ s.dstLen.toNat) (hs : start < o) :
    EmitsTo o (lz77CopyList start n 0 (outBytes o s)) s (lz77Copy start n 0 o s) := by
  have hstart : start + ((0 : Nat) : Int) < o := by omega
  have hlen : (lz77CopyList start n 0 (outBytes o s)).length = o + n := by
    rw [length_lz77CopyList, length_outBytes]
  refine ⟨fun hfits => ?_, fun hfull => lz77Copy_none _ _ _ _ _ (by omega) ho⟩
  rw [hlen] at hfits ⊢
  obtain ⟨t, ht, hwrote, -⟩ := lz77Copy_some start n 0 o s hfits hstart
  exact ⟨t, ht, hwrote, outBytes_lz77Copy ht hstart⟩

end Sys2Proof.Machine
end

section
/-! PROOF. The whole LZ77 job against the decoding of its groups without a capacity limit (44_lz77.md R203, R210 to
R212). -/

namespace Sys2Proof.Machine

/-! ### The end of the job -/

/-- The end of a job whose stream produces `r.1` in all, `r.2` saying that its input ended first: those bytes with
RESULT their number and INEXH (44_lz77.md R211, R212), or ERR_OVERFLOW where they are more than CAP (R210). -/
structure CapacityEnd (r : List Byte × Bool) (s t : State) : Prop where
  fits : r.1.length ≤ s.dstLen.toNat →
    outBytes r.1.length t = r.1 ∧ doneWith false r.2 false r.1.length s t ∧
      keepsMemoryOutside ⟨s.dstBase.toNat, r.1.length⟩ s t
  overflows : s.dstLen.toNat < r.1.length → failedWith 6 s t ∧ drawnRegion (dstRegion s) s t

/-- A job's error completion, seen from an earlier state of the job. -/
theorem failedWith.since {code : Byte} {s t u : State} (h : failedWith code t u) (hregs : keepsRegisters s t) :
    failedWith code s u := by
  obtain ⟨hb, hd, he, hp, hi, hc, hr, hn, hk⟩ := h
  exact ⟨hb, hd, he, hp, hi, hc, hr, hn, hregs.trans hk⟩

/-- Bytes written inside a region that is drawn later do not show. -/
theorem drawnRegion.since {r : Region} {s t u : State} (h : drawnRegion r t u) (hdraws : t.draws = s.draws)
    (hmem : keepsMemoryOutside r s t) : drawnRegion r s u := by
  obtain ⟨hdrawn, hkept⟩ := h
  rw [hdraws] at hdrawn
  exact ⟨hdrawn, fun a ha => (hkept a ha).trans (hmem a ha)⟩

section
variable {s t u : State} {r : List Byte × Bool}

theorem outSpan_keepsMemoryOutside {o n l : Nat} (hw : Wrote (outSpan s o n) s t) (hn : n ≤ l) :
    keepsMemoryOutside ⟨s.dstBase.toNat, l⟩ s t := by
  refine (hw.mono ?_).keepsMemoryOutside
  rintro a ⟨i, -, hi, rfl⟩
  rw [Region.has_iff]
  simp only [outAddr]
  omega

/-- Output written within CAP comes before the rest of the job. -/
theorem CapacityEnd.after {o n : Nat} (h : CapacityEnd r t u) (hw : Wrote (outSpan s o n) s t) (hn : n ≤ s.dstLen.toNat)
    (hr : n ≤ r.1.length) : CapacityEnd r s u := by
  obtain ⟨hfits, hoverflows⟩ := h
  rw [hw.dstLen, hw.dstBase] at hfits
  simp only [hw.dstLen, dstRegion, hw.dstBase] at hoverflows
  refine ⟨fun hle => ?_, fun hlt => ?_⟩
  · obtain ⟨hbytes, hdone, hmem⟩ := hfits hle
    exact ⟨hbytes, hdone.since hw.keepsRegisters hw.draws,
      fun a ha => (hmem a ha).trans (outSpan_keepsMemoryOutside hw hr a ha)⟩
  · obtain ⟨hfailed, hdrawn⟩ := hoverflows hlt
    exact ⟨hfailed.since hw.keepsRegisters, hdrawn.since hw.draws (outSpan_keepsMemoryOutside hw hn)⟩

/-- The codec state is no part of what the job is held against. -/
theorem CapacityEnd.of_codec {c : Option Codec} (h : CapacityEnd r { s with codec := c } t) : CapacityEnd r s t :=
  ⟨h.fits, h.overflows⟩

theorem CapacityEnd.finish {c : Lz77State} {inexh : Bool} (ho : c.o ≤ s.dstLen.toNat)
    (hr : r = (outBytes c.o s, inexh)) : CapacityEnd r s (finishLz77 inexh c s) := by
  subst hr
  refine ⟨fun _ => ?_, fun hlt => ?_⟩
  · rw [length_outBytes]
    exact ⟨rfl, complete_doneWith .., fun _ _ => rfl⟩
  · rw [length_outBytes] at hlt
    exact absurd ho (Nat.not_le.2 hlt)

theorem CapacityEnd.overflow (h : s.dstLen.toNat < r.1.length) :
    CapacityEnd r s (runtimeError .overflow (dstRegion s) s) :=
  ⟨fun hle => absurd h (Nat.not_lt.2 hle),
    fun _ => ⟨runtimeError_failedWith .overflow _ s, runtimeError_drawnRegion .overflow _ s⟩⟩

/-! ### What the job reads -/

/-- The literal map looks at the colour table alone, which the job does not write. -/
theorem lz77Remap_congr {b : Bool} (hv : validate (.lz77 b) s = none) (hregs : keepsRegisters s t)
    (hmem : keepsMemoryOutside (dstRegion s) s t) : lz77Remap b t = lz77Remap b s := by
  funext v
  unfold lz77Remap
  split
  · next h =>
    obtain ⟨rfl, hlt⟩ := h
    rw [auxByte, auxByte, hregs.auxBase]
    refine hmem _ (Bool.eq_false_iff.2 fun hw => ?_)
    have hfree := (validated_of_none hv).read_free (r := ctabRegion s) (by simp [readRegions]) hw
    rw [Region.has_false_iff] at hfree
    simp only [ctabRegion, lz77CtabLimit] at hfree
    omega
  · rfl

/-- Output written within CAP leaves the job validated, its source and its colour table as they were. -/
theorem Wrote.keepsLz77Job {b : Bool} {o n : Nat} (hw : Wrote (outSpan s o n) s t) (hn : n ≤ s.dstLen.toNat)
    (hv : validate (.lz77 b) s = none) :
    validate (.lz77 b) t = none ∧ srcBytes t = srcBytes s ∧ lz77Remap b t = lz77Remap b s :=
  have hmem : Machine.keepsMemoryOutside (dstRegion s) s t := outSpan_keepsMemoryOutside hw hn
  ⟨validate_congr hw.keepsRegisters hmem hv, srcBytes_congr (k := .lz77 b) (by simp) hv hw.keepsRegisters hmem,
    lz77Remap_congr hv hw.keepsRegisters hmem⟩

theorem srcZ_eq_srcByte {k : Nat} (h : k < s.srcLen.toNat) : srcZ k s = srcByte k s := if_pos h

theorem window_byte_low (p : Nat) (s : State) : (window (8 * p) s).extractLsb' 0 8 = srcZ p s :=
  window_byte p 0 s (by decide)

/-- 44_lz77.md R201: the header's counts, and the groups behind it. -/
theorem lz77Expand_srcBytes (h : 3 ≤ s.srcLen.toNat) (remap : Byte → Byte) :
    lz77Expand remap (srcBytes s) =
      lz77GroupsList remap (srcByte 2 s).toNat ((srcByte 0 s).toNat + 256 * (srcByte 1 s).toNat)
        ((srcBytes s).drop 3) [] := by
  have hsrc : srcBytes s = srcByte 0 s :: srcByte 1 s :: srcByte 2 s :: (srcBytes s).drop 3 := by
    rw [← drop_srcBytes h, ← drop_srcBytes (Nat.lt_of_succ_lt h), ← drop_srcBytes (by omega), List.drop_zero]
  conv_lhs => rw [hsrc]
  rw [lz77Expand]

/-- Two bytes of the stream are a word, the low byte first (30_encoding.md R90, R91). -/
theorem window_pair (p : Nat) (s : State) :
    (window (8 * p) s).toNat % 2 ^ 16 = (srcZ p s).toNat + 256 * (srcZ (p + 1) s).toNat := by
  have hlow := congrArg BitVec.toNat (window_byte p 0 s (by decide))
  have hhigh := congrArg BitVec.toNat (window_byte p 1 s (by decide))
  rw [BitVec.extractLsb'_toNat, Nat.shiftRight_eq_div_pow] at hlow hhigh
  rw [Nat.add_zero] at hlow
  omega

end

/-! ### What a decision finds -/

/-- A decision whose token is cut (44_lz77.md R211). -/
theorem lz77DecideList_cut {remap : Byte → Byte} {bit : Bool} {src : List Byte} (produced : List Byte)
    (h : src.length < if bit then 2 else 1) : lz77DecideList remap bit src produced = none := by
  match bit, src with
  | false, [] | true, [] | true, [_] => rfl
  | false, _ :: _ => simp at h
  | true, _ :: _ :: _ => simp at h

/-- What a decision finds: its token, of `bytes` bytes, and the output `produced` that it decides in the
reference form. -/
structure DecisionToken (c : Lz77State) (s : State) (bit : Bool) (bytes : Nat) (produced : List Byte) : Prop where
  pos : 1 ≤ bytes
  inSource : c.p + bytes ≤ s.srcLen.toNat
  decides : lz77DecideList (lz77Remap c.ctab s) bit ((srcBytes s).drop c.p) (outBytes c.o s) =
    some ((srcBytes s).drop (c.p + bytes), produced)
  runs : ∃ i e, decode (.lz77Decision bit) (window (8 * c.p) s) = .ok i ∧ execToken i s = lz77Decided bytes c e s ∧
    EmitsTo c.o produced s e

section
variable {c : Lz77State} {s : State}

/-- 44_lz77.md R205, R206: a literal. -/
theorem literal_decisionToken (hc : s.codec = some (.lz77 c)) (hp : c.p < s.srcLen.toNat) :
    DecisionToken c s false 1 (outBytes c.o s ++ [lz77Remap c.ctab s (srcByte c.p s)]) where
  pos := Nat.le_refl 1
  inSource := hp
  decides := by rw [drop_srcBytes hp]; rfl
  runs := by
    have hdecode : decode (.lz77Decision false) (window (8 * c.p) s) = .ok (.lz77Lit (srcByte c.p s)) := by
      rw [← srcZ_eq_srcByte hp, ← window_byte_low]
      rfl
    exact ⟨_, _, hdecode, execLz77Lit_eq hc _, lz77Emit_emitsTo _ c.o s⟩

/-- 44_lz77.md R207 to R209: a backreference. -/
theorem backreference_decisionToken (hc : s.codec = some (.lz77 c)) (ho : c.o ≤ s.dstLen.toNat)
    (hp : c.p + 1 < s.srcLen.toNat) :
    let wd := (srcByte c.p s).toNat + 256 * (srcByte (c.p + 1) s).toNat
    DecisionToken c s true 2 (lz77CopyList ((c.o : Int) - (wd / 16 : Nat) - 1) (wd % 16 + 3) 0 (outBytes c.o s)) where
  pos := by decide
  inSource := hp
  decides := by
    rw [drop_srcBytes (by omega : c.p < s.srcLen.toNat), drop_srcBytes hp]
    simp only [lz77DecideList, length_outBytes]
  runs := by
    have hpair := window_pair c.p s
    rw [srcZ_eq_srcByte (by omega), srcZ_eq_srcByte hp] at hpair
    have hlen : ((window (8 * c.p) s).extractLsb' 0 lz77LenBits).toNat =
        ((srcByte c.p s).toNat + 256 * (srcByte (c.p + 1) s).toNat) % 16 := by
      rw [BitVec.extractLsb'_toNat, Nat.shiftRight_zero]
      show _ % 16 = _
      omega
    have hdist : ((window (8 * c.p) s).extractLsb' lz77LenBits lz77DistBits).toNat =
        ((srcByte c.p s).toNat + 256 * (srcByte (c.p + 1) s).toNat) / 16 := by
      rw [BitVec.extractLsb'_toNat, Nat.shiftRight_eq_div_pow]
      show _ / 16 % 4096 = _
      omega
    refine ⟨_, _, rfl, execLz77Bref_eq hc _ _, ?_⟩
    rw [hlen, hdist]
    exact lz77Copy_emitsTo _ ho (by omega)

/-- A token that is not cut is found. -/
theorem exists_decisionToken (hc : s.codec = some (.lz77 c)) (ho : c.o ≤ s.dstLen.toNat) {bit : Bool}
    (hp : c.p + (if bit then 2 else 1) ≤ s.srcLen.toNat) : ∃ bytes produced, DecisionToken c s bit bytes produced := by
  cases bit with
  | false => exact ⟨_, _, literal_decisionToken hc hp⟩
  | true => exact ⟨_, _, backreference_decisionToken hc ho hp⟩

end

/-! ### The job -/

/-- An LZ77 job in progress: validated, its output count within CAP, its position in the stream a legal one. -/
structure Lz77Runs (c : Lz77State) (s : State) : Prop where
  codec : s.codec = some (.lz77 c)
  valid : validate (.lz77 c.ctab) s = none
  room : c.o ≤ s.dstLen.toNat
  tailBits : c.tailBits ≤ flagBits
  stage : c.stage.ok
  start : c.stage = .header → c.p = 0 ∧ c.o = 0

/-- What the reference form says of a job in progress: its output in all, and whether its input ends first. -/
def lz77JobRest (c : Lz77State) (s : State) : List Byte × Bool :=
  lz77Rest (lz77Remap c.ctab s) c.tailBits c.groups c.stage ((srcBytes s).drop c.p) (outBytes c.o s)

/-- Within `n` token steps the job ends as the reference form says. -/
def Lz77Ends (n : Nat) (c : Lz77State) (s : State) : Prop :=
  ∃ t, runTokens n s = .next t ∧ CapacityEnd (lz77JobRest c s) s t

/-- Every LZ77 job with fewer than `n` source bytes left ends within `n` token steps. Every token takes a source byte,
so `n` bounds the tokens left. -/
def Lz77EndsWithin (n : Nat) : Prop :=
  ∀ (c : Lz77State) (s : State), Lz77Runs c s → s.srcLen.toNat - c.p < n → Lz77Ends n c s

section
variable {n : Nat} {c : Lz77State} {s : State}

/-- 44_lz77.md R211, R212: a job that stops, its input ended or its groups over. -/
theorem Lz77Runs.ends_finish (h : Lz77Runs c s) {inexh : Bool} (hf : fetchLz77 c s = .finish inexh)
    (hrest : lz77JobRest c s = (outBytes c.o s, inexh)) : Lz77Ends (n + 1) c s :=
  ⟨_, runTokens_finish h.codec hf, .finish h.room hrest⟩

theorem lz77Next_cut {ctx : Ctx} {bytes : Nat} (h : s.srcLen.toNat < c.p + bytes) :
    lz77Next ctx bytes c s = .finish true := if_pos h

theorem fetchLz77_decision_cut {flags : Byte} {idx left : Nat} {tail : Bool}
    (hst : c.stage = .decisions flags idx left tail) (h : s.srcLen.toNat < c.p + if flags.getLsbD idx then 2 else 1) :
    fetchLz77 c s = .finish true := by
  simp only [fetchLz77, hst]
  cases hbit : flags.getLsbD idx with
  | true => rw [hbit] at h; exact lz77Next_cut h
  | false => rw [hbit] at h; exact lz77Next_cut h

/-- A token that writes nothing comes before the rest of the job. -/
theorem Lz77Runs.ends_silent {d : Lz77State} {i : Instr} (h : Lz77Runs c s) (hrest : Lz77EndsWithin n)
    (hf : fetchLz77 c s = .token i) (hi : execToken i s = .next { s with codec := some (.lz77 d) })
    (hd : Lz77Runs d { s with codec := some (.lz77 d) }) (hn : s.srcLen.toNat - d.p < n)
    (heq : lz77JobRest d s = lz77JobRest c s) : Lz77Ends (n + 1) c s := by
  obtain ⟨t, ht, hend⟩ := hrest d _ hd hn
  rw [Lz77Ends, ← heq]
  exact ⟨t, (runTokens_token h.codec hf hi).trans ht, hend.of_codec⟩

/-- 44_lz77.md R201, R202: the header of a validated job, and the groups behind it. -/
theorem Lz77Runs.ends_header (h : Lz77Runs c s) (hrest : Lz77EndsWithin n) (hn : s.srcLen.toNat - c.p < n + 1)
    (hst : c.stage = .header) : Lz77Ends (n + 1) c s := by
  obtain ⟨hlen, htail⟩ := validate_lz77 h.valid
  obtain ⟨hp, ho⟩ := h.start hst
  have hb : (window (8 * c.p) s).extractLsb' 16 8 = srcByte 2 s := by
    rw [hp, ← srcZ_eq_srcByte hlen]
    exact window_byte 0 2 s (by decide)
  have hgroups : ((window (8 * c.p) s).extractLsb' 0 16).toNat =
      (srcByte 0 s).toNat + 256 * (srcByte 1 s).toNat := by
    have hpair := window_pair 0 s
    rw [srcZ_eq_srcByte (by omega), srcZ_eq_srcByte (by omega)] at hpair
    rw [hp, BitVec.extractLsb'_toNat, Nat.shiftRight_zero]
    exact hpair
  have hdecode : decode .lz77Hdr (window (8 * c.p) s) =
      .ok (.lz77Hdr ((window (8 * c.p) s).extractLsb' 0 16) (srcByte 2 s)) := by
    rw [← hb]
    rfl
  refine h.ends_silent hrest (fetchLz77_header hst hlen hdecode) (execLz77Hdr_eq h.codec _ htail)
    ⟨rfl, h.valid, h.room, htail, trivial, fun hh => by cases hh⟩ (by simp only; omega) ?_
  simp only [lz77JobRest]
  rw [hgroups, hst, hp, ho, List.drop_zero]
  exact (lz77Expand_srcBytes hlen _).symm

/-- 44_lz77.md R204, R215: a flag byte and its group, or the end of the input. -/
theorem Lz77Runs.ends_flag (h : Lz77Runs c s) (hrest : Lz77EndsWithin n) (hn : s.srcLen.toNat - c.p < n + 1)
    (hst : c.stage = .flag) : Lz77Ends (n + 1) c s := by
  by_cases hp : c.p < s.srcLen.toNat
  · have hdecode : decode .lz77Flag (window (8 * c.p) s) = .ok (.lz77Flag (srcByte c.p s)) := by
      rw [← srcZ_eq_srcByte hp, ← window_byte_low]
      rfl
    have hf := fetchLz77_flag hst hp hdecode
    by_cases hg : c.groups = 0
    · refine h.ends_silent hrest hf (execLz77Flag_tail h.codec hg _)
        ⟨rfl, h.valid, h.room, h.tailBits, groupStage_ok _ 7 _ true h.tailBits (Nat.le_refl 7),
          fun hh => absurd hh (groupStage_ne_header (srcByte c.p s) 7 c.tailBits true)⟩ (by simp only; omega) ?_
      simp only [lz77JobRest]
      rw [drop_srcBytes hp, hst, hg, lz77Rest_flag_tail]
    · refine h.ends_silent hrest hf (execLz77Flag_full h.codec hg _)
        ⟨rfl, h.valid, h.room, h.tailBits, groupStage_ok _ 7 flagBits false (Nat.le_refl 8) (Nat.le_refl 7),
          fun hh => absurd hh (groupStage_ne_header (srcByte c.p s) 7 flagBits false)⟩ (by simp only; omega) ?_
      obtain ⟨g, hg⟩ := Nat.exists_eq_succ_of_ne_zero hg
      simp only [lz77JobRest]
      rw [drop_srcBytes hp, hst, hg, lz77Rest_flag_full]
      rfl
  · refine h.ends_finish (inexh := true) ?_ ?_
    · simp only [fetchLz77, hst]
      exact lz77Next_cut (by omega)
    · rw [lz77JobRest, hst, drop_srcBytes_of_le (Nat.not_lt.1 hp), lz77Rest_flag_nil]

theorem afterDecision_ne_header (flags : Byte) (idx left : Nat) (tail : Bool) :
    (Lz77Stage.decisions flags idx left tail).afterDecision ≠ .header :=
  groupStage_ne_header flags (idx - 1) (left - 1) tail

/-- 44_lz77.md R204 to R210: a decision whose token is not cut, and the rest of the job or the overflow. -/
theorem Lz77Runs.ends_token (h : Lz77Runs c s) (hrest : Lz77EndsWithin n) (hn : s.srcLen.toNat - c.p < n + 1)
    {flags : Byte} {idx left bytes : Nat} {tail : Bool} {produced : List Byte}
    (hst : c.stage = .decisions flags idx left tail)
    (hp : c.p + (if flags.getLsbD idx then 2 else 1) ≤ s.srcLen.toNat)
    (ht : DecisionToken c s (flags.getLsbD idx) bytes produced) : Lz77Ends (n + 1) c s := by
  have hstage := h.stage
  rw [hst] at hstage
  have hpos := ht.pos
  have hin := ht.inSource
  have hne := afterDecision_ne_header flags idx left tail
  obtain ⟨i, e, hdecode, hrun, hemits⟩ := ht.runs
  have hf := fetchLz77_decision hst hp hdecode
  have hgrows := length_le_lz77Rest (remap := lz77Remap c.ctab s) hne c.tailBits c.groups
    ((srcBytes s).drop (c.p + bytes)) produced
  rw [Lz77Ends, lz77JobRest, hst, lz77Rest_decision hstage.1 ht.decides]
  by_cases hfits : produced.length ≤ s.dstLen.toNat
  · obtain ⟨t, rfl, hwrote, hbytes⟩ := hemits.fits hfits
    obtain ⟨hvalid, hsrc, hremap⟩ := hwrote.keepsLz77Job hfits h.valid
    obtain ⟨u, hu, hend⟩ := hrest
      { c with p := c.p + bytes, o := produced.length, stage := c.stage.afterDecision }
      { t with codec := some (.lz77 { c with p := c.p + bytes, o := produced.length, stage := c.stage.afterDecision }) }
      ⟨rfl, hvalid, by simp only [hwrote.dstLen]; exact hfits, h.tailBits, Lz77Stage.ok_afterDecision h.stage,
        fun hh => by rw [hst] at hh; exact (hne hh).elim⟩
      (by simp only [hwrote.srcLen]; omega)
    have hend' : CapacityEnd (lz77Rest (lz77Remap c.ctab t) c.tailBits c.groups c.stage.afterDecision
        ((srcBytes t).drop (c.p + bytes)) (outBytes produced.length t)) t u := hend.of_codec
    rw [hremap, hsrc, hbytes, hst] at hend'
    exact ⟨u, (runTokens_token h.codec hf hrun).trans hu, hend'.after hwrote hfits hgrows⟩
  · have hfull := Nat.not_le.1 hfits
    rw [hemits.full hfull] at hrun
    exact ⟨_, (runTokens_token h.codec hf hrun).trans (runTokens_ended n rfl),
      .overflow (Nat.lt_of_lt_of_le hfull hgrows)⟩

/-- A decision: its token and what follows, or the end of the input in it (44_lz77.md R211). -/
theorem Lz77Runs.ends_decision (h : Lz77Runs c s) (hrest : Lz77EndsWithin n) (hn : s.srcLen.toNat - c.p < n + 1)
    {flags : Byte} {idx left : Nat} {tail : Bool} (hst : c.stage = .decisions flags idx left tail) :
    Lz77Ends (n + 1) c s := by
  by_cases hp : c.p + (if flags.getLsbD idx then 2 else 1) ≤ s.srcLen.toNat
  · obtain ⟨bytes, produced, ht⟩ := exists_decisionToken h.codec h.room hp
    exact h.ends_token hrest hn hst hp ht
  · have hcut := Nat.not_le.1 hp
    have hstage := h.stage
    rw [hst] at hstage
    refine h.ends_finish (fetchLz77_decision_cut hst hcut) ?_
    rw [lz77JobRest, hst]
    refine lz77Rest_decision_cut hstage.1 (lz77DecideList_cut _ ?_)
    have hone : 1 ≤ if flags.getLsbD idx then 2 else 1 := by split <;> decide
    rw [List.length_drop, length_srcBytes]
    omega

end

/-- By induction on the bound, by where the job stands in its stream. -/
theorem lz77EndsWithin (n : Nat) : Lz77EndsWithin n := by
  induction n with
  | zero => exact fun c s _ hn => absurd hn (Nat.not_lt_zero _)
  | succ n ih =>
    intro c s h hn
    cases hst : c.stage with
    | header => exact h.ends_header ih hn hst
    | flag => exact h.ends_flag ih hn hst
    | decisions flags idx left tail => exact h.ends_decision ih hn hst
    | done =>
      have hf : fetchLz77 c s = .finish false := by simp only [fetchLz77, hst]
      exact h.ends_finish hf (by rw [lz77JobRest, hst]; rfl)

theorem exec_lz77_eq {ctab mirror : Bool} {s : State} (hv : validate (.lz77 ctab) s = none) :
    exec (if ctab then .lz77Ct mirror else .lz77 mirror) s = runTokens (lz77Fuel s) (openLz77 ctab s) := by
  cases ctab with
  | false => simp only [exec, execLz77, validated, hv, Bool.false_eq_true, if_false]
  | true => simp only [exec, execLz77Ct, validated, hv, if_true]

/-- Settles O43: from the opened job on, at its header, the token steps end as the groups decoded without a limit say
(`lz77EndsWithin`). -/
theorem lz77JobIsGroupDecoding : Obligations.Lz77JobIsGroupDecoding := by
  unfold Obligations.Lz77JobIsGroupDecoding
  intro s ctab mirror hv
  obtain ⟨t, ht, hend⟩ := lz77EndsWithin (lz77Fuel s) ⟨0, 0, 0, 0, ctab, .header⟩ (openLz77 ctab s)
    ⟨rfl, hv, Nat.zero_le _, Nat.zero_le _, trivial, fun _ => ⟨rfl, rfl⟩⟩ (Nat.lt_succ_self _)
  have hjob : CapacityEnd (lz77Expand (lz77Remap ctab s) (srcBytes s)) s t := hend.of_codec
  exact ⟨t, (exec_lz77_eq hv).trans ht, hjob.fits, hjob.overflows⟩

end Sys2Proof.Machine
end

section
/-! PROOF. The pixel-reconstruction jobs (45_pixel.md R231 to R244): NMERGE and XPOSE fill their write region from bytes that
they do not write; SAMPLE reads one byte and writes none. -/

namespace Sys2Proof.Machine

/-! ### A job past validation that fills its write region -/

theorem validated_eq_run {k : JobKind} {s : State} (hv : validate k s = none) (run : State → Result) :
    validated k run s = run s := by
  simp only [validated, hv]

/-- The end of a job whose family rule is to write `n` output bytes in order (45_pixel.md R231, R237). -/
def filledOutput (n : Nat) (val : Nat → State → Byte) (s : State) : State :=
  complete false false false n (writeEach (fun i => outAddr s i) val n s)

theorem exec_nmerge_eq {s : State} (hv : validate .nmerge s = none) (ctab mirror : Bool) :
    exec (.nmerge ctab mirror) s = .next (filledOutput s.dstLen.toNat mergedPixel s) :=
  validated_eq_run hv fun s => .next (filledOutput s.dstLen.toNat mergedPixel s)

theorem exec_xpose_eq {s : State} (hv : validate .xpose s = none) (ctab mirror : Bool) :
    exec (.xpose ctab mirror) s =
      .next (filledOutput (s.width * s.height) (transposedPixel s.width s.height) s) :=
  validated_eq_run hv fun s =>
    .next (filledOutput (s.width * s.height) (transposedPixel s.width s.height) s)

section
variable (n : Nat) (val : Nat → State → Byte) (s : State)

/-- The loop writes output bytes 0 to `n - 1` and nothing else. -/
theorem wrote_fillOutput :
    Wrote (fun a => Region.has ⟨s.dstBase.toNat, n⟩ a = true) s (writeEach (fun i => outAddr s i) val n s) :=
  Wrote.writeEach (fun i hi => (Region.has_iff _ _).2 (by simp only [outAddr]; omega)) val s

theorem filledOutput_doneWith : doneWith false false false n s (filledOutput n val s) :=
  have hw := wrote_fillOutput n val s
  (complete_doneWith ..).since hw.keepsRegisters hw.draws

theorem filledOutput_keepsMemoryOutside : keepsMemoryOutside ⟨s.dstBase.toNat, n⟩ s (filledOutput n val s) :=
  (wrote_fillOutput n val s).keepsMemoryOutside

variable {n val s}

/-- Where writing output bytes does not change what `val i` computes, output byte `i` is `val i` of the job's start. -/
theorem outByte_filledOutput {i : Nat} (hi : i < n)
    (hval : ∀ t, Wrote (fun a => Region.has ⟨s.dstBase.toNat, n⟩ a = true) s t → val i t = val i s) :
    outByte i (filledOutput n val s) = val i s := by
  have hinj : ∀ j k, j < n → k < n → outAddr s j = outAddr s k → j = k := fun j k _ _ h => Nat.add_left_cancel h
  have hsofar : Wrote (fun a => Region.has ⟨s.dstBase.toNat, n⟩ a = true) s (writeEach (fun i => outAddr s i) val i s) :=
    (wrote_fillOutput i val s).mono fun a ha => by
      rw [Region.has_iff] at ha ⊢
      simp only at ha ⊢
      omega
  calc outByte i (filledOutput n val s)
      = memRead (outAddr s i) (writeEach (fun i => outAddr s i) val n s) :=
        congrArg (memRead · _) ((wrote_fillOutput n val s).outAddr i)
    _ = val i (writeEach (fun i => outAddr s i) val i s) := memRead_writeEach hinj val s hi
    _ = val i s := hval _ hsofar

end

/-! ### NMERGE -/

/-- An operation that writes no byte of the high plane leaves it as it was (45_pixel.md R231). -/
theorem Wrote.auxZ {P : Nat → Prop} {s t : State} (h : Wrote P s t)
    (hP : ∀ a, P a → Region.has ⟨s.auxBase.toNat, s.auxLen.toNat⟩ a = false) (j : Nat) : auxZ j t = auxZ j s := by
  unfold Machine.auxZ auxByte
  rw [h.auxLen, h.auxBase]
  split
  · next hj =>
    refine h.other _ fun hp => ?_
    have hfree := (Region.has_false_iff _ _).1 (hP _ hp)
    simp only at hfree
    omega
  · rfl

/-- A validated merge reads its planes as they stood when it started. -/
theorem mergedPixel_congr {s t : State} (hv : validate .nmerge s = none)
    (h : Wrote (fun a => (writeRegion .nmerge s).has a = true) s t) (i : Nat) : mergedPixel i t = mergedPixel i s := by
  have hd := validated_of_none hv
  have hlow := h.srcZ (fun _ => hd.read_free (srcRegion_mem_readRegions (by decide) s)) (i / 2)
  have hhigh := h.auxZ (fun _ => hd.read_free (by simp [readRegions])) (i / 2)
  rw [mergedPixel, mergedPixel, hlow, hhigh]

/-- Settles O48: the output is filled with merged pixels (`filledOutput`), and these are arithmetic on the plane bytes
(`mergedPixel_toNat`). -/
theorem nmergePixels : Obligations.NmergePixels := by
  unfold Obligations.NmergePixels
  intro s ctab mirror hv lo hi
  have hlo (i : Nat) : (srcZ (i / 2) s).toNat = lo i := apply_ite BitVec.toNat ..
  have hhi (i : Nat) : (auxZ (i / 2) s).toNat = hi i := apply_ite BitVec.toNat ..
  refine ⟨_, exec_nmerge_eq hv ctab mirror, filledOutput_doneWith .., fun i hlt => ?_,
    filledOutput_keepsMemoryOutside _ _ _⟩
  rw [outByte_filledOutput hlt fun t ht => mergedPixel_congr hv ht i, mergedPixel_toNat, planeNibble_toNat,
    planeNibble_toNat, hlo, hhi]
  split <;> rfl

/-! ### XPOSE -/

/-- The pixel in column `x` of row `y` is a pixel of the image. -/
theorem rowMajor_lt {w h x y : Nat} (hx : x < w) (hy : y < h) : y * w + x < w * h :=
  calc y * w + x < (y + 1) * w := by rw [Nat.succ_mul]; omega
    _ ≤ h * w := Nat.mul_le_mul_right _ hy
    _ = w * h := Nat.mul_comm ..

/-- The pixel in column `x` of row `y` comes from column-major position `x*h + y` (45_pixel.md R237). -/
theorem transposedPixel_rowMajor {w x : Nat} (hx : x < w) (h y : Nat) (s : State) :
    transposedPixel w h (y * w + x) s = srcZ (x * h + y) s := by
  have hcol : (y * w + x) % w = x := by rw [Nat.mul_add_mod', Nat.mod_eq_of_lt hx]
  have hrow : (y * w + x) / w = y := by
    rw [Nat.mul_comm, Nat.mul_add_div (Nat.zero_lt_of_lt hx), Nat.div_eq_of_lt hx, Nat.add_zero]
  rw [transposedPixel, hcol, hrow]

/-- A validated transpose reads its source as it stood when it started. -/
theorem transposedPixel_congr {s t : State} (hv : validate .xpose s = none)
    (h : Wrote (fun a => (writeRegion .xpose s).has a = true) s t) (width height i : Nat) :
    transposedPixel width height i t = transposedPixel width height i s :=
  h.srcZ (fun _ => (validated_of_none hv).read_free (srcRegion_mem_readRegions (by decide) s)) _

/-- Settles O49: the image is filled with transposed pixels (`filledOutput`), the one in column `x` of row `y` at output
position `y*w + x`. -/
theorem xposeTransposes : Obligations.XposeTransposes := by
  unfold Obligations.XposeTransposes
  refine ⟨fun _ => ⟨rfl, rfl⟩, fun s ctab mirror hv => ?_⟩
  refine ⟨_, exec_xpose_eq hv ctab mirror, filledOutput_doneWith .., fun x y hx hy => ?_,
    filledOutput_keepsMemoryOutside _ _ _⟩
  rw [outByte_filledOutput (rowMajor_lt hx hy) fun t ht => transposedPixel_congr hv ht .., transposedPixel_rowMajor hx]
  rfl

/-! ### SAMPLE -/

/-- SAMPLE and the mirrored SAMPLE past validation (45_pixel.md R242, R244). -/
theorem exec_sample_eq {s : State} (hv : validate .sample s = none) (ctab mirror : Bool) :
    exec (if mirror then .sampleMir ctab else .sample ctab) s =
      .next (sampleAt (if mirror then s.width - 1 - s.coordX else s.coordX) s) := by
  cases mirror with
  | false => exact validated_eq_run hv fun s => .next (sampleAt s.coordX s)
  | true => exact validated_eq_run hv fun s => .next (sampleAt (s.width - 1 - s.coordX) s)

theorem jobKind_sample (ctab mirror : Bool) :
    jobKind (if mirror then .sampleMir ctab else .sample ctab) = some .sample := by
  cases mirror <;> rfl

/-- SAMPLE writes nothing, so it shares no address with its image (20_memory.md R69, R71). -/
theorem not_sharesAddress_sample (s : State) : ¬SharesAddress .sample s := by
  rintro ⟨_, -, a, hwrite, -⟩
  rw [Region.has_iff] at hwrite
  simp only [writeRegion] at hwrite
  omega

/-- The only region of SAMPLE that can be out of range is the image it reads (20_memory.md R69, R70). -/
theorem not_outOfRange_sample {s : State} (h : Region.inRange s.cfg ⟨s.srcBase.toNat, s.width * s.height⟩ = true) :
    ¬OutOfRange .sample s := by
  rw [← any_not_inRange_iff]
  simp [writeRegion, readRegions, h, Region.inRange_iff]

/-- Settles O50: the pixel of `sampleAt`, or validation's ERR_COORD (`validate_iff`). -/
theorem sampleReadsOnePixel : Obligations.SampleReadsOnePixel := by
  unfold Obligations.SampleReadsOnePixel
  refine ⟨fun _ => ⟨rfl, rfl⟩, fun s ctab mirror => ⟨fun hv => ?_, fun hrange hout => ?_⟩⟩
  · refine ⟨_, exec_sample_eq hv ctab mirror, rfl, ?_⟩
    rw [Nat.add_assoc]
    exact complete_doneWith ..
  · obtain ⟨-, -, hcoord, -⟩ := validate_iff .sample s
    have hv : validate .sample s = some .coord :=
      hcoord.2 ⟨not_outOfRange_sample hrange, not_sharesAddress_sample s, rfl, hout⟩
    exact ⟨_, exec_validationError (jobKind_sample ctab mirror) hv, errorCompletion_refusedWith .coord s⟩

end Sys2Proof.Machine
end

section
/-! PROOF. The host's sequences of 47_host_formats.md: the RESULT handed from one job to the next (R262), and the turns of
the screen and sprite paths (R257, R262). -/

namespace Sys2Proof.Machine

/-! ### The RESULT handed on -/

/-- 10_state.md R29: SRC_BASE written while IDLE. -/
theorem writeRegister_srcBase {s : State} (hb : s.busy = false) (v : Word) :
    writeRegister 0x08 v s = { s with srcBase := v } := by
  simp [writeRegister, hb]

/-- 10_state.md R29: SRC_LEN written while IDLE. -/
theorem writeRegister_srcLen {s : State} (hb : s.busy = false) (v : Word) :
    writeRegister 0x0C v s = { s with srcLen := v } := by
  simp [writeRegister, hb]

/-- The turn that writes SRC_BASE. -/
theorem step_writeSrcBase {s : State} {rest : List Turn} {v : Word} (h : s.turns = Turn.write s.cfg 0x08 v :: rest)
    (hb : s.busy = false) : step s = .next { s with srcBase := v, turns := rest } :=
  (step_writeReg h (by decide) rfl).trans
    (congrArg _ (writeRegister_srcBase (s := { s with turns := rest }) hb v))

/-- A host that has read something writes it to the register (log 26). -/
theorem step_writeLastRead {s : State} {rest : List Turn} {off : Nat} {v : Word} {vs : List Word}
    (h : s.turns = Turn.writeLastRead s.cfg off :: rest) (hreads : s.reads = v :: vs) (h64 : off < 0x40)
    (h4 : off % 4 = 0) : step s = .next (writeRegister off v { s with turns := rest }) := by
  have hturn : step s = hostWriteLastRead (s.cfg.regBase + off) 4 { s with turns := rest } := by
    simp only [step, takeTurn, h, Turn.writeLastRead]
  have hlast : hostWriteLastRead (s.cfg.regBase + off) 4 { s with turns := rest } =
      hostWriteReg (s.cfg.regBase + off) 4 v { s with turns := rest } := by
    simp only [hostWriteLastRead, hreads]
  have hbus := busOffset_reg { s with turns := rest } h64 h4
  rw [hturn, hlast, hostWriteReg, hbus]

/-- The turn that gives SRC_LEN the value last read. -/
theorem step_writeLastRead_srcLen {s : State} {rest : List Turn} {v : Word} {vs : List Word}
    (h : s.turns = Turn.writeLastRead s.cfg 0x0C :: rest) (hb : s.busy = false) (hreads : s.reads = v :: vs) :
    step s = .next { s with srcLen := v, turns := rest } :=
  (step_writeLastRead h hreads (by decide) rfl).trans
    (congrArg _ (writeRegister_srcLen (s := { s with turns := rest }) hb v))

/-- What the host leaves when it has handed RESULT on as the length of a source at `base` (47_host_formats.md R262). -/
def resultHandedOn (base : Word) (rest : List Turn) (s : State) : State :=
  { s with srcBase := base, srcLen := readRegister 0x28 s, reads := readRegister 0x28 s :: s.reads, turns := rest }

/-- The three turns that hand RESULT on, one step each; the block stays IDLE, none of them touching STATUS. -/
theorem runFor_resultHandedOn {s : State} {rest : List Turn} {base : Word} (hb : s.busy = false)
    (h : s.turns = Turn.read s.cfg 0x28 :: Turn.write s.cfg 0x08 base :: Turn.writeLastRead s.cfg 0x0C :: rest) :
    runFor step 3 s = .next (resultHandedOn base rest s) := by
  refine (runFor_succ (step_readReg h (by decide) rfl) 2).trans ?_
  refine (runFor_succ (step_writeSrcBase rfl (by exact hb)) 1).trans ?_
  exact runFor_succ (step_writeLastRead_srcLen rfl (by exact hb) rfl) 0

theorem readRegister_resultHandedOn {off : Nat} (hbase : off ≠ 0x08) (hlen : off ≠ 0x0C) (base : Word)
    (rest : List Turn) (s : State) : readRegister off (resultHandedOn base rest s) = readRegister off s := by
  simp only [readRegister, if_neg hbase, if_neg hlen, resultHandedOn]

/-- Settles O59: the three turns end in `resultHandedOn`. -/
theorem resultIsHandedOn : Obligations.ResultIsHandedOn := by
  unfold Obligations.ResultIsHandedOn
  intro s rest colBuf hb h
  exact ⟨_, runFor_resultHandedOn hb h, rfl, rfl,
    fun off hbase hlen => readRegister_resultHandedOn hbase hlen colBuf rest s, rfl, rfl, rfl, rfl, rfl, rfl⟩

/-! ### The operands of the paths -/

/-- A length register holds the pixel count of every image. -/
theorem pixelCount_toNat (w h : BitVec 16) : (pixelCount (w, h)).toNat = w.toNat * h.toNat :=
  Nat.mod_eq_of_lt <|
    calc w.toNat * h.toNat < 2 ^ 16 * 2 ^ 16 := Nat.mul_lt_mul'' w.isLt h.isLt
      _ = 2 ^ 32 := rfl

/-- The pixel count of a sprite (47_host_formats.md R262). -/
theorem pixelCount_spriteDim (w h : Byte) : pixelCount (spriteDim w h) = BitVec.ofNat 32 (w.toNat * h.toNat) := by
  simp only [pixelCount, spriteDim, BitVec.toNat_setWidth_of_le (show 8 ≤ 16 by decide)]

/-- The DIM write of a JOB: W low, H high (10_state.md R32, 30_encoding.md R96). -/
theorem pairWrite_dim (c : Config) (w h : BitVec 16) :
    pairWrite c 0x20 (some (w, h)) = [Turn.write c 0x20 (BitVec.ofNat 32 (h.toNat * 65536 + w.toNat))] := by
  rw [pairWrite, pairWord_eq]

/-- The DIM write of a sprite's JOB. -/
theorem pairWrite_spriteDim (c : Config) (w h : Byte) :
    pairWrite c 0x20 (some (spriteDim w h)) = [Turn.write c 0x20 (BitVec.ofNat 32 (h.toNat * 65536 + w.toNat))] := by
  rw [spriteDim, pairWrite_dim, BitVec.toNat_setWidth_of_le (show 8 ≤ 16 by decide),
    BitVec.toNat_setWidth_of_le (show 8 ≤ 16 by decide)]

/-- A plane's command has its compression type as OP and no option (30_encoding.md R82, 47_host_formats.md R253). -/
theorem encode_planeCommand (p : PlaneCodec) : encode .command p.command = if p = .rle then 1#32 else 2#32 := by
  cases p <;> rfl

/-- The CMD word of a sprite's stream, with the colour table or without (30_encoding.md R82). -/
theorem encode_spriteCommand (ct : Bool) :
    encode .command (if ct then .lz77Ct false else .lz77 false) = if ct then 0x14#32 else 4#32 := by
  cases ct <;> rfl

/-- Settles O60: the JOBs of each path written out, their operands by the lemmas above. -/
theorem hostPathsExpand : Obligations.HostPathsExpand := by
  unfold Obligations.HostPathsExpand
  intro c lowT highT lb ln hb hn lob lon hib hin img w h write op area
  refine ⟨pixelCount_toNat w h, ?_, ?_, fun ct ctab colBuf sprite sw sh => ?_⟩
  · rw [nibblePath, job, job, Turn.command, Turn.command, encode_planeCommand, encode_planeCommand]
    rfl
  · rw [quadtreePath, job, pairWrite_dim]
    rfl
  · rw [spritePath, job, job, Turn.command, encode_spriteCommand, pairWrite_spriteDim, pixelCount_spriteDim]
    rfl

end Sys2Proof.Machine
end

section
/-! PROOF. A host write outside a job's regions and the engine's step commute (20_memory.md R74, 70_reset_and_hazards.md
R308): the engine reads no such byte and writes none, so every operation of a job answers with the byte written what it
answers without it, the byte then written there. -/

namespace Sys2Proof.Machine

/-! ### An address outside a job's regions -/

/-- 20_memory.md R74: address `a` lies in no region of a job of kind `k`. -/
structure OutsideJob (k : JobKind) (a : Nat) (s : State) : Prop where
  read : ∀ r ∈ readRegions k s, r.has a = false
  write : (writeRegion k s).has a = false

/-- While the job runs, the host may write at `a` (20_memory.md R74) only where it is outside the job's regions. -/
theorem outsideJob_of_currentRegions {k : JobKind} {a : Nat} {s : State} (hk : currentJob s = some k)
    (h : ∀ r ∈ currentRegions s, r.has a = false) : OutsideJob k a s := by
  simp only [currentRegions, hk] at h
  exact ⟨fun r hr => h r (List.mem_cons_of_mem _ hr), h _ List.mem_cons_self⟩

/-- An answer with byte `v` written at `a` in its next state. -/
def thenWrite (a : Nat) (v : Byte) : Result → Result
  | .next t => .next (memWrite a v t)
  | .fault r => .fault r
  | .refused r => .refused r

section
variable {k : JobKind} {a : Nat} {s t : State}

/-- The regions depend on the registers alone. -/
theorem OutsideJob.congr (h : OutsideJob k a s) (hregs : keepsRegisters s t) : OutsideJob k a t := by
  obtain ⟨hread, hwrite, -⟩ := regions_congr hregs k
  exact ⟨by rw [hread]; exact h.read, by rw [hwrite]; exact h.write⟩

theorem OutsideJob.out (h : OutsideJob k a s) (i : Nat) (w : Byte) : OutsideJob k a (out i w s) :=
  h.congr (keepsRegisters.refl s)

/-- No output byte of the job stands at `a`. -/
theorem OutsideJob.outAddr_ne (h : OutsideJob k a s) {i : Nat} (hi : i < (writeRegion k s).len) : outAddr s i ≠ a := by
  have hout := (Region.has_false_iff _ _).1 h.write
  rw [writeRegion_base] at hout
  simp only [outAddr]
  omega

/-- The job cannot tell a state from the one with the byte at `a` written. -/
theorem OutsideJob.alike (h : OutsideJob k a s) (v : Byte) :
    Alike k (· < (writeRegion k s).len) s (memWrite a v s) where
  regs := keepsRegisters.refl s
  source r hr b hb := memRead_memWrite_other (fun e => by rw [e, h.read r hr] at hb; cases hb) v s
  made _ hi := memRead_memWrite_other (h.outAddr_ne hi) v s

end

/-! ### Writes of the job -/

section
variable {k : JobKind} {a : Nat} {v : Byte} {s : State}

theorem out_memWrite (h : OutsideJob k a s) {i : Nat} (hi : i < (writeRegion k s).len) (w : Byte) :
    out i w (memWrite a v s) = memWrite a v (out i w s) :=
  memWrite_comm (h.outAddr_ne hi) w v s

/-- The writing loop, where neither its addresses nor what it computes touch the byte at `a`. -/
theorem writeEach_memWrite_other {addr : Nat → Nat} {val : Nat → State → Byte} {n : Nat}
    (haddr : ∀ j, j < n → addr j ≠ a)
    (hval : ∀ j t, keepsRegisters s t → val j (memWrite a v t) = val j t) :
    writeEach addr val n (memWrite a v s) = memWrite a v (writeEach addr val n s) := by
  induction n with
  | zero => rfl
  | succ n ih =>
    have hregs : keepsRegisters s (writeEach addr val n s) :=
      (Wrote.writeEach (P := fun _ => True) (fun _ _ => trivial) val s).keepsRegisters
    simp only [writeEach, ih fun j hj => haddr j (by omega), hval n _ hregs]
    exact memWrite_comm (haddr n (by omega)) _ v _

theorem padZeros_memWrite (h : OutsideJob k a s) (hdst : writeRegion k s = dstRegion s) (o : Nat) :
    padZeros o (memWrite a v s) = memWrite a v (padZeros o s) :=
  writeEach_memWrite_other (fun j hj => h.outAddr_ne (by
    rw [memWrite_dstLen] at hj
    rw [hdst]
    simp only [dstRegion]
    omega)) fun _ _ _ => rfl

theorem drawRegion_memWrite_other {r : Region} (hr : r.has a = false) :
    drawRegion r (memWrite a v s) = memWrite a v (drawRegion r s) := by
  rw [Region.has_false_iff] at hr
  have hloop := writeEach_memWrite_other (a := a) (v := v) (s := s) (addr := fun k => r.base + k)
    (val := fun k _ => Config.freeByte (s.draws + k)) (n := r.len) (fun j hj => by omega) fun _ _ _ => rfl
  simp only [drawRegion, memWrite_draws, hloop]
  rfl

theorem runtimeError_memWrite {r : Region} (hr : r.has a = false) (e : JobError) :
    runtimeError e r (memWrite a v s) = memWrite a v (runtimeError e r s) :=
  congrArg (errorCompletion e) (drawRegion_memWrite_other hr)

end

/-! ### RLE (41_rle.md) -/

section
variable {a n : Nat} {v : Byte} {c : RleState} {s : State}

/-- 41_rle.md R125: a literal run that is full or has no source byte left. -/
theorem rleCopy_stops (h : c.o = s.dstLen.toNat ∨ s.srcLen.toNat ≤ c.p) : rleCopy (n + 1) c s = (c, s) := if_pos h

theorem rleCopy_copies (h : ¬(c.o = s.dstLen.toNat ∨ s.srcLen.toNat ≤ c.p)) :
    rleCopy (n + 1) c s = rleCopy n ⟨c.p + 1, c.o + 1⟩ (out c.o (srcByte c.p s) s) := if_neg h

/-- 41_rle.md R125: a repeat run that is full. -/
theorem rleRepeat_full {w : Byte} (h : c.o = s.dstLen.toNat) : rleRepeat w (n + 1) c s = (c, s) := if_pos h

theorem rleRepeat_room {w : Byte} (h : c.o ≠ s.dstLen.toNat) :
    rleRepeat w (n + 1) c s = rleRepeat w n { c with o := c.o + 1 } (out c.o w s) := if_neg h

theorem rleCopy_memWrite (n : Nat) (h : OutsideJob .rle a s) (ho : c.o ≤ s.dstLen.toNat) :
    rleCopy n c (memWrite a v s) = ((rleCopy n c s).1, memWrite a v (rleCopy n c s).2) := by
  induction n generalizing c s with
  | zero => rfl
  | succ n ih =>
    by_cases hstop : c.o = s.dstLen.toNat ∨ s.srcLen.toNat ≤ c.p
    · rw [rleCopy_stops hstop, rleCopy_stops (s := memWrite a v s) hstop]
    · have hlt : c.o < s.dstLen.toNat := by omega
      have hbyte : srcByte c.p (memWrite a v s) = srcByte c.p s := (h.alike v).srcByte (by simp) (by omega)
      rw [rleCopy_copies hstop, rleCopy_copies (s := memWrite a v s) hstop, hbyte, out_memWrite h hlt]
      exact ih (h.out c.o _) hlt

theorem rleRepeat_memWrite (w : Byte) (n : Nat) (h : OutsideJob .rle a s) (ho : c.o ≤ s.dstLen.toNat) :
    rleRepeat w n c (memWrite a v s) = ((rleRepeat w n c s).1, memWrite a v (rleRepeat w n c s).2) := by
  induction n generalizing c s with
  | zero => rfl
  | succ n ih =>
    by_cases hfull : c.o = s.dstLen.toNat
    · rw [rleRepeat_full hfull, rleRepeat_full (s := memWrite a v s) hfull]
    · have hlt : c.o < s.dstLen.toNat := by omega
      rw [rleRepeat_room hfull, rleRepeat_room (s := memWrite a v s) hfull, out_memWrite h hlt]
      exact ih (h.out c.o w) hlt

end

/-! ### LZW (42_lzw.md) -/

section
variable {a o : Nat} {v : Byte} {s : State}

/-- 42_lzw.md R146: a byte that the output has room for. -/
theorem lzwEmit_room {b : Byte} {bs : List Byte} (h : o < s.dstLen.toNat) :
    lzwEmit (b :: bs) o s = lzwEmit bs (o + 1) (out o b s) := if_pos h

theorem lzwEmit_full {b : Byte} {bs : List Byte} (h : ¬o < s.dstLen.toNat) :
    lzwEmit (b :: bs) o s = lzwEmit bs o s := if_neg h

theorem lzwEmit_memWrite (seq : List Byte) (h : OutsideJob .lzw a s) :
    lzwEmit seq o (memWrite a v s) = ((lzwEmit seq o s).1, memWrite a v (lzwEmit seq o s).2) := by
  induction seq generalizing o s with
  | nil => rfl
  | cons b bs ih =>
    by_cases hroom : o < s.dstLen.toNat
    · rw [lzwEmit_room hroom, lzwEmit_room (s := memWrite a v s) hroom, out_memWrite h hroom]
      exact ih (h.out o b)
    · rw [lzwEmit_full hroom, lzwEmit_full (s := memWrite a v s) hroom]
      exact ih h

theorem lzwResolved_memWrite (seq : List Byte) (c : LzwState) (h : OutsideJob .lzw a s) :
    lzwResolved seq c (memWrite a v s) = thenWrite a v (lzwResolved seq c s) := by
  simp only [lzwResolved, lzwEmit_memWrite seq h]
  rfl

theorem finishLzw_memWrite (i b : Bool) (c : LzwState) (h : OutsideJob .lzw a s) :
    finishLzw i b c (memWrite a v s) = memWrite a v (finishLzw i b c s) := by
  simp only [finishLzw, padZeros_memWrite h rfl]
  rfl

end

/-! ### LZ77 (44_lz77.md) -/

/-- What an emit or a copy leaves, with byte `v` written at `a`. -/
def emitThenWrite (a : Nat) (v : Byte) (e : Option (Nat × State)) : Option (Nat × State) :=
  e.map fun p => (p.1, memWrite a v p.2)

section
variable {b : Bool} {a : Nat} {v : Byte} {s : State}

theorem lz77Emit_memWrite (w : Byte) (o : Nat) (h : OutsideJob (.lz77 b) a s) :
    lz77Emit w o (memWrite a v s) = emitThenWrite a v (lz77Emit w o s) := by
  by_cases hfull : s.dstLen.toNat ≤ o
  · rw [lz77Emit_none hfull, lz77Emit_none (s := memWrite a v s) hfull]
    rfl
  · have hroom := Nat.not_le.1 hfull
    rw [lz77Emit_some hroom, lz77Emit_some (s := memWrite a v s) hroom, out_memWrite h hroom]
    rfl

/-- A copy reads output bytes of the job, or none (44_lz77.md R209). -/
theorem lz77Copy_memWrite (start : Int) (n j : Nat) {o : Nat} (h : OutsideJob (.lz77 b) a s) (hs : start + j < o) :
    lz77Copy start n j o (memWrite a v s) = emitThenWrite a v (lz77Copy start n j o s) := by
  induction n generalizing j o s with
  | zero => rfl
  | succ n ih =>
    simp only [lz77Copy]
    by_cases hfull : s.dstLen.toNat ≤ o
    · rw [lz77Emit_none hfull, lz77Emit_none (s := memWrite a v s) hfull]
      rfl
    · have hroom := Nat.not_le.1 hfull
      have hread : (if 0 ≤ start + j then outByte (start + j).toNat (memWrite a v s) else 0) =
          if 0 ≤ start + j then outByte (start + j).toNat s else 0 := by
        split
        · exact (h.alike v).outByte (by simp only [writeRegion, dstRegion]; omega)
        · rfl
      rw [hread, lz77Emit_some hroom, lz77Emit_some (s := memWrite a v s) hroom]
      simp only [out_memWrite h hroom]
      exact ih (j + 1) (h.out ..) (by push_cast; omega)

theorem lz77Decided_memWrite (bytes : Nat) (c : Lz77State) (e : Option (Nat × State)) (h : OutsideJob (.lz77 b) a s) :
    lz77Decided bytes c (emitThenWrite a v e) (memWrite a v s) = thenWrite a v (lz77Decided bytes c e s) := by
  cases e with
  | none => exact congrArg _ (runtimeError_memWrite h.write .overflow)
  | some p => rfl

end

/-! ### Quadtree (43_quadtree.md) -/

section
variable {a : Nat} {v : Byte} {s : State}

theorem qtPutLeaf_memWrite {q : Rect} (h : OutsideJob .qt a s) (hq : q.isEmpty = false → q.inImage s)
    {val : Nat → State → Byte} (hval : ∀ j t, OutsideJob .qt a t → val j (memWrite a v t) = val j t) :
    qtPutLeaf q val (memWrite a v s) = memWrite a v (qtPutLeaf q val s) := by
  refine writeEach_memWrite_other (fun j hj => h.outAddr_ne ?_) fun j t ht => hval j t (h.congr ht)
  have he : q.isEmpty = false := (Rect.isEmpty_false_iff q).2
    ⟨Nat.pos_of_mul_pos_right (Nat.zero_lt_of_lt hj), Nat.pos_of_mul_pos_left (Nat.zero_lt_of_lt hj)⟩
  exact leafIndex_lt (hq he) hj

theorem qtEntered_memWrite (c : Option QtState) (h : OutsideJob .qt a s) :
    qtEntered c (memWrite a v s) = memWrite a v (qtEntered c s) := by
  cases c with
  | none => exact runtimeError_memWrite h.write .qtDepth
  | some c => rfl

end

/-! ### Tokens -/

section
variable {c : Codec} {a : Nat} {v : Byte} {s : State} (hc : s.codec = some c)
include hc

theorem execLzwClear_memWrite : execLzwClear (memWrite a v s) = thenWrite a v (execLzwClear s) := by
  simp only [execLzwClear, memWrite_codec, hc]
  cases c <;> rfl

theorem execQtMask_memWrite (mask : BitVec qtMaskBits) :
    execQtMask mask (memWrite a v s) = thenWrite a v (execQtMask mask s) := by
  simp only [execQtMask, memWrite_codec, hc]
  cases c with
  | qt c =>
    simp only
    cases c.pending <;> rfl
  | rle c | lzw c | lz77 c => rfl

theorem execLz77Hdr_memWrite (groups : BitVec 16) (tailBits : Byte) :
    execLz77Hdr groups tailBits (memWrite a v s) = thenWrite a v (execLz77Hdr groups tailBits s) := by
  simp only [execLz77Hdr, memWrite_codec, hc]
  cases c with
  | lz77 c =>
    simp only
    split <;> rfl
  | rle c | lzw c | qt c => rfl

theorem execLz77Flag_memWrite (flags : Byte) :
    execLz77Flag flags (memWrite a v s) = thenWrite a v (execLz77Flag flags s) := by
  simp only [execLz77Flag, memWrite_codec, hc]
  cases c with
  | lz77 c =>
    simp only
    split <;> rfl
  | rle c | lzw c | qt c => rfl

variable (h : OutsideJob c.kind a s)
include h

theorem execRleLit_memWrite (hok : c.ok s) (n : BitVec 7) :
    execRleLit n (memWrite a v s) = thenWrite a v (execRleLit n s) := by
  simp only [execRleLit, memWrite_codec, hc]
  cases c with
  | rle c =>
    obtain ⟨-, -, -, ho⟩ := hok
    simp only [rleCopy_memWrite n.toNat (c := { c with p := c.p + 1 }) h ho]
    rfl
  | lzw c | qt c | lz77 c => rfl

theorem execRleRun_memWrite (hok : c.ok s) (n : BitVec 7) (w : Byte) :
    execRleRun n w (memWrite a v s) = thenWrite a v (execRleRun n w s) := by
  simp only [execRleRun, memWrite_codec, hc]
  cases c with
  | rle c =>
    obtain ⟨-, -, -, ho⟩ := hok
    simp only [rleRepeat_memWrite w n.toNat (c := { c with p := c.p + 2 }) h ho]
    rfl
  | lzw c | qt c | lz77 c => rfl

theorem execLzwLit_memWrite (w : Byte) : execLzwLit w (memWrite a v s) = thenWrite a v (execLzwLit w s) := by
  simp only [execLzwLit, memWrite_codec, hc]
  cases c with
  | lzw c => exact lzwResolved_memWrite _ c h
  | rle c | qt c | lz77 c => rfl

theorem execLzwDict_memWrite (code : BitVec lzwWidthMax) :
    execLzwDict code (memWrite a v s) = thenWrite a v (execLzwDict code s) := by
  simp only [execLzwDict, memWrite_codec, hc]
  cases c with
  | lzw c =>
    simp only
    cases c.slot code.toNat with
    | some seq => exact lzwResolved_memWrite seq c h
    | none => rfl
  | rle c | qt c | lz77 c => rfl

theorem execLzwKwkwk_memWrite (code : BitVec lzwWidthMax) :
    execLzwKwkwk code (memWrite a v s) = thenWrite a v (execLzwKwkwk code s) := by
  simp only [execLzwKwkwk, memWrite_codec, hc]
  cases c with
  | lzw c =>
    simp only
    cases c.prev with
    | some prev =>
      simp only
      split
      · exact lzwResolved_memWrite _ c h
      · rfl
    | none => rfl
  | rle c | qt c | lz77 c => rfl

theorem execLzwBad_memWrite (code : BitVec lzwWidthMax) :
    execLzwBad code (memWrite a v s) = thenWrite a v (execLzwBad code s) := by
  simp only [execLzwBad, memWrite_codec, hc]
  cases c with
  | lzw c => exact congrArg _ (finishLzw_memWrite false true c h)
  | rle c | qt c | lz77 c => rfl

theorem execLz77Lit_memWrite (w : Byte) : execLz77Lit w (memWrite a v s) = thenWrite a v (execLz77Lit w s) := by
  simp only [execLz77Lit, memWrite_codec, hc]
  cases c with
  | lz77 c =>
    simp only [lz77Literal_alike (h.alike v), lz77Emit_memWrite _ _ h]
    exact lz77Decided_memWrite 1 c _ h
  | rle c | lzw c | qt c => rfl

theorem execLz77Bref_memWrite (len : BitVec lz77LenBits) (dist : BitVec lz77DistBits) :
    execLz77Bref len dist (memWrite a v s) = thenWrite a v (execLz77Bref len dist s) := by
  simp only [execLz77Bref, memWrite_codec, hc]
  cases c with
  | lz77 c =>
    simp only
    rw [lz77Copy_memWrite _ _ 0 h (by omega)]
    exact lz77Decided_memWrite 2 c _ h
  | rle c | lzw c | qt c => rfl

theorem execQtSub_memWrite : execQtSub (memWrite a v s) = thenWrite a v (execQtSub s) := by
  have hturn : qtTurn (memWrite a v s) = qtTurn s := rfl
  simp only [execQtSub, hturn]
  cases ht : qtTurn s with
  | none => rfl
  | some t =>
    obtain rfl : c = .qt t.c := Option.some.inj (hc.symm.trans (qtTurn_some ht).1)
    exact congrArg _ (qtEntered_memWrite _ h)

/-- A leaf whose values are read from the stream alone. The quadrant lies in the image, and so do its pixels. -/
theorem qtLeaf_memWrite (hok : c.ok s) (bits : QtTurn → Nat) {val : QtTurn → Nat → State → Byte}
    (hval : ∀ turn j t, OutsideJob .qt a t → val turn j (memWrite a v t) = val turn j t) :
    qtLeaf bits val (memWrite a v s) = thenWrite a v (qtLeaf bits val s) := by
  have hturn : qtTurn (memWrite a v s) = qtTurn s := rfl
  simp only [qtLeaf, hturn]
  cases ht : qtTurn s with
  | none => rfl
  | some t =>
    obtain ⟨hqt, -, hstack, hquad⟩ := qtTurn_some ht
    obtain rfl : c = .qt t.c := Option.some.inj (hc.symm.trans hqt)
    obtain ⟨-, -, hframes, -⟩ := hok
    have himage : t.quad.isEmpty = false → t.quad.inImage s := fun he => by
      rw [hquad] at he ⊢
      exact Rect.inImage_quadrant (hframes _ (by rw [hstack]; exact List.mem_cons_self)).1 he
    simp only [qtPutLeaf_memWrite h himage (hval t)]
    rfl

/-- What the meaning of a token answers inside its job, with the byte written and without. -/
theorem execToken_memWrite (hok : c.ok s) (i : Instr) :
    execToken i (memWrite a v s) = thenWrite a v (execToken i s) := by
  have hbits {t : State} (ht : OutsideJob .qt a t) (off n : Nat) : bitRead off n (memWrite a v t) = bitRead off n t :=
    (ht.alike v).bitRead (by simp) off n
  cases i with
  | rleLit n => exact execRleLit_memWrite hc h hok n
  | rleRun n w => exact execRleRun_memWrite hc h hok n w
  | lzwClear => exact execLzwClear_memWrite hc
  | lzwLit w => exact execLzwLit_memWrite hc h w
  | lzwDict code => exact execLzwDict_memWrite hc h code
  | lzwKwkwk code => exact execLzwKwkwk_memWrite hc h code
  | lzwBad code => exact execLzwBad_memWrite hc h code
  | qtMask mask => exact execQtMask_memWrite hc mask
  | qtSub => exact execQtSub_memWrite hc h
  | qtLeaf1 w => exact qtLeaf_memWrite hc h hok _ fun _ _ _ _ => rfl
  | qtLeafRaw f => exact qtLeaf_memWrite hc h hok _ fun _ _ _ ht => by rw [hbits ht]
  | qtLeafFill w => exact qtLeaf_memWrite hc h hok _ fun _ _ _ _ => rfl
  | qtLeafIdx f =>
    simp only [execToken, execQtLeafIdx, (h.alike v).qtTable c.kind_ne_sample]
    exact qtLeaf_memWrite hc h hok _ fun _ _ _ ht => by rw [hbits ht]
  | lz77Hdr groups tailBits => exact execLz77Hdr_memWrite hc groups tailBits
  | lz77Flag flags => exact execLz77Flag_memWrite hc flags
  | lz77Lit w => exact execLz77Lit_memWrite hc h w
  | lz77Bref len dist => exact execLz77Bref_memWrite hc h len dist
  | rle | lzw | qt | lz77 | lz77Ct | nmerge | xpose | sample | sampleMir | reserved0 | reserved8F => rfl

end

/-! ### The steps of a job -/

section
variable {a : Nat} {v : Byte} {s : State}

theorem finish_memWrite (inexh : Bool) (c : Codec) (h : OutsideJob c.kind a s) :
    finish inexh c (memWrite a v s) = memWrite a v (finish inexh c s) := by
  cases c with
  | rle c =>
    simp only [finish, finishRle, padZeros_memWrite h rfl]
    rfl
  | lzw c => exact finishLzw_memWrite inexh false c h
  | qt c | lz77 c => rfl

theorem skip_memWrite (c : Codec) : skip c (memWrite a v s) = memWrite a v (skip c s) := by
  cases c <;> rfl

/-- The engine finds the same at its cursor, and does there the same. -/
theorem tokenStep_memWrite {c : Codec} (hc : s.codec = some c) (hok : c.ok s) (h : OutsideJob c.kind a s) :
    tokenStep execToken c (memWrite a v s) = thenWrite a v (tokenStep execToken c s) := by
  unfold tokenStep
  rw [(h.alike v).fetch]
  cases fetch c s with
  | token i => exact execToken_memWrite hc h hok i
  | skip => exact congrArg _ (skip_memWrite c)
  | finish inexh => exact congrArg _ (finish_memWrite inexh c h)
  | fail e => rfl

theorem runTokens_memWrite {k : JobKind} (fuel : Nat) (hk : currentJob s = some k) (hjob : s.jobOk)
    (h : OutsideJob k a s) : runTokens fuel (memWrite a v s) = thenWrite a v (runTokens fuel s) := by
  induction fuel generalizing s with
  | zero => rfl
  | succ fuel ih =>
    cases hc : s.codec with
    | none =>
      rw [runTokens_ended _ hc, runTokens_ended (s := memWrite a v s) _ hc]
      rfl
    | some c =>
      have hok := hjob c hc
      obtain rfl : c.kind = k := Option.some.inj (hok.current.1.symm.trans hk)
      obtain ⟨t, ht, he⟩ := tokenStep_spec hc hok
      have hwritten := tokenStep_memWrite (v := v) hc hok h
      rw [ht] at hwritten
      obtain ⟨-, -, hjobt⟩ := regions_congr he.regs c.kind
      simp only [runTokens, memWrite_codec, hc, ht, hwritten, thenWrite]
      refine ih (hjobt.trans hk) (fun d hd => ?_) (h.congr he.regs)
      rcases he.phase with ⟨c', hc', -, hok', -, -⟩ | ⟨hnone, -⟩
      · cases hc'.symm.trans hd
        exact hok'
      · cases hnone.symm.trans hd

/-- Validation looks at the registers and the source alone. -/
theorem validated_memWrite {k : JobKind} {run : State → Result} (h : OutsideJob k a s)
    (hrun : validate k s = none → run (memWrite a v s) = thenWrite a v (run s)) :
    validated k run (memWrite a v s) = thenWrite a v (validated k run s) := by
  unfold validated
  rw [(h.alike v).validate]
  cases hv : validate k s with
  | some e => rfl
  | none => exact hrun hv

/-- What the family rule's start leaves keeps the job invariant and the registers. -/
theorem OpenedOrEnded.jobOk {k : JobKind} {u : State} (h : OpenedOrEnded k s u) : u.jobOk := fun d hd => by
  rcases h with ⟨c, rfl, hok⟩ | he
  · cases hd
    exact hok
  · cases he.codec.symm.trans hd

theorem OpenedOrEnded.regs {k : JobKind} {u : State} (h : OpenedOrEnded k s u) : keepsRegisters s u := by
  rcases h with ⟨c, rfl, -⟩ | he
  · exact keepsRegisters.codec s _
  · exact he.regs

/-- A job that decodes a stream. -/
theorem streamJob_memWrite {k : JobKind} {start : State → State} (fuel : State → Nat) (h : OutsideJob k a s)
    (hk : currentJob s = some k) (hopen : validate k s = none → OpenedOrEnded k s (start s))
    (hstart : start (memWrite a v s) = memWrite a v (start s)) (hfuel : fuel (memWrite a v s) = fuel s) :
    validated k (fun s => runTokens (fuel s) (start s)) (memWrite a v s) =
      thenWrite a v (validated k (fun s => runTokens (fuel s) (start s)) s) := by
  refine validated_memWrite h fun hv => ?_
  have hregs := (hopen hv).regs
  obtain ⟨-, -, hjob⟩ := regions_congr hregs k
  simp only [hstart, hfuel]
  exact runTokens_memWrite _ (hjob.trans hk) (hopen hv).jobOk (h.congr hregs)

/-- The bytes that fill a write region are computed from the read regions (45_pixel.md R231, R237). -/
theorem filledOutput_memWrite {k : JobKind} {n : Nat} {val : Nat → State → Byte} (h : OutsideJob k a s)
    (hn : (writeRegion k s).len = n) (hval : ∀ j t, OutsideJob k a t → val j (memWrite a v t) = val j t) :
    filledOutput n val (memWrite a v s) = memWrite a v (filledOutput n val s) :=
  congrArg (complete false false false n)
    (writeEach_memWrite_other (fun _ hj => h.outAddr_ne (hn ▸ hj)) fun j t ht => hval j t (h.congr ht))

/-- The byte that SAMPLE reads is a pixel of its read region (45_pixel.md R242). -/
theorem sampleAt_memWrite {x : Nat} (h : OutsideJob .sample a s) (hx : x < s.width) (hy : s.coordY < s.height) :
    sampleAt x (memWrite a v s) = memWrite a v (sampleAt x s) := by
  have hpixel := rowMajor_lt hx hy
  have hread := (h.alike v).source ⟨s.srcBase.toNat, s.width * s.height⟩ (by simp [readRegions])
    (s.srcBase.toNat + (s.coordY * s.width + x)) ((Region.has_iff _ _).2 (by simp only; omega))
  exact congrArg (fun b : Byte => complete false false false b.toNat (memWrite a v s)) hread

/-- The whole job step of a command. -/
theorem exec_memWrite {i : Instr} {k : JobKind} (hi : jobKind i = some k) (hk : currentJob s = some k)
    (h : OutsideJob k a s) : exec i (memWrite a v s) = thenWrite a v (exec i s) := by
  cases i <;> simp only [jobKind, Option.some.injEq, reduceCtorEq] at hi <;> subst hi
  case rle => exact streamJob_memWrite rleFuel h hk (openRle_spec hk) rfl rfl
  case lzw => exact streamJob_memWrite lzwFuel h hk (openLzw_spec hk) rfl rfl
  case qt => exact streamJob_memWrite qtFuel h hk (openQt_spec hk) (qtEntered_memWrite _ h) rfl
  case lz77 => exact streamJob_memWrite lz77Fuel h hk (openLz77_spec hk) rfl rfl
  case lz77Ct => exact streamJob_memWrite lz77Fuel h hk (openLz77_spec hk) rfl rfl
  case nmerge =>
    exact validated_memWrite (run := fun s => .next (filledOutput s.dstLen.toNat mergedPixel s)) h fun _ =>
      congrArg _ (filledOutput_memWrite h rfl fun j t ht => by
        simp only [mergedPixel, (ht.alike v).srcZ (by simp), (ht.alike v).auxZ])
  case xpose =>
    exact validated_memWrite
      (run := fun s => .next (filledOutput (s.width * s.height) (transposedPixel s.width s.height) s)) h fun _ =>
      congrArg _ (filledOutput_memWrite h rfl fun j t ht => (ht.alike v).srcZ (by simp) _)
  case sample =>
    refine validated_memWrite (run := fun s => .next (sampleAt s.coordX s)) h fun hv => congrArg _ ?_
    obtain ⟨hx, hy⟩ := validate_sample hv
    exact sampleAt_memWrite h hx hy
  case sampleMir =>
    refine validated_memWrite (run := fun s => .next (sampleAt (s.width - 1 - s.coordX) s)) h fun hv => congrArg _ ?_
    obtain ⟨hx, hy⟩ := validate_sample hv
    exact sampleAt_memWrite (x := s.width - 1 - s.coordX) h (by omega) hy

end

/-- Settles O58: at a job's start by the whole job step (`exec_memWrite`), inside a job by its token step
(`tokenStep_memWrite`). -/
theorem hostWriteCommutesWithJob : Obligations.HostWriteCommutesWithJob := by
  unfold Obligations.HostWriteCommutesWithJob
  intro s a v ⟨_, _, _, hjob⟩ hb _ hfree
  cases hc : s.codec with
  | none =>
    rw [engineTurn_jobStart hb hc, engineTurn_jobStart (s := memWrite a v s) hb hc, memWrite_cmd]
    cases hk : currentJob s with
    | none => exact ⟨_, exec_reserved hk, exec_reserved (s := memWrite a v s) hk⟩
    | some k =>
      obtain ⟨t, ht, -⟩ := exec_command_spec hk
      have hwritten := exec_memWrite (v := v) hk hk (outsideJob_of_currentRegions hk hfree)
      rw [ht] at hwritten
      exact ⟨t, ht, hwritten⟩
  | some c =>
    have hok := hjob c hc
    obtain ⟨t, ht, -⟩ := tokenStep_spec hc hok
    have hwritten := tokenStep_memWrite (v := v) hc hok (outsideJob_of_currentRegions hok.current.1 hfree)
    rw [ht] at hwritten
    rw [engineTurn_inJob hb hc, engineTurn_inJob (s := memWrite a v s) hb hc, tokenStep_exec, tokenStep_exec]
    exact ⟨t, ht, hwritten⟩

end Sys2Proof.Machine
end

section
/-! PROOF. A host that polls (30_encoding.md R95) sees DONE (70_reset_and_hazards.md R314): between its STATUS reads the
engine takes its steps, and each brings the job nearer to its end. -/

namespace Sys2Proof.Machine

/-! ### How a job's step leaves STATUS -/

/-- A STATUS word with DONE and without BUSY, and no codec state, is a job's end. -/
theorem ended_of_statusWord {t : State} (hc : t.codec = none) {p i b : Bool} {e : Byte}
    (h : t.status = statusWord false true p i b e) : t.ended :=
  ⟨by rw [State.busy, h, statusWord_busy], by rw [State.isDone, h, statusWord_done], hc⟩

/-- A token step leaves the job open and nearer to its end, or ends it. -/
theorem TokenEffect.opens_or_ends {c : Codec} {s t : State} (h : TokenEffect c s t) :
    (∃ d, t.codec = some d ∧ d.ok t ∧ t.status = s.status ∧ jobCost t d < jobCost s c) ∨ t.ended := by
  rcases h.phase with ⟨d, hd, -, hok, ⟨hst, -, -⟩, hcost⟩ | ⟨hnone, ⟨-, p, i, b, e⟩ | ⟨⟨-, e⟩ | ⟨-, e⟩, -⟩⟩
  · exact .inl ⟨d, hd, hok, hst, by rwa [jobCost_congr h.regs]⟩
  · exact .inr (ended_of_statusWord hnone e)
  · exact .inr (ended_of_statusWord hnone e)
  · exact .inr (ended_of_statusWord hnone e)

theorem not_isDone_of_started {s : State} (h : s.status = statusStarted) : s.isDone = false := by
  rw [State.isDone, h]
  exact statusWord_done ..

/-- STATUS never shows BUSY and DONE together (10_state.md R26). -/
theorem State.controlOk.not_busy_of_isDone {s : State} (h : s.controlOk) (hd : s.isDone = true) : s.busy = false := by
  cases hb : s.busy with
  | false => rfl
  | true => exact absurd (hd.symm.trans (not_isDone_of_started (h.started hb))) (by decide)

/-! ### The poll -/

/-- The poll ends: after finitely many steps the host's newest read is STATUS with DONE and without BUSY, and the turns
behind the poll are next. -/
def PollEnds (rest : List Turn) (s : State) : Prop :=
  ∃ n t, runFor step n s = .next t ∧ t.turns = rest ∧ t.isDone = true ∧ t.busy = false ∧ t.reads = t.status :: s.reads

section
variable {s u : State} {rest : List Turn} (hturns : s.turns = .poll :: rest)
include hturns

theorem step_poll : step s = pollTurn rest s := by
  simp only [step, takeTurn, hturns]

/-- A STATUS read that shows DONE ends the poll. -/
theorem PollEnds.ofDone (hd : s.isDone = true) (hb : s.busy = false) : PollEnds rest s :=
  have hstep : step s = .next (receive s.status { s with turns := rest }) := by
    rw [step_poll hturns, pollTurn, if_pos hd]
  ⟨1, _, runFor_succ hstep 0, rfl, hd, hb, rfl⟩

/-- Any other STATUS read gives the engine its step, and the poll goes on. -/
theorem PollEnds.ofEngineTurn (hst : s.status = statusStarted) (hu : engineTurn s = .next u)
    (hregs : keepsRegisters s u) (h : u.turns = .poll :: rest → PollEnds rest u) : PollEnds rest s := by
  obtain ⟨-, -, -, -, -, -, -, -, -, -, huturns, hureads⟩ := hregs
  obtain ⟨n, t, hrun, ht, hd, hb, hreads⟩ := h (huturns.trans hturns)
  have hstep : step s = .next u := by
    rw [step_poll hturns, pollTurn, not_isDone_of_started hst, if_neg Bool.false_ne_true, hu]
  exact ⟨n + 1, t, (runFor_succ hstep n).trans hrun, ht, hd, hb, by rw [hreads, hureads]⟩

end

/-- A poll inside a job, by induction on the bound of the job's steps. -/
theorem pollEnds_inJob (n : Nat) {s : State} {rest : List Turn} {c : Codec} (hturns : s.turns = .poll :: rest)
    (hst : s.status = statusStarted) (hc : s.codec = some c) (hok : c.ok s) (hn : jobCost s c ≤ n) :
    PollEnds rest s := by
  induction n generalizing s c with
  | zero => exact absurd (jobCost_pos s c) (by omega)
  | succ n ih =>
    obtain ⟨t, ht, he⟩ := tokenStep_spec hc hok
    have hturn : engineTurn s = .next t := by
      rw [engineTurn_inJob (busy_of_started hst) hc, tokenStep_exec, ht]
    refine .ofEngineTurn hturns hst hturn he.regs fun htturns => ?_
    rcases he.opens_or_ends with ⟨d, hd, hokd, hstd, hcost⟩ | ⟨hb, hdone, -⟩
    · exact ih htturns (hstd.trans hst) hd hokd (by omega)
    · exact .ofDone htturns hdone hb

/-- A poll on a job just started: the engine's step is the whole job step. -/
theorem pollEnds_jobStart {s : State} {rest : List Turn} (hturns : s.turns = .poll :: rest)
    (hst : s.status = statusStarted) (hc : s.codec = none) : PollEnds rest s := by
  obtain ⟨t, ht, hb, hdone, -⟩ := jobStep_ends s
  obtain ⟨hregs, -⟩ := exec_staysInWriteRegion ht
  have hturn := (engineTurn_jobStart (busy_of_started hst) hc).trans ht
  exact .ofEngineTurn hturns hst hturn hregs fun htturns => .ofDone htturns hdone hb

/-- Settles O56, by where the poll finds the block: DONE, at a job's start, or inside a job. -/
theorem pollSeesDone : Obligations.PollSeesDone := by
  unfold Obligations.PollSeesDone
  intro s rest ⟨_, _, hctl, hjob⟩ hturns hphase
  rcases hphase with hb | hd
  · have hst := hctl.started hb
    cases hc : s.codec with
    | none => exact pollEnds_jobStart hturns hst hc
    | some c => exact pollEnds_inJob _ hturns hst hc (hjob c hc) (Nat.le_refl _)
  · exact PollEnds.ofDone hturns hd (hctl.not_busy_of_isDone hd)

end Sys2Proof.Machine
end

section
/-! PROOF. The error completion (60_exceptions.md R271 to R273): of a job that validation turns away, of one that fails
at run time, and of a reserved command. -/

namespace Sys2Proof.Machine

/-- Settles O26: a reserved command is the error completion with ERR_BAD_OP, and STATUS the word of R273. -/
theorem reservedCommandFails : Obligations.ReservedCommandFails := by
  unfold Obligations.ReservedCommandFails
  intro s ctab mirror low
  have hstatus : statusError .badOp = 0x00000102#32 := by decide
  have hrefused := errorCompletion_refusedWith .badOp s
  exact ⟨⟨_, rfl, hstatus, hrefused⟩, ⟨_, rfl, hstatus, hrefused⟩⟩

/-! ### What an error completion leaves -/

/-- The error completion of R272 as STATUS tells it: a run-time error has drawn the region `r`, any other error has touched
no memory. -/
def CompletedWithError (r : Region) (s t : State) : Prop :=
  failedWith t.err s t ∧ t.err ≤ 8 ∧ (t.err ≠ 6 → t.err ≠ 7 → t.mem = s.mem ∧ t.draws = s.draws) ∧
    (t.err = 6 ∨ t.err = 7 → drawnRegion r s t)

section
variable {s t : State} {code : Byte}

theorem failedWith.err_eq (h : failedWith code s t) : t.err = code := by
  obtain ⟨-, -, herr, -⟩ := h
  exact herr

theorem doneWith.err_eq {padded inexh badcode : Bool} {n : Nat} (h : doneWith padded inexh badcode n s t) :
    t.err = 0 := by
  obtain ⟨-, -, herr, -⟩ := h
  exact herr

/-- An error found before a byte was read or written. -/
theorem refusedWith.completedWithError (h : refusedWith code s t) (h8 : code ≤ 8) (h6 : code ≠ 6) (h7 : code ≠ 7)
    (r : Region) : CompletedWithError r s t := by
  obtain ⟨hfail, hmem, hdraws⟩ := h
  obtain rfl := hfail.err_eq
  exact ⟨hfail, h8, fun _ _ => ⟨hmem, hdraws⟩, fun e => (e.elim h6 h7).elim⟩

/-- A run-time error. -/
theorem failedWith.completedWithError (h : failedWith code s t) (hcode : code = 6 ∨ code = 7) {r : Region}
    (hr : drawnRegion r s t) : CompletedWithError r s t := by
  obtain rfl := h.err_eq
  exact ⟨h, by rcases hcode with e | e <;> rw [e] <;> decide, fun h6 h7 => (hcode.elim h6 h7).elim, fun _ => hr⟩

end

/-! ### The errors of each job -/

/-- Validation finds no run-time error (60_exceptions.md R275). -/
theorem validate_ne_runtimeError {k : JobKind} {s : State} {e : JobError} (h : validate k s = some e) :
    e ≠ .overflow ∧ e ≠ .qtDepth := by
  by_cases h1 : OutOfRange k s
  · cases (validate_outOfRange h1).symm.trans h
    decide
  by_cases h2 : SharesAddress k s
  · cases (validate_sharesAddress h1 h2).symm.trans h
    decide
  rcases validate_family h1 h2 with ⟨e', -⟩ | ⟨e', -⟩ | ⟨e', -⟩ | ⟨e', -⟩ <;> cases e'.symm.trans h <;> decide

theorem errorCompletion_completedWithError {e : JobError} (he : e ≠ .overflow ∧ e ≠ .qtDepth) (r : Region) (s : State) :
    CompletedWithError r s (errorCompletion e s) := by
  have hcode : e.code ≤ 8 ∧ e.code ≠ 6 ∧ e.code ≠ 7 := by
    revert he
    cases e <;> decide
  obtain ⟨h8, h6, h7⟩ := hcode
  exact (errorCompletion_refusedWith e s).completedWithError h8 h6 h7 r

/-- A quadtree job fails only by its depth (43_quadtree.md R174). -/
theorem refQt_completedWithError {s : State} (herr : (refQt s).err ≠ 0) :
    CompletedWithError (imageRegion s) s (refQt s) := by
  unfold refQt at herr ⊢
  split at herr
  · next off t _ => exact absurd (complete_doneWith ..).err_eq herr
  · exact (runtimeError_failedWith .qtDepth _ s).completedWithError (.inr rfl) (runtimeError_drawnRegion .qtDepth _ s)

/-- An LZ77 job past validation fails only by its capacity (44_lz77.md R210). -/
theorem lz77_completedWithError {ctab mirror : Bool} {s t : State} (hv : validate (.lz77 ctab) s = none)
    (ht : exec (if ctab then .lz77Ct mirror else .lz77 mirror) s = .next t) (herr : t.err ≠ 0) :
    CompletedWithError (dstRegion s) s t := by
  obtain ⟨u, hu, hfits, hover⟩ := lz77JobIsGroupDecoding s ctab mirror hv
  cases hu.symm.trans ht
  rcases Nat.lt_or_ge s.dstLen.toNat (lz77Expand (lz77Remap ctab s) (srcBytes s)).1.length with h | h
  · obtain ⟨hfail, hdrawn⟩ := hover h
    exact hfail.completedWithError (.inl rfl) hdrawn
  · obtain ⟨-, hdone, -⟩ := hfits h
    exact absurd hdone.err_eq herr

/-- A job past validation that reports an error has failed at run time: RLE, LZW, NMERGE, XPOSE and SAMPLE never do. -/
theorem exec_validated_completedWithError {i : Instr} {k : JobKind} (hi : jobKind i = some k) {s t : State}
    (hmem : s.memoryOk) (hv : validate k s = none) (ht : exec i s = .next t) (herr : t.err ≠ 0) :
    CompletedWithError (writeRegion k s) s t := by
  cases i <;> simp only [jobKind, Option.some.injEq, reduceCtorEq] at hi <;> subst hi
  case rle ctab mirror =>
    obtain ⟨u, hu, -, hdone, -⟩ := rleJobPadsOrTruncates s ctab mirror hv
    cases hu.symm.trans ht
    exact absurd hdone.err_eq herr
  case lzw ctab mirror =>
    obtain ⟨u, hu, -, hdone, -⟩ := lzwJobPadsOrTruncates s ctab mirror hv
    cases hu.symm.trans ht
    exact absurd hdone.err_eq herr
  case qt ctab mirror =>
    obtain ⟨-, hjob⟩ := qtJobIsRecursion
    cases (hjob s ctab mirror hmem hv).symm.trans ht
    exact refQt_completedWithError herr
  case lz77 mirror => exact lz77_completedWithError (ctab := false) hv ht herr
  case lz77Ct mirror => exact lz77_completedWithError (ctab := true) hv ht herr
  case nmerge ctab mirror =>
    cases (exec_nmerge_eq hv ctab mirror).symm.trans ht
    exact absurd (filledOutput_doneWith ..).err_eq herr
  case xpose ctab mirror =>
    cases (exec_xpose_eq hv ctab mirror).symm.trans ht
    exact absurd (filledOutput_doneWith ..).err_eq herr
  case sample ctab =>
    cases (exec_sample_eq hv ctab false).symm.trans ht
    exact absurd (complete_doneWith ..).err_eq herr
  case sampleMir ctab =>
    cases (exec_sample_eq hv ctab true).symm.trans ht
    exact absurd (complete_doneWith ..).err_eq herr

/-- The whole job step of any command that reports an error. -/
theorem exec_completedWithError {s t : State} (hmem : s.memoryOk) (ht : exec (decodeCommand s.cmd) s = .next t)
    (herr : t.err ≠ 0) : CompletedWithError (currentWrites s) s t := by
  cases hk : currentJob s with
  | none =>
    cases (exec_reserved hk).symm.trans ht
    exact errorCompletion_completedWithError (by decide) _ s
  | some k =>
    rw [currentWrites_of_job hk]
    cases hv : validate k s with
    | some e =>
      cases (exec_validationError hk hv).symm.trans ht
      exact errorCompletion_completedWithError (validate_ne_runtimeError hv) _ s
    | none => exact exec_validated_completedWithError hk hmem hv ht herr

/-- Settles O25: validation's error is the answer (`exec_validationError`), and any error reported is an error
completion (`exec_completedWithError`). -/
theorem errorCompletion_obligation : Obligations.ErrorCompletion := by
  unfold Obligations.ErrorCompletion
  intro s ⟨_, hmem, _, _⟩ hb hc
  rw [engineTurn_jobStart hb hc]
  exact ⟨fun k e hk he => ⟨_, exec_validationError hk he, errorCompletion_refusedWith e s⟩,
    fun t ht herr => exec_completedWithError hmem ht herr⟩

end Sys2Proof.Machine
end

section
/-! PROOF. Reset (10_state.md R49, 70_reset_and_hazards.md R300, R301), and the job that a CMD write right after it runs
(R303). -/

namespace Sys2Proof.Machine

/-! ### What a reset leaves -/

theorem resetBlock_turns (s : State) : (resetBlock s).turns = s.turns := by
  unfold resetBlock
  split <;> simp

theorem resetBlock_reads (s : State) : (resetBlock s).reads = s.reads := by
  unfold resetBlock
  split <;> simp

/-- 10_state.md R49: every register and every reserved offset reads 0. -/
theorem readRegister_resetBlock (off : Nat) (s : State) : readRegister off (resetBlock s) = 0 := by
  simp [readRegister, resetBlock]

/-- 70_reset_and_hazards.md R301: a job in progress is abandoned, its write region drawn. -/
theorem resetBlock_drawnRegion {s : State} (hb : s.busy = true) :
    drawnRegion ((currentWrites s).clip s.cfg) s (resetBlock s) := by
  have hmem : (resetBlock s).mem = (drawRegion ((currentWrites s).clip s.cfg) s).mem := by simp [resetBlock, hb]
  simp only [drawnRegion, keepsMemoryOutside, memRead, hmem]
  exact drawRegion_drawnRegion _ s

/-- Settles O8, from what `resetBlock` leaves in the registers and in memory. -/
theorem resetSetsEveryRegister : Obligations.ResetSetsEveryRegister := by
  unfold Obligations.ResetSetsEveryRegister
  intro s rest h
  have hstep : step s = .next (resetBlock { s with turns := rest }) := by simp only [step, takeTurn, h]
  obtain ⟨hidle, -⟩ := resetBlock_mem { s with turns := rest }
  exact ⟨_, hstep, fun off => readRegister_resetBlock off _, BitVec.getLsbD_zero, BitVec.getLsbD_zero, rfl,
    resetBlock_turns _, resetBlock_cfg _, resetBlock_reads _, hidle,
    resetBlock_drawnRegion (s := { s with turns := rest })⟩

/-! ### A job whose operands are all 0 -/

/-- The operands of a job are as a reset leaves them: every length 0, an image of no pixel, the colour table at
address 0. -/
structure NoOperands (s : State) : Prop where
  srcLen : s.srcLen = 0
  dstLen : s.dstLen = 0
  auxBase : s.auxBase = 0
  auxLen : s.auxLen = 0
  dim : s.dim = 0

theorem noOperands_firstJob (v : Word) (s : State) : NoOperands (startJob v (resetBlock s)) :=
  ⟨rfl, rfl, rfl, rfl, rfl⟩

/-- A job that decodes a stream and stops at its first look. -/
theorem streamJob_stopsAtOnce {k : JobKind} {start : State → State} (fuel : State → Nat) {c : Codec} {s : State}
    (hv : validate k s = none) (hc : (start s).codec = some c) (hf : fetch c (start s) = .finish false) :
    validated k (fun s => runTokens (fuel s + 1) (start s)) s = .next (finish false c (start s)) :=
  (validated_eq_run hv _).trans (runTokens_finish hc hf)

section
variable {s : State} (h : NoOperands s)
include h

theorem NoOperands.width : s.width = 0 := by simp [State.width, h.dim]

theorem NoOperands.height : s.height = 0 := by simp [State.height, h.dim]

theorem NoOperands.writeRegion_len (k : JobKind) : (writeRegion k s).len = 0 := by
  cases k <;> simp [writeRegion, dstRegion, imageRegion, h.dstLen, h.width]

/-- Every read region is empty but the colour table, which has a fixed length (20_memory.md R69). -/
theorem NoOperands.readRegion_len {k : JobKind} {r : Region} (hr : r ∈ readRegions k s) :
    r.len = 0 ∨ k = .lz77 true ∧ r = ⟨0, 64⟩ := by
  have hsrc : (srcRegion s).len = 0 := by simp [srcRegion, h.srcLen]
  cases k with
  | rle | lzw | qt | xpose =>
    cases List.mem_singleton.1 hr
    exact .inl hsrc
  | lz77 ctab =>
    cases ctab with
    | false =>
      cases List.mem_singleton.1 hr
      exact .inl hsrc
    | true =>
      rcases List.mem_pair.1 hr with rfl | rfl
      · exact .inl hsrc
      · exact .inr ⟨rfl, by simp [ctabRegion, h.auxBase, lz77CtabLimit]⟩
  | nmerge =>
    rcases List.mem_pair.1 hr with rfl | rfl
    · exact .inl hsrc
    · exact .inl (by simp [h.auxLen])
  | sample =>
    cases List.mem_singleton.1 hr
    exact .inl (by simp [h.width])

/-- The colour table alone can be out of range, in a memory of less than 64 bytes (log 25). -/
theorem NoOperands.outOfRange_iff (k : JobKind) : OutOfRange k s ↔ k = .lz77 true ∧ s.cfg.memBytes < 64 := by
  constructor
  · rintro ⟨r, hr, hlen, hbig⟩
    rcases List.mem_cons.1 hr with rfl | hr
    · exact absurd (h.writeRegion_len k) hlen
    · obtain ⟨hk, rfl⟩ := (h.readRegion_len hr).resolve_left hlen
      exact ⟨hk, by simpa [Config.memBytes] using hbig⟩
  · rintro ⟨rfl, hsmall⟩
    refine ⟨ctabRegion s, by simp [readRegions], by simp [ctabRegion, lz77CtabLimit], ?_⟩
    simpa [ctabRegion, h.auxBase, lz77CtabLimit, Config.memBytes] using hsmall

theorem NoOperands.not_sharesAddress (k : JobKind) : ¬SharesAddress k s := by
  rintro ⟨_, -, a, hwrite, -⟩
  rw [Region.has_iff, h.writeRegion_len] at hwrite
  omega

theorem NoOperands.validate_none {k : JobKind} (hsample : k ≠ .sample) (hlz77 : ¬IsLz77 k) : validate k s = none := by
  obtain ⟨-, -, -, -, -, hnone⟩ := validate_iff k s
  refine hnone.2 ⟨fun hr => ?_, h.not_sharesAddress k, fun hc => hsample hc.1,
    fun hh => hlz77 hh.1, fun ht => hlz77 ht.1⟩
  exact hlz77 (.inr ((h.outOfRange_iff k).1 hr).1)

theorem NoOperands.validate_hdr {ctab : Bool} (hrange : ctab = false ∨ 64 ≤ s.cfg.memBytes) :
    validate (.lz77 ctab) s = some .hdr := by
  obtain ⟨-, -, -, hhdr, -⟩ := validate_iff (.lz77 ctab) s
  refine hhdr.2 ⟨?_, h.not_sharesAddress _, isLz77_lz77 ctab, by simp [h.srcLen]⟩
  rw [h.outOfRange_iff]
  rintro ⟨hk, hsmall⟩
  cases hk
  exact hrange.elim (by decide) (by omega)

theorem NoOperands.validate_range (hsmall : s.cfg.memBytes < 64) : validate (.lz77 true) s = some .range :=
  validate_outOfRange ((h.outOfRange_iff _).2 ⟨rfl, hsmall⟩)

/-- No column lies in an image of width 0. -/
theorem NoOperands.validate_coord : validate .sample s = some .coord := by
  obtain ⟨-, -, hcoord, -⟩ := validate_iff .sample s
  refine hcoord.2 ⟨?_, h.not_sharesAddress _, rfl, .inl (by rw [h.width]; exact Nat.zero_le _)⟩
  simp [h.outOfRange_iff]

/-- A job with nothing to read and nothing to write completes at once with RESULT 0. -/
theorem NoOperands.exec_eq {i : Instr} {k : JobKind} (hi : jobKind i = some k) (hsample : k ≠ .sample)
    (hlz77 : ¬IsLz77 k) : exec i s = .next (complete false false false 0 s) := by
  have hv := h.validate_none hsample hlz77
  cases i <;> simp only [jobKind, Option.some.injEq, reduceCtorEq] at hi <;> subst hi
  case rle =>
    have hf : fetch (.rle ⟨0, 0⟩) (openRle s) = .finish false := if_pos (by simp [openRle, h.dstLen])
    refine (streamJob_stopsAtOnce (fun s => s.srcLen.toNat) hv rfl hf).trans (congrArg _ ?_)
    simp [finish, finishRle, padZeros, writeEach, openRle, complete, h.dstLen]
  case lzw =>
    have hf : fetch (.lzw LzwState.start) (openLzw s) = .finish false :=
      if_pos (by simp [openLzw, LzwState.start, h.dstLen])
    refine (streamJob_stopsAtOnce (fun s => 8 * s.srcLen.toNat / 9) hv rfl hf).trans (congrArg _ ?_)
    simp [finish, finishLzw, padZeros, writeEach, openLzw, LzwState.start, complete, h.dstLen]
  case qt =>
    have hopen : openQt s = s.inQt ⟨0, none, []⟩ := by
      rw [openQt, qtEnter_empty ((Rect.isEmpty_iff _).2 (.inl h.width))]
      rfl
    refine (streamJob_stopsAtOnce (c := .qt ⟨0, none, []⟩) (fun s => 6 * (s.width * s.height) * s.cfg.qtMaxDepth) hv
      (by rw [hopen]; rfl) (by rw [hopen]; rfl)).trans (congrArg _ ?_)
    simp [finish, finishQt, hopen, complete, State.inQt]
  case nmerge ctab mirror =>
    rw [exec_nmerge_eq hv, h.dstLen]
    rfl
  case xpose ctab mirror =>
    rw [exec_xpose_eq hv, h.width, Nat.zero_mul]
    rfl
  case lz77 => exact absurd (isLz77_lz77 false) hlz77
  case lz77Ct => exact absurd (isLz77_lz77 true) hlz77
  case sample => exact absurd rfl hsample
  case sampleMir => exact absurd rfl hsample

end

/-! ### The first job -/

theorem currentJob_startJob (v : Word) (s : State) : currentJob (startJob v s) = jobKind (decodeCommand v) := by
  rw [currentJob, startJob_cmd, decodeCommand_cmdBits]

section
variable {v : Word}

/-- OP 1, 2, 3, 5, 6 (30_encoding.md R82): a job that is neither LZ77 nor SAMPLE. -/
theorem jobKind_decodeCommand_plain
    (hop : v.extractLsb' 0 4 = 1#4 ∨ v.extractLsb' 0 4 = 2#4 ∨ v.extractLsb' 0 4 = 3#4 ∨ v.extractLsb' 0 4 = 5#4 ∨
      v.extractLsb' 0 4 = 6#4) :
    ∃ k, jobKind (decodeCommand v) = some k ∧ k ≠ .sample ∧ ¬IsLz77 k := by
  rcases hop with e | e | e | e | e <;> simp [decodeCommand, e, jobKind, IsLz77]

theorem jobKind_decodeCommand_lz77 (hop : v.extractLsb' 0 4 = 4#4) :
    jobKind (decodeCommand v) = some (.lz77 (v.getLsbD 4)) := by
  simp only [decodeCommand, hop]
  cases v.getLsbD 4 <;> rfl

theorem jobKind_decodeCommand_sample (hop : v.extractLsb' 0 4 = 7#4) : jobKind (decodeCommand v) = some .sample := by
  simp only [decodeCommand, hop]
  cases v.getLsbD 5 <;> rfl

/-- OP 0 and 8 to 15 (60_exceptions.md R273). -/
theorem jobKind_decodeCommand_reserved (hop : v.extractLsb' 0 4 = 0#4 ∨ 8#4 ≤ v.extractLsb' 0 4) :
    jobKind (decodeCommand v) = none := by
  rcases hop with e | hle
  · simp [decodeCommand, e, jobKind]
  · have h8 : 8 ≤ (v.extractLsb' 0 4).toNat := hle
    unfold decodeCommand
    simp only
    iterate 8 rw [if_neg (by omega)]
    rfl

end

/-- R303 speaks of every OP. -/
theorem firstJob_ops (op : BitVec 4) :
    (op = 1#4 ∨ op = 2#4 ∨ op = 3#4 ∨ op = 5#4 ∨ op = 6#4) ∨ op = 4#4 ∨ op = 7#4 ∨ (op = 0#4 ∨ 8#4 ≤ op) := by
  revert op
  decide

/-- Settles O10: no operand is set (`NoOperands`), so a job completes at once or fails by what validation finds. -/
theorem firstJobAfterReset : Obligations.FirstJobAfterReset := by
  unfold Obligations.FirstJobAfterReset
  intro s v r op
  have h : NoOperands r := noOperands_firstJob v s
  have hbytes : r.cfg.memBytes = s.cfg.memBytes := congrArg Config.memBytes (resetBlock_cfg s)
  have hjob : currentJob r = jobKind (decodeCommand v) := currentJob_startJob v _
  obtain ⟨t, ht, -⟩ := jobStep_ends r
  have eq_of_answer {u : State} (hu : exec (decodeCommand r.cmd) r = .next u) : t = u :=
    Host.Outcome.next.inj (ht.symm.trans hu)
  have hdone (hop : op = 1#4 ∨ op = 2#4 ∨ op = 3#4 ∨ op = 5#4 ∨ op = 6#4) : t = complete false false false 0 r := by
    obtain ⟨k, hk, hsample, hlz77⟩ := jobKind_decodeCommand_plain hop
    exact eq_of_answer (h.exec_eq (hjob.trans hk) hsample hlz77)
  have herror {k : JobKind} {e : JobError} (hk : jobKind (decodeCommand v) = some k) (hv : validate k r = some e) :
      t = errorCompletion e r :=
    eq_of_answer (exec_validationError (hjob.trans hk) hv)
  have hhdr (hop : op = 4#4) (hroom : v.getLsbD 4 = false ∨ 64 ≤ s.cfg.memBytes) : t = errorCompletion .hdr r :=
    herror (jobKind_decodeCommand_lz77 hop) (h.validate_hdr (hbytes ▸ hroom))
  have hrange (hop : op = 4#4) (hctab : v.getLsbD 4 = true) (hsmall : s.cfg.memBytes < 64) :
      t = errorCompletion .range r :=
    herror (hctab ▸ jobKind_decodeCommand_lz77 hop) (h.validate_range (hbytes ▸ hsmall))
  have hcoord (hop : op = 7#4) : t = errorCompletion .coord r :=
    herror (jobKind_decodeCommand_sample hop) h.validate_coord
  have hbad (hop : op = 0#4 ∨ 8#4 ≤ op) : t = errorCompletion .badOp r :=
    eq_of_answer (exec_reserved (hjob.trans (jobKind_decodeCommand_reserved hop)))
  have hmem : t.mem = r.mem := by
    rcases firstJob_ops op with hop | hop | hop | hop
    · rw [hdone hop, complete_mem]
    · by_cases hroom : v.getLsbD 4 = false ∨ 64 ≤ s.cfg.memBytes
      · rw [hhdr hop hroom, errorCompletion_mem]
      · rw [not_or, Bool.not_eq_false, Nat.not_le] at hroom
        rw [hrange hop hroom.1 hroom.2, errorCompletion_mem]
    · rw [hcoord hop, errorCompletion_mem]
    · rw [hbad hop, errorCompletion_mem]
  refine ⟨t, (engineTurn_jobStart (busy_of_started rfl) rfl).trans ht, hmem, fun hop => ?_, fun ⟨hop, hroom⟩ => ?_,
    fun ⟨hop, hctab, hsmall⟩ => ?_, fun hop => ?_, fun hop => ?_⟩
  · rw [hdone hop]
    exact complete_doneWith ..
  · rw [hhdr hop hroom]
    exact errorCompletion_refusedWith .hdr r
  · rw [hrange hop hctab hsmall]
    exact errorCompletion_refusedWith .range r
  · rw [hcoord hop]
    exact errorCompletion_refusedWith .coord r
  · rw [hbad hop]
    exact errorCompletion_refusedWith .badOp r

end Sys2Proof.Machine
end
